-- ==== Sys2Proof/Word.lean ====
section
/-! DEFINITION. The word types of QNE-FP: bytes, the three register widths, and the six-byte Ethernet address. -/

namespace Sys2Proof

/-- A byte (00_scope.md section 6, `u8`). -/
abbrev Byte := BitVec 8

/-- `u16` of the spec's notation (00_scope.md section 6). -/
abbrev U16 := BitVec 16

/-- `u32` of the spec's notation (00_scope.md section 6). -/
abbrev U32 := BitVec 32

/-- `mac48`: six bytes, `b0` the first on the wire (R83, R110). -/
structure MacAddr where
  b0 : Byte
  b1 : Byte
  b2 : Byte
  b3 : Byte
  b4 : Byte
  b5 : Byte
  deriving DecidableEq, Repr

end Sys2Proof
end

