-- ==== Sys2Proof/Syntax.lean ====
section
/-! DEFINITION. The operation set QNE-CMD 1: the 23 commands (R111) and the 8 agent events (R129), one constructor per row of
spec/opcode_table.json, and the agent steps a schedule is written with. -/

namespace Sys2Proof

/-- One row of the opcode table, with its operands as R110, R114, R129 and R135 assemble them. -/
inductive Instr where
  | isUnknown
  | hasHardware
  | getSystemMac
  | getMac
  | setMac (mac : MacAddr)
  | init (mac : MacAddr)
  | deinit
  | getCapabilities
  | procInput (counter : U16)
  | poll
  | output (bytes : List Byte)
  | outputFrame (bytes : List Byte)
  | setIncomingMacAllowed (mac : MacAddr) (allow : Bool)
  | forceLinkUp
  | setLinkSettings (speed : U16) (fullDuplex autoneg crossover : Bool)
  | getLinkInfo
  | getStats
  | pipeInit (mac : MacAddr)
  | pipeProcInput
  | pipePollLink
  | pipeTxChain (bytes : List Byte)
  | pipeTxRaw (bytes : List Byte)
  | pipeAllowMac (mac : MacAddr) (allow : Bool)
  | wireRx (bytes : List Byte) (err : Byte)
  | dmaTx
  | isr
  | mdioDone
  | link (f : Byte)
  | chipSendDone
  | chipResetDone
  | ringFault (a : U16) (v : Byte)
  deriving DecidableEq, Repr

/-- A step of an agent other than the host (R2, R129), as a schedule names it. -/
inductive AgentStep where
  | wireRx (bytes : List Byte) (err : Byte)
  | dmaTx
  | isr
  | mdioDone
  | link (f : Byte)
  | chipSendDone
  | chipResetDone
  | ringFault (a : U16) (v : Byte)
  deriving DecidableEq, Repr

/-- Commands are issued by the host; events are steps of the other agents and "the host cannot issue them" (R129, R130). -/
def Instr.isEvent : Instr → Bool
  | .wireRx _ _ => true
  | .dmaTx => true
  | .isr => true
  | .mdioDone => true
  | .link _ => true
  | .chipSendDone => true
  | .chipResetDone => true
  | .ringFault _ _ => true
  | .isUnknown => false
  | .hasHardware => false
  | .getSystemMac => false
  | .getMac => false
  | .setMac _ => false
  | .init _ => false
  | .deinit => false
  | .getCapabilities => false
  | .procInput _ => false
  | .poll => false
  | .output _ => false
  | .outputFrame _ => false
  | .setIncomingMacAllowed _ _ => false
  | .forceLinkUp => false
  | .setLinkSettings _ _ _ _ => false
  | .getLinkInfo => false
  | .getStats => false
  | .pipeInit _ => false
  | .pipeProcInput => false
  | .pipePollLink => false
  | .pipeTxChain _ => false
  | .pipeTxRaw _ => false
  | .pipeAllowMac _ _ => false

end Sys2Proof
end

