-- ==== Sys2Proof/WellFormed.lean ====
section
/-! DEFINITION. Which instructions the encoding can carry: a byte string's length fits its 16-bit length operand (R110, R129). Every other
operand is legal at every value its type has (R114, R129). -/

namespace Sys2Proof

/-- A byte string's length fits the operand `n : u16` of formats FB and EV_WIRE_RX. -/
def lengthFits (bytes : List Byte) : Bool := decide (bytes.length ≤ 65535)

/-- Well-formedness of an instruction (R110, R114, R129). -/
def Instr.wellFormed : Instr → Bool
  | .output bytes => lengthFits bytes
  | .outputFrame bytes => lengthFits bytes
  | .pipeTxChain bytes => lengthFits bytes
  | .pipeTxRaw bytes => lengthFits bytes
  | .wireRx bytes _ => lengthFits bytes
  | .link _ => true
  | .isUnknown => true
  | .hasHardware => true
  | .getSystemMac => true
  | .getMac => true
  | .setMac _ => true
  | .init _ => true
  | .deinit => true
  | .getCapabilities => true
  | .procInput _ => true
  | .poll => true
  | .setIncomingMacAllowed _ _ => true
  | .forceLinkUp => true
  | .setLinkSettings _ _ _ _ => true
  | .getLinkInfo => true
  | .getStats => true
  | .pipeInit _ => true
  | .pipeProcInput => true
  | .pipePollLink => true
  | .pipeAllowMac _ _ => true
  | .dmaTx => true
  | .isr => true
  | .mdioDone => true
  | .chipSendDone => true
  | .chipResetDone => true
  | .ringFault _ _ => true

end Sys2Proof
end

