-- ==== Sys2Proof/Decode.lean ====
section
/-! DEFINITION. Decoding of command and event byte strings (R110, R111, R114, R129, R130), total on every byte string and rejecting by
name, and after it the encoder written from the same tables. -/

namespace Sys2Proof

/-- Why a byte string is no instruction (R130). Every one of them is answered REFUSED when the string stands in CMD_BUF. -/
inductive DecodeError where
  /-- CMD_BUF empty (R130 row 1). -/
  | empty
  /-- The first byte is neither an opcode of R111 nor an event code of R129. -/
  | reservedOpcode (op : Byte)
  /-- The length is not the one the format gives (R110). -/
  | wrongLength (op : Byte)
  /-- The `allow` byte is neither 0x00 nor 0x01 (R114). -/
  | badAllow (a : Byte)
  /-- Bits 7:3 of the link flags operand are not all zero (R114, R135). -/
  | badLinkFlags (f : Byte)
  /-- An event code in CMD_BUF (R130: "opcode byte with bit 7 set"). -/
  | eventInCommand (op : Byte)
  /-- A command opcode where an event is due (R129: events are a space of their own). -/
  | commandInEvent (op : Byte)
  deriving DecidableEq, Repr

/-- `be16` of two bytes (00_scope.md section 6): the first is the more significant. -/
def join16 (hi lo : Byte) : U16 := hi ++ lo

/-- Bits 15:8 of a `u16`. -/
def hi8 (v : U16) : Byte := v.extractLsb' 8 8

/-- Bits 7:0 of a `u16`. -/
def lo8 (v : U16) : Byte := v.extractLsb' 0 8

/-- Format F0: no operand bytes (R110). -/
def decodeF0 (op : Byte) (i : Instr) (rest : List Byte) : Except DecodeError Instr :=
  match rest with
  | [] => .ok i
  | _ :: _ => .error (.wrongLength op)

/-- Format FM: six address bytes, the first wire byte first (R110). -/
def decodeFM (op : Byte) (mk : MacAddr → Instr) (rest : List Byte) : Except DecodeError Instr :=
  match rest with
  | [m0, m1, m2, m3, m4, m5] => .ok (mk ⟨m0, m1, m2, m3, m4, m5⟩)
  | _ => .error (.wrongLength op)

/-- Format FMA: six address bytes and the `allow` byte, 0x00 or 0x01 (R110, R114). -/
def decodeFMA (op : Byte) (mk : MacAddr → Bool → Instr) (rest : List Byte) : Except DecodeError Instr :=
  match rest with
  | [m0, m1, m2, m3, m4, m5, a] =>
    if a = 0x00 then .ok (mk ⟨m0, m1, m2, m3, m4, m5⟩ false)
    else if a = 0x01 then .ok (mk ⟨m0, m1, m2, m3, m4, m5⟩ true)
    else .error (.badAllow a)
  | _ => .error (.wrongLength op)

/-- Format FC: a big-endian `u16` counter (R110). -/
def decodeFC (op : Byte) (mk : U16 → Instr) (rest : List Byte) : Except DecodeError Instr :=
  match rest with
  | [c1, c0] => .ok (mk (join16 c1 c0))
  | _ => .error (.wrongLength op)

/-- Format FB: a big-endian length `n` and exactly `n` bytes (R110, R114). -/
def decodeFB (op : Byte) (mk : List Byte → Instr) (rest : List Byte) : Except DecodeError Instr :=
  match rest with
  | n1 :: n0 :: d => if d.length = (join16 n1 n0).toNat then .ok (mk d) else .error (.wrongLength op)
  | _ => .error (.wrongLength op)

/-- Format FL: a big-endian speed and the link flags byte with bits 7:3 zero (R110, R114, R135). -/
def decodeFL (op : Byte) (rest : List Byte) : Except DecodeError Instr :=
  match rest with
  | [s1, s0, f] =>
    if f &&& 0xF8 = 0 then
      .ok (.setLinkSettings (join16 s1 s0) (f.getLsbD 0) (f.getLsbD 1) (f.getLsbD 2))
    else .error (.badLinkFlags f)
  | _ => .error (.wrongLength op)

/-- !WIRE_RX: a big-endian length `n`, `n` frame bytes, the error byte (R129). -/
def decodeWireRx (op : Byte) (rest : List Byte) : Except DecodeError Instr :=
  match rest with
  | n1 :: n0 :: d =>
    match d.drop (join16 n1 n0).toNat with
    | [e] => .ok (.wireRx (d.take (join16 n1 n0).toNat) e)
    | _ => .error (.wrongLength op)
  | _ => .error (.wrongLength op)

/-- !LINK: one flag byte at any value (R129): the agent's step reads bits 4:0 (R216) or 2:0 (R272). That bits 7:5 are carried along and
ignored is a DESIGN CHOICE (assumption log 18). -/
def decodeLink (op : Byte) (rest : List Byte) : Except DecodeError Instr :=
  match rest with
  | [f] => .ok (.link f)
  | _ => .error (.wrongLength op)

/-- !RING_FAULT: a big-endian ring address and the byte stored there (R129). -/
def decodeRingFault (op : Byte) (rest : List Byte) : Except DecodeError Instr :=
  match rest with
  | [a1, a0, v] => .ok (.ringFault (join16 a1 a0) v)
  | _ => .error (.wrongLength op)

/-- The opcode map (R111) and the event codes (R129). -/
def decode : List Byte → Except DecodeError Instr
  | [] => .error .empty
  | op :: rest =>
    match op.toNat with
    | 0x01 => decodeF0 op .isUnknown rest
    | 0x02 => decodeF0 op .hasHardware rest
    | 0x03 => decodeF0 op .getSystemMac rest
    | 0x04 => decodeF0 op .getMac rest
    | 0x05 => decodeFM op .setMac rest
    | 0x06 => decodeFM op .init rest
    | 0x07 => decodeF0 op .deinit rest
    | 0x08 => decodeF0 op .getCapabilities rest
    | 0x09 => decodeFC op .procInput rest
    | 0x0A => decodeF0 op .poll rest
    | 0x0B => decodeFB op .output rest
    | 0x0C => decodeFB op .outputFrame rest
    | 0x0D => decodeFMA op .setIncomingMacAllowed rest
    | 0x0E => decodeF0 op .forceLinkUp rest
    | 0x0F => decodeFL op rest
    | 0x10 => decodeF0 op .getLinkInfo rest
    | 0x11 => decodeF0 op .getStats rest
    | 0x20 => decodeFM op .pipeInit rest
    | 0x21 => decodeF0 op .pipeProcInput rest
    | 0x22 => decodeF0 op .pipePollLink rest
    | 0x23 => decodeFB op .pipeTxChain rest
    | 0x24 => decodeFB op .pipeTxRaw rest
    | 0x25 => decodeFMA op .pipeAllowMac rest
    | 0x80 => decodeWireRx op rest
    | 0x81 => decodeF0 op .dmaTx rest
    | 0x82 => decodeF0 op .isr rest
    | 0x83 => decodeF0 op .mdioDone rest
    | 0x84 => decodeLink op rest
    | 0x85 => decodeF0 op .chipSendDone rest
    | 0x86 => decodeF0 op .chipResetDone rest
    | 0x87 => decodeRingFault op rest
    | _ => .error (.reservedOpcode op)

/-- What CMD_BUF holds, as a host command: an event code there is refused (R130). -/
def decodeCommand (bs : List Byte) : Except DecodeError Instr :=
  match decode bs with
  | .ok i => if i.isEvent then .error (.eventInCommand (bs.headD 0)) else .ok i
  | .error e => .error e

/-- What the environment offers, as an event (R129). -/
def decodeEvent (bs : List Byte) : Except DecodeError Instr :=
  match decode bs with
  | .ok i => if i.isEvent then .ok i else .error (.commandInEvent (bs.headD 0))
  | .error e => .error e

/-- A decoder tells a command's length from byte 0, and for format FB (and !WIRE_RX) from bytes 1 and 2 (R110, R129, R130). A byte
that is missing counts as zero; a reserved first byte has length one. -/
def byteLength (bs : List Byte) : Nat :=
  let n := (join16 (bs.getD 1 0) (bs.getD 2 0)).toNat
  match (bs.getD 0 0).toNat with
  | 0x05 => 7
  | 0x06 => 7
  | 0x09 => 3
  | 0x0B => 3 + n
  | 0x0C => 3 + n
  | 0x0D => 8
  | 0x0F => 4
  | 0x20 => 7
  | 0x23 => 3 + n
  | 0x24 => 3 + n
  | 0x25 => 8
  | 0x80 => 4 + n
  | 0x84 => 2
  | 0x87 => 4
  | _ => 1

/-- The low `k` bytes of `w`, least significant first: spec/opcode_table.json numbers bit 0 as the least significant bit of the first
byte. -/
def bytesOfTableWord : Nat → Nat → List Byte
  | 0, _ => []
  | k + 1, w => BitVec.ofNat 8 w :: bytesOfTableWord k (w / 256)

/-- The instruction bytes of a table word: its own bytes, then zero operand bytes up to the length its first bytes announce. -/
def tableBytes (nbits w : Nat) : List Byte :=
  let bs := bytesOfTableWord ((nbits + 7) / 8) w
  bs ++ List.replicate (byteLength bs - bs.length) 0

/-- The instruction the decoder reads from an opcode-table word. -/
def decodeTableWord (nbits w : Nat) : Option Instr :=
  match decode (tableBytes nbits w) with
  | .ok i => some i
  | .error _ => none

/-! ## The encoder -/

/-- The six bytes of an address, the first wire byte first (R110). -/
def macBytes (m : MacAddr) : List Byte := [m.b0, m.b1, m.b2, m.b3, m.b4, m.b5]

/-- `put_be16` (00_scope.md section 6). -/
def putBe16 (v : U16) : List Byte := [hi8 v, lo8 v]

/-- `n` and the bytes of format FB (R110). -/
def lengthPrefixed (bytes : List Byte) : List Byte := putBe16 (BitVec.ofNat 16 bytes.length) ++ bytes

/-- The `allow` byte (R114). -/
def allowByte (allow : Bool) : Byte := if allow then 0x01 else 0x00

/-- The three booleans of the link flags byte (R135), bits 7:3 zero. -/
def linkFlagBits (fullDuplex autoneg crossover : Bool) : Byte :=
  (if fullDuplex then 0x01#8 else 0) ||| (if autoneg then 0x02#8 else 0) ||| (if crossover then 0x04#8 else 0)

/-- The bytes of an instruction (R110, R111, R129). -/
def encode : Instr → List Byte
  | .isUnknown => [0x01]
  | .hasHardware => [0x02]
  | .getSystemMac => [0x03]
  | .getMac => [0x04]
  | .setMac m => 0x05 :: macBytes m
  | .init m => 0x06 :: macBytes m
  | .deinit => [0x07]
  | .getCapabilities => [0x08]
  | .procInput c => 0x09 :: putBe16 c
  | .poll => [0x0A]
  | .output bytes => 0x0B :: lengthPrefixed bytes
  | .outputFrame bytes => 0x0C :: lengthPrefixed bytes
  | .setIncomingMacAllowed m a => 0x0D :: (macBytes m ++ [allowByte a])
  | .forceLinkUp => [0x0E]
  | .setLinkSettings sp d n x => 0x0F :: (putBe16 sp ++ [linkFlagBits d n x])
  | .getLinkInfo => [0x10]
  | .getStats => [0x11]
  | .pipeInit m => 0x20 :: macBytes m
  | .pipeProcInput => [0x21]
  | .pipePollLink => [0x22]
  | .pipeTxChain bytes => 0x23 :: lengthPrefixed bytes
  | .pipeTxRaw bytes => 0x24 :: lengthPrefixed bytes
  | .pipeAllowMac m a => 0x25 :: (macBytes m ++ [allowByte a])
  | .wireRx bytes e => 0x80 :: (lengthPrefixed bytes ++ [e])
  | .dmaTx => [0x81]
  | .isr => [0x82]
  | .mdioDone => [0x83]
  | .link f => [0x84, f]
  | .chipSendDone => [0x85]
  | .chipResetDone => [0x86]
  | .ringFault a v => 0x87 :: (putBe16 a ++ [v])

/-! ## Textual syntax (R132) -/

/-- The mnemonic of an instruction (R111, R129). -/
def Instr.mnemonic : Instr → String
  | .isUnknown => "IS_UNKNOWN"
  | .hasHardware => "HAS_HARDWARE"
  | .getSystemMac => "GET_SYSTEM_MAC"
  | .getMac => "GET_MAC"
  | .setMac _ => "SET_MAC"
  | .init _ => "INIT"
  | .deinit => "DEINIT"
  | .getCapabilities => "GET_CAPABILITIES"
  | .procInput _ => "PROC_INPUT"
  | .poll => "POLL"
  | .output _ => "OUTPUT"
  | .outputFrame _ => "OUTPUT_FRAME"
  | .setIncomingMacAllowed _ _ => "SET_INCOMING_MAC_ALLOWED"
  | .forceLinkUp => "FORCE_LINK_UP"
  | .setLinkSettings _ _ _ _ => "SET_LINK_SETTINGS"
  | .getLinkInfo => "GET_LINK_INFO"
  | .getStats => "GET_STATS"
  | .pipeInit _ => "PIPE_INIT"
  | .pipeProcInput => "PIPE_PROC_INPUT"
  | .pipePollLink => "PIPE_POLL_LINK"
  | .pipeTxChain _ => "PIPE_TX_CHAIN"
  | .pipeTxRaw _ => "PIPE_TX_RAW"
  | .pipeAllowMac _ _ => "PIPE_ALLOW_MAC"
  | .wireRx _ _ => "!WIRE_RX"
  | .dmaTx => "!DMA_TX"
  | .isr => "!ISR"
  | .mdioDone => "!MDIO_DONE"
  | .link _ => "!LINK"
  | .chipSendDone => "!CHIP_SEND_DONE"
  | .chipResetDone => "!CHIP_RESET_DONE"
  | .ringFault _ _ => "!RING_FAULT"

/-- A hexadecimal digit. -/
def hexDigit (n : Nat) : Char := if n < 10 then Char.ofNat (0x30 + n) else Char.ofNat (0x37 + n)

/-- A byte as two hexadecimal digits (R132). -/
def hexByte (b : Byte) : String := String.ofList [hexDigit (b.toNat / 16), hexDigit (b.toNat % 16)]

/-- A byte string: two-digit hexadecimal bytes separated by spaces (R132). -/
def bytesText (bs : List Byte) : String := String.intercalate " " (bs.map hexByte)

/-- A `mac48`: six two-digit hexadecimal bytes joined by colons (R132). -/
def macText (m : MacAddr) : String := String.intercalate ":" ((macBytes m).map hexByte)

/-- A `u16` in hexadecimal (R132). -/
def wordText (v : U16) : String := "0x" ++ hexByte (hi8 v) ++ hexByte (lo8 v)

/-- The names of the flags that are set, each after a space. -/
def flagNames (l : List (Bool × String)) : String := String.join (l.map fun p => if p.1 then " " ++ p.2 else "")

/-- The operands of an instruction, each after a space; a byte string's length is not written (R132). -/
def Instr.operandText : Instr → String
  | .isUnknown => ""
  | .hasHardware => ""
  | .getSystemMac => ""
  | .getMac => ""
  | .setMac m => " " ++ macText m
  | .init m => " " ++ macText m
  | .deinit => ""
  | .getCapabilities => ""
  | .procInput c => " " ++ wordText c
  | .poll => ""
  | .output bytes => " " ++ bytesText bytes
  | .outputFrame bytes => " " ++ bytesText bytes
  | .setIncomingMacAllowed m a => " " ++ macText m ++ (if a then " 1" else " 0")
  | .forceLinkUp => ""
  | .setLinkSettings sp d n x => " " ++ wordText sp ++ flagNames [(d, "full"), (n, "autoneg"), (x, "crossover")]
  | .getLinkInfo => ""
  | .getStats => ""
  | .pipeInit m => " " ++ macText m
  | .pipeProcInput => ""
  | .pipePollLink => ""
  | .pipeTxChain bytes => " " ++ bytesText bytes
  | .pipeTxRaw bytes => " " ++ bytesText bytes
  | .pipeAllowMac m a => " " ++ macText m ++ (if a then " 1" else " 0")
  | .wireRx bytes e => " " ++ bytesText bytes ++ " err=0x" ++ hexByte e
  | .dmaTx => ""
  | .isr => ""
  | .mdioDone => ""
  | .link f => flagNames [(f.getLsbD 0, "up"), (f.getLsbD 1, "fast"), (f.getLsbD 2, "full"), (f.getLsbD 3, "an"), (f.getLsbD 4, "mdix")]
  | .chipSendDone => ""
  | .chipResetDone => ""
  | .ringFault a v => " " ++ wordText a ++ " 0x" ++ hexByte v

/-- One line of a program or trace: the mnemonic in capitals, then the operands (R132). -/
def Instr.text (i : Instr) : String := i.mnemonic ++ i.operandText

end Sys2Proof
end

