-- ==== Sys2Proof/Config.lean ====
section
/-! DEFINITION. The build and launch parameters of QNE-FP (00_scope.md section 4) as one plain record, the constraints the spec puts
on them, the reference configuration RefCfg, and the free values: constants with no body that stand for what the spec leaves to the
environment (00_scope.md section 6, "Draws"; 93_implementation_defined.md U4, U5). -/

namespace Sys2Proof

/-- BACKEND (R1): exactly one backend exists in a build. -/
inductive Backend where
  | dma
  | spi
  deriving DecidableEq, Repr

/-- The nine capability booleans, in the order of R22 (field i is bit i of the nine-bit encoding). -/
structure Caps where
  macSettable : Bool
  linkStateDetectable : Bool
  linkSpeedDetectable : Bool
  linkSpeedSettable : Bool
  duplexDetectable : Bool
  duplexSettable : Bool
  crossoverDetectable : Bool
  autonegRestartable : Bool
  phyResettable : Bool
  deriving DecidableEq, Repr

/-- The default of R22: all false (92_eei_decisions.md D5). -/
def Caps.none : Caps := ⟨false, false, false, false, false, false, false, false, false⟩

/-- FILTER_HASH (R131, 00_scope.md section 4.3) is a parameter: the reference CRC-32, or any other total function, which is then an
uninterpreted constant (`Config.otherHash k`). -/
inductive FilterHash where
  | reference
  | other (k : Nat)
  deriving DecidableEq, Repr

/-- Every parameter of 00_scope.md section 4: build selection (4.1), sizes and bounds (4.2), identity and tuning (4.3), and the launch
parameters (4.4). A value of this type is fixed for a run; it stands in State so that one model covers every build. -/
structure Config where
  backend : Backend
  promiscuous : Bool
  spiIntWired : Bool
  nRx : Nat
  nTx : Nat
  bufSize : Nat
  maxFl : Nat
  minLenUntagged : Nat
  minLenTagged : Nat
  maxLenUntagged : Nat
  maxLenTagged : Nat
  rxLoopCap : Nat
  spiTxWaitBound : Nat
  mdioPollBound : Nat
  spiResetPollBound : Nat
  spiStableReadBound : Nat
  sockPollBound : Nat
  rxbufKb : Nat
  txbufKb : Nat
  ibufCap : Nat
  recMinLen : Nat
  stackPad : Nat
  systemMac : MacAddr
  phyAddr : BitVec 5
  phyIdExpect : U32
  phyIdMask : U32
  phyTuning : List (U16 × U16)
  csumFlags : U32
  chipVersionExpect : Byte
  patternA : U16
  patternB : U16
  capsDma : Caps
  capsSpi : Caps
  filterHash : FilterHash
  tResetPulse : Nat
  tResetSettle : Nat
  tSoftReset : Nat
  phyPresent : Bool
  phyId : U32
  chipPresent : Bool
  chipVersion : Byte
  floatByte : Byte
  macBase : U32
  rxRingBase : U32
  txRingBase : U32
  rxBufBase : U32
  txBufBase : U32
  deriving DecidableEq, Repr

/-- The legal socket buffer sizes in KiB (00_scope.md section 4.2, R67). -/
def legalBufKb (k : Nat) : Bool := k == 1 || k == 2 || k == 4 || k == 8 || k == 16

/-- Two half-open address ranges do not meet. -/
def disjointRanges (a m b n : Nat) : Bool := a + m ≤ b || b + n ≤ a

/-- The constraints of 00_scope.md sections 4.2 and 4.4 with those of R43, R81, R84, R190, R242, R244 and R281. Lengths are kept below
2^16, the width of the LEN field (R115) and of the `n` operand (R110). -/
def Config.wf (c : Config) : Bool :=
  decide (1 ≤ c.nRx) && decide (1 ≤ c.nTx)
  && decide (c.bufSize % 64 = 0) && decide (c.maxLenTagged ≤ c.bufSize) && decide (c.bufSize < 16384)
  && decide (c.maxFl = c.maxLenTagged + 4)
  && decide (14 ≤ c.minLenUntagged) && decide (18 ≤ c.minLenTagged)
  && decide (c.maxLenUntagged ≤ c.maxLenTagged)
  && decide (1 ≤ c.rxLoopCap) && decide (c.rxLoopCap ≤ 65535)
  && decide (1 ≤ c.spiTxWaitBound) && decide (1 ≤ c.mdioPollBound) && decide (1 ≤ c.spiResetPollBound)
  && decide (1 ≤ c.spiStableReadBound) && decide (1 ≤ c.sockPollBound)
  && legalBufKb c.rxbufKb && legalBufKb c.txbufKb
  && decide (c.rxbufKb * 1024 ≤ c.ibufCap) && decide (c.maxLenTagged ≤ c.txbufKb * 1024)
  && decide (2 ≤ c.recMinLen)
  && decide (0xFFFFFFFF#32 &&& c.phyIdMask ≠ c.phyIdExpect &&& c.phyIdMask)
  && decide (c.patternA ≠ c.patternB)
  && decide (c.rxRingBase.toNat % 8 = 0) && decide (c.txRingBase.toNat % 8 = 0)
  && decide (c.rxBufBase.toNat % 64 = 0) && decide (c.txBufBase.toNat % 64 = 0)
  && decide (c.rxRingBase.toNat + 8 * c.nRx ≤ 2 ^ 32) && decide (c.txRingBase.toNat + 8 * c.nTx ≤ 2 ^ 32)
  && decide (c.rxBufBase.toNat + c.nRx * c.bufSize ≤ 2 ^ 32) && decide (c.txBufBase.toNat + c.nTx * c.bufSize ≤ 2 ^ 32)
  && disjointRanges c.rxRingBase.toNat (8 * c.nRx) c.txRingBase.toNat (8 * c.nTx)
  && disjointRanges c.rxRingBase.toNat (8 * c.nRx) c.rxBufBase.toNat (c.nRx * c.bufSize)
  && disjointRanges c.rxRingBase.toNat (8 * c.nRx) c.txBufBase.toNat (c.nTx * c.bufSize)
  && disjointRanges c.txRingBase.toNat (8 * c.nTx) c.rxBufBase.toNat (c.nRx * c.bufSize)
  && disjointRanges c.txRingBase.toNat (8 * c.nTx) c.txBufBase.toNat (c.nTx * c.bufSize)
  && disjointRanges c.rxBufBase.toNat (c.nRx * c.bufSize) c.txBufBase.toNat (c.nTx * c.bufSize)
  && disjointRanges c.macBase.toNat 64 c.rxRingBase.toNat (8 * c.nRx)
  && disjointRanges c.macBase.toNat 64 c.txRingBase.toNat (8 * c.nTx)
  && disjointRanges c.macBase.toNat 64 c.rxBufBase.toNat (c.nRx * c.bufSize)
  && disjointRanges c.macBase.toNat 64 c.txBufBase.toNat (c.nTx * c.bufSize)

/-- CAPS_DMA of RefCfg: 0x057 (R158). -/
def Caps.refDma : Caps := ⟨true, true, true, false, true, false, true, false, false⟩

/-- CAPS_SPI of RefCfg: 0x017 (R158). -/
def Caps.refSpi : Caps := ⟨true, true, true, false, true, false, false, false, false⟩

/-- RefCfg (00_scope.md sections 4.1 to 4.3) on the DMA build, with the launch values of 95_test_vectors.md section 0. The source gives
none of these numbers; the spec uses them for its vectors only (92_eei_decisions.md D50), and this model for State.reset and its tests
only: DESIGN CHOICE, unsafe for a claim about the reset state (assumption log 1). -/
def Config.ref : Config where
  backend := .dma
  promiscuous := false
  spiIntWired := true
  nRx := 4
  nTx := 4
  bufSize := 1536
  maxFl := 1522
  minLenUntagged := 60
  minLenTagged := 64
  maxLenUntagged := 1514
  maxLenTagged := 1518
  rxLoopCap := 8
  spiTxWaitBound := 16
  mdioPollBound := 1000
  spiResetPollBound := 20
  spiStableReadBound := 8
  sockPollBound := 20
  rxbufKb := 16
  txbufKb := 16
  ibufCap := 16384
  recMinLen := 16
  stackPad := 2
  systemMac := ⟨0x04, 0xE9, 0xE5, 0x00, 0x00, 0x01⟩
  phyAddr := 0
  phyIdExpect := 0x2000A140
  phyIdMask := 0xFFFFFFF0
  phyTuning := [(0x0018, 0x0280), (0x0302, 0x0006)]
  csumFlags := 0
  chipVersionExpect := 0x04
  patternA := 0xA55A
  patternB := 0x5AA5
  capsDma := Caps.refDma
  capsSpi := Caps.refSpi
  filterHash := .reference
  tResetPulse := 0
  tResetSettle := 0
  tSoftReset := 0
  phyPresent := true
  phyId := 0x2000A140
  chipPresent := true
  chipVersion := 0x04
  floatByte := 0xFF
  macBase := 0x40000000
  rxRingBase := 0x20000000
  txRingBase := 0x20000020
  rxBufBase := 0x20001000
  txBufBase := 0x20003000

/-- RefCfg on the SPI build. -/
def Config.refSpi : Config := { Config.ref with backend := .spi }

/-! ## Free values

Each is a constant without a body: nothing can evaluate it, so a claim holds whatever it is. A `Nat` argument is the draw counter of
State (a fresh value at each draw) unless said otherwise. Assumption log 3 and 4. -/

/-- `alloc_ok` (R205 line 13, R258), once the tape of State is used up. -/
opaque Config.freeAlloc : Nat → Bool

/-- The protocol stack's verdict `accept` (R282), once the tape is used up. -/
opaque Config.freeAccept : Nat → Bool

/-- The timestamp `ts` (R205 line 18, R258, R341), once the tape is used up. -/
opaque Config.freeTimestamp : Nat → U32

/-- The undriven bits of LINKREG and STSREG (R188, R189), once the tape is used up. -/
opaque Config.freePhyBits : Nat → U16

/-- A reserved chip register byte and the reserved bits of PHYCFGR (R54, R234, U5), once the tape is used up. -/
opaque Config.freeChipByte : Nat → Byte

/-- The PHY's own default of direct register `ra` (R189, U4): the same on every read until written. -/
opaque Config.phyRegDefault : Nat → U16

/-- The PHY's own default of extended register `a` (R189, U4). -/
opaque Config.phyExtDefault : Nat → U16

/-- A filter hash other than the reference (R131: "any total function"). -/
opaque Config.otherHash : Nat → MacAddr → BitVec 6

end Sys2Proof
end

