-- ==== Sys2Proof/Machine/State.lean ====
section
/-! DEFINITION. The state of QNE-FP (10_state.md) as plain data, its value after reset (10_state.md section 5, R350), the reasons a step
can stop, and the result of an operation (R112). -/

namespace Sys2Proof.Machine

/-! ## Why a step stops -/

/-- The memories whose contents reset leaves unspecified (10_state.md section 5, U4). -/
inductive Space where
  | dma
  | chipRx
  | chipTx
  | ibuf
  deriving DecidableEq, Repr

/-- A stop for which the spec gives the disposition fault (93_implementation_defined.md section 1: "the model stops: a proof must show
the case unreachable"). All are safe: the model stops where hardware would go on with a value nobody names. -/
inductive Fault where
  /-- A byte nothing has written is read (U4, R350). Raised by the DMA engines, the host's buffer reads, the chip's ring reads and the
  scanner. Safe. -/
  | unspecifiedRead (space : Space) (address : Nat)
  /-- An access beyond the 32-bit DMA address space (R80). Raised by every DMA memory access. Safe. -/
  | outsideDmaSpace (address : Nat)
  /-- The transmit engine finds a ready descriptor with TC = 0 or L = 0, or LEN = 0 or LEN > BUF_SIZE (U12). Raised by !DMA_TX. Safe. -/
  | badTransmitDescriptor (index : Nat)
  /-- OPEN with a socket buffer size outside 1, 2, 4, 8, 16 KiB (U9). Raised by the chip's OPEN. Safe. -/
  | badSocketBufferSize
  /-- RECV with S_RX_RD moved past S_RX_WR (U14). Raised by the chip's RECV. Safe. -/
  | receivePointerPastWrite
  /-- SEND with S_TX_WR moved further than the free space (U14). Raised by the chip's SEND. Safe. -/
  | sendPointerPastFree
  deriving DecidableEq, Repr

/-- A stop for which the spec gives the disposition refuse at the level of the model ("a model does not offer the access"). All are
safe: no rule of the spec makes such an access. -/
inductive Refusal where
  /-- An instruction whose meaning is not modelled yet. Raised by exec's arms only. Safe. -/
  | notModelled (mnemonic : String)
  /-- A misaligned descriptor field access (R84, U6). Raised by the descriptor accessors when a ring base is not aligned. Safe. -/
  | misalignedAccess (address : Nat)
  /-- MMFR written with ST, OP or TA other than R125 gives (R130, U11). Raised by the MAC window's write. Safe. -/
  | reservedManagementFrame (value : U32)
  /-- A transaction with a chip block 4 to 31 (R82, R119, R130, U8). Raised by the chip's byte accessors. Safe. -/
  | reservedChipBlock (block : Nat)
  /-- A transaction whose header is none of R118's, or whose control byte has OM other than 0b00 (R119, R130, U8). Raised by the chip
  when a transaction opens. Safe. -/
  | reservedTransaction (header : List Byte)
  /-- Bytes offered as an event that encode none of R129's: a code outside 0x80 to 0x87, or more or fewer operand bytes than the code has.
  No operand value of an event raises it. Raised by the fetch. Safe. -/
  | malformedEvent (bytes : List Byte)
  deriving DecidableEq, Repr

/-- Either kind of stop, inside an operation. -/
inductive Stop where
  | fault (f : Fault)
  | refuse (r : Refusal)
  deriving DecidableEq, Repr

/-! ## Results -/

/-- The status codes of R112. `no` is FALSE for boolean operations and NONE for Option operations: both are 0x01. -/
inductive Status where
  | ok
  | no
  | again
  | invalid
  | refused
  deriving DecidableEq, Repr

/-- A result: a status, and value bytes that follow only status OK (R112, R113). -/
structure Result where
  status : Status
  value : List Byte
  deriving DecidableEq, Repr

/-- What PROC_INPUT answers its caller inside the block: one frame with its timestamp, nothing, or INVALID (R205, R250, R281). -/
inductive Received where
  | frame (ts : U32) (bytes : List Byte)
  | nothing
  | invalid
  deriving DecidableEq, Repr

/-- The nine error conditions of R320. -/
inductive Condition where
  | hardwareAbsent
  | txNoSlot
  | rxNoMemory
  | frameIntegrity
  | recordCorruption
  | filterCollision
  | invalidState
  | refused
  | socketFault
  deriving DecidableEq, Repr

/-! ## State common to both backends -/

/-- `init_state` (R21). `hasHardware` is NotInitialized on the SPI build, `phyInitialized` is HardwareInitialized there. -/
inductive InitState where
  | start
  | noHardware
  | hasHardware
  | phyInitialized
  | initialized
  deriving DecidableEq, Repr

/-- The record of R23 (`link_info`, `link_settings`). -/
structure LinkRecord where
  speedMbps : U16
  fullDuplex : Bool
  autoneg : Bool
  crossover : Bool
  deriving DecidableEq, Repr

/-- The reset value of both records (R23). -/
def LinkRecord.zero : LinkRecord := ⟨0, false, false, false⟩

/-- One thing the outside hands the machine: the content the host places in CMD_BUF (R110), or an event of another agent (R129). -/
inductive Item where
  | command (bytes : List Byte)
  | event (bytes : List Byte)
  deriving DecidableEq, Repr

/-- Which completion steps happen "immediately after the micro-step that enabled it" (R372, the prompt schedule), agent by agent. With
all five off and the script empty the schedule is quiet. -/
structure Prompt where
  mdioDone : Bool
  chipResetDone : Bool
  chipSendDone : Bool
  dmaTx : Bool
  isr : Bool
  deriving DecidableEq, Repr

/-- No completion step happens by itself (the quiet schedule of R372). -/
def Prompt.quiet : Prompt := ⟨false, false, false, false, false⟩

/-- Only the two completions that the bounded waits of HAS_HARDWARE and INIT need (R197, R247). -/
def Prompt.completions : Prompt := ⟨true, true, false, false, false⟩

/-- The prompt schedule of R197 and R372. -/
def Prompt.full : Prompt := ⟨true, true, true, true, true⟩

/-- The values the environment draws next (00_scope.md section 6, "Draws"): one tape for each kind of draw, read from the front, and the
counter the free values of Config are applied to once a tape is used up. -/
structure Draws where
  alloc : List Bool
  accept : List Bool
  timestamp : List U32
  phyBits : List U16
  chipByte : List Byte
  count : Nat
  deriving DecidableEq, Repr

/-! ## Memory -/

/-- A byte memory: (address, byte) pairs, addresses strictly rising. An address that is not listed has never been written; reading it
faults (R350, U4), so no entry can equal what an unlisted address reads as. -/
abbrev Memory := List Host.Cell

/-- The canonical form: addresses strictly rising. -/
abbrev Memory.wf (m : Memory) : Prop := m.Pairwise (fun p q => p.1 < q.1)

/-- One cached 64-byte line (R51): its number (address / 64), whether it is dirty, and the cached copy. A byte the copy does not list
was unspecified in memory when the line was filled. -/
structure CacheLine where
  line : Nat
  dirty : Bool
  data : Memory
  deriving DecidableEq, Repr

/-! ## DMA backend state -/

/-- The MAC register window (R32) less the two doorbells, which are views of `rxActive` and `txActive` (R35, R36), and the reserved
word at 0x3C. -/
structure MacRegs where
  eir : U32
  eimr : U32
  ecr : U32
  mmfr : U32
  rcr : U32
  acc : U32
  palr : U32
  paur : U32
  fltPres0 : U32
  fltPres1 : U32
  rdsr : U32
  tdsr : U32
  mrbr : U32
  deriving DecidableEq, Repr

/-- The registers of the window by name (R32). -/
inductive MacReg where
  | eir
  | eimr
  | rdar
  | tdar
  | ecr
  | mmfr
  | rcr
  | acc
  | palr
  | paur
  | fltPres0
  | fltPres1
  | rdsr
  | tdsr
  | mrbr
  | reserved
  deriving DecidableEq, Repr

/-- `phy_link` (R49, R216). -/
structure PhyLink where
  up : Bool
  speed10 : Bool
  full : Bool
  autonegDone : Bool
  mdix : Bool
  deriving DecidableEq, Repr

/-- The PHY (R49). `reg` and `ext` list the registers that have been written since the PHY's reset pulse, numbers strictly rising; one
that is not listed holds the PHY's own default, a free value (R189). -/
structure Phy where
  reg : List (Nat × U16)
  ext : List (Nat × U16)
  regcr : U16
  extAddr : U16
  link : PhyLink
  deriving DecidableEq, Repr

/-- `lm_state` (R50). -/
inductive LmState where
  | idle
  | waitLink
  | waitStatus
  deriving DecidableEq, Repr

/-- The state of the DMA build (10_state.md section 3). -/
structure DmaState where
  rxPending : Bool
  clocksOn : Bool
  pinsConfigured : Bool
  phyResetDone : Bool
  regs : MacRegs
  fltColl0 : U32
  fltColl1 : U32
  rxCursor : Nat
  txCursor : Nat
  hwRxIdx : Nat
  hwTxIdx : Nat
  rxActive : Bool
  txActive : Bool
  mdioBusy : Bool
  phy : Phy
  lmState : LmState
  lmLink : Bool
  mem : Memory
  cache : List CacheLine
  deriving DecidableEq, Repr

/-! ## SPI backend state -/

/-- `chip_link` (R59, R272). -/
structure ChipLink where
  up : Bool
  spd100 : Bool
  full : Bool
  deriving DecidableEq, Repr

/-- The chip: its common registers (R54 to R60), its socket registers (R61 to R68) and its hidden state (R68). S_CR holds nothing: it
reads 0 at every moment (R63, R234). VERSIONR and the presence of the chip are launch parameters; PHYCFGR is a view of `link`. `rxBytes`
and `txBytes` are RXBUF_BYTES and TXBUF_BYTES, the ring sizes in force since the last OPEN or reset (R235, R264). -/
structure Chip where
  mr : Byte
  shar : MacAddr
  simr : Byte
  scratch : U16
  link : ChipLink
  sMr : Byte
  sIr : Byte
  sSr : Byte
  sRxbufSize : Byte
  sTxbufSize : Byte
  sTxFsr : U16
  sTxRd : U16
  sTxWr : U16
  sRxRsr : U16
  sRxRd : U16
  sRxWr : U16
  sImr : Byte
  rxRdCommitted : U16
  txWrCommitted : U16
  sendQueue : List U16
  rxBytes : Nat
  txBytes : Nat
  rxMem : Memory
  txMem : Memory
  deriving DecidableEq, Repr

/-- The state of the SPI build (10_state.md section 4 and R29). -/
structure SpiState where
  rxPending : Bool
  txDone : Bool
  intLatched : Bool
  csActive : Bool
  faultSock : Bool
  chip : Chip
  ibuf : Memory
  ibufStart : Nat
  ibufSize : Nat
  deriving DecidableEq, Repr

/-! ## The whole state -/

/-- The whole state. `cfg` is the run's parameters; `input`, `script`, `prompt` and `draws` are the model's own account of the
environment (what it hands the machine, how it interleaves, what it draws), so that a claim about every state is a claim about every
environment. The state of the backend that is not built stands at its reset value and no rule touches it (R1). -/
structure State where
  cfg : Config
  input : List Item
  script : List (List AgentStep)
  prompt : Prompt
  draws : Draws
  cmdBuf : List Byte
  resBuf : List Byte
  initState : InitState
  caps : Caps
  capsRead : Bool
  linkInfo : LinkRecord
  linkSettings : LinkRecord
  mac : MacAddr
  linkReported : Bool
  linkManual : Bool
  notifyLog : List Bool
  wireTxLog : List (List Byte)
  stackRxLog : List (List Byte × U32)
  cntRxErr : U32
  cntRxNomem : U32
  cntTxAgain : U32
  dma : DmaState
  spi : SpiState
  deriving DecidableEq, Repr

/-- An operation inside the block: it reads and changes the state and may stop. -/
abbrev M := StateT State (Except Stop)

/-! ## Reset -/

/-- Every MAC register resets to 0 (R32). -/
def MacRegs.reset : MacRegs := ⟨0, 0, 0, 0, 0, 0, 0, 0, 0, 0, 0, 0, 0⟩

/-- The PHY before the reset pulse of the probe. The link oracle is the environment's: that it reads down at reset is a DESIGN CHOICE
(assumption log 5). -/
def Phy.reset : Phy := ⟨[], [], 0, 0, ⟨false, false, false, false, false⟩⟩

/-- 10_state.md section 5, the rows of R30 to R51. -/
def DmaState.reset : DmaState where
  rxPending := false
  clocksOn := false
  pinsConfigured := false
  phyResetDone := false
  regs := MacRegs.reset
  fltColl0 := 0
  fltColl1 := 0
  rxCursor := 0
  txCursor := 0
  hwRxIdx := 0
  hwTxIdx := 0
  rxActive := false
  txActive := false
  mdioBusy := false
  phy := Phy.reset
  lmState := .idle
  lmLink := false
  mem := []
  cache := []

/-- The reset columns of R54 and R61, and R68: pointers 0, rings of 2 KiB in force. -/
def Chip.reset : Chip where
  mr := 0x00
  shar := ⟨0, 0, 0, 0, 0, 0⟩
  simr := 0x00
  scratch := 0x0000
  link := ⟨false, false, false⟩
  sMr := 0x00
  sIr := 0x00
  sSr := 0x00
  sRxbufSize := 0x02
  sTxbufSize := 0x02
  sTxFsr := 0x0800
  sTxRd := 0x0000
  sTxWr := 0x0000
  sRxRsr := 0x0000
  sRxRd := 0x0000
  sRxWr := 0x0000
  sImr := 0xFF
  rxRdCommitted := 0x0000
  txWrCommitted := 0x0000
  sendQueue := []
  rxBytes := 2048
  txBytes := 2048
  rxMem := []
  txMem := []

/-- 10_state.md section 5, the rows of R29 and R52 to R69. -/
def SpiState.reset : SpiState where
  rxPending := false
  txDone := false
  intLatched := false
  csActive := false
  faultSock := false
  chip := Chip.reset
  ibuf := []
  ibufStart := 0
  ibufSize := 0

/-- The state after reset in a run with parameters `c` (10_state.md section 5, R350). The environment's part is a DESIGN CHOICE
(assumption log 2): nothing is handed in yet, no interleaving is scripted, the tapes are empty, and the two completions that bounded
waits need happen promptly. -/
def State.resetWith (c : Config) : State where
  cfg := c
  input := []
  script := []
  prompt := Prompt.completions
  draws := ⟨[], [], [], [], [], 0⟩
  cmdBuf := []
  resBuf := []
  initState := .start
  caps := Caps.none
  capsRead := false
  linkInfo := LinkRecord.zero
  linkSettings := LinkRecord.zero
  mac := c.systemMac
  linkReported := false
  linkManual := false
  notifyLog := []
  wireTxLog := []
  stackRxLog := []
  cntRxErr := 0
  cntRxNomem := 0
  cntTxAgain := 0
  dma := DmaState.reset
  spi := SpiState.reset

/-- The machine right after reset, on the reference configuration's DMA build (assumption log 1). -/
def State.reset : State := State.resetWith Config.ref

end Sys2Proof.Machine
end

