-- ==== Sys2Proof/Machine/Operands.lean ====
section
/-! DEFINITION. Operand and value forms: byte-order helpers (00_scope.md section 6), result value bytes (R113, R135), address words
(R41), the management frame (R125), the frame tests (R122, R287) and the filter hash (R131). -/

namespace Sys2Proof.Machine

/-! ## Byte order -/

/-- `be16(b, i)` (00_scope.md section 6) as a number; a missing byte counts as zero. -/
def be16 (b : List Byte) (i : Nat) : Nat := (b.getD i 0).toNat * 256 + (b.getD (i + 1) 0).toNat

/-- `put_be32` (R113). -/
def putBe32 (v : U32) : List Byte :=
  [v.extractLsb' 24 8, v.extractLsb' 16 8, v.extractLsb' 8 8, v.extractLsb' 0 8]

/-- The two little-endian bytes of a halfword (R83). -/
def putLe16 (v : U16) : List Byte := [lo8 v, hi8 v]

/-- The four little-endian bytes of a word (R83). -/
def putLe32 (v : U32) : List Byte :=
  [v.extractLsb' 0 8, v.extractLsb' 8 8, v.extractLsb' 16 8, v.extractLsb' 24 8]

/-- A word from its four bytes, the least significant first (R83). -/
def join32 (b0 b1 b2 b3 : Byte) : U32 := b3 ++ b2 ++ b1 ++ b0

/-! ## Status codes and value bytes -/

/-- The status byte (R112). -/
def Status.code : Status → Byte
  | .ok => 0x00
  | .no => 0x01
  | .again => 0x02
  | .invalid => 0x03
  | .refused => 0x04

/-- RES_BUF's content: the status byte, then the value bytes (R112). -/
def Result.bytes (r : Result) : List Byte := r.status.code :: r.value

/-- A result without value bytes. -/
def Result.plain (s : Status) : Result := ⟨s, []⟩

/-- The three-bit code of `init_state` (R21). -/
def InitState.code : InitState → Nat
  | .start => 0
  | .noHardware => 1
  | .hasHardware => 2
  | .phyInitialized => 3
  | .initialized => 4

/-- The status byte the host sees for an error condition (R320); for RecordCorruption the one of a call that delivers no frame. -/
def Condition.code : Condition → Byte
  | .hardwareAbsent => 0x01
  | .txNoSlot => 0x02
  | .rxNoMemory => 0x01
  | .frameIntegrity => 0x01
  | .recordCorruption => 0x01
  | .filterCollision => 0x01
  | .invalidState => 0x03
  | .refused => 0x04
  | .socketFault => 0x01

/-- The nine capability booleans as a `u16`, field i at bit i, bits 15:9 zero (R22, R113). -/
def capsWord (c : Caps) : U16 :=
  BitVec.ofNat 16
    (c.macSettable.toNat + 2 * c.linkStateDetectable.toNat + 4 * c.linkSpeedDetectable.toNat
      + 8 * c.linkSpeedSettable.toNat + 16 * c.duplexDetectable.toNat + 32 * c.duplexSettable.toNat
      + 64 * c.crossoverDetectable.toNat + 128 * c.autonegRestartable.toNat + 256 * c.phyResettable.toNat)

/-- The link flags byte of a GET_LINK_INFO value (R135, R167). -/
def linkInfoFlags (r : LinkRecord) (reported : Bool) : Byte :=
  linkFlagBits r.fullDuplex r.autoneg r.crossover ||| (if reported then 0x80#8 else 0)

/-- The value bytes of PROC_INPUT (R113). -/
def frameValue (ts : U32) (bytes : List Byte) : List Byte :=
  putBe32 ts ++ putBe16 (BitVec.ofNat 16 bytes.length) ++ bytes

/-! ## Addresses -/

/-- `PALR = {mac[0], mac[1], mac[2], mac[3]}` (R41). -/
def palrOf (m : MacAddr) : U32 := m.b0 ++ m.b1 ++ m.b2 ++ m.b3

/-- `PAUR = {mac[4], mac[5], 0x0000}` (R41). -/
def paurOf (m : MacAddr) : U32 := m.b4 ++ m.b5 ++ (0#16)

/-- The six address bytes at the start of a frame, its destination (R121); missing bytes count as zero. -/
def destination (b : List Byte) : MacAddr :=
  ⟨b.getD 0 0, b.getD 1 0, b.getD 2 0, b.getD 3 0, b.getD 4 0, b.getD 5 0⟩

/-- `broadcast(mac)` (R122). -/
def broadcast (m : MacAddr) : Bool := m == ⟨0xFF, 0xFF, 0xFF, 0xFF, 0xFF, 0xFF⟩

/-- `group(mac)` (R122). -/
def group (m : MacAddr) : Bool := m.b0.getLsbD 0

/-! ## Frames -/

/-- `tagged(b)` (R122). -/
def tagged (b : List Byte) : Bool := decide (14 ≤ b.length) && be16 b 12 == 0x8100

/-- `LengthValid(b)` (R287). -/
def lengthValid (c : Config) (b : List Byte) : Bool :=
  if tagged b then decide (c.minLenTagged ≤ b.length) && decide (b.length ≤ c.maxLenTagged)
  else decide (c.minLenUntagged ≤ b.length) && decide (b.length ≤ c.maxLenUntagged)

/-! ## The filter hash -/

/-- One of the eight inner steps of R131. -/
def crcBit (crc : U32) : U32 := if crc.getLsbD 0 then (crc >>> 1) ^^^ 0xEDB88320 else crc >>> 1

/-- `n` inner steps. -/
def crcBits : Nat → U32 → U32
  | 0, crc => crc
  | n + 1, crc => crcBits n (crcBit crc)

/-- One byte of R131's loop. -/
def crcByte (crc : U32) (b : Byte) : U32 := crcBits 8 (crc ^^^ b.zeroExtend 32)

/-- The reflected CRC-32 of R131. -/
def crc32 (bs : List Byte) : U32 := bs.foldl crcByte 0xFFFFFFFF ^^^ 0xFFFFFFFF

/-- `FILTER_HASH(mac)` (R131): bits 31:26 of the CRC, or the run's other total function. -/
def filterHash (c : Config) (m : MacAddr) : BitVec 6 :=
  match c.filterHash with
  | .reference => (crc32 (macBytes m)).extractLsb' 26 6
  | .other k => Config.otherHash k m

/-- The half of the table a bucket is in: `b[5]` (R42). -/
def bucketHalf (b : BitVec 6) : Bool := b.getLsbD 5

/-- The bit of the half a bucket is: `b[4:0]` (R42). -/
def bucketBit (b : BitVec 6) : Nat := (b.extractLsb' 0 5).toNat

/-- `1 << k` in a 32-bit mask (R218). -/
def bitMask (k : Nat) : U32 := 1#32 <<< k

/-! ## Management frames -/

/-- `MMFR_READ(ra)` (R125). -/
def mmfrRead (c : Config) (ra : BitVec 5) : U32 :=
  0x60020000#32 ||| (c.phyAddr.zeroExtend 32 <<< 23) ||| (ra.zeroExtend 32 <<< 18)

/-- `MMFR_WRITE(ra, v)` (R125). -/
def mmfrWrite (c : Config) (ra : BitVec 5) (v : U16) : U32 :=
  0x50020000#32 ||| (c.phyAddr.zeroExtend 32 <<< 23) ||| (ra.zeroExtend 32 <<< 18) ||| v.zeroExtend 32

/-- OP (R125). -/
def mmfrOp (f : U32) : BitVec 2 := f.extractLsb' 28 2

/-- PA (R125). -/
def mmfrPa (f : U32) : BitVec 5 := f.extractLsb' 23 5

/-- RA (R125). -/
def mmfrRa (f : U32) : BitVec 5 := f.extractLsb' 18 5

/-- DATA (R125). -/
def mmfrData (f : U32) : U16 := f.extractLsb' 0 16

/-- ST, OP and TA have one of the values R125 gives; any other is reserved (R130, U11). -/
def mmfrLegal (f : U32) : Bool :=
  f.extractLsb' 30 2 == 0b01#2 && (mmfrOp f == 0b10#2 || mmfrOp f == 0b01#2) && f.extractLsb' 16 2 == 0b10#2

/-- MMFR with its DATA field replaced (R39, R182). -/
def mmfrWithData (f : U32) (v : U16) : U32 := (f &&& 0xFFFF0000#32) ||| v.zeroExtend 32

/-! ## SPI transaction headers -/

/-- The control byte (R119): BSB in bits 7:3, RWB in bit 2 (1 for a write), OM 0b00. -/
def controlByte (bsb : BitVec 5) (write : Bool) : Byte := bsb ++ BitVec.ofBool write ++ 0b00#2

/-- The three header bytes of a transaction, in the order they are sent (R118). -/
def spiHeader (bsb : BitVec 5) (addr : U16) (write : Bool) : List Byte := [hi8 addr, lo8 addr, controlByte bsb write]

/-- BSB, the address and OM as the chip takes them from a header, if it is one of the transfer's direction (R118, R119). -/
def headerFields (write : Bool) : List Byte → Option (BitVec 5 × U16 × BitVec 2)
  | [a1, a0, c] => if c.getLsbD 2 = write then some (c.extractLsb' 3 5, join16 a1 a0, c.extractLsb' 0 2) else none
  | _ => none

end Sys2Proof.Machine
end

