-- ==== Sys2Proof/Machine/Flags.lean ====
section
/-! DEFINITION. Flags and status bits: the atomic flags (R96), the descriptor status masks (R115, R116), the event and cause registers'
write-1-to-clear (R33, R64) and the two interrupt lines (R34, R57). -/

namespace Sys2Proof.Machine

/-! ## Descriptor status bits (R115, R116) -/

/-- E of a receive descriptor, R of a transmit descriptor: bit 15, hardware owns. -/
def bitOwn : U16 := 0x8000

/-- W: the last slot of the ring. -/
def bitWrap : U16 := 0x2000

/-- L: the last part of a frame. -/
def bitLast : U16 := 0x0800

/-- TC: the engine appends the checksum. -/
def bitTc : U16 := 0x0400

/-- LG: length violation. -/
def bitLg : U16 := 0x0020

/-- TR: truncation. -/
def bitTr : U16 := 0x0001

/-- RX_ERR_MASK = LG | NO | CR | OV | TR (R115). -/
def rxErrMask : U16 := 0x0037

/-- Hardware owns the descriptor (R91). -/
def owned (st : U16) : Bool := st.getLsbD 15

/-- The wrap flag is set (R24). -/
def wraps (st : U16) : Bool := st.getLsbD 13

/-- Some error bit of a received frame is set (R205 line 10). -/
def hasRxError (st : U16) : Bool := st &&& rxErrMask != 0

/-- How a ring cursor advances past the descriptor with status `st` (R24). -/
def advance (st : U16) (i : Nat) : Nat := if wraps st then 0 else i + 1

/-! ## Write-1-to-clear and interrupt lines -/

/-- EIR after a write of `v` (R33). -/
def w1c32 (old v : U32) : U32 := old &&& ~~~v

/-- S_IR after a write of `v` (R64). -/
def w1c8 (old v : Byte) : Byte := old &&& ~~~v

/-- EIR with bit `k` set by an engine (R33). -/
def setEvent (old : U32) (k : Nat) : U32 := old ||| bitMask k

/-- The DMA interrupt line is asserted (R34). -/
def dmaLine (r : MacRegs) : Bool := r.eir &&& r.eimr != 0

/-- The chip's interrupt line is asserted (R57). -/
def chipLine (c : Chip) : Bool := c.simr.getLsbD 0 && c.sIr &&& c.sImr != 0

/-! ## Atomic flags (R96) -/

/-- `TestAndClear(rx_pending)`: the old value, and the flag left 0. -/
def testAndClearRxPending : M Bool := do
  let s ← get
  set { s with dma := { s.dma with rxPending := false } }
  pure s.dma.rxPending

/-- `Set(rx_pending)`. -/
def setRxPending : M Unit := modify fun s => { s with dma := { s.dma with rxPending := true } }

/-- `TestAndClear(spi_rx_pending)`. -/
def testAndClearSpiRxPending : M Bool := do
  let s ← get
  set { s with spi := { s.spi with rxPending := false } }
  pure s.spi.rxPending

/-- `TestAndClear(spi_tx_done)`. -/
def testAndClearSpiTxDone : M Bool := do
  let s ← get
  set { s with spi := { s.spi with txDone := false } }
  pure s.spi.txDone

/-- `Set(spi_rx_pending); Set(spi_tx_done)` as the SPI interrupt agent does (R271). -/
def setSpiFlags : M Unit :=
  modify fun s => { s with spi := { s.spi with rxPending := true, txDone := true } }

end Sys2Proof.Machine
end

