-- ==== Sys2Proof/Machine/Ops.lean ====
section
/-! DEFINITION. The shared operations: stopping, draws, byte memory, the DMA address space, the cache (R86 to R89), descriptor fields
(R84, R115, R116), the MAC register window (R32 to R43), raising an error condition (R320, R332) and answering the host (R112). -/

namespace Sys2Proof.Machine

/-! ## Stopping -/

/-- Stop with a fault (93_implementation_defined.md section 1). -/
def stopFault {α : Type} (f : Fault) : M α := fun _ => .error (.fault f)

/-- Stop with a refusal. -/
def stopRefuse {α : Type} (r : Refusal) : M α := fun _ => .error (.refuse r)

/-- Go on with a value that exists, or stop with a fault. -/
def orFault {α : Type} (o : Option α) (f : Fault) : M α :=
  match o with
  | some a => pure a
  | none => stopFault f

/-- Do something only when a condition holds. -/
def onlyIf (p : Prop) [Decidable p] (m : M Unit) : M Unit := if p then m else pure ()

/-! ## State access -/

/-- The run's parameters. -/
def config : M Config := do return (← get).cfg

/-- Change the DMA build's state. -/
def modifyDma (f : DmaState → DmaState) : M Unit := modify fun s => { s with dma := f s.dma }

/-- Change the SPI build's state. -/
def modifySpi (f : SpiState → SpiState) : M Unit := modify fun s => { s with spi := f s.spi }

/-- Change the chip. -/
def modifyChip (f : Chip → Chip) : M Unit := modifySpi fun p => { p with chip := f p.chip }

/-! ## Draws (00_scope.md section 6)

Each `take…` gives the value drawn and what is left: the front of its tape, or, once the tape is used up, the free value of Config at the
draw counter, which then moves on. -/

def Draws.takeAlloc (d : Draws) : Bool × Draws :=
  match d.alloc with
  | b :: rest => (b, { d with alloc := rest })
  | [] => (Config.freeAlloc d.count, { d with count := d.count + 1 })

def Draws.takeAccept (d : Draws) : Bool × Draws :=
  match d.accept with
  | b :: rest => (b, { d with accept := rest })
  | [] => (Config.freeAccept d.count, { d with count := d.count + 1 })

def Draws.takeTimestamp (d : Draws) : U32 × Draws :=
  match d.timestamp with
  | t :: rest => (t, { d with timestamp := rest })
  | [] => (Config.freeTimestamp d.count, { d with count := d.count + 1 })

def Draws.takePhyBits (d : Draws) : U16 × Draws :=
  match d.phyBits with
  | v :: rest => (v, { d with phyBits := rest })
  | [] => (Config.freePhyBits d.count, { d with count := d.count + 1 })

def Draws.takeChipByte (d : Draws) : Byte × Draws :=
  match d.chipByte with
  | v :: rest => (v, { d with chipByte := rest })
  | [] => (Config.freeChipByte d.count, { d with count := d.count + 1 })

/-- Draw a value in one of these ways. -/
def drawBy {α : Type} (take : Draws → α × Draws) : M α := do
  let s ← get
  set { s with draws := (take s.draws).2 }
  pure (take s.draws).1

/-- `draw alloc_ok : bool` (R205 line 13, R258). -/
def drawAlloc : M Bool := drawBy Draws.takeAlloc

/-- `draw accept : bool` (R282). -/
def drawAccept : M Bool := drawBy Draws.takeAccept

/-- `draw ts : u32` (R205 line 18, R258, R341). -/
def drawTimestamp : M U32 := drawBy Draws.takeTimestamp

/-- `draw u16`: the undriven bits of a PHY register (R189). -/
def drawPhyBits : M U16 := drawBy Draws.takePhyBits

/-- An unspecified chip byte (R54, R234). -/
def drawChipByte : M Byte := drawBy Draws.takeChipByte

/-! ## Byte memory -/

/-- The byte at an address, if it was ever written. -/
def Memory.read? : Memory → Nat → Option Byte
  | [], _ => none
  | (k, v) :: rest, a => if k = a then some v else Memory.read? rest a

/-- Store one byte, keeping the addresses rising. -/
def Memory.write : Memory → Nat → Byte → Memory
  | [], a, b => [(a, b)]
  | (k, v) :: rest, a, b =>
    if a < k then (a, b) :: (k, v) :: rest
    else if a = k then (a, b) :: rest
    else (k, v) :: Memory.write rest a b

/-- The `n` bytes from an address on, if all were written. -/
def Memory.readBytes (m : Memory) : Nat → Nat → Option (List Byte)
  | _, 0 => some []
  | a, n + 1 =>
    match Memory.read? m a, Memory.readBytes m (a + 1) n with
    | some b, some bs => some (b :: bs)
    | _, _ => none

/-- Store bytes from an address on. -/
def Memory.writeBytes (m : Memory) (a : Nat) : List Byte → Memory
  | [] => m
  | b :: bs => Memory.writeBytes (Memory.write m a b) (a + 1) bs

/-- The first of the `n` addresses from `a` on that was never written. -/
def Memory.firstUnwritten (m : Memory) : Nat → Nat → Nat
  | a, 0 => a
  | a, n + 1 => if (Memory.read? m a).isNone then a else Memory.firstUnwritten m (a + 1) n

/-- The byte of a ring buffer of `size` bytes at the free-running pointer `p` (R68, R82). -/
def ringIndex (size p : Nat) : Nat := p % size

/-- The `n` bytes of a ring from pointer `p` on, pointers modulo 2^16 (R68, R82). -/
def ringRead (m : Memory) (size : Nat) : Nat → Nat → Option (List Byte)
  | _, 0 => some []
  | p, n + 1 =>
    match Memory.read? m (ringIndex size (p % 65536)), ringRead m size (p + 1) n with
    | some b, some bs => some (b :: bs)
    | _, _ => none

/-- Store bytes into a ring from pointer `p` on, pointers modulo 2^16. -/
def ringWrite (m : Memory) (size p : Nat) : List Byte → Memory
  | [] => m
  | b :: bs => ringWrite (Memory.write m (ringIndex size (p % 65536)) b) size (p + 1) bs

/-! ## The DMA address space (R80, R81) -/

/-- One byte past the 32-bit address space. -/
def dmaSpaceEnd : Nat := 2 ^ 32

/-- An access of `n` bytes at `a` lies inside the 32-bit space, or the step stops. -/
def checkDmaRange (a n : Nat) : M Unit :=
  if a + n ≤ dmaSpaceEnd then pure () else stopFault (.outsideDmaSpace (max a dmaSpaceEnd))

/-- A direct read of DMA memory, as an engine or a coherent descriptor access makes it (R81, R90). -/
def dmaReadBytes (a n : Nat) : M (List Byte) := do
  checkDmaRange a n
  let s ← get
  orFault (Memory.readBytes s.dma.mem a n) (.unspecifiedRead .dma (Memory.firstUnwritten s.dma.mem a n))

/-- A direct write of DMA memory (R81, R90). -/
def dmaWriteBytes (a : Nat) (bs : List Byte) : M Unit := do
  checkDmaRange a bs.length
  modifyDma fun d => { d with mem := Memory.writeBytes d.mem a bs }

/-- The access has its natural alignment, or it is refused (R84, U6). -/
def checkAligned (a n : Nat) : M Unit :=
  if a % n = 0 then pure () else stopRefuse (.misalignedAccess a)

/-- A halfword of coherent memory, little-endian (R83, R84). -/
def dmaRead16 (a : Nat) : M U16 := do
  checkAligned a 2
  let b ← dmaReadBytes a 2
  pure (join16 (b.getD 1 0) (b.getD 0 0))

/-- Store a halfword, little-endian, as one access (R83, R85). -/
def dmaWrite16 (a : Nat) (v : U16) : M Unit := do
  checkAligned a 2
  dmaWriteBytes a (putLe16 v)

/-- A word of coherent memory, little-endian (R83, R84). -/
def dmaRead32 (a : Nat) : M U32 := do
  checkAligned a 4
  let b ← dmaReadBytes a 4
  pure (join32 (b.getD 0 0) (b.getD 1 0) (b.getD 2 0) (b.getD 3 0))

/-- Store a word, little-endian, as one access (R83, R85). -/
def dmaWrite32 (a : Nat) (v : U32) : M Unit := do
  checkAligned a 4
  dmaWriteBytes a (putLe32 v)

/-! ## Descriptors (R115, R116): LEN at 0, STATUS at 2, BUF at 4 of the 8 bytes at `base + 8 i` (R81) -/

/-- The address of descriptor `i` of the ring at `base` (R81). -/
def descAddr (base : U32) (i : Nat) : Nat := base.toNat + 8 * i

def readLen (desc : Nat) : M U16 := dmaRead16 desc
def writeLen (desc : Nat) (v : U16) : M Unit := dmaWrite16 desc v
def readStatus (desc : Nat) : M U16 := dmaRead16 (desc + 2)
def writeStatus (desc : Nat) (v : U16) : M Unit := dmaWrite16 (desc + 2) v
def readBuf (desc : Nat) : M U32 := dmaRead32 (desc + 4)
def writeBuf (desc : Nat) (v : U32) : M Unit := dmaWrite32 (desc + 4) v

/-- `addr(rx_buf[i])` (R81). -/
def rxBufAddr (c : Config) (i : Nat) : Nat := c.rxBufBase.toNat + i * c.bufSize

/-- `addr(tx_buf[i])` (R81). -/
def txBufAddr (c : Config) (i : Nat) : Nat := c.txBufBase.toNat + i * c.bufSize

/-! ## The cache (R51, R86 to R90) -/

/-- The line an address is in (R86). -/
def lineOf (a : Nat) : Nat := a / 64

/-- The line's bytes as memory holds them. -/
def lineBytes (mem : Memory) (l : Nat) : Memory := mem.filter fun p => lineOf p.1 == l

/-- The cached copy of a line, if the line is cached. -/
def findLine : List CacheLine → Nat → Option CacheLine
  | [], _ => none
  | x :: rest, l => if x.line = l then some x else findLine rest l

/-- Put a line into the cache, line numbers rising; a line that is there already is replaced. -/
def putLine : List CacheLine → CacheLine → List CacheLine
  | [], y => [y]
  | x :: rest, y =>
    if y.line < x.line then y :: x :: rest
    else if y.line = x.line then y :: rest
    else x :: putLine rest y

/-- The line as the host's next access finds it: cached, or filled from memory, clean (R86, R87). -/
def lineForAccess (d : DmaState) (l : Nat) : CacheLine :=
  match findLine d.cache l with
  | some x => x
  | none => { line := l, dirty := false, data := lineBytes d.mem l }

/-- A host read of one buffer byte (R86): the line is cached afterwards. -/
def hostReadByte (d : DmaState) (a : Nat) : Option Byte × DmaState :=
  let x := lineForAccess d (lineOf a)
  (Memory.read? x.data a, { d with cache := putLine d.cache x })

/-- A host write of one buffer byte (R87): the cached copy only, and the line is dirty. -/
def hostWriteByte (d : DmaState) (a : Nat) (b : Byte) : DmaState :=
  let x := lineForAccess d (lineOf a)
  { d with cache := putLine d.cache { x with dirty := true, data := Memory.write x.data a b } }

/-- A host read of the `n` bytes from `a` on, through the cache (R86). -/
def hostReadRange (d : DmaState) : Nat → Nat → Option (List Byte) × DmaState
  | _, 0 => (some [], d)
  | a, n + 1 =>
    match hostReadByte d a with
    | (none, d1) => (none, d1)
    | (some b, d1) =>
      match hostReadRange d1 (a + 1) n with
      | (none, d2) => (none, d2)
      | (some bs, d2) => (some (b :: bs), d2)

/-- A host write of bytes from `a` on, into the cache (R87). -/
def hostWriteRange (d : DmaState) (a : Nat) : List Byte → DmaState
  | [] => d
  | b :: bs => hostWriteRange (hostWriteByte d a b) (a + 1) bs

/-- Line `l` overlaps `[a, a + n)` (R88, R89). -/
def overlaps (a n l : Nat) : Bool := decide (0 < n ∧ l * 64 < a + n ∧ a < (l + 1) * 64)

/-- Memory after a line's copy is written back: on the line's addresses memory is the copy. -/
def writeBack (mem : Memory) (x : CacheLine) : Memory :=
  x.data.foldl (fun m p => Memory.write m p.1 p.2) (mem.filter fun p => lineOf p.1 != x.line)

/-- Write back every dirty line of the list that overlaps `[a, a + n)`. -/
def flushLines (a n : Nat) : List CacheLine → Memory → Memory
  | [], mem => mem
  | x :: rest, mem =>
    if overlaps a n x.line && x.dirty then flushLines a n rest (writeBack mem x) else flushLines a n rest mem

/-- `CacheFlush(a, n)` (R88): dirty overlapping lines go to memory and stay cached, clean. -/
def cacheFlush (a n : Nat) (d : DmaState) : DmaState :=
  { d with
    mem := flushLines a n d.cache d.mem
    cache := d.cache.map fun x => if overlaps a n x.line then { x with dirty := false } else x }

/-- `CacheInvalidate(a, n)` (R89): overlapping lines are dropped, dirty or not. -/
def cacheInvalidate (a n : Nat) (d : DmaState) : DmaState :=
  { d with cache := d.cache.filter fun x => !overlaps a n x.line }

/-- A host read of buffer bytes through the cache, or a fault on a byte nothing has written (U4). -/
def hostReadBytes (a n : Nat) : M (List Byte) := do
  checkDmaRange a n
  let s ← get
  let r := hostReadRange s.dma a n
  set { s with dma := r.2 }
  orFault r.1 (.unspecifiedRead .dma (Memory.firstUnwritten s.dma.mem a n))

/-- A host write of buffer bytes, into the cache. -/
def hostWriteBytes (a : Nat) (bs : List Byte) : M Unit := do
  checkDmaRange a bs.length
  modifyDma fun d => hostWriteRange d a bs

/-! ## The MAC register window (R32 to R43) -/

/-- The byte offset of a register in the window (R32). -/
def MacReg.offset : MacReg → Nat
  | .eir => 0x00
  | .eimr => 0x04
  | .rdar => 0x08
  | .tdar => 0x0C
  | .ecr => 0x10
  | .mmfr => 0x14
  | .rcr => 0x18
  | .acc => 0x1C
  | .palr => 0x20
  | .paur => 0x24
  | .fltPres0 => 0x28
  | .fltPres1 => 0x2C
  | .rdsr => 0x30
  | .tdsr => 0x34
  | .mrbr => 0x38
  | .reserved => 0x3C

/-- The address of a register (R32, R104). -/
def MacReg.address (c : Config) (r : MacReg) : Nat := c.macBase.toNat + r.offset

/-- A read of the window (R32, R35, R36): the doorbells read their engine's active bit, the reserved word reads 0. -/
def DmaState.macRead (d : DmaState) : MacReg → U32
  | .eir => d.regs.eir
  | .eimr => d.regs.eimr
  | .rdar => if d.rxActive then 1 else 0
  | .tdar => if d.txActive then 1 else 0
  | .ecr => d.regs.ecr
  | .mmfr => d.regs.mmfr
  | .rcr => d.regs.rcr
  | .acc => d.regs.acc
  | .palr => d.regs.palr
  | .paur => d.regs.paur
  | .fltPres0 => d.regs.fltPres0
  | .fltPres1 => d.regs.fltPres1
  | .rdsr => d.regs.rdsr
  | .tdsr => d.regs.tdsr
  | .mrbr => d.regs.mrbr
  | .reserved => 0

/-- A write of ECR (R37): a rise of ETHEREN activates the receive engine and zeroes both engine indices, a 0 stops both engines. -/
def DmaState.writeEcr (d : DmaState) (v : U32) : DmaState :=
  if v.getLsbD 0 then
    if d.regs.ecr.getLsbD 0 then { d with regs := { d.regs with ecr := 1 } }
    else { d with regs := { d.regs with ecr := 1 }, rxActive := true, hwRxIdx := 0, hwTxIdx := 0 }
  else { d with regs := { d.regs with ecr := 0 }, rxActive := false, txActive := false }

/-- A write of the window (R32 to R43): write-1-to-clear events, write-1-to-set doorbells, reserved bits dropped. -/
def DmaState.macWrite (d : DmaState) : MacReg → U32 → DmaState
  | .eir, v => { d with regs := { d.regs with eir := w1c32 d.regs.eir v } }
  | .eimr, v => { d with regs := { d.regs with eimr := v &&& 0x00000007 } }
  | .rdar, v => if v.getLsbD 0 then { d with rxActive := true } else d
  | .tdar, v => if v.getLsbD 0 then { d with txActive := true } else d
  | .ecr, v => d.writeEcr v
  | .mmfr, v => { d with regs := { d.regs with mmfr := v } }
  | .rcr, v => { d with regs := { d.regs with rcr := v &&& 0x3FFF0001 } }
  | .acc, v => { d with regs := { d.regs with acc := v } }
  | .palr, v => { d with regs := { d.regs with palr := v } }
  | .paur, v => { d with regs := { d.regs with paur := v &&& 0xFFFF0000 } }
  | .fltPres0, v => { d with regs := { d.regs with fltPres0 := v } }
  | .fltPres1, v => { d with regs := { d.regs with fltPres1 := v } }
  | .rdsr, v => { d with regs := { d.regs with rdsr := v &&& 0xFFFFFFF8 } }
  | .tdsr, v => { d with regs := { d.regs with tdsr := v &&& 0xFFFFFFF8 } }
  | .mrbr, v => { d with regs := { d.regs with mrbr := v &&& 0x00003FC0 } }
  | .reserved, _ => d

/-- The host's read of a MAC register. -/
def macRead (r : MacReg) : M U32 := do return (← get).dma.macRead r

/-- The host's write of a MAC register; a management frame with a reserved ST, OP or TA is refused (R130, U11). -/
def macWrite (r : MacReg) (v : U32) : M Unit :=
  if r == .mmfr && !mmfrLegal v then stopRefuse (.reservedManagementFrame v)
  else modifyDma fun d => d.macWrite r v

/-- The presence register of a half of the filter table (R42). -/
def presReg (half : Bool) : MacReg := if half then .fltPres1 else .fltPres0

/-- The collision mask of a half (R44). -/
def DmaState.coll (d : DmaState) (half : Bool) : U32 := if half then d.fltColl1 else d.fltColl0

/-- Set a collision bit (R44, R218). -/
def DmaState.setColl (d : DmaState) (half : Bool) (k : Nat) : DmaState :=
  if half then { d with fltColl1 := d.fltColl1 ||| bitMask k } else { d with fltColl0 := d.fltColl0 ||| bitMask k }

/-! ## Error conditions (R320 to R329, R332) -/

/-- What raising a condition records, which is its whole effect: no position, status or mode is saved (R332). The operation goes on at
its next line. -/
def State.raise (s : State) : Condition → State
  | .hardwareAbsent => { s with initState := .noHardware }
  | .txNoSlot => { s with cntTxAgain := s.cntTxAgain + 1 }
  | .rxNoMemory => { s with cntRxNomem := s.cntRxNomem + 1 }
  | .frameIntegrity => { s with cntRxErr := s.cntRxErr + 1 }
  | .recordCorruption => s
  | .filterCollision => s
  | .invalidState => s
  | .refused => s
  | .socketFault => { s with spi := { s.spi with faultSock := true } }

/-- `raise <condition>` inside an operation. -/
def raise (c : Condition) : M Unit := modify fun s => s.raise c

/-! ## Answering -/

/-- The operation ends by writing its result in RES_BUF (R112). -/
def State.respond (s : State) (r : Result) : State := { s with resBuf := r.bytes }

/-- Run one host operation to its end (R4): its result goes to RES_BUF. -/
def runCommand (m : M Result) (s : State) : Host.Outcome State Fault Refusal :=
  match m s with
  | .ok (r, t) => .next (t.respond r)
  | .error (.fault f) => .fault f
  | .error (.refuse r) => .refused r

/-- Run something that answers the host nothing. -/
def runSilent (m : M Unit) (s : State) : Host.Outcome State Fault Refusal :=
  match m s with
  | .ok (_, t) => .next t
  | .error (.fault f) => .fault f
  | .error (.refuse r) => .refused r

end Sys2Proof.Machine
end

