-- ==== Sys2Proof/Machine/Chip.lean ====
section
/-! DEFINITION. The SPI chip (R54 to R68): what a transaction's bytes read and store (R234, R235), the socket commands (R263 to R267),
the software reset (R274), and the ring updates of the chip's own steps (R268, R269). -/

namespace Sys2Proof.Machine

/-- S_SR's two values (R65). -/
def srClosed : Byte := 0x00
def srMacraw : Byte := 0x42

/-- The pointer difference `(a - b) mod 2^16` (R68). -/
def ptrDiff (a b : U16) : Nat := (a - b).toNat

/-- S_TX_FSR as R266 and R268 compute it: `TXBUF_BYTES - ((tx_wr_committed - S_TX_RD) mod 2^16)`. -/
def Chip.freeSpace (c : Chip) : U16 := BitVec.ofNat 16 (c.txBytes - ptrDiff c.txWrCommitted c.sTxRd)

/-- Reset start (R274): every register of blocks 0 and 1 at its reset value, the hidden pointers zero, the socket closed, MR = 0x80. The
ring bytes stay; the link bits follow the oracle. -/
def Chip.resetStart (c : Chip) : Chip :=
  { Chip.reset with mr := 0x80, link := c.link, rxMem := c.rxMem, txMem := c.txMem }

/-- OPEN in raw-frame mode with legal sizes (R264). The contents of both ring buffers are unspecified afterwards (R68): no byte is listed,
so a byte read before it is stored again faults (U4). -/
def Chip.opened (c : Chip) : Chip :=
  { c with
    sSr := srMacraw
    rxBytes := c.sRxbufSize.toNat * 1024
    txBytes := c.sTxbufSize.toNat * 1024
    sTxRd := 0
    sTxWr := 0
    sRxRd := 0
    sRxWr := 0
    rxRdCommitted := 0
    txWrCommitted := 0
    sRxRsr := 0
    sTxFsr := BitVec.ofNat 16 (c.sTxbufSize.toNat * 1024)
    sendQueue := []
    rxMem := []
    txMem := [] }

/-- CLOSE (R265). -/
def Chip.closed (c : Chip) : Chip := { c with sSr := srClosed, sendQueue := [] }

/-- SEND on an open socket with new bytes (R266). -/
def Chip.queued (c : Chip) : Chip :=
  let c1 := { c with sendQueue := c.sendQueue ++ [c.sTxWr], txWrCommitted := c.sTxWr }
  { c1 with sTxFsr := c1.freeSpace }

/-- RECV on an open socket (R267). -/
def Chip.acknowledged (c : Chip) : Chip :=
  { c with rxRdCommitted := c.sRxRd, sRxRsr := BitVec.ofNat 16 (ptrDiff c.sRxWr c.sRxRd) }

/-- OPEN (R264): nothing unless S_MR.P = 4; an illegal buffer size faults (U9). -/
def chipOpen : M Unit := do
  let s ← get
  let c := s.spi.chip
  if c.sMr &&& 0x0F = 0x04 then
    if legalBufKb c.sRxbufSize.toNat && legalBufKb c.sTxbufSize.toNat then modifyChip Chip.opened
    else stopFault .badSocketBufferSize
  else pure ()

/-- SEND (R266): a write pointer past the free space faults (U14). -/
def chipSend : M Unit := do
  let s ← get
  let c := s.spi.chip
  if c.sSr = srMacraw ∧ c.sTxWr ≠ c.txWrCommitted then
    if ptrDiff c.sTxWr c.txWrCommitted ≤ c.sTxFsr.toNat then modifyChip Chip.queued
    else stopFault .sendPointerPastFree
  else pure ()

/-- RECV (R267): a read pointer past S_RX_WR faults (U14). -/
def chipRecv : M Unit := do
  let s ← get
  let c := s.spi.chip
  if c.sSr = srMacraw then
    if ptrDiff c.sRxRd c.rxRdCommitted ≤ c.sRxRsr.toNat then modifyChip Chip.acknowledged
    else stopFault .receivePointerPastWrite
  else pure ()

/-- The socket command `v` is executed at the moment S_CR is written (R127, R263); a value outside R127 is ignored (U10). -/
def chipCommand (v : Byte) : M Unit :=
  if v = 0x01 then chipOpen
  else if v = 0x10 then modifyChip Chip.closed
  else if v = 0x20 then chipSend
  else if v = 0x40 then chipRecv
  else pure ()

/-- A `u16` register with its more significant byte replaced (R83, R234). -/
def withHi (r : U16) (v : Byte) : U16 := join16 v (lo8 r)

/-- A `u16` register with its less significant byte replaced. -/
def withLo (r : U16) (v : Byte) : U16 := join16 (hi8 r) v

/-- PHYCFGR (R59): bits 2:0 follow the link oracle, bits 7:3 are drawn (U5). -/
def phycfgrValue (l : ChipLink) (drawn : Byte) : Byte :=
  (drawn &&& 0xF8) ||| (if l.up then 0x01#8 else 0) ||| (if l.spd100 then 0x02#8 else 0) ||| (if l.full then 0x04#8 else 0)

/-- A byte of the common registers (R54, R234). -/
def commonByte (s : State) (a : Nat) : M Byte :=
  let c := s.spi.chip
  match a with
  | 0x0000 => pure c.mr
  | 0x0009 => pure c.shar.b0
  | 0x000A => pure c.shar.b1
  | 0x000B => pure c.shar.b2
  | 0x000C => pure c.shar.b3
  | 0x000D => pure c.shar.b4
  | 0x000E => pure c.shar.b5
  | 0x0018 => pure c.simr
  | 0x0019 => pure (hi8 c.scratch)
  | 0x001A => pure (lo8 c.scratch)
  | 0x002E => do
    let v ← drawChipByte
    pure (phycfgrValue c.link v)
  | 0x0039 => pure s.cfg.chipVersion
  | _ => drawChipByte

/-- A byte of the socket registers (R61, R234); S_CR reads 0 (R263). -/
def socketByte (c : Chip) (a : Nat) : M Byte :=
  match a with
  | 0x0000 => pure c.sMr
  | 0x0001 => pure 0x00
  | 0x0002 => pure c.sIr
  | 0x0003 => pure c.sSr
  | 0x001E => pure c.sRxbufSize
  | 0x001F => pure c.sTxbufSize
  | 0x0020 => pure (hi8 c.sTxFsr)
  | 0x0021 => pure (lo8 c.sTxFsr)
  | 0x0022 => pure (hi8 c.sTxRd)
  | 0x0023 => pure (lo8 c.sTxRd)
  | 0x0024 => pure (hi8 c.sTxWr)
  | 0x0025 => pure (lo8 c.sTxWr)
  | 0x0026 => pure (hi8 c.sRxRsr)
  | 0x0027 => pure (lo8 c.sRxRsr)
  | 0x0028 => pure (hi8 c.sRxRd)
  | 0x0029 => pure (lo8 c.sRxRd)
  | 0x002A => pure (hi8 c.sRxWr)
  | 0x002B => pure (lo8 c.sRxWr)
  | 0x002C => pure c.sImr
  | _ => drawChipByte

/-- A byte of a chip ring, or a fault where nothing was ever stored (U4). -/
def chipRingByte (sp : Space) (m : Memory) (size a : Nat) : M Byte :=
  orFault (Memory.read? m (ringIndex size a)) (.unspecifiedRead sp (ringIndex size a))

/-- `ChipByte(bsb, a)` (R234). -/
def chipByte (bsb : Nat) (a : Nat) : M Byte := do
  let s ← get
  let c := s.spi.chip
  if s.cfg.chipPresent then
    match bsb with
    | 0 => commonByte s a
    | 1 => socketByte c a
    | 2 => chipRingByte .chipTx c.txMem c.txBytes a
    | 3 => chipRingByte .chipRx c.rxMem c.rxBytes a
    | _ => stopRefuse (.reservedChipBlock bsb)
  else pure s.cfg.floatByte

/-- A write of a common register byte (R54, R235); MR with bit 7 set starts the reset (R274). -/
def Chip.storeCommon (c : Chip) (a : Nat) (v : Byte) : Chip :=
  match a with
  | 0x0000 => if v.getLsbD 7 then c.resetStart else { c with mr := v }
  | 0x0009 => { c with shar := { c.shar with b0 := v } }
  | 0x000A => { c with shar := { c.shar with b1 := v } }
  | 0x000B => { c with shar := { c.shar with b2 := v } }
  | 0x000C => { c with shar := { c.shar with b3 := v } }
  | 0x000D => { c with shar := { c.shar with b4 := v } }
  | 0x000E => { c with shar := { c.shar with b5 := v } }
  | 0x0018 => { c with simr := v }
  | 0x0019 => { c with scratch := withHi c.scratch v }
  | 0x001A => { c with scratch := withLo c.scratch v }
  | _ => c

/-- A write of a socket register byte other than S_CR (R61, R235); read-only and reserved addresses ignore it. -/
def Chip.storeSocket (c : Chip) (a : Nat) (v : Byte) : Chip :=
  match a with
  | 0x0000 => { c with sMr := v }
  | 0x0002 => { c with sIr := w1c8 c.sIr v }
  | 0x001E => { c with sRxbufSize := v }
  | 0x001F => { c with sTxbufSize := v }
  | 0x0024 => { c with sTxWr := withHi c.sTxWr v }
  | 0x0025 => { c with sTxWr := withLo c.sTxWr v }
  | 0x0028 => { c with sRxRd := withHi c.sRxRd v }
  | 0x0029 => { c with sRxRd := withLo c.sRxRd v }
  | 0x002C => { c with sImr := v }
  | _ => c

/-- `ChipStore(bsb, a, v)` (R235). -/
def chipStore (bsb : Nat) (a : Nat) (v : Byte) : M Unit := do
  let s ← get
  if s.cfg.chipPresent then
    match bsb with
    | 0 => modifyChip fun c => c.storeCommon a v
    | 1 => if a = 0x0001 then chipCommand v else modifyChip fun c => c.storeSocket a v
    | 2 => modifyChip fun c => { c with txMem := Memory.write c.txMem (ringIndex c.txBytes a) v }
    | 3 => pure ()
    | _ => stopRefuse (.reservedChipBlock bsb)
  else pure ()

/-- The chip takes a transaction's header (R118, R119): the block and the address it selects. An absent chip takes nothing, and no byte it
would answer depends on it. -/
def chipSelected (write : Bool) (header : List Byte) : M (Nat × Nat) :=
  match headerFields write header with
  | some (bsb, addr, 0b00#2) => pure (bsb.toNat, addr.toNat)
  | _ => stopRefuse (.reservedTransaction header)

/-! ## The chip's own steps on its rings -/

/-- An unmasked cause latches the interrupt edge (R268, R269). -/
def latches (c : Chip) (cause : Nat) : Bool := c.simr.getLsbD 0 && c.sImr.getLsbD cause

/-- The chip after it has put the frame up to `e` on the wire, the rest of the queue being `rest` (R268). -/
def Chip.sent (c : Chip) (e : U16) (rest : List U16) : Chip :=
  let c1 := { c with sendQueue := rest, sTxRd := e, sIr := c.sIr ||| 0x10 }
  { c1 with sTxFsr := c1.freeSpace }

/-- The record of a frame (R120). -/
def recordOf (bytes : List Byte) : List Byte := putBe16 (BitVec.ofNat 16 (bytes.length + 2)) ++ bytes

/-- The chip after it has appended a frame's record to its receive ring (R269). -/
def Chip.received (c : Chip) (bytes : List Byte) : Chip :=
  { c with
    rxMem := ringWrite c.rxMem c.rxBytes c.sRxWr.toNat (recordOf bytes)
    sRxWr := c.sRxWr + BitVec.ofNat 16 (bytes.length + 2)
    sRxRsr := c.sRxRsr + BitVec.ofNat 16 (bytes.length + 2)
    sIr := c.sIr ||| 0x04 }

/-- The chip admits the frame (R269). -/
def chipAdmits (c : Chip) (bytes : List Byte) (err : Byte) : Bool :=
  decide (14 ≤ bytes.length) && err == 0 && decide (bytes.length + 2 ≤ c.rxBytes - c.sRxRsr.toNat)
  && (!c.sMr.getLsbD 7 || destination bytes == c.shar || broadcast (destination bytes) || group (destination bytes))

end Sys2Proof.Machine
end

