-- ==== Sys2Proof/Machine/Phy.lean ====
section
/-! DEFINITION. The PHY's side of the management bus (R49, R188, R189). -/

namespace Sys2Proof.Machine

/-- The value listed for a register number. -/
def lookupReg : List (Nat × U16) → Nat → Option U16
  | [], _ => none
  | (k, v) :: rest, a => if k = a then some v else lookupReg rest a

/-- Store a register, numbers rising. -/
def storeReg : List (Nat × U16) → Nat → U16 → List (Nat × U16)
  | [], a, w => [(a, w)]
  | (k, v) :: rest, a, w =>
    if a < k then (a, w) :: (k, v) :: rest
    else if a = k then (a, w) :: rest
    else (k, v) :: storeReg rest a w

/-- `v` with bit `k` replaced. -/
def withBit (v : U16) (k : Nat) (b : Bool) : U16 :=
  if b then v ||| (1#16 <<< k) else v &&& ~~~(1#16 <<< k)

/-- LINKREG: bit 2 is the live link, every other bit is drawn (R188, R189). -/
def linkRegValue (l : PhyLink) (drawn : U16) : U16 := withBit drawn 2 l.up

/-- STSREG: bits 0, 1, 2, 4 and 14 are driven, the others drawn (R188, R189). -/
def stsRegValue (l : PhyLink) (drawn : U16) : U16 :=
  withBit (withBit (withBit (withBit (withBit drawn 0 l.up) 1 l.speed10) 2 l.full) 4 l.autonegDone) 14 l.mdix

/-- A direct register the PHY keeps as plain storage, or its default (R189). -/
def Phy.regValue (p : Phy) (ra : Nat) : U16 := (lookupReg p.reg ra).getD (Config.phyRegDefault ra)

/-- An extended register, or its default (R189). -/
def Phy.extValue (p : Phy) (a : Nat) : U16 := (lookupReg p.ext a).getD (Config.phyExtDefault a)

/-- The function field of REGCR is data (R188, R189). -/
def Phy.dataFunction (p : Phy) : Bool := p.regcr.extractLsb' 14 2 == 1#2

/-- `PhyRegRead(ra)` (R189). -/
def phyRegRead (ra : BitVec 5) : M U16 := do
  let s ← get
  let p := s.dma.phy
  if ra = 0x01 then do
    let v ← drawPhyBits
    pure (linkRegValue p.link v)
  else if ra = 0x02 then pure (s.cfg.phyId.extractLsb' 16 16)
  else if ra = 0x03 then pure (s.cfg.phyId.extractLsb' 0 16)
  else if ra = 0x10 then do
    let v ← drawPhyBits
    pure (stsRegValue p.link v)
  else if ra = 0x0E then
    if p.dataFunction then pure (p.extValue p.extAddr.toNat) else pure p.extAddr
  else pure (p.regValue ra.toNat)

/-- `PhyRegWrite(ra, v)` (R189). REGCR (0x0D) is kept in its own latch and not in `reg`. -/
def Phy.regWrite (p : Phy) (ra : BitVec 5) (v : U16) : Phy :=
  if ra = 0x0D then { p with regcr := v }
  else if ra = 0x0E then
    if p.dataFunction then { p with ext := storeReg p.ext p.extAddr.toNat v } else { p with extAddr := v }
  else if ra = 0x01 ∨ ra = 0x02 ∨ ra = 0x03 ∨ ra = 0x10 then p
  else { p with reg := storeReg p.reg ra.toNat v }

/-- The reset pulse: the PHY's registers go to its own defaults and the two latches to 0 (R190 P3, R351). The link stays as it is. -/
def Phy.pulse (p : Phy) : Phy := { p with reg := [], ext := [], regcr := 0, extAddr := 0 }

end Sys2Proof.Machine
end

