-- ==== Sys2Proof/Machine/Agents.lean ====
section
/-! DEFINITION. The steps of the agents other than the host (R2, R129) and where they fall: after each micro-step of a host operation
(R3), as the script and the prompt schedule of State say (R372). -/

namespace Sys2Proof.Machine

/-! ## DMA build -/

/-- The station address the hardware matches: `{PALR, PAUR[31:16]}` as six bytes (R209). -/
def stationAddress (r : MacRegs) : MacAddr :=
  ⟨r.palr.extractLsb' 24 8, r.palr.extractLsb' 16 8, r.palr.extractLsb' 8 8, r.palr.extractLsb' 0 8,
    r.paur.extractLsb' 24 8, r.paur.extractLsb' 16 8⟩

/-- The presence bit of a bucket (R42). -/
def presenceBit (r : MacRegs) (b : BitVec 6) : Bool :=
  (if bucketHalf b then r.fltPres1 else r.fltPres0).getLsbD (bucketBit b)

/-- Wire admission (R209). -/
def dmaAdmits (c : Config) (r : MacRegs) (bytes : List Byte) : Bool :=
  r.ecr.getLsbD 0 && decide (14 ≤ bytes.length)
  && (r.rcr.getLsbD 0 || destination bytes == stationAddress r || broadcast (destination bytes)
    || presenceBit r (filterHash c (destination bytes)))

/-- RCR.MAX_FL (R40). -/
def rcrMaxFl (r : MacRegs) : Nat := (r.rcr.extractLsb' 16 14).toNat

/-- The error bits the receive engine writes for a frame of `n` bytes (R210). -/
def rxErrorBits (c : Config) (r : MacRegs) (n : Nat) (err : Byte) : U16 :=
  (err.zeroExtend 16 &&& rxErrMask)
  ||| (if rcrMaxFl r < n + 4 then bitLg else 0) ||| (if c.bufSize < n then bitTr else 0)

/-- The receive ring engine on an admitted frame (R210): descriptor `hw_rx_idx`, direct memory access, STATUS last. -/
def rxEngine (bytes : List Byte) (err : Byte) : M Unit := do
  let s ← get
  if s.dma.rxActive then do
    let i := s.dma.hwRxIdx
    let desc := descAddr s.dma.regs.rdsr i
    let st ← readStatus desc
    if owned st then do
      let buf ← readBuf desc
      let k := min bytes.length s.cfg.bufSize
      dmaWriteBytes buf.toNat (bytes.take k)
      writeLen desc (BitVec.ofNat 16 k)
      writeStatus desc ((st &&& bitWrap) ||| bitLast ||| rxErrorBits s.cfg s.dma.regs bytes.length err)
      modifyDma fun d => { d with regs := { d.regs with eir := setEvent d.regs.eir 0 }, hwRxIdx := advance st i }
    else modifyDma fun d => { d with rxActive := false }
  else pure ()

/-- !WIRE_RX on the DMA build (R209, R210). -/
def dmaWireRx (bytes : List Byte) (err : Byte) : M Unit := do
  let s ← get
  if dmaAdmits s.cfg s.dma.regs bytes then rxEngine bytes err else pure ()

/-- A ready transmit descriptor is one the host rules produce; any other faults (U12). -/
def txDescriptorLegal (c : Config) (st : U16) (len : Nat) : Bool :=
  st.getLsbD 10 && st.getLsbD 11 && decide (0 < len) && decide (len ≤ c.bufSize)

/-- The transmit ring engine, !DMA_TX (R213). -/
def txEngine : M Unit := do
  let s ← get
  if s.dma.regs.ecr.getLsbD 0 && s.dma.txActive then do
    let i := s.dma.hwTxIdx
    let desc := descAddr s.dma.regs.tdsr i
    let st ← readStatus desc
    if owned st then do
      let len ← readLen desc
      if txDescriptorLegal s.cfg st len.toNat then do
        let buf ← readBuf desc
        let f ← dmaReadBytes buf.toNat len.toNat
        modify fun s => { s with wireTxLog := s.wireTxLog ++ [f] }
        writeStatus desc (st &&& bitWrap)
        modifyDma fun d => { d with regs := { d.regs with eir := setEvent d.regs.eir 2 }, hwTxIdx := advance st i }
      else stopFault (.badTransmitDescriptor i)
    else modifyDma fun d => { d with txActive := false }
  else pure ()

/-- The DMA interrupt agent, !ISR (R211, R330): RXF is cleared, then the flag is set. -/
def dmaIsr : M Unit := do
  let s ← get
  if dmaLine s.dma.regs then do
    modifyDma fun d => d.macWrite .eir 0x00000001
    setRxPending
  else pure ()

/-- The management-bus engine is enabled (R182). -/
def mdioEnabled (d : DmaState) : Bool := d.clocksOn && d.mdioBusy && !d.regs.eir.getLsbD 1

/-- MMFR's DATA and the completion flag as the engine leaves them (R182). -/
def finishMdio (v : U16) (d : DmaState) : DmaState :=
  { d with regs := { d.regs with mmfr := mmfrWithData d.regs.mmfr v, eir := setEvent d.regs.eir 1 } }

/-- The management-bus engine's completion, !MDIO_DONE (R182): an unanswered read returns all ones, an unanswered write is lost. -/
def mdioComplete : M Unit := do
  let s ← get
  if mdioEnabled s.dma then do
    let f := s.dma.regs.mmfr
    let answers := s.cfg.phyPresent && mmfrPa f == s.cfg.phyAddr
    if mmfrOp f = 0b10#2 then
      if answers then do
        let v ← phyRegRead (mmfrRa f)
        modifyDma (finishMdio v)
      else modifyDma (finishMdio 0xFFFF)
    else if mmfrOp f = 0b01#2 then
      if answers then modifyDma fun d => finishMdio (mmfrData f) { d with phy := d.phy.regWrite (mmfrRa f) (mmfrData f) }
      else modifyDma (finishMdio (mmfrData f))
    else modifyDma (finishMdio (mmfrData f))
  else pure ()

/-- `phy_link` as !LINK sets it (R216): bits 4:0 only. -/
def phyLinkOf (f : Byte) : PhyLink :=
  ⟨f.getLsbD 0, !f.getLsbD 1, f.getLsbD 2, f.getLsbD 3, f.getLsbD 4⟩

/-! ## SPI build -/

/-- The edge of the chip's interrupt line for one cause (R268, R269). -/
def latchCause (cause : Nat) : M Unit :=
  modifySpi fun p => if latches p.chip cause then { p with intLatched := true } else p

/-- !WIRE_RX on the SPI build (R269). -/
def chipWireRx (bytes : List Byte) (err : Byte) : M Unit := do
  let s ← get
  if s.spi.chip.sSr = srMacraw ∧ chipAdmits s.spi.chip bytes err then do
    modifyChip fun c => c.received bytes
    latchCause 2
  else pure ()

/-- !CHIP_SEND_DONE (R268): the oldest queued frame goes on the wire. -/
def chipSendDone : M Unit := do
  let s ← get
  let c := s.spi.chip
  match c.sendQueue with
  | [] => pure ()
  | e :: rest =>
    if c.sSr = srMacraw then do
      let f ← orFault (ringRead c.txMem c.txBytes c.sTxRd.toNat (ptrDiff e c.sTxRd)) (.unspecifiedRead .chipTx c.sTxRd.toNat)
      modify fun s => { s with wireTxLog := s.wireTxLog ++ [f] }
      modifyChip fun c => c.sent e rest
      latchCause 4
    else pure ()

/-- !CHIP_RESET_DONE (R270). -/
def chipResetDone : M Unit := do
  let s ← get
  if s.cfg.chipPresent && s.spi.chip.mr.getLsbD 7 then modifyChip fun c => { c with mr := 0x00 } else pure ()

/-- The SPI interrupt agent, !ISR (R271, R101): only with the line wired and chip select idle. -/
def spiIsr : M Unit := do
  let s ← get
  if s.cfg.spiIntWired && s.spi.intLatched && !s.spi.csActive then do
    modifySpi fun p => { p with intLatched := false }
    setSpiFlags
  else pure ()

/-- `chip_link` as !LINK sets it (R272): bits 2:0 only. -/
def chipLinkOf (f : Byte) : ChipLink := ⟨f.getLsbD 0, f.getLsbD 1, f.getLsbD 2⟩

/-- !RING_FAULT (R273): one byte of the receive ring is damaged while the socket is open. -/
def ringFault (a : U16) (v : Byte) : M Unit := do
  let s ← get
  if s.spi.chip.sSr = srMacraw then
    modifyChip fun c => { c with rxMem := Memory.write c.rxMem (ringIndex c.rxBytes a.toNat) v }
  else pure ()

/-! ## One agent step -/

/-- Run the DMA side or the SPI side, whichever is built (R1). -/
def byBackend {α : Type} (dma spi : M α) : M α := do
  let s ← get
  match s.cfg.backend with
  | .dma => dma
  | .spi => spi

/-- One step of an agent (R129). A step that is not enabled, or whose agent this build does not have, is a no-op (R1, R129). -/
def agentStep : AgentStep → M Unit
  | .wireRx bytes err => byBackend (dmaWireRx bytes err) (chipWireRx bytes err)
  | .dmaTx => byBackend txEngine (pure ())
  | .isr => byBackend dmaIsr spiIsr
  | .mdioDone => byBackend mdioComplete (pure ())
  | .link f =>
    byBackend (modifyDma fun d => { d with phy := { d.phy with link := phyLinkOf f } })
      (modifyChip fun c => { c with link := chipLinkOf f })
  | .chipSendDone => byBackend (pure ()) chipSendDone
  | .chipResetDone => byBackend (pure ()) chipResetDone
  | .ringFault a v => byBackend (pure ()) (ringFault a v)

/-! ## The schedule -/

/-- Agent steps one after the other. -/
def runSteps : List AgentStep → M Unit
  | [] => pure ()
  | a :: rest => do
    agentStep a
    runSteps rest

/-- The same agent step `n` times; a step that is no longer enabled does nothing. -/
def repeatStep (a : AgentStep) : Nat → M Unit
  | 0 => pure ()
  | n + 1 => do
    agentStep a
    repeatStep a n

/-- The script's entry for this boundary, if there is one (R3). -/
def scriptedSteps : M Unit := do
  let s ← get
  match s.script with
  | [] => pure ()
  | e :: rest => do
    set { s with script := rest }
    runSteps e

/-- The completions the prompt schedule makes happen here (R197, R372): a transmit engine that is not idle goes on until it is, a chip
with queued frames sends them all. -/
def promptSteps : M Unit := do
  let s ← get
  onlyIf s.prompt.mdioDone (agentStep .mdioDone)
  onlyIf s.prompt.chipResetDone (agentStep .chipResetDone)
  onlyIf s.prompt.chipSendDone (repeatStep .chipSendDone s.spi.chip.sendQueue.length)
  onlyIf s.prompt.dmaTx (repeatStep .dmaTx (s.cfg.nTx + 1))
  onlyIf s.prompt.isr (agentStep .isr)

/-- What happens between two micro-steps, and between two operations (R3): any agent steps the schedule holds. That a boundary's scripted
steps come before its prompt completions is a DESIGN CHOICE (assumption log 19): R372 gives no order between the two. -/
def boundary : M Unit := do
  scriptedSteps
  promptSteps

/-- One micro-step of a host operation and the boundary after it (R3). -/
def micro {α : Type} (m : M α) : M α := do
  let a ← m
  boundary
  pure a

/-- One event as an input of its own (R129): the agent's step, then whatever the prompt schedule makes follow. -/
def runEvent (a : AgentStep) (s : State) : Host.Outcome State Fault Refusal := runSilent (micro (agentStep a)) s

end Sys2Proof.Machine
end

