-- ==== Sys2Proof/Machine/Mdio.lean ====
section
/-! DEFINITION. The host's side of the management bus: issue, collect, the bounded blocking wrappers (R181, R183 to R185) and PHY access
with extended addressing (R186, R187). -/

namespace Sys2Proof.Machine

/-- `mdio_busy <- b` (R48). -/
def setMdioBusy (b : Bool) : M Unit := modifyDma fun d => { d with mdioBusy := b }

/-- `MdioIssue(frame)` (R181): three micro-steps, or nothing at all when a transaction is in flight. -/
def mdioIssue (frame : U32) : M Bool := do
  let s ← get
  if s.dma.mdioBusy then pure false
  else do
    micro (macWrite .eir 0x00000002)
    micro (macWrite .mmfr frame)
    micro (setMdioBusy true)
    pure true

/-- `MdioCollect()` (R183): up to three micro-steps; the flag's clearing and `mdio_busy <- false` are one, so that the engine cannot run
the same frame twice. -/
def mdioCollect : M (Option U16) := do
  let s ← get
  if s.dma.mdioBusy then do
    let e ← micro (macRead .eir)
    if e.getLsbD 1 then do
      let f ← micro (macRead .mmfr)
      micro (do macWrite .eir 0x00000002; setMdioBusy false)
      pure (some (mmfrData f))
    else pure none
  else pure none

/-- The blocking wrapper's loop (R184): `n` collects, then the transaction is abandoned. -/
def mdioAwait : Nat → M (Option U16)
  | 0 => do
    micro (setMdioBusy false)
    pure none
  | n + 1 => do
    let r ← mdioCollect
    match r with
    | some v => pure (some v)
    | none => mdioAwait n

/-- Issue a frame and wait for it, within MDIO_POLL_BOUND collects (R184, R185). -/
def mdioTransact (frame : U32) : M (Option U16) := do
  let c ← config
  let issued ← mdioIssue frame
  if issued then mdioAwait c.mdioPollBound else pure none

/-- `MdioRead(ra)` (R184). -/
def mdioRead (ra : BitVec 5) : M (Option U16) := do
  let c ← config
  mdioTransact (mmfrRead c ra)

/-- `MdioWrite(ra, v)` (R185). -/
def mdioWrite (ra : BitVec 5) (v : U16) : M Bool := do
  let c ← config
  let r ← mdioTransact (mmfrWrite c ra v)
  pure r.isSome

/-- Select extended register `a` (R186): function address, the address, function data; false as soon as one write fails. -/
def phySelect (a : U16) : M Bool := do
  let w1 ← mdioWrite 0x0D 0x001F
  if w1 then do
    let w2 ← mdioWrite 0x0E a
    if w2 then mdioWrite 0x0D 0x401F else pure false
  else pure false

/-- The threshold of extended addressing (R186). -/
def isDirect (a : U16) : Bool := decide (a.toNat ≤ 0x001F)

/-- `PhyRead(a)` (R186). -/
def phyRead (a : U16) : M (Option U16) := do
  if isDirect a then mdioRead (a.extractLsb' 0 5)
  else do
    let ok ← phySelect a
    if ok then mdioRead 0x0E else pure none

/-- `PhyWrite(a, v)` (R187). -/
def phyWrite (a : U16) (v : U16) : M Bool := do
  if isDirect a then mdioWrite (a.extractLsb' 0 5) v
  else do
    let ok ← phySelect a
    if ok then mdioWrite 0x0E v else pure false

end Sys2Proof.Machine
end

