-- ==== Sys2Proof/Machine/Dma.lean ====
section
/-! DEFINITION. The DMA backend's host operations: probe and initialisation (R190 to R196), its part of DEINIT (R198), receive (R205),
transmit (R207), the MAC filter (R217 to R219), the station address (R161). Each micro-step is marked `micro`. -/

namespace Sys2Proof.Machine

/-! ## Probe and initialisation -/

/-- The identity compare of P4 (R190). -/
def identityMatches (c : Config) : Option U16 → Option U16 → Bool
  | some h, some l => (h ++ l : U32) &&& c.phyIdMask == c.phyIdExpect &&& c.phyIdMask
  | _, _ => false

/-- The probe, P1 to P4 (R190, R355): clocks, pins, PHY reset pulse, identity; a failure rolls back and raises HardwareAbsent. -/
def dmaProbe : M Unit := do
  let c ← config
  micro (modifyDma fun d => { d with clocksOn := true })
  micro (modifyDma fun d => { d with pinsConfigured := true })
  micro (modifyDma fun d => { d with phyResetDone := true, phy := d.phy.pulse })
  let hi ← mdioRead 0x02
  let lo ← mdioRead 0x03
  if identityMatches c hi lo then modify fun s => { s with initState := .hasHardware }
  else do
    micro (modifyDma fun d => { d with phyResetDone := false })
    micro (modifyDma fun d => { d with pinsConfigured := false })
    micro (modifyDma fun d => { d with clocksOn := false })
    raise .hardwareAbsent

/-- P5, the tuning writes in list order (R191): false as soon as one fails. -/
def tune : List (U16 × U16) → M Bool
  | [] => pure true
  | (a, v) :: rest => do
    let ok ← phyWrite a v
    if ok then tune rest else pure false

/-- Zero one descriptor and point it at its buffer (R192). -/
def zeroDescriptor (desc : Nat) (buf : U32) : M Unit := do
  micro (writeLen desc 0)
  micro (writeStatus desc 0)
  micro (writeBuf desc buf)

/-- R192 for the descriptors `i .. i + n - 1` of one ring. -/
def zeroRing (ringBase bufBase : U32) (bufSize : Nat) : Nat → Nat → M Unit
  | _, 0 => pure ()
  | i, n + 1 => do
    zeroDescriptor (descAddr ringBase i) (bufBase + BitVec.ofNat 32 (i * bufSize))
    zeroRing ringBase bufBase bufSize (i + 1) n

/-- R193 for the receive descriptors `i .. i + n - 1`, the last of them the ring's last. -/
def seedRing (ringBase : U32) : Nat → Nat → M Unit
  | _, 0 => pure ()
  | i, n + 1 => do
    micro (writeStatus (descAddr ringBase i) (bitOwn ||| (if n = 0 then bitWrap else 0)))
    seedRing ringBase (i + 1) n

/-- P6 (R192, R193). -/
def dmaRings : M Unit := do
  let c ← config
  zeroRing c.rxRingBase c.rxBufBase c.bufSize 0 c.nRx
  zeroRing c.txRingBase c.txBufBase c.bufSize 0 c.nTx
  seedRing c.rxRingBase 0 c.nRx
  micro (writeStatus (descAddr c.txRingBase (c.nTx - 1)) bitWrap)

/-- The value of RCR (R194). -/
def rcrValue (c : Config) : U32 := (BitVec.ofNat 32 c.maxFl <<< 16) ||| (if c.promiscuous then 1 else 0)

/-- PALR then PAUR, two register writes (R161, R194, R363). -/
def dmaWriteStation (m : MacAddr) : M Unit := do
  micro (macWrite .palr (palrOf m))
  micro (macWrite .paur (paurOf m))

/-- P7 (R194). -/
def dmaProgram (m : MacAddr) : M Unit := do
  let c ← config
  micro (macWrite .rdsr c.rxRingBase)
  micro (macWrite .tdsr c.txRingBase)
  micro (macWrite .mrbr (BitVec.ofNat 32 c.bufSize))
  micro (macWrite .rcr (rcrValue c))
  micro (macWrite .acc c.csumFlags)
  modify fun s => { s with mac := m }
  dmaWriteStation m
  micro (macWrite .fltPres0 0)
  micro (macWrite .fltPres1 0)
  modifyDma fun d => { d with fltColl0 := 0, fltColl1 := 0 }

/-- P8 (R195). -/
def dmaUnmask : M Unit := do
  micro (macWrite .eir 0x00000007)
  micro (macWrite .eimr 0x00000001)

/-- P9 (R196): start-of-session values, then the MAC is enabled. -/
def dmaEnable : M Unit := do
  modifyDma fun d => { d with rxCursor := 0, txCursor := 0, lmState := .idle, lmLink := false }
  micro (modifyDma fun d => { d with rxPending := false })
  micro (macWrite .ecr 0x00000001)

/-- R192 to R196 with INIT's operand: cannot fail. -/
def dmaBringUp (m : MacAddr) : M Unit := do
  dmaRings
  dmaProgram m
  dmaUnmask
  dmaEnable

/-- The DMA part of DEINIT (R198, R357): mask, disable, clear. -/
def dmaShutDown : M Unit := do
  micro (macWrite .eimr 0x00000000)
  micro (macWrite .ecr 0x00000000)
  micro (macWrite .eir 0x00000007)
  micro (macWrite .fltPres0 0)
  micro (macWrite .fltPres1 0)
  micro (setMdioBusy false)

/-! ## Receive (R205) -/

/-- Lines 10 to 19: an error bit drops and counts the frame, then the allocation and the timestamp are drawn. -/
def dmaTakeFrame (i : Nat) (st : U16) (n : Nat) : M Received := do
  let c ← config
  if hasRxError st then do
    raise .frameIntegrity
    pure .nothing
  else do
    let allocOk ← drawAlloc
    if allocOk then do
      let b ← micro (hostReadBytes (rxBufAddr c i) n)
      let ts ← drawTimestamp
      pure (.frame ts b)
    else do
      raise .rxNoMemory
      pure .nothing

/-- Lines 20 to 24: re-arm, hand off, doorbell, advance, re-assert the flag (R93). -/
def dmaRearm (i : Nat) (st : U16) : M Unit := do
  let c ← config
  let desc := descAddr c.rxRingBase i
  micro (writeLen desc 0)
  micro (writeStatus desc (bitOwn ||| (st &&& bitWrap)))
  micro (macWrite .rdar 0x00000001)
  modifyDma fun d => { d with rxCursor := advance st i }
  micro setRxPending

/-- Lines 4 to 25 for the cursor's descriptor (R92, R93, R205). -/
def dmaReceive : M Received := do
  let s ← get
  let c := s.cfg
  let i := s.dma.rxCursor
  let desc := descAddr c.rxRingBase i
  let st ← micro (readStatus desc)
  if owned st then pure .nothing
  else do
    micro (modifyDma (cacheInvalidate (rxBufAddr c i) c.bufSize))
    let n ← micro (readLen desc)
    let r ← dmaTakeFrame i st n.toNat
    dmaRearm i st
    pure r

/-- Lines 3 to 25 of PROC_INPUT (R205): clear, then check (R97). -/
def dmaProcInput : M Received := do
  let pending ← micro testAndClearRxPending
  if pending then dmaReceive else pure .nothing

/-! ## Transmit (R207) -/

/-- The frame length the backend carries (R207 line 2, R259 line 2). -/
def carriable (c : Config) (bytes : List Byte) : Bool :=
  decide (bytes.length ≠ 0) && decide (bytes.length ≤ c.maxLenTagged)

/-- Lines 8 to 14: copy and flush (one micro-step, R3), LEN, hand-off, doorbell, advance (R94). -/
def dmaGive (i : Nat) (st : U16) (bytes : List Byte) : M Unit := do
  let c ← config
  let desc := descAddr c.txRingBase i
  micro (do
    hostWriteBytes (txBufAddr c i) bytes
    modifyDma (cacheFlush (txBufAddr c i) bytes.length))
  micro (writeLen desc (BitVec.ofNat 16 bytes.length))
  micro (writeStatus desc (bitOwn ||| bitLast ||| bitTc ||| (st &&& bitWrap)))
  micro (macWrite .tdar 0x00000001)
  modifyDma fun d => { d with txCursor := advance st i }

/-- Lines 3 to 14 of OUTPUT (R207). -/
def dmaOutput (bytes : List Byte) : M Status := do
  let s ← get
  let i := s.dma.txCursor
  let st ← micro (readStatus (descAddr s.cfg.txRingBase i))
  if owned st then do
    raise .txNoSlot
    pure .again
  else do
    dmaGive i st bytes
    pure .ok

/-! ## The MAC filter (R217 to R219) -/

/-- R218: a bit that is already set records a collision. -/
def filterAllow (half : Bool) (k : Nat) : M Status := do
  let p ← micro (macRead (presReg half))
  if p.getLsbD k then do
    modifyDma fun d => d.setColl half k
    pure .ok
  else do
    micro (macWrite (presReg half) (p ||| bitMask k))
    pure .ok

/-- R219: FilterCollision (R325) answers FALSE and changes nothing. -/
def filterDisallow (half : Bool) (k : Nat) : M Status := do
  let s ← get
  if (s.dma.coll half).getLsbD k then do
    raise .filterCollision
    pure .no
  else do
    let p ← micro (macRead (presReg half))
    micro (macWrite (presReg half) (p &&& ~~~bitMask k))
    pure .ok

/-- The body of R217, past the state gate. -/
def dmaFilter (m : MacAddr) (allow : Bool) : M Status := do
  let c ← config
  let b := filterHash c m
  if allow then filterAllow (bucketHalf b) (bucketBit b) else filterDisallow (bucketHalf b) (bucketBit b)

end Sys2Proof.Machine
end

