-- ==== Sys2Proof/Machine/SpiBus.lean ====
section
/-! DEFINITION. SPI transactions and what the host builds from them: SpiRead, SpiWrite, SpiRead16Stable, SockCommand, the status poll
(R231 to R233, R236). -/

namespace Sys2Proof.Machine

/-- `cs_active <- b` (R53). -/
def setCs (b : Bool) : M Unit := modifySpi fun p => { p with csActive := b }

/-- Byte `k` of a transaction belongs to address `addr + k` modulo 2^16 (R82, R118). -/
def chipAddress (addr k : Nat) : Nat := (addr + k) % 65536

/-- The bytes of a read transaction, in order (R231). -/
def chipBytes (bsb addr : Nat) : Nat → M (List Byte)
  | 0 => pure []
  | n + 1 => do
    let b ← chipByte bsb (chipAddress addr 0)
    let bs ← chipBytes bsb (addr + 1) n
    pure (b :: bs)

/-- The stores of a write transaction, in order (R232). -/
def chipStores (bsb addr : Nat) : List Byte → M Unit
  | [] => pure ()
  | b :: bs => do
    chipStore bsb (chipAddress addr 0) b
    chipStores bsb (addr + 1) bs

/-- The header of a transaction on block `bsb` from address `addr` on (R118, R119). -/
def headerOf (bsb addr : Nat) (write : Bool) : List Byte := spiHeader (BitVec.ofNat 5 bsb) (BitVec.ofNat 16 addr) write

/-- `SpiRead(bsb, addr, n)` (R231) but for the four registers the chip writes: one micro-step, chip select active inside it. -/
def spiRead (bsb addr n : Nat) : M (List Byte) :=
  micro (do
    setCs true
    let sel ← chipSelected false (headerOf bsb addr false)
    let out ← chipBytes sel.1 sel.2 n
    setCs false
    pure out)

/-- The transaction of a write, chip select active inside it (R118, R232). -/
def spiStores (bsb addr : Nat) (bytes : List Byte) : M Unit := do
  setCs true
  let sel ← chipSelected true (headerOf bsb addr true)
  chipStores sel.1 sel.2 bytes
  setCs false

/-- `SpiWrite(bsb, addr, bytes)` (R232): one micro-step. -/
def spiWrite (bsb addr : Nat) (bytes : List Byte) : M Unit := micro (spiStores bsb addr bytes)

/-- The first byte of a one-byte read. -/
def spiReadByte (bsb addr : Nat) : M Byte := do
  let b ← spiRead bsb addr 1
  pure (b.headD 0)

/-- A two-byte read of a register only the host writes, as `be16` (R252, R259). -/
def spiRead16 (bsb addr : Nat) : M Nat := do
  let b ← spiRead bsb addr 2
  pure (be16 b 0)

/-- A two-byte read of S_TX_FSR, S_TX_RD, S_RX_RSR or S_RX_WR (R85, R231): the agents may step between the bytes, chip select staying
active. -/
def spiReadTorn (bsb addr : Nat) : M Nat := do
  let hi ← micro (do
    setCs true
    let sel ← chipSelected false (headerOf bsb addr false)
    chipByte sel.1 (chipAddress sel.2 0))
  let lo ← micro (do
    let b ← chipByte bsb (chipAddress addr 1)
    setCs false
    pure b)
  pure (be16 [hi, lo] 0)

/-- The loop of `SpiRead16Stable` (R233). -/
def stableLoop (bsb addr : Nat) : Nat → M (Option Nat)
  | 0 => pure none
  | n + 1 => do
    let a ← spiReadTorn bsb addr
    let b ← spiReadTorn bsb addr
    if a = b then pure (some a) else stableLoop bsb addr n

/-- `SpiRead16Stable(bsb, addr)` (R233). -/
def spiRead16Stable (bsb addr : Nat) : M (Option Nat) := do
  let c ← config
  stableLoop bsb addr c.spiStableReadBound

/-- Up to `n` reads of a one-byte register until a test holds of it. -/
def pollByte (bsb addr : Nat) (p : Byte → Bool) : Nat → M Bool
  | 0 => pure false
  | n + 1 => do
    let b ← spiReadByte bsb addr
    if p b then pure true else pollByte bsb addr p n

/-- `SockCommand(c)` (R236): the command, then polls of S_CR until it reads 0. -/
def sockCommand (v : Byte) : M Bool := do
  let c ← config
  spiWrite 1 0x0001 [v]
  pollByte 1 0x0001 (fun b => b == 0x00) c.sockPollBound

/-- Polls of S_SR until it has a value, within SOCK_POLL_BOUND (R245, R248, R262). -/
def awaitSocket (v : Byte) : M Bool := do
  let c ← config
  pollByte 1 0x0003 (fun b => b == v) c.sockPollBound

/-- `Recover()` (R262): close, reopen; a socket that does not reopen raises SocketFault (R329). -/
def recover : M Unit := do
  let _ ← sockCommand 0x10
  let _ ← awaitSocket srClosed
  let _ ← sockCommand 0x01
  let ok ← awaitSocket srMacraw
  if ok then pure () else raise .socketFault

end Sys2Proof.Machine
end

