-- ==== Sys2Proof/Machine/Spi.lean ====
section
/-! DEFINITION. The SPI backend's host operations: probe and initialisation (R240 to R246), its part of DEINIT (R248), receive (R250 to
R258), transmit (R259), the filter operation (R261). -/

namespace Sys2Proof.Machine

/-! ## Probe and initialisation -/

/-- S2 (R241): start the software reset and poll its completion bit. -/
def spiReset : M Bool := do
  let c ← config
  spiWrite 0 0x0000 [0x80]
  pollByte 0 0x0000 (fun b => !b.getLsbD 7) c.spiResetPollBound

/-- One pattern of S3 (R242): written and read back. -/
def spiScratch (p : U16) : M Bool := do
  spiWrite 0 0x0019 (putBe16 p)
  let r ← spiRead16 0 0x0019
  pure (r == p.toNat)

/-- S3 (R242). -/
def spiSelfTest : M Bool := do
  let c ← config
  let a ← spiScratch c.patternA
  if a then spiScratch c.patternB else pure false

/-- S4's compare (R243). -/
def spiVersion : M Bool := do
  let c ← config
  let v ← spiReadByte 0 0x0039
  pure (v == c.chipVersionExpect)

/-- S1 to S4 without the milestone: the first that fails ends the probe. -/
def spiProbeSteps : M Bool := do
  micro (setCs false)
  let r ← spiReset
  if r then do
    let t ← spiSelfTest
    if t then spiVersion else pure false
  else pure false

/-- The probe (R240 to R243): success sets HardwareInitialized, failure raises HardwareAbsent. -/
def spiProbe : M Unit := do
  let ok ← spiProbeSteps
  if ok then modify fun s => { s with initState := .phyInitialized } else raise .hardwareAbsent

/-- The value of S_MR (R244): raw-frame mode, MFEN unless promiscuous. -/
def sMrValue (c : Config) : Byte := 0x04#8 ||| (if c.promiscuous then 0x00#8 else 0x80#8)

/-- The station address in the chip: one transaction of six bytes (R161, R244). -/
def spiWriteStation (m : MacAddr) : M Unit := spiWrite 0 0x0009 (macBytes m)

/-- S5 to S8 (R244). -/
def spiConfigure (m : MacAddr) : M Unit := do
  let c ← config
  modify fun s => { s with mac := m }
  spiWriteStation m
  spiWrite 1 0x0000 [sMrValue c]
  spiWrite 1 0x001E [BitVec.ofNat 8 c.rxbufKb]
  spiWrite 1 0x001F [BitVec.ofNat 8 c.txbufKb]
  spiWrite 1 0x002C [0x14]
  spiWrite 1 0x0002 [0xFF]
  spiWrite 0 0x0018 [if c.spiIntWired then 0x01 else 0x00]

/-- S9 (R245): OPEN and the poll of S_SR. -/
def spiOpenSocket : M Bool := do
  let _ ← sockCommand 0x01
  awaitSocket srMacraw

/-- R246. The two flags are atomic, so each clear is a micro-step of its own (R3). -/
def spiSessionValues : M Unit := do
  micro (modifySpi fun p => { p with rxPending := false })
  micro (modifySpi fun p => { p with txDone := false })
  modifySpi fun p => { p with intLatched := false, ibufStart := 0, ibufSize := 0, faultSock := false }

/-- R244 to R246: false if the socket does not open. -/
def spiBringUp (m : MacAddr) : M Bool := do
  spiConfigure m
  let ok ← spiOpenSocket
  if ok then do
    spiSessionValues
    pure true
  else pure false

/-- DEINIT's first micro-step on the SPI build: SIMR <- 0x00 (R248). "Masking first means the interrupt agent has no step after DEINIT's
first micro-step" (R357), so an edge latched before is dropped with it: DEDUCED (assumption log 13). -/
def spiMask : M Unit :=
  micro (do
    spiStores 0 0x0018 [0x00]
    modifySpi fun p => { p with intLatched := false })

/-- The SPI part of DEINIT (R248, R357). -/
def spiShutDown : M Unit := do
  spiMask
  let _ ← sockCommand 0x10
  let _ ← awaitSocket srClosed
  spiWrite 1 0x0002 [0xFF]

/-! ## Receive -/

/-- The bytes `ibuf[a .. a + n)`. From `ibuf_size` on the contents are unspecified, also where an earlier refill stored bytes (R103): such a
read faults (U4), like one of a byte nothing was ever stored to. -/
def ibufRead (a n : Nat) : M (List Byte) := do
  let s ← get
  orFault (if a + n ≤ s.spi.ibufSize then Memory.readBytes s.spi.ibuf a n else none) (.unspecifiedRead .ibuf a)

/-- `Pop()` (R258). -/
def spiPop : M Received := do
  let s ← get
  let p ← ibufRead s.spi.ibufStart 2
  let len := be16 p 0
  let f ← ibufRead (s.spi.ibufStart + 2) (len - 2)
  modifySpi fun q => { q with ibufStart := q.ibufStart + len }
  let allocOk ← drawAlloc
  if allocOk then do
    let ts ← drawTimestamp
    pure (.frame ts f)
  else do
    raise .rxNoMemory
    pure .nothing

/-- `Refill()` (R252): the unread byte count and the read pointer, the bytes being in `ibuf`; nothing when PROC_INPUT is to answer NONE.
An impossible count is corruption (R324). -/
def spiRefill : M (Option (Nat × Nat)) := do
  let c ← config
  let r ← spiRead16Stable 1 0x0026
  match r with
  | none => pure none
  | some 0 => pure none
  | some (n + 1) =>
    if c.rxbufKb * 1024 < n + 1 then do
      raise .recordCorruption
      recover
      pure none
    else do
      let rd ← spiRead16 1 0x0028
      let bs ← spiRead 3 rd (n + 1)
      modifySpi fun p => { p with ibuf := Memory.writeBytes p.ibuf 0 bs, ibufStart := 0, ibufSize := n + 1 }
      pure (some (n + 1, rd))

/-- The scanner's loop (R253) over the bytes `b`, from position `p`: where it stops, and whether at a corrupt prefix. `fuel` only bounds
the recursion: every pass moves `p` by at least REC_MIN_LEN. -/
def scanFrom (minLen : Nat) (b : List Byte) : Nat → Nat → Nat × Bool
  | 0, p => (p, false)
  | fuel + 1, p =>
    if b.length < p + 2 then (p, false)
    else if be16 b p < minLen then (p, true)
    else if b.length < p + be16 b p then (p, false)
    else scanFrom minLen b fuel (p + be16 b p)

/-- `Scan()` as a function (R253): the length of the leading complete records and whether a corrupt prefix follows them. -/
def scanRecords (minLen : Nat) (b : List Byte) : Nat × Bool := scanFrom minLen b (b.length + 1) 0

/-- `Ack(p)` (R255). -/
def spiAck (rd p : Nat) : M Unit := do
  spiWrite 1 0x0028 (putBe16 (BitVec.ofNat 16 (rd + p)))
  let _ ← sockCommand 0x40

/-- `Scan()` (R253 to R257) on the `r` bytes of the refill. -/
def spiScan (r rd : Nat) : M Unit := do
  let c ← config
  let b ← ibufRead 0 r
  let res := scanRecords c.recMinLen b
  modifySpi fun p => { p with ibufSize := res.1 }
  if res.2 then do
    raise .recordCorruption
    recover
  else if 0 < res.1 then spiAck rd res.1
  else pure ()

/-- Some record waits in the local buffer (R250 lines 3 and 9). -/
def recordWaits (p : SpiState) : Bool := decide (p.ibufStart < p.ibufSize)

/-- Lines 6 to 10 of R250: the chip is asked. -/
def spiFetch : M Received := do
  spiWrite 1 0x0002 [0x04]
  let r ← spiRefill
  match r with
  | none => pure .nothing
  | some (n, rd) => do
    spiScan n rd
    let s ← get
    if recordWaits s.spi then spiPop else pure .nothing

/-- Lines 3 to 10 of PROC_INPUT (R250, R251). -/
def spiProcInput : M Received := do
  let s ← get
  if recordWaits s.spi then spiPop
  else do
    modifySpi fun p => { p with ibufStart := 0, ibufSize := 0 }
    if s.cfg.spiIntWired then do
      let pending ← micro testAndClearSpiRxPending
      if pending then spiFetch else pure .nothing
    else spiFetch

/-! ## Transmit (R259) -/

/-- `TestAndClear(spi_tx_done)`, the value unused (lines 3 and 7). -/
def clearSpiTxDone : M Unit := do
  let _ ← micro testAndClearSpiTxDone

/-- The wait for room, lines 4 to 8: `n` looks at S_TX_FSR; with the line wired the flag is cleared after each look without room. -/
def spiAwaitRoom (len : Nat) : Nat → M Bool
  | 0 => pure false
  | n + 1 => do
    let c ← config
    let v ← spiRead16Stable 1 0x0020
    if len ≤ v.getD 0 ∧ v.isSome then pure true
    else do
      onlyIf c.spiIntWired clearSpiTxDone
      spiAwaitRoom len n

/-- Lines 11 to 15: the bytes, the write pointer, SEND. -/
def spiGive (bytes : List Byte) : M Unit := do
  let wr ← spiRead16 1 0x0024
  spiWrite 2 wr bytes
  spiWrite 1 0x0024 (putBe16 (BitVec.ofNat 16 (wr + bytes.length)))
  let _ ← sockCommand 0x20

/-- Lines 3 to 15 of OUTPUT (R259). -/
def spiOutput (bytes : List Byte) : M Status := do
  let c ← config
  onlyIf c.spiIntWired (do
    clearSpiTxDone
    spiWrite 1 0x0002 [0x10])
  let room ← spiAwaitRoom bytes.length c.spiTxWaitBound
  if room then do
    spiGive bytes
    pure .ok
  else do
    raise .txNoSlot
    pure .again

end Sys2Proof.Machine
end

