-- ==== Sys2Proof/Machine/Link.lean ====
section
/-! DEFINITION. The link-state monitor (R300 to R308): notification, evaluation, one POLL pass of each backend, the manual override. -/

namespace Sys2Proof.Machine

/-- `Notify(up)` (R300): one notification is one micro-step (R3). -/
def notify (up : Bool) : M Unit := micro (modify fun s => { s with notifyLog := s.notifyLog ++ [up] })

/-- `Evaluate(up)` (R301). -/
def evaluate (up : Bool) : M Unit := do
  let s ← get
  if s.linkManual && !up then pure ()
  else if up != s.linkReported then do
    modify fun s => { s with linkReported := up }
    notify up
  else pure ()

/-- `WriteLinkInfo(s)` (R303). -/
def dmaLinkInfo (v : U16) : LinkRecord :=
  ⟨if v.getLsbD 1 then 10 else 100, v.getLsbD 2, v.getLsbD 4, v.getLsbD 14⟩

/-- `WriteLinkInfo(v)` (R306). -/
def spiLinkInfo (v : Byte) : LinkRecord := ⟨if v.getLsbD 1 then 100 else 10, v.getLsbD 2, false, false⟩

/-- `link_info <- r`. -/
def writeLinkInfo (r : LinkRecord) : M Unit := modify fun s => { s with linkInfo := r }

/-- `lm_state <- x`. -/
def setLmState (x : LmState) : M Unit := modifyDma fun d => { d with lmState := x }

/-- LM_IDLE: issue the read of LINKREG (R302). -/
def pollIdle : M Unit := do
  let c ← config
  let issued ← mdioIssue (mmfrRead c 0x01)
  if issued then setLmState .waitLink else pure ()

/-- LM_WAIT_LINK: collect LINKREG, issue the read of STSREG (R302). -/
def pollWaitLink : M Unit := do
  let c ← config
  let r ← mdioCollect
  match r with
  | none => pure ()
  | some v => do
    modifyDma fun d => { d with lmLink := v.getLsbD 2 }
    let issued ← mdioIssue (mmfrRead c 0x10)
    if issued then setLmState .waitStatus else pure ()

/-- LM_WAIT_STATUS: collect STSREG, evaluate (R302). -/
def pollWaitStatus : M Unit := do
  let r ← mdioCollect
  match r with
  | none => pure ()
  | some v => do
    let s ← get
    onlyIf s.dma.lmLink (writeLinkInfo (dmaLinkInfo v))
    evaluate s.dma.lmLink
    setLmState .idle

/-- One POLL of the DMA monitor: at most one transition (R302). -/
def dmaPoll : M Unit := do
  let s ← get
  match s.dma.lmState with
  | .idle => pollIdle
  | .waitLink => pollWaitLink
  | .waitStatus => pollWaitStatus

/-- One POLL of the SPI monitor: one whole pass (R305). -/
def spiPoll : M Unit := do
  let v ← spiReadByte 0 0x002E
  onlyIf (v.getLsbD 0) (writeLinkInfo (spiLinkInfo v))
  evaluate (v.getLsbD 0)

/-- The body of FORCE_LINK_UP (R308). -/
def forceLink : M Unit := do
  modify fun s => { s with linkManual := true }
  evaluate true

end Sys2Proof.Machine
end

