-- ==== Sys2Proof/Machine/Contract.lean ====
section
/-! DEFINITION. The Driver Contract (40_contract_init.md): the init state machine, addresses, capabilities, link records, statistics. -/

namespace Sys2Proof.Machine

/-- The state gate (R162, R327): outside a session the operation raises InvalidState and answers INVALID, before any other step. -/
def gated (m : M Result) : M Result := do
  let s ← get
  if s.initState = .initialized then m
  else do
    raise .invalidState
    pure (.plain .invalid)

/-- OK without value bytes, after an operation that answers nothing. -/
def thenOk (m : M Unit) : M Result := do
  m
  pure (.plain .ok)

/-! ## Probing and initialisation -/

/-- The probe of the active backend (R151). -/
def probe : M Unit := byBackend dmaProbe spiProbe

/-- HAS_HARDWARE as a boolean (R151): only in Start is the hardware touched. -/
def hasHardware : M Bool := do
  let s ← get
  onlyIf (s.initState = .start) probe
  let t ← get
  pure (t.initState != .noHardware)

/-- The capability values INIT populates (R154, R158). -/
def capsOf (c : Config) : Caps :=
  match c.backend with
  | .dma => c.capsDma
  | .spi => c.capsSpi

/-- Session start (R154). -/
def sessionStart : M Unit :=
  modify fun s =>
    { s with
      caps := capsOf s.cfg
      capsRead := false
      linkReported := false
      linkManual := false
      linkInfo := LinkRecord.zero
      linkSettings := LinkRecord.zero
      initState := .initialized }

/-- INIT on the DMA build from state 2 or 3 (R153): tuning if needed, then R192 to R196. -/
def dmaInit (m : MacAddr) : M Bool := do
  let s ← get
  if s.initState = .hasHardware then do
    let ok ← tune s.cfg.phyTuning
    if ok then do
      modify fun s => { s with initState := .phyInitialized }
      dmaBringUp m
      pure true
    else pure false
  else do
    dmaBringUp m
    pure true

/-- INIT on the SPI build from state 2 or 3 (R153): in state 2 the probe runs again. -/
def spiInit (m : MacAddr) : M Bool := do
  let s ← get
  if s.initState = .hasHardware then do
    spiProbe
    let t ← get
    if t.initState = .noHardware then pure false else spiBringUp m
  else spiBringUp m

/-- INIT from state 2 or 3, and the session start (R153, R154). -/
def initialiseProbed (m : MacAddr) : M Bool := do
  let s ← get
  if s.initState = .noHardware then pure false
  else do
    let ok ← byBackend (dmaInit m) (spiInit m)
    if ok then do
      sessionStart
      pure true
    else pure false

/-- INIT (R153). -/
def initialise (m : MacAddr) : M Bool := do
  let s ← get
  if s.initState = .initialized then pure true
  else do
    onlyIf (s.initState = .start) probe
    initialiseProbed m

/-- OK for true, FALSE for false (R112). -/
def boolResult (b : Bool) : Result := .plain (if b then .ok else .no)

/-- The link is reported down at the end of a session (R156). -/
def reportDown : M Unit := do
  let s ← get
  if s.linkReported then do
    modify fun s => { s with linkReported := false }
    notify false
  else pure ()

/-- The assignments DEINIT makes in every state (R156), the backend's own part aside. -/
def State.sessionCleared (s : State) : State :=
  { s with
    caps := Caps.none
    capsRead := false
    linkInfo := LinkRecord.zero
    linkSettings := LinkRecord.zero
    linkReported := false
    linkManual := false }

/-- The DMA variables DEINIT puts back in every state (R156). -/
def DmaState.sessionCleared (d : DmaState) : DmaState :=
  { d with
    rxPending := false
    rxCursor := 0
    txCursor := 0
    lmState := .idle
    lmLink := false
    fltColl0 := 0
    fltColl1 := 0 }

/-- The SPI variables DEINIT puts back in every state (R156). -/
def SpiState.sessionCleared (p : SpiState) : SpiState :=
  { p with
    rxPending := false
    txDone := false
    intLatched := false
    ibufStart := 0
    ibufSize := 0
    faultSock := false }

/-- The first part of DEINIT: the end of a session (R156, R357). -/
def endSession : M Unit := do
  byBackend dmaShutDown spiShutDown
  reportDown
  modify fun s => { s with initState := .phyInitialized }

/-- From state 3 DEINIT goes on to state 2 (R156). -/
def State.stepBack (s : State) : State :=
  if s.initState = .phyInitialized then { s with initState := .hasHardware } else s

/-- DEINIT (R156, R357): it walks back to state 2, never further. -/
def deinitialise : M Unit := do
  let s ← get
  onlyIf (s.initState = .initialized) endSession
  modify State.stepBack
  modify State.sessionCleared
  byBackend (modifyDma DmaState.sessionCleared) (modifySpi SpiState.sessionCleared)

/-! ## The operations -/

/-- IS_UNKNOWN (R150). -/
def execIsUnknown (s : State) : Host.Outcome State Fault Refusal :=
  runCommand (do return boolResult ((← get).initState == .start)) s

/-- HAS_HARDWARE (R151). -/
def execHasHardware (s : State) : Host.Outcome State Fault Refusal :=
  runCommand (do return boolResult (← hasHardware)) s

/-- GET_SYSTEM_MAC (R159). -/
def execGetSystemMac (s : State) : Host.Outcome State Fault Refusal :=
  runCommand (do return ⟨.ok, macBytes (← config).systemMac⟩) s

/-- GET_MAC (R160). -/
def execGetMac (s : State) : Host.Outcome State Fault Refusal :=
  runCommand (do return ⟨.ok, macBytes (← get).mac⟩) s

/-- The body of SET_MAC (R161): the variable always, the hardware in a session. -/
def setMac (m : MacAddr) : M Unit := do
  modify fun s => { s with mac := m }
  let s ← get
  if s.initState = .initialized then byBackend (dmaWriteStation m) (spiWriteStation m) else pure ()

/-- SET_MAC (R161). -/
def execSetMac (m : MacAddr) (s : State) : Host.Outcome State Fault Refusal := runCommand (thenOk (setMac m)) s

/-- INIT (R153). -/
def execInit (m : MacAddr) (s : State) : Host.Outcome State Fault Refusal :=
  runCommand (do return boolResult (← initialise m)) s

/-- DEINIT (R156): always OK. -/
def execDeinit (s : State) : Host.Outcome State Fault Refusal := runCommand (thenOk deinitialise) s

/-- The body of GET_CAPABILITIES past the gate (R157): the second call of a session raises Refused (R328). -/
def capabilities : M Result := do
  let s ← get
  if s.capsRead then do
    raise .refused
    pure (.plain .refused)
  else do
    set { s with capsRead := true }
    pure ⟨.ok, putBe16 (capsWord s.caps)⟩

/-- GET_CAPABILITIES (R157). -/
def execGetCapabilities (s : State) : Host.Outcome State Fault Refusal := runCommand (gated capabilities) s

/-- POLL (R302, R305). -/
def pollOp : M Result := gated (thenOk (byBackend dmaPoll spiPoll))

/-- POLL (R302, R305). -/
def execPoll (s : State) : Host.Outcome State Fault Refusal := runCommand pollOp s

/-- FORCE_LINK_UP (R308). -/
def execForceLinkUp (s : State) : Host.Outcome State Fault Refusal := runCommand (gated (thenOk forceLink)) s

/-- SET_LINK_SETTINGS (R166). -/
def execSetLinkSettings (speed : U16) (fullDuplex autoneg crossover : Bool) (s : State) :
    Host.Outcome State Fault Refusal :=
  runCommand
    (gated (thenOk (modify fun s => { s with linkSettings := ⟨speed, fullDuplex, autoneg, crossover⟩ }))) s

/-- The value bytes of GET_LINK_INFO (R113, R167). -/
def State.linkInfoValue (s : State) : List Byte :=
  putBe16 s.linkInfo.speedMbps ++ [linkInfoFlags s.linkInfo s.linkReported]

/-- GET_LINK_INFO (R167). -/
def execGetLinkInfo (s : State) : Host.Outcome State Fault Refusal :=
  runCommand (do return ⟨.ok, (← get).linkInfoValue⟩) s

/-- The value bytes of GET_STATS (R113, R168). -/
def State.statsValue (s : State) : List Byte := putBe32 s.cntRxErr ++ putBe32 s.cntRxNomem ++ putBe32 s.cntTxAgain

/-- GET_STATS (R168). -/
def execGetStats (s : State) : Host.Outcome State Fault Refusal := runCommand (do return ⟨.ok, (← get).statsValue⟩) s

end Sys2Proof.Machine
end

