-- ==== Sys2Proof/Machine/DataPlane.lean ====
section
/-! DEFINITION. The data-plane operations of both backends behind their common gates (R162, R164, R165): PROC_INPUT, OUTPUT,
OUTPUT_FRAME, SET_INCOMING_MAC_ALLOWED. -/

namespace Sys2Proof.Machine

/-- The data plane is closed (R162): outside a session, or on the SPI build while `fault_sock`. -/
def dataPlaneClosed (s : State) : Bool :=
  s.initState != .initialized || (s.cfg.backend == .spi && s.spi.faultSock)

/-- PROC_INPUT with counter `c` (R205, R250, R165). -/
def procInput (c : Nat) : M Received := do
  let s ← get
  if dataPlaneClosed s then do
    raise .invalidState
    pure .invalid
  else if s.cfg.rxLoopCap ≤ c then pure .nothing
  else byBackend dmaProcInput spiProcInput

/-- PROC_INPUT's result as the host sees it (R112, R113). -/
def Received.result : Received → Result
  | .frame ts bytes => ⟨.ok, frameValue ts bytes⟩
  | .nothing => .plain .no
  | .invalid => .plain .invalid

/-- PROC_INPUT (R205, R250). -/
def execProcInput (counter : U16) (s : State) : Host.Outcome State Fault Refusal :=
  runCommand (do return (← procInput counter.toNat).result) s

/-- OUTPUT inside the block (R207, R259). -/
def outputOp (bytes : List Byte) : M Status := do
  let s ← get
  if dataPlaneClosed s || !carriable s.cfg bytes then do
    raise .invalidState
    pure .invalid
  else byBackend (dmaOutput bytes) (spiOutput bytes)

/-- OUTPUT (R207, R259). -/
def execOutput (bytes : List Byte) (s : State) : Host.Outcome State Fault Refusal :=
  runCommand (do return .plain (← outputOp bytes)) s

/-- OUTPUT_FRAME inside the block: exactly OUTPUT's lines (R164, R208, R260). -/
def outputFrameOp (bytes : List Byte) : M Status := outputOp bytes

/-- OUTPUT_FRAME (R208, R260). -/
def execOutputFrame (bytes : List Byte) (s : State) : Host.Outcome State Fault Refusal :=
  runCommand (do return .plain (← outputFrameOp bytes)) s

/-- The build gate of the two filter operations (R111, R130, R217): with PROMISCUOUS compiled in the opcode is reserved and the command is
REFUSED. -/
def unlessPromiscuous (m : M Result) : M Result := do
  let c ← config
  if c.promiscuous then do
    raise .refused
    pure (.plain .refused)
  else m

/-- SET_INCOMING_MAC_ALLOWED inside the block (R217, R261): on the SPI build it answers FALSE. -/
def filterOp (m : MacAddr) (allow : Bool) : M Result :=
  unlessPromiscuous (gated (do return .plain (← byBackend (dmaFilter m allow) (pure .no))))

/-- SET_INCOMING_MAC_ALLOWED (R217, R261). -/
def execSetIncomingMacAllowed (m : MacAddr) (allow : Bool) (s : State) : Host.Outcome State Fault Refusal :=
  runCommand (filterOp m allow) s

end Sys2Proof.Machine
end

