-- ==== Sys2Proof/Machine/Pipeline.lean ====
section
/-! DEFINITION. The frame pipeline (43_pipeline.md): every operation is the contract operations it calls and has no state of its own
(R291). -/

namespace Sys2Proof.Machine

/-- PIPE_INIT (R280). -/
def pipeInit (m : MacAddr) : M Bool := do
  let ok ← hasHardware
  if ok then initialise m else pure false

/-- PIPE_INIT (R280). -/
def execPipeInit (m : MacAddr) (s : State) : Host.Outcome State Fault Refusal :=
  runCommand (do return boolResult (← pipeInit m)) s

/-- `Deliver(ts, f)` (R282): the stack's verdict is drawn; the frames accepted so far. -/
def deliver (ts : U32) (f : List Byte) (k : Nat) : M Nat := do
  let accept ← drawAccept
  if accept then do
    modify fun s => { s with stackRxLog := s.stackRxLog ++ [(f, ts)] }
    pure (k + 1)
  else pure k

/-- The loop of PIPE_PROC_INPUT (R281) from counter `c` with `k` frames accepted; none when the first call answered INVALID. `fuel` only
bounds the recursion: PROC_INPUT answers NONE at RX_LOOP_CAP (R165). -/
def inputLoop : Nat → Nat → Nat → M (Option Nat)
  | 0, _, k => pure (some k)
  | fuel + 1, c, k => do
    let r ← procInput c
    match r with
    | .invalid => if c = 0 then pure none else pure (some k)
    | .nothing => pure (some k)
    | .frame ts f => do
      let k1 ← deliver ts f k
      inputLoop fuel (c + 1) k1

/-- PIPE_PROC_INPUT inside the block (R281). -/
def pipeProcInput : M Result := do
  let c ← config
  let r ← inputLoop (c.rxLoopCap + 1) 0 0
  match r with
  | none => pure (.plain .invalid)
  | some k => pure ⟨.ok, putBe16 (BitVec.ofNat 16 k)⟩

/-- PIPE_PROC_INPUT (R281). -/
def execPipeProcInput (s : State) : Host.Outcome State Fault Refusal := runCommand pipeProcInput s

/-- PIPE_POLL_LINK (R284). -/
def execPipePollLink (s : State) : Host.Outcome State Fault Refusal := runCommand pollOp s

/-- PIPE_TX_CHAIN inside the block (R285): the padding is removed. -/
def pipeTxChain (bytes : List Byte) : M Status := do
  let c ← config
  if bytes.length < c.stackPad then do
    raise .invalidState
    pure .invalid
  else outputOp (bytes.drop c.stackPad)

/-- PIPE_TX_CHAIN (R285). -/
def execPipeTxChain (bytes : List Byte) (s : State) : Host.Outcome State Fault Refusal :=
  runCommand (do return .plain (← pipeTxChain bytes)) s

/-- PIPE_TX_RAW inside the block (R286): the length check comes first; AGAIN and INVALID both become FALSE. -/
def pipeTxRaw (bytes : List Byte) : M Bool := do
  let c ← config
  if lengthValid c bytes then do
    let r ← outputFrameOp bytes
    pure (r == .ok)
  else pure false

/-- PIPE_TX_RAW (R286). -/
def execPipeTxRaw (bytes : List Byte) (s : State) : Host.Outcome State Fault Refusal :=
  runCommand (do return boolResult (← pipeTxRaw bytes)) s

/-- PIPE_ALLOW_MAC (R288). -/
def execPipeAllowMac (m : MacAddr) (allow : Bool) (s : State) : Host.Outcome State Fault Refusal :=
  runCommand (filterOp m allow) s

end Sys2Proof.Machine
end

