-- ==== Sys2Proof/Machine/Events.lean ====
section
/-! DEFINITION. The eight events as inputs of their own (R129): one agent step each, no result; a step that is not enabled is a no-op. -/

namespace Sys2Proof.Machine

/-- !WIRE_RX (R209, R210, R269). -/
def execWireRx (bytes : List Byte) (err : Byte) (s : State) : Host.Outcome State Fault Refusal :=
  runEvent (.wireRx bytes err) s

/-- !DMA_TX (R213). -/
def execDmaTx (s : State) : Host.Outcome State Fault Refusal := runEvent .dmaTx s

/-- !ISR (R211, R271, R330). -/
def execIsr (s : State) : Host.Outcome State Fault Refusal := runEvent .isr s

/-- !MDIO_DONE (R182). -/
def execMdioDone (s : State) : Host.Outcome State Fault Refusal := runEvent .mdioDone s

/-- !LINK (R216, R272). -/
def execLink (f : Byte) (s : State) : Host.Outcome State Fault Refusal := runEvent (.link f) s

/-- !CHIP_SEND_DONE (R268). -/
def execChipSendDone (s : State) : Host.Outcome State Fault Refusal := runEvent .chipSendDone s

/-- !CHIP_RESET_DONE (R270). -/
def execChipResetDone (s : State) : Host.Outcome State Fault Refusal := runEvent .chipResetDone s

/-- !RING_FAULT (R273). -/
def execRingFault (a : U16) (v : Byte) (s : State) : Host.Outcome State Fault Refusal := runEvent (.ringFault a v) s

end Sys2Proof.Machine
end

