-- ==== Sys2Proof/Machine/Dispatch.lean ====
section
/-! DEFINITION. The meaning of every instruction: one direct call for each constructor of Instr. -/

namespace Sys2Proof.Machine

def exec (i : Instr) (s : State) : Host.Outcome State Fault Refusal :=
  match i with
  | .isUnknown => Sys2Proof.Machine.execIsUnknown s
  | .hasHardware => Sys2Proof.Machine.execHasHardware s
  | .getSystemMac => Sys2Proof.Machine.execGetSystemMac s
  | .getMac => Sys2Proof.Machine.execGetMac s
  | .setMac m => Sys2Proof.Machine.execSetMac m s
  | .init m => Sys2Proof.Machine.execInit m s
  | .deinit => Sys2Proof.Machine.execDeinit s
  | .getCapabilities => Sys2Proof.Machine.execGetCapabilities s
  | .procInput c => Sys2Proof.Machine.execProcInput c s
  | .poll => Sys2Proof.Machine.execPoll s
  | .output bytes => Sys2Proof.Machine.execOutput bytes s
  | .outputFrame bytes => Sys2Proof.Machine.execOutputFrame bytes s
  | .setIncomingMacAllowed m a => Sys2Proof.Machine.execSetIncomingMacAllowed m a s
  | .forceLinkUp => Sys2Proof.Machine.execForceLinkUp s
  | .setLinkSettings sp d n x => Sys2Proof.Machine.execSetLinkSettings sp d n x s
  | .getLinkInfo => Sys2Proof.Machine.execGetLinkInfo s
  | .getStats => Sys2Proof.Machine.execGetStats s
  | .pipeInit m => Sys2Proof.Machine.execPipeInit m s
  | .pipeProcInput => Sys2Proof.Machine.execPipeProcInput s
  | .pipePollLink => Sys2Proof.Machine.execPipePollLink s
  | .pipeTxChain bytes => Sys2Proof.Machine.execPipeTxChain bytes s
  | .pipeTxRaw bytes => Sys2Proof.Machine.execPipeTxRaw bytes s
  | .pipeAllowMac m a => Sys2Proof.Machine.execPipeAllowMac m a s
  | .wireRx bytes e => Sys2Proof.Machine.execWireRx bytes e s
  | .dmaTx => Sys2Proof.Machine.execDmaTx s
  | .isr => Sys2Proof.Machine.execIsr s
  | .mdioDone => Sys2Proof.Machine.execMdioDone s
  | .link f => Sys2Proof.Machine.execLink f s
  | .chipSendDone => Sys2Proof.Machine.execChipSendDone s
  | .chipResetDone => Sys2Proof.Machine.execChipResetDone s
  | .ringFault a v => Sys2Proof.Machine.execRingFault a v s

end Sys2Proof.Machine
end

