-- ==== Sys2Proof/Machine/Fetch.lean ====
section
/-! DEFINITION. What the machine does next: it takes the next item the outside hands it (R3, R110, R129), decodes it by where it stands, and
answers REFUSED to a command that is not well formed (R130). -/

namespace Sys2Proof.Machine

/-- The next item and the state with it taken: a command's bytes are in CMD_BUF (R20, R110). -/
def fetch (s : State) : Option (Item × State) :=
  match s.input with
  | [] => none
  | .command bs :: rest => some (.command bs, { s with input := rest, cmdBuf := bs })
  | .event bs :: rest => some (.event bs, { s with input := rest })

/-- The instruction an item stands for (R129, R130): an event code in CMD_BUF is no command. -/
def Item.decode : Item → Except DecodeError Instr
  | .command bs => decodeCommand bs
  | .event bs => decodeEvent bs

/-- An item that is no instruction: a command is answered REFUSED and changes no state (R130, R328); an event is refused by name. -/
def rejectItem (it : Item) (s : State) : Host.Outcome State Fault Refusal :=
  match it with
  | .command _ => .next ((s.raise .refused).respond (.plain .refused))
  | .event bs => .refused (.malformedEvent bs)

/-- With nothing handed in the block is idle (R333, R342); the agents may still step (R3). -/
def idle (s : State) : Host.Outcome State Fault Refusal := runSilent boundary s

/-- An instruction's bytes as the item that carries them: an event code has bit 7 set (R129). -/
def itemOf (bs : List Byte) : Item := if (bs.headD 0).getLsbD 7 then .event bs else .command bs

/-- The state with one more item, to be taken next. -/
def placeItem (bs : List Byte) (s : State) : State := { s with input := itemOf bs :: s.input }

/-! ## Pseudo-operations (R133): what stands for them at the command port -/

/-- `ALLOW mac`. -/
def pseudoAllow (m : MacAddr) : List Item := [.command (encode (.setIncomingMacAllowed m true))]

/-- `DISALLOW mac`. -/
def pseudoDisallow (m : MacAddr) : List Item := [.command (encode (.setIncomingMacAllowed m false))]

/-- The first `n` commands of `DRAIN`: the counter one higher each time. The host stops at the first result other than OK. -/
def pseudoDrain (n : Nat) : List Item := (List.range n).map fun c => .command (encode (.procInput (BitVec.ofNat 16 c)))

/-- `POLL3`. -/
def pseudoPoll3 : List Item :=
  [.command (encode .poll), .event (encode .mdioDone), .command (encode .poll), .event (encode .mdioDone), .command (encode .poll)]

/-- `BRINGUP mac`; the events INIT needs between its micro-steps are the schedule's (R197, R247). -/
def pseudoBringUp (m : MacAddr) : List Item := [.command (encode .hasHardware), .command (encode (.init m))]

end Sys2Proof.Machine
end

