-- ==== Sys2Proof/Machine/Step.lean ====
section
/-! DEFINITION. One step: the next item is taken, decoded and executed; with nothing handed in, the agents alone may step. -/

namespace Sys2Proof.Machine

/-- One step of the machine. -/
def step (s : State) : Host.Outcome State Fault Refusal :=
  match fetch s with
  | none => idle s
  | some (it, t) =>
    match it.decode with
    | .ok i => exec i t
    | .error _ => rejectItem it t

/-- The state in which the instruction of an opcode-table word is the next item. -/
def State.withFetchWord (s : State) (nbits w : Nat) : State := placeItem (tableBytes nbits w) s

end Sys2Proof.Machine
end

