-- ==== Sys2Proof/Safety.lean ====
section
/-! DEFINITION. The words claims are stated in: the schedules of R372, a safe step, the invariants the spec names (R68, R69, R152, R220,
R310) or the model keeps of itself (canonical memories), and reads of descriptor fields. -/

namespace Sys2Proof.Machine

/-! ## Schedules (R372) -/

/-- The quiet schedule: "no agent step happens except those the vector lists". -/
abbrev State.Quiet (s : State) : Prop := s.script = [] ∧ s.prompt = Prompt.quiet

/-- The prompt schedule as far as the bounded waits of the probe and of INIT need it (R197, R247). -/
abbrev State.Prompted (s : State) : Prop := s.script = [] ∧ s.prompt = Prompt.completions

/-- A safe step goes on: no fault, no refusal. -/
def State.Safe (s : State) : Prop := ∃ t, step s = .next t

/-! ## Sessions -/

/-- A session of the DMA build (00_scope.md section 7). -/
abbrev State.DmaSession (s : State) : Prop := s.cfg.backend = .dma ∧ s.initState = .initialized

/-- A session of the SPI build. -/
abbrev State.SpiSession (s : State) : Prop := s.cfg.backend = .spi ∧ s.initState = .initialized

/-! ## Reads of memory -/

/-- The little-endian halfword at an address, if both bytes were written (R83). -/
def Memory.half? (m : Memory) (a : Nat) : Option U16 :=
  match Memory.read? m a, Memory.read? m (a + 1) with
  | some lo, some hi => some (join16 hi lo)
  | _, _ => none

/-- The little-endian word at an address, if its four bytes were written (R83). -/
def Memory.word? (m : Memory) (a : Nat) : Option U32 :=
  match Memory.half? m a, Memory.half? m (a + 2) with
  | some lo, some hi => some (hi ++ lo)
  | _, _ => none

/-- Outside the `n` addresses from `a` on the two memories read the same. -/
def SameOutside (a n : Nat) (m m' : Memory) : Prop := ∀ x, x < a ∨ a + n ≤ x → Memory.read? m' x = Memory.read? m x

/-! ## Invariants -/

/-- Every two adjacent entries differ, and the entry before the first counts as `prev`. -/
def alternatesFrom : Bool → List Bool → Bool
  | _, [] => true
  | prev, b :: rest => b != prev && alternatesFrom b rest

/-- The last report, or false when there is none (R310 (b)). -/
def lastReport (log : List Bool) : Bool := log.getLast?.getD false

/-- R310: (a) the log alternates, beginning with true; (b) `link_reported` is its last entry; (c) while the override is set the link is
reported up; (d) outside a session both are false. -/
structure LinkInv (s : State) : Prop where
  alternates : alternatesFrom false s.notifyLog = true
  last : s.linkReported = lastReport s.notifyLog
  manual : s.linkManual = true → s.linkReported = true
  outside : s.initState ≠ .initialized → s.linkManual = false ∧ s.linkReported = false

/-- The DMA invariant of R152: past the probe all three init steps have happened; after a failed probe none counts. -/
structure ProbeInv (s : State) : Prop where
  past : s.cfg.backend = .dma → 2 ≤ s.initState.code →
    s.dma.clocksOn = true ∧ s.dma.pinsConfigured = true ∧ s.dma.phyResetDone = true
  absent : s.cfg.backend = .dma → s.initState = .noHardware →
    s.dma.clocksOn = false ∧ s.dma.pinsConfigured = false ∧ s.dma.phyResetDone = false

/-- R44 and R220 (a): a collision bit is 1 only if the presence bit of the same bucket is 1. -/
def FilterInv (s : State) : Prop :=
  ∀ half k, (s.dma.coll half).getLsbD k = true → (s.dma.macRead (presReg half)).getLsbD k = true

/-- The canonical form of a cache: line numbers rising, each copy canonical and inside its line. -/
def cacheWf (c : List CacheLine) : Prop :=
  c.Pairwise (fun x y => x.line < y.line) ∧ ∀ x ∈ c, x.data.wf ∧ ∀ p ∈ x.data, lineOf p.1 = x.line

/-- The canonical form of a PHY register file: numbers rising. -/
def regsWf (r : List (Nat × U16)) : Prop := r.Pairwise (fun p q => p.1 < q.1)

/-- Every memory of the machine is in its canonical form. -/
structure MemoriesWf (s : State) : Prop where
  dma : s.dma.mem.wf
  cache : cacheWf s.dma.cache
  phyReg : regsWf s.dma.phy.reg
  phyExt : regsWf s.dma.phy.ext
  chipRx : s.spi.chip.rxMem.wf
  chipTx : s.spi.chip.txMem.wf
  ibuf : s.spi.ibuf.wf

/-- A ring size that is 1, 2, 4, 8 or 16 KiB (R67). -/
def legalRing (n : Nat) : Prop := n = 1024 ∨ n = 2048 ∨ n = 4096 ∨ n = 8192 ∨ n = 16384

/-- The ring invariants of R68 and R275 (d), with what they rest on: the queue's end pointers rise from S_TX_RD to the committed write
pointer, and on an open socket with an empty queue everything committed has been sent. -/
structure Chip.RingInv (c : Chip) : Prop where
  rxLegal : legalRing c.rxBytes
  txLegal : legalRing c.txBytes
  rsr : c.sRxRsr.toNat = ptrDiff c.sRxWr c.rxRdCommitted
  rsrFits : c.sRxRsr.toNat ≤ c.rxBytes
  fsr : c.sTxFsr.toNat + ptrDiff c.txWrCommitted c.sTxRd = c.txBytes
  rising : c.sendQueue.Pairwise fun a b => ptrDiff a c.sTxRd < ptrDiff b c.sTxRd
  inside : ∀ q ∈ c.sendQueue, ptrDiff q c.sTxRd ≤ ptrDiff c.txWrCommitted c.sTxRd
  lastEnd : ∀ q, c.sendQueue.getLast? = some q → q = c.txWrCommitted
  drained : c.sSr = srMacraw → c.sendQueue = [] → c.sTxRd = c.txWrCommitted

/-- A valid record of the receive stream: its prefix gives its whole length, which is at least the minimum (R120). -/
def validRecord (minLen : Nat) (r : List Byte) : Prop := 2 ≤ r.length ∧ be16 r 0 = r.length ∧ minLen ≤ r.length

/-- R69 and R250: the local input buffer holds, from its start to its size, a whole number of valid records. -/
def IbufInv (s : State) : Prop :=
  s.spi.ibufStart ≤ s.spi.ibufSize ∧ s.spi.ibufSize ≤ s.cfg.ibufCap ∧
    ∃ rs : List (List Byte), (∀ r ∈ rs, validRecord s.cfg.recMinLen r) ∧
      Memory.readBytes s.spi.ibuf s.spi.ibufStart (s.spi.ibufSize - s.spi.ibufStart) = some rs.flatten

/-- What one output history may do (R27): grow at its end. -/
def Grows {α : Type} (old new : List α) : Prop := old <+: new

/-- The data plane is open (R162): in a session, and on the SPI build without a socket fault. -/
abbrev State.DataOpen (s : State) : Prop :=
  s.initState = .initialized ∧ (s.cfg.backend = .spi → s.spi.faultSock = false)

/-- The DMA engines and the interrupt mask follow the session (R37, R195, R196, R198), and so does the management bus (R184, R198, R302):
in a session a transaction is in flight exactly while the monitor waits for it. -/
structure MacInv (s : State) : Prop where
  inside : s.DmaSession → s.dma.regs.ecr = 1 ∧ s.dma.regs.eimr = 1 ∧ (s.dma.mdioBusy = true ↔ s.dma.lmState ≠ .idle)
  outside : s.cfg.backend = .dma → s.initState ≠ .initialized →
    s.dma.regs.ecr = 0 ∧ s.dma.regs.eimr = 0 ∧ s.dma.rxActive = false ∧ s.dma.txActive = false
      ∧ s.dma.mdioBusy = false ∧ s.dma.lmState = .idle

/-- Past the probe a chip is present; in a session its socket is open as INIT configured it, and both pointers the host writes are
committed (R244 to R246, R255, R259, R262). -/
structure SocketInv (s : State) : Prop where
  present : s.cfg.backend = .spi → 2 ≤ s.initState.code → s.cfg.chipPresent = true
  session : s.SpiSession → s.spi.chip.sSr = srMacraw ∧ s.spi.faultSock = false ∧ s.spi.chip.sMr = sMrValue s.cfg
    ∧ s.spi.chip.sRxbufSize.toNat = s.cfg.rxbufKb ∧ s.spi.chip.sTxbufSize.toNat = s.cfg.txbufKb
    ∧ s.spi.chip.sRxRd = s.spi.chip.rxRdCommitted ∧ s.spi.chip.sTxWr = s.spi.chip.txWrCommitted
    ∧ s.spi.chip.rxBytes = s.cfg.rxbufKb * 1024 ∧ s.spi.chip.txBytes = s.cfg.txbufKb * 1024

/-! ## Words for results -/

/-- A descriptor's three fields as memory holds them (R115, R116). -/
structure DescAt (m : Memory) (a : Nat) (len st : U16) (buf : U32) : Prop where
  len : Memory.half? m a = some len
  status : Memory.half? m (a + 2) = some st
  buf : Memory.word? m (a + 4) = some buf

/-- Memory with one descriptor's LEN and STATUS stored (R93, R94). -/
def withDescriptor (m : Memory) (a : Nat) (len st : U16) : Memory :=
  Memory.writeBytes (Memory.writeBytes m a (putLe16 len)) (a + 2) (putLe16 st)

/-- The management writes that one tuning write is made of (R187): one, or four with the extended addressing of R186. -/
def tuningWrites (a v : U16) : List (BitVec 5 × U16) :=
  if a.toNat ≤ 0x001F then [(a.extractLsb' 0 5, v)] else [(0x0D, 0x001F), (0x0E, a), (0x0D, 0x401F), (0x0E, v)]

/-- All management writes of P5, in order (R191). -/
def allTuningWrites (c : Config) : List (BitVec 5 × U16) := c.phyTuning.flatMap fun p => tuningWrites p.1 p.2

/-- What P5 leaves in the PHY (R189, R191): an absent PHY keeps nothing. -/
def tunedPhy (c : Config) (p : Phy) : Phy :=
  if c.phyPresent then (allTuningWrites c).foldl (fun q w => q.regWrite w.1 w.2) p else p

/-- MMFR after P5: the last management frame written, if any was. -/
def tunedMmfr (c : Config) (old : U32) : U32 :=
  match (allTuningWrites c).getLast? with
  | none => old
  | some w => mmfrWrite c w.1 w.2

/-- The identity the probe reads (R182, R188): all ones where no PHY answers. -/
def probedIdentity (c : Config) : U32 := if c.phyPresent then c.phyId else 0xFFFFFFFF

/-- The session variables as DEINIT leaves them (R156), RES_BUF holding OK. -/
def State.afterDeinit (s : State) : State :=
  { s with
    caps := Caps.none, capsRead := false, linkInfo := LinkRecord.zero, linkSettings := LinkRecord.zero
    linkReported := false, linkManual := false, resBuf := [0x00] }

/-- The session variables as INIT leaves them (R154), RES_BUF holding OK. -/
def State.afterInit (s : State) (m : MacAddr) : State :=
  { s with
    mac := m, caps := if s.cfg.backend = .dma then s.cfg.capsDma else s.cfg.capsSpi, capsRead := false
    linkInfo := LinkRecord.zero, linkSettings := LinkRecord.zero, linkReported := false, linkManual := false
    initState := .initialized, resBuf := [0x00] }

/-- The DMA build's own state as INIT leaves it (R192 to R196), but for the PHY, MMFR and memory. -/
def DmaState.afterInit (d : DmaState) (c : Config) (m : MacAddr) : DmaState :=
  { d with
    rxPending := false, rxCursor := 0, txCursor := 0, hwRxIdx := 0, hwTxIdx := 0, rxActive := true, lmState := .idle, lmLink := false
    fltColl0 := 0, fltColl1 := 0
    regs := { d.regs with
      eir := d.regs.eir &&& ~~~0x00000007, eimr := 0x00000001, ecr := 0x00000001
      rcr := (BitVec.ofNat 32 c.maxFl <<< 16) ||| (if c.promiscuous then 1 else 0), acc := c.csumFlags
      palr := palrOf m, paur := paurOf m, fltPres0 := 0, fltPres1 := 0
      rdsr := c.rxRingBase, tdsr := c.txRingBase, mrbr := BitVec.ofNat 32 c.bufSize } }

/-- The two descriptor rings as R192 and R193 leave them, and nothing else changed. -/
structure RingsSeeded (c : Config) (m m' : Memory) : Prop where
  rx : ∀ i, i < c.nRx → DescAt m' (descAddr c.rxRingBase i) 0 (if i + 1 = c.nRx then 0xA000 else 0x8000)
    (c.rxBufBase + BitVec.ofNat 32 (i * c.bufSize))
  tx : ∀ i, i < c.nTx → DescAt m' (descAddr c.txRingBase i) 0 (if i + 1 = c.nTx then 0x2000 else 0x0000)
    (c.txBufBase + BitVec.ofNat 32 (i * c.bufSize))
  others : ∀ x, (x < c.rxRingBase.toNat ∨ c.rxRingBase.toNat + 8 * c.nRx ≤ x) →
    (x < c.txRingBase.toNat ∨ c.txRingBase.toNat + 8 * c.nTx ≤ x) → Memory.read? m' x = Memory.read? m x

/-- The chip as INIT leaves it (R244, R245, R264); its rings hold unspecified bytes (R68). -/
def Chip.afterInit (q : Chip) (c : Config) (m : MacAddr) : Chip :=
  { q with
    shar := m, simr := if c.spiIntWired then 0x01 else 0x00, sMr := if c.promiscuous then 0x04 else 0x84
    sRxbufSize := BitVec.ofNat 8 c.rxbufKb, sTxbufSize := BitVec.ofNat 8 c.txbufKb, sImr := 0x14, sIr := 0x00, sSr := 0x42
    rxBytes := c.rxbufKb * 1024, txBytes := c.txbufKb * 1024, sTxFsr := BitVec.ofNat 16 (c.txbufKb * 1024), sRxRsr := 0
    sTxRd := 0, sTxWr := 0, sRxRd := 0, sRxWr := 0, rxRdCommitted := 0, txWrCommitted := 0, sendQueue := []
    rxMem := [], txMem := [] }

/-- The receive slot of the cursor after PROC_INPUT has taken a frame from it (R205 lines 20 to 24): re-armed, the cursor past it. -/
def State.rearmed (s : State) (st : U16) (d : DmaState) : State :=
  { s with dma := { d with
      mem := withDescriptor s.dma.mem (descAddr s.cfg.rxRingBase s.dma.rxCursor) 0 (0x8000 ||| (st &&& 0x2000))
      rxActive := true, rxPending := true, rxCursor := if st.getLsbD 13 then 0 else s.dma.rxCursor + 1 } }

/-! ## Words for the data plane -/

/-- The instructions that hand the backend the frame `b` (R164, R285, R286). -/
def Sends (c : Config) (i : Instr) (b : List Byte) : Prop :=
  i = .output b ∨ i = .outputFrame b ∨ (∃ pad : List Byte, pad.length = c.stackPad ∧ i = .pipeTxChain (pad ++ b))
    ∨ (i = .pipeTxRaw b ∧ lengthValid c b = true)

/-- What such an instruction answers when there is no room: AGAIN, or FALSE for PIPE_TX_RAW (R286). -/
def noRoomCode : Instr → Byte
  | .pipeTxRaw _ => 0x01
  | _ => 0x02

/-- One half of the presence table with a new value (R42). -/
def DmaState.withPresence (d : DmaState) (half : Bool) (v : U32) : DmaState :=
  { d with regs := if half then { d.regs with fltPres1 := v } else { d.regs with fltPres0 := v } }

/-- One half of the collision table with a new value (R44). -/
def DmaState.withCollision (d : DmaState) (half : Bool) (v : U32) : DmaState :=
  if half then { d with fltColl1 := v } else { d with fltColl0 := v }

/-- Evaluate (R300, R301): a report is made only when the computed state differs, and a down is suppressed by the override. -/
def State.evaluated (s : State) (up : Bool) : State :=
  if (s.linkManual = true ∧ up = false) ∨ up = s.linkReported then s
  else { s with linkReported := up, notifyLog := s.notifyLog ++ [up] }

/-- MMFR's data and the completion flag after a management transaction (R182). -/
def DmaState.completed (d : DmaState) (v : U16) : DmaState :=
  { d with regs := { d.regs with
      mmfr := (d.regs.mmfr &&& 0xFFFF0000) ||| v.zeroExtend 32, eir := d.regs.eir ||| 0x00000002 } }

/-- A trailing record that has not arrived whole (R254, R257). -/
def partialRecord (minLen : Nat) (b : List Byte) : Prop := b.length < 2 ∨ (minLen ≤ be16 b 0 ∧ b.length < be16 b 0)

/-- A record whose prefix is below the minimum (R256). -/
def corruptRecord (minLen : Nat) (b : List Byte) : Prop := 2 ≤ b.length ∧ be16 b 0 < minLen

/-- The socket after CLOSE and OPEN (R68, R262, R264, R265): the rings hold unspecified bytes. -/
def Chip.reopened (q : Chip) (c : Config) : Chip :=
  { q with
    sSr := 0x42, rxBytes := c.rxbufKb * 1024, txBytes := c.txbufKb * 1024, sTxFsr := BitVec.ofNat 16 (c.txbufKb * 1024)
    sRxRsr := 0, sTxRd := 0, sTxWr := 0, sRxRd := 0, sRxWr := 0, rxRdCommitted := 0, txWrCommitted := 0, sendQueue := []
    rxMem := [], txMem := [] }

/-- Pop's part past the local buffer (R258, R322): the frame with its drawn timestamp, or the allocation failure. -/
def State.delivers (s : State) (f : List Byte) : State :=
  let a := s.draws.takeAlloc
  if a.1 then
    { s with draws := a.2.takeTimestamp.2, resBuf := 0x00 :: frameValue a.2.takeTimestamp.1 f }
  else { s with draws := a.2, cntRxNomem := s.cntRxNomem + 1, resBuf := [0x01] }

/-- The pass of R250 to R255 over `p` bytes of whole records and `rest` bytes left in the chip's ring, before the first record is popped:
the flag and the cause are clear, the bytes are in the local buffer, the whole records are acknowledged. -/
def SpiState.fetched (q : SpiState) (c : Config) (b : List Byte) (p rest : Nat) : SpiState :=
  { q with
    rxPending := if c.spiIntWired then false else q.rxPending
    csActive := false
    ibuf := Memory.writeBytes q.ibuf 0 b, ibufStart := 0, ibufSize := p
    chip := { q.chip with
      sIr := q.chip.sIr &&& ~~~0x04
      sRxRd := q.chip.sRxRd + BitVec.ofNat 16 p, rxRdCommitted := q.chip.sRxRd + BitVec.ofNat 16 p
      sRxRsr := BitVec.ofNat 16 rest } }

/-- The same of a pass that meets a corrupt record after `p` bytes of whole ones (R253, R256, R262). -/
def SpiState.recovered (q : SpiState) (c : Config) (b : List Byte) (p : Nat) : SpiState :=
  { q with
    rxPending := if c.spiIntWired then false else q.rxPending
    csActive := false
    ibuf := Memory.writeBytes q.ibuf 0 b, ibufStart := 0, ibufSize := p
    chip := { q.chip with sIr := q.chip.sIr &&& ~~~0x04 }.reopened c }

/-- The bytes `bs` lie in a ring of `size` bytes from pointer `p` on, and no other byte of the ring changed (R68, R82). -/
structure RingHolds (size p : Nat) (bs : List Byte) (m m' : Memory) : Prop where
  stored : ∀ j, j < bs.length → Memory.read? m' ((p + j) % 65536 % size) = bs[j]?
  others : ∀ x, (∀ j, j < bs.length → x ≠ (p + j) % 65536 % size) → Memory.read? m' x = Memory.read? m x

/-! ## The input loop over the command port -/

/-- R281 and R282 written with the PROC_INPUT command alone (R291): the frame and its timestamp are read from RES_BUF, the stack's verdict
is drawn. `fuel` only bounds the recursion. -/
def pipeInputByCommands : Nat → Nat → Nat → State → Host.Outcome State Fault Refusal
  | 0, _, k, s => .next { s with resBuf := 0x00 :: putBe16 (BitVec.ofNat 16 k) }
  | fuel + 1, c, k, s =>
    match exec (.procInput (BitVec.ofNat 16 c)) s with
    | .next t =>
      match t.resBuf with
      | 0x00 :: t3 :: t2 :: t1 :: t0 :: _ :: _ :: f =>
        let a := t.draws.takeAccept
        let u := { t with
          draws := a.2, stackRxLog := if a.1 then t.stackRxLog ++ [(f, t3 ++ t2 ++ t1 ++ t0)] else t.stackRxLog }
        pipeInputByCommands fuel (c + 1) (if a.1 then k + 1 else k) u
      | r =>
        if r = [0x03] ∧ c = 0 then .next t else .next { t with resBuf := 0x00 :: putBe16 (BitVec.ofNat 16 k) }
    | .fault f => .fault f
    | .refused r => .refused r

end Sys2Proof.Machine
end

