-- ==== Sys2Proof/Certificates/Slice0/Obligations.lean ====
section
/-! DEFINITION. The statements for the provers. -/

open Sys2Proof Sys2Proof.Machine

/-! ## Encoding and fetching -/

/-- R110, R111, R114, R129: decoding reads back every operand of every well-formed instruction. -/
def Obligations.DecodeOfEncode : Prop :=
  ∀ i : Instr, i.wellFormed = true → decode (encode i) = .ok i

/-- R110, R111, R114, R129: a byte string that decodes is the one encoding of the instruction it decodes to. -/
def Obligations.EncodeOfDecode : Prop :=
  ∀ (bs : List Byte) (i : Instr), decode bs = .ok i → i.wellFormed = true ∧ encode i = bs

/-- R130, R328: whatever stands in CMD_BUF and is not the encoding of a well-formed command is answered REFUSED and changes nothing but
the command port. -/
def Obligations.IllFormedCommandRefused : Prop :=
  ∀ (s : State) (bs : List Byte) (rest : List Item), s.input = .command bs :: rest →
    (∀ i : Instr, i.isEvent = false → i.wellFormed = true → encode i ≠ bs) →
    step s = .next { s with input := rest, cmdBuf := bs, resBuf := [0x04] }

/-- R111, R129, R131: words written out from the opcode map, one for every operand format, and the worked examples of the filter hash. -/
def Obligations.SpecVectorsHold : Prop :=
  decode [0x01] = .ok .isUnknown
  ∧ decode [0x06, 0x04, 0xE9, 0xE5, 0x00, 0x00, 0x01] = .ok (.init ⟨0x04, 0xE9, 0xE5, 0x00, 0x00, 0x01⟩)
  ∧ decode [0x09, 0x01, 0x02] = .ok (.procInput 258)
  ∧ decode [0x0B, 0x00, 0x02, 0xAA, 0x55] = .ok (.output [0xAA, 0x55])
  ∧ decode [0x0D, 0x01, 0x00, 0x5E, 0x00, 0x00, 0xFB, 0x01] = .ok (.setIncomingMacAllowed ⟨0x01, 0x00, 0x5E, 0x00, 0x00, 0xFB⟩ true)
  ∧ decode [0x0F, 0x03, 0xE8, 0x04] = .ok (.setLinkSettings 1000 false false true)
  ∧ decode [0x80, 0x00, 0x01, 0x7E, 0x04] = .ok (.wireRx [0x7E] 0x04)
  ∧ decode [0x84, 0x13] = .ok (.link 0x13)
  ∧ decode [0x84, 0xF3] = .ok (.link 0xF3)
  ∧ decode [0x87, 0x12, 0x34, 0x56] = .ok (.ringFault 0x1234 0x56)
  ∧ decode [0x87, 0x12, 0x34] = .error (.wrongLength 0x87)
  ∧ decode [0x0D, 0x01, 0x00, 0x5E, 0x00, 0x00, 0xFB, 0x02] = .error (.badAllow 0x02)
  ∧ decode [0x12] = .error (.reservedOpcode 0x12)
  ∧ (∀ c : Config, c.filterHash = .reference →
    filterHash c ⟨0x01, 0x00, 0x5E, 0x00, 0x00, 0xFB⟩ = 30 ∧ filterHash c ⟨0x01, 0x00, 0x5E, 0x00, 0x00, 0x38⟩ = 30
    ∧ filterHash c ⟨0xFF, 0xFF, 0xFF, 0xFF, 0xFF, 0xFF⟩ = 16 ∧ filterHash c ⟨0x02, 0x00, 0x00, 0x00, 0x00, 0x09⟩ = 33)

/-- R3, R110, R129: a step takes the next item and runs the instruction its bytes encode; a command's bytes stand in CMD_BUF then. The
same of an opcode-table word. -/
def Obligations.StepRunsDecoded : Prop :=
  (∀ (s : State) (i : Instr) (rest : List Item), i.wellFormed = true → i.isEvent = false → s.input = .command (encode i) :: rest →
    step s = exec i { s with input := rest, cmdBuf := encode i })
  ∧ (∀ (s : State) (i : Instr) (rest : List Item), i.wellFormed = true → i.isEvent = true → s.input = .event (encode i) :: rest →
    step s = exec i { s with input := rest })
  ∧ (∀ (s : State) (nbits w : Nat) (i : Instr), decodeTableWord nbits w = some i →
    step (s.withFetchWord nbits w) = exec i (if i.isEvent then s else { s with cmdBuf := tableBytes nbits w }))

/-- With nothing handed in the block is idle (R333); bytes offered as an event that encode none are no event (R129). -/
def Obligations.StepOtherwise : Prop :=
  (∀ s : State, s.Quiet → s.input = [] → step s = .next s)
  ∧ (∀ (s : State) (bs : List Byte) (rest : List Item), s.input = .event bs :: rest →
    (∀ i : Instr, i.isEvent = true → i.wellFormed = true → encode i ≠ bs) → step s = .refused (.malformedEvent bs))

/-! ## Reset -/

/-- R350, with the reset columns of 10_state.md: the values reset gives, in every build. -/
def Obligations.ResetValues : Prop :=
  ∀ c : Config, ∃ s, s = State.resetWith c ∧ s.cmdBuf = [] ∧ s.resBuf = [] ∧ s.initState = .start ∧ s.mac = c.systemMac
    ∧ s.caps = Caps.none ∧ s.capsRead = false ∧ s.linkInfo = LinkRecord.zero ∧ s.linkSettings = LinkRecord.zero
    ∧ s.linkReported = false ∧ s.linkManual = false
    ∧ s.notifyLog = [] ∧ s.wireTxLog = [] ∧ s.stackRxLog = [] ∧ s.cntRxErr = 0 ∧ s.cntRxNomem = 0 ∧ s.cntTxAgain = 0
    ∧ (∀ r : MacReg, s.dma.macRead r = 0) ∧ s.dma.fltColl0 = 0 ∧ s.dma.fltColl1 = 0
    ∧ s.dma.rxPending = false ∧ s.dma.rxCursor = 0 ∧ s.dma.txCursor = 0 ∧ s.dma.hwRxIdx = 0 ∧ s.dma.hwTxIdx = 0
    ∧ s.dma.rxActive = false ∧ s.dma.txActive = false
    ∧ s.dma.mdioBusy = false ∧ s.dma.lmState = .idle ∧ s.dma.lmLink = false ∧ s.dma.clocksOn = false ∧ s.dma.pinsConfigured = false
    ∧ s.dma.phyResetDone = false ∧ s.dma.mem = [] ∧ s.dma.cache = []
    ∧ s.spi.rxPending = false ∧ s.spi.txDone = false ∧ s.spi.intLatched = false ∧ s.spi.csActive = false
    ∧ s.spi.faultSock = false ∧ s.spi.ibufStart = 0 ∧ s.spi.ibufSize = 0 ∧ s.spi.ibuf = []
    ∧ s.spi.chip.mr = 0x00 ∧ s.spi.chip.shar = ⟨0x00, 0x00, 0x00, 0x00, 0x00, 0x00⟩ ∧ s.spi.chip.simr = 0x00 ∧ s.spi.chip.scratch = 0x0000 ∧ s.spi.chip.sMr = 0x00
    ∧ s.spi.chip.sIr = 0x00 ∧ s.spi.chip.sSr = 0x00 ∧ s.spi.chip.sRxbufSize = 0x02 ∧ s.spi.chip.sTxbufSize = 0x02
    ∧ s.spi.chip.sTxFsr = 0x0800 ∧ s.spi.chip.sTxRd = 0x0000 ∧ s.spi.chip.sTxWr = 0x0000
    ∧ s.spi.chip.sRxRsr = 0x0000 ∧ s.spi.chip.sRxRd = 0x0000 ∧ s.spi.chip.sRxWr = 0x0000 ∧ s.spi.chip.sImr = 0xFF
    ∧ s.spi.chip.rxRdCommitted = 0x0000 ∧ s.spi.chip.txWrCommitted = 0x0000 ∧ s.spi.chip.sendQueue = []
    ∧ s.spi.chip.rxMem = [] ∧ s.spi.chip.txMem = []

/-- Every invariant stated below holds right after reset, in every build. -/
def Obligations.ResetMeetsInvariants : Prop :=
  ∀ c : Config, LinkInv (State.resetWith c) ∧ ProbeInv (State.resetWith c) ∧ FilterInv (State.resetWith c)
    ∧ MemoriesWf (State.resetWith c) ∧ (State.resetWith c).spi.chip.RingInv ∧ IbufInv (State.resetWith c)
    ∧ MacInv (State.resetWith c) ∧ SocketInv (State.resetWith c)

/-! ## Invariants of every step, under every schedule -/

/-- R310. -/
def Obligations.LinkReportsKept : Prop :=
  ∀ s t : State, LinkInv s → step s = .next t → LinkInv t

/-- R152: what the probe switched on stays on, what a failed probe rolled back stays off. -/
def Obligations.ProbeMilestonesKept : Prop :=
  ∀ s t : State, ProbeInv s → step s = .next t → ProbeInv t

/-- R44, R220 (a). -/
def Obligations.CollisionsWithinPresence : Prop :=
  ∀ s t : State, FilterInv s → step s = .next t → FilterInv t

/-- Every memory stays in its canonical form (the model's own invariant). -/
def Obligations.MemoriesStayCanonical : Prop :=
  ∀ s t : State, MemoriesWf s → step s = .next t → MemoriesWf t

/-- R68, R275 (d): the chip's ring registers stay consistent. -/
def Obligations.ChipRingsConsistent : Prop :=
  ∀ s t : State, s.spi.chip.RingInv → step s = .next t → t.spi.chip.RingInv

/-- R69, R250: the local input buffer holds whole valid records between its start and its size. -/
def Obligations.InputBufferHoldsRecords : Prop :=
  ∀ s t : State, s.cfg.wf = true → IbufInv s → step s = .next t → IbufInv t

/-- R37, R195, R196, R198, R302: the MAC is enabled and its interrupt unmasked exactly in a session. -/
def Obligations.MacEnabledOnlyInSession : Prop :=
  ∀ s t : State, MacInv s → step s = .next t → MacInv t

/-- R244 to R246, R255, R259, R262: in a session the socket stays open as INIT configured it. -/
def Obligations.SocketOpenInSession : Prop :=
  ∀ s t : State, s.cfg.wf = true → SocketInv s → step s = .next t → SocketInv t

/-- R1: a step changes no parameter, and nothing of the backend that is not built. -/
def Obligations.OneBackend : Prop :=
  ∀ s t : State, step s = .next t →
    t.cfg = s.cfg ∧ (s.cfg.backend = .dma → t.spi = s.spi) ∧ (s.cfg.backend = .spi → t.dma = s.dma)

/-- R152, R326: NoHardware is absorbing, no step goes back to Start, and only DEINIT leaves a session. -/
def Obligations.InitStateMoves : Prop :=
  (∀ s t : State, step s = .next t →
    (s.initState = .noHardware → t.initState = .noHardware) ∧ (s.initState ≠ .start → t.initState ≠ .start))
  ∧ ∀ (i : Instr) (s t : State), exec i s = .next t → i ≠ .deinit →
    t.initState = .noHardware ∨ s.initState.code ≤ t.initState.code

/-- R27: the three output histories only grow, at their ends. -/
def Obligations.HistoriesOnlyGrow : Prop :=
  ∀ s t : State, step s = .next t →
    Grows s.notifyLog t.notifyLog ∧ Grows s.wireTxLog t.wireTxLog ∧ Grows s.stackRxLog t.stackRxLog

/-- R321 to R323, R344: only the receive operations count receive errors, only the transmit operations count AGAIN. -/
def Obligations.CountersWrittenBy : Prop :=
  ∀ (i : Instr) (s t : State), exec i s = .next t →
    ((∀ c, i ≠ .procInput c) → i ≠ .pipeProcInput → t.cntRxErr = s.cntRxErr ∧ t.cntRxNomem = s.cntRxNomem)
    ∧ ((∀ b, i ≠ .output b ∧ i ≠ .outputFrame b ∧ i ≠ .pipeTxChain b ∧ i ≠ .pipeTxRaw b) → t.cntTxAgain = s.cntTxAgain)

/-- R2, R129, R330: a step of another agent answers the host nothing and touches none of the host's variables, whatever else the schedule
makes follow it. -/
def Obligations.EventsLeaveHostVariables : Prop :=
  ∀ (i : Instr) (s t : State), i.isEvent = true → exec i s = .next t →
    t.input = s.input ∧ t.cmdBuf = s.cmdBuf ∧ t.resBuf = s.resBuf
    ∧ t.initState = s.initState ∧ t.caps = s.caps ∧ t.capsRead = s.capsRead ∧ t.mac = s.mac
    ∧ t.linkInfo = s.linkInfo ∧ t.linkSettings = s.linkSettings ∧ t.linkReported = s.linkReported ∧ t.linkManual = s.linkManual
    ∧ t.notifyLog = s.notifyLog ∧ t.stackRxLog = s.stackRxLog
    ∧ t.cntRxErr = s.cntRxErr ∧ t.cntRxNomem = s.cntRxNomem ∧ t.cntTxAgain = s.cntTxAgain
    ∧ t.dma.clocksOn = s.dma.clocksOn ∧ t.dma.pinsConfigured = s.dma.pinsConfigured ∧ t.dma.phyResetDone = s.dma.phyResetDone
    ∧ t.dma.rxCursor = s.dma.rxCursor ∧ t.dma.txCursor = s.dma.txCursor ∧ t.dma.fltColl0 = s.dma.fltColl0
    ∧ t.dma.fltColl1 = s.dma.fltColl1 ∧ t.dma.lmState = s.dma.lmState ∧ t.dma.lmLink = s.dma.lmLink
    ∧ t.dma.mdioBusy = s.dma.mdioBusy ∧ t.dma.cache = s.dma.cache
    ∧ (∀ r : MacReg, r ≠ .eir → r ≠ .mmfr → r ≠ .rdar → r ≠ .tdar → t.dma.macRead r = s.dma.macRead r)
    ∧ t.spi.csActive = s.spi.csActive ∧ t.spi.faultSock = s.spi.faultSock ∧ t.spi.ibuf = s.spi.ibuf
    ∧ t.spi.ibufStart = s.spi.ibufStart ∧ t.spi.ibufSize = s.spi.ibufSize

/-! ## The Driver Contract -/

/-- R150, R159, R160, R167, R168: the operations that read a variable, in every state and under every schedule. -/
def Obligations.VariableReads : Prop :=
  ∀ s : State,
    exec .isUnknown s = .next { s with resBuf := [if s.initState = .start then 0x00 else 0x01] }
    ∧ exec .getSystemMac s = .next { s with resBuf := 0x00 :: macBytes s.cfg.systemMac }
    ∧ exec .getMac s = .next { s with resBuf := 0x00 :: macBytes s.mac }
    ∧ (∃ g : Byte, exec .getLinkInfo s = .next { s with resBuf := 0x00 :: (putBe16 s.linkInfo.speedMbps ++ [g]) }
      ∧ g.getLsbD 0 = s.linkInfo.fullDuplex ∧ g.getLsbD 1 = s.linkInfo.autoneg ∧ g.getLsbD 2 = s.linkInfo.crossover
      ∧ g.getLsbD 3 = false ∧ g.getLsbD 4 = false ∧ g.getLsbD 5 = false ∧ g.getLsbD 6 = false ∧ g.getLsbD 7 = s.linkReported)
    ∧ exec .getStats s =
      .next { s with resBuf := 0x00 :: (putBe32 s.cntRxErr ++ putBe32 s.cntRxNomem ++ putBe32 s.cntTxAgain) }

/-- R157, with the bit order of R22. -/
def Obligations.CapabilitiesOncePerSession : Prop :=
  ∀ s : State, ∃ v : U16,
    (v.getLsbD 0 = s.caps.macSettable ∧ v.getLsbD 1 = s.caps.linkStateDetectable ∧ v.getLsbD 2 = s.caps.linkSpeedDetectable
      ∧ v.getLsbD 3 = s.caps.linkSpeedSettable ∧ v.getLsbD 4 = s.caps.duplexDetectable ∧ v.getLsbD 5 = s.caps.duplexSettable
      ∧ v.getLsbD 6 = s.caps.crossoverDetectable ∧ v.getLsbD 7 = s.caps.autonegRestartable ∧ v.getLsbD 8 = s.caps.phyResettable
      ∧ v.toNat < 512)
    ∧ exec .getCapabilities s = .next
      (if s.initState ≠ .initialized then { s with resBuf := [0x03] }
      else if s.capsRead then { s with resBuf := [0x04] }
      else { s with capsRead := true, resBuf := 0x00 :: putBe16 v })

/-- R166: in a session the four fields are stored; nothing else changes. -/
def Obligations.LinkSettingsStored : Prop :=
  ∀ (s : State) (sp : U16) (d n x : Bool),
    exec (.setLinkSettings sp d n x) s = .next
      (if s.initState ≠ .initialized then { s with resBuf := [0x03] }
      else { s with linkSettings := ⟨sp, d, n, x⟩, resBuf := [0x00] })

/-- R162, R163: the state gate, under every schedule. Nothing but RES_BUF changes. -/
def Obligations.GateOutsideSession : Prop :=
  ∀ s : State, s.initState ≠ .initialized →
    (∀ i : Instr, i = .getCapabilities ∨ (∃ c, i = .procInput c) ∨ i = .poll ∨ (∃ b, i = .output b) ∨ (∃ b, i = .outputFrame b)
        ∨ i = .forceLinkUp ∨ (∃ sp d n x, i = .setLinkSettings sp d n x) ∨ i = .pipeProcInput ∨ i = .pipePollLink
        ∨ (∃ b, i = .pipeTxChain b)
        ∨ (s.cfg.promiscuous = false ∧ ((∃ m a, i = .setIncomingMacAllowed m a) ∨ ∃ m a, i = .pipeAllowMac m a)) →
      exec i s = .next { s with resBuf := [0x03] })
    ∧ ∀ b : List Byte, exec (.pipeTxRaw b) s = .next { s with resBuf := [0x01] }

/-- R162, R285, R286, R327, R329: in a session the SPI data plane is closed while `fault_sock`; a length the hardware cannot carry is
INVALID on both builds, in PIPE_TX_CHAIN what is left once the padding is removed; PIPE_TX_RAW makes each of them FALSE. -/
def Obligations.DataPlaneRefusals : Prop :=
  (∀ s : State, s.SpiSession → s.spi.faultSock = true →
    (∀ i : Instr, (∃ c, i = .procInput c) ∨ (∃ b, i = .output b) ∨ (∃ b, i = .outputFrame b) ∨ i = .pipeProcInput
        ∨ (∃ b, i = .pipeTxChain b) → exec i s = .next { s with resBuf := [0x03] })
    ∧ ∀ b : List Byte, exec (.pipeTxRaw b) s = .next { s with resBuf := [0x01] })
  ∧ (∀ (s : State) (b : List Byte), b.length = 0 ∨ s.cfg.maxLenTagged < b.length →
    exec (.output b) s = .next { s with resBuf := [0x03] } ∧ exec (.outputFrame b) s = .next { s with resBuf := [0x03] })
  ∧ (∀ (s : State) (b : List Byte), b.length ≤ s.cfg.stackPad ∨ s.cfg.stackPad + s.cfg.maxLenTagged < b.length →
    exec (.pipeTxChain b) s = .next { s with resBuf := [0x03] })
  ∧ ∀ (s : State) (b : List Byte), lengthValid s.cfg b = false → exec (.pipeTxRaw b) s = .next { s with resBuf := [0x01] }

/-- R151, R153, R280, R326: past Start no hardware is touched by HAS_HARDWARE, nor by INIT and PIPE_INIT in NoHardware and Initialized;
under every schedule only RES_BUF changes. -/
def Obligations.ProbeResultMemoized : Prop :=
  ∀ s : State,
    (s.initState ≠ .start → exec .hasHardware s = .next { s with resBuf := [if s.initState = .noHardware then 0x01 else 0x00] })
    ∧ ∀ m : MacAddr,
      (s.initState = .noHardware → exec (.init m) s = .next { s with resBuf := [0x01] }
        ∧ exec (.pipeInit m) s = .next { s with resBuf := [0x01] })
      ∧ (s.initState = .initialized → exec (.init m) s = .next { s with resBuf := [0x00] }
        ∧ exec (.pipeInit m) s = .next { s with resBuf := [0x00] })

/-- R181 to R184, R188, R190, R197: the DMA probe. When every management transaction completes promptly, a PHY that answers with the
expected identity leaves HasHardware, any other identity rolls back and leaves NoHardware; when none completes within the bound the PHY
counts as absent. -/
def Obligations.DmaProbeReadsIdentity : Prop :=
  (∀ s : State, s.Prompted → s.cfg.backend = .dma → s.initState = .start → s.dma.mdioBusy = false → 1 ≤ s.cfg.mdioPollBound →
    exec .hasHardware s = .next
      (let ok := probedIdentity s.cfg &&& s.cfg.phyIdMask == s.cfg.phyIdExpect &&& s.cfg.phyIdMask;
      { s with
        initState := if ok then .hasHardware else .noHardware
        resBuf := [if ok then 0x00 else 0x01]
        dma := { s.dma with
          clocksOn := ok, pinsConfigured := ok, phyResetDone := ok, phy := s.dma.phy.pulse
          regs := { s.dma.regs with
            eir := s.dma.regs.eir &&& ~~~0x00000002
            mmfr := mmfrWithData (mmfrRead s.cfg 3) ((probedIdentity s.cfg).extractLsb' 0 16) } } }))
  ∧ ∀ s : State, s.Quiet → s.cfg.backend = .dma → s.initState = .start → s.dma.mdioBusy = false →
    exec .hasHardware s = .next
      { s with
        initState := .noHardware
        resBuf := [0x01]
        dma := { s.dma with
          clocksOn := false, pinsConfigured := false, phyResetDone := false, phy := s.dma.phy.pulse
          regs := { s.dma.regs with eir := s.dma.regs.eir &&& ~~~0x00000002, mmfr := mmfrRead s.cfg 3 } } }

/-- R234, R240 to R243, R247, R270, R274, R326: the SPI probe. A present chip whose reset completes promptly is reset, the second pattern
stays in SCRATCH, and the version decides; no value of the floating bus passes the self-test, so an absent chip is never found. -/
def Obligations.SpiProbeResetsChip : Prop :=
  (∀ s : State, s.Prompted → s.cfg.backend = .spi → s.initState = .start → s.cfg.chipPresent = true →
    1 ≤ s.cfg.spiResetPollBound →
    exec .hasHardware s = .next
      { s with
        initState := if s.cfg.chipVersion = s.cfg.chipVersionExpect then .phyInitialized else .noHardware
        resBuf := [if s.cfg.chipVersion = s.cfg.chipVersionExpect then 0x00 else 0x01]
        spi := { s.spi with
          csActive := false
          chip := { Chip.reset with
            scratch := s.cfg.patternB, link := s.spi.chip.link, rxMem := s.spi.chip.rxMem, txMem := s.spi.chip.txMem } } })
  ∧ ∀ s : State, s.Quiet → s.cfg.backend = .spi → s.initState = .start → s.cfg.chipPresent = false →
    s.cfg.patternA ≠ s.cfg.patternB →
    exec .hasHardware s = .next
      { s with initState := .noHardware, resBuf := [0x01], spi := { s.spi with csActive := false } }

/-- R153, R280, R291: INIT in Start is the probe of HAS_HARDWARE and then INIT; PIPE_INIT is HAS_HARDWARE and then INIT; on the SPI build
INIT in state 2 probes again. Under every schedule. -/
def Obligations.InitProbesFirst : Prop :=
  ∀ (s t : State) (m : MacAddr),
    (s.initState = .start → exec .hasHardware s = .next t → exec (.init m) s = exec (.init m) t)
    ∧ (exec .hasHardware s = .next t → exec (.pipeInit m) s = exec (.init m) t)
    ∧ (s.cfg.backend = .spi → s.initState = .hasHardware → exec .hasHardware { s with initState := .start } = .next t →
      exec (.init m) s = exec (.init m) t)

/-- R153, R154, R192 to R196: INIT on the DMA build past the tuning, with the MAC idle as the invariant leaves it outside a session. -/
def Obligations.DmaInitBringsUp : Prop :=
  ∀ (s : State) (m : MacAddr), s.Quiet → s.cfg.wf = true → s.cfg.backend = .dma → s.initState = .phyInitialized →
    MacInv s → MemoriesWf s →
    ∃ mem', exec (.init m) s = .next
        { s.afterInit m with dma := { s.dma.afterInit s.cfg m with mem := mem' } }
      ∧ exec (.pipeInit m) s = exec (.init m) s
      ∧ RingsSeeded s.cfg s.dma.mem mem'

/-- R191, R186, R187, R189, with R192 to R196: INIT on the DMA build from HasHardware when the management transactions complete promptly
(R197): the PHY holds what the tuning list writes, MMFR the last frame of it. -/
def Obligations.DmaInitTunesPhy : Prop :=
  ∀ (s : State) (m : MacAddr), s.Prompted → s.cfg.wf = true → s.cfg.backend = .dma → s.initState = .hasHardware →
    s.dma.clocksOn = true → MacInv s → MemoriesWf s →
    ∃ mem', exec (.init m) s = .next
        { s.afterInit m with dma :=
          let d := s.dma.afterInit s.cfg m
          { d with mem := mem', phy := tunedPhy s.cfg s.dma.phy, regs := { d.regs with mmfr := tunedMmfr s.cfg s.dma.regs.mmfr } } }
      ∧ exec (.pipeInit m) s = exec (.init m) s
      ∧ RingsSeeded s.cfg s.dma.mem mem'

/-- R152, R153, R191: a tuning write that does not complete ends INIT with FALSE; the state stays HasHardware and the station address
stays. Under the quiet schedule the first management write never completes; under every schedule the same holds of whichever entry of the
tuning list fails, the writes made before it staying made. -/
def Obligations.TuningFailureStaysBelow : Prop :=
  (∀ (s : State) (m : MacAddr) (w : BitVec 5 × U16) (rest : List (BitVec 5 × U16)), s.Quiet → s.cfg.backend = .dma →
    s.initState = .hasHardware → s.dma.mdioBusy = false → allTuningWrites s.cfg = w :: rest →
    exec (.init m) s = .next
      { s with
        resBuf := [0x01]
        dma := { s.dma with
          regs := { s.dma.regs with eir := s.dma.regs.eir &&& ~~~0x00000002, mmfr := mmfrWrite s.cfg w.1 w.2 } } })
  ∧ ∀ (s t u : State) (m : MacAddr) (before after : List (U16 × U16)) (a v : U16), s.cfg.backend = .dma → s.initState = .hasHardware →
    s.cfg.phyTuning = before ++ (a, v) :: after → tune before s = .ok (true, t) → phyWrite a v t = .ok (false, u) →
    exec (.init m) s = .next { u with resBuf := [0x01] }
    ∧ u.initState = .hasHardware ∧ u.mac = s.mac ∧ u.caps = s.caps ∧ u.capsRead = s.capsRead ∧ u.linkInfo = s.linkInfo
    ∧ u.linkSettings = s.linkSettings ∧ u.linkReported = s.linkReported ∧ u.linkManual = s.linkManual ∧ u.notifyLog = s.notifyLog
    ∧ u.dma.rxCursor = s.dma.rxCursor ∧ u.dma.txCursor = s.dma.txCursor
    ∧ ∀ r : MacReg, r ≠ .eir → r ≠ .mmfr → r ≠ .rdar → r ≠ .tdar → u.dma.macRead r = s.dma.macRead r

/-- R153, R154, R244 to R246, R264: INIT on the SPI build past the probe. -/
def Obligations.SpiInitOpensSocket : Prop :=
  ∀ (s : State) (m : MacAddr), s.Quiet → s.cfg.wf = true → s.cfg.backend = .spi → s.initState = .phyInitialized →
    s.cfg.chipPresent = true →
    exec (.init m) s = .next
      { s.afterInit m with spi := { s.spi with
          rxPending := false, txDone := false, intLatched := false, csActive := false, faultSock := false, ibufStart := 0, ibufSize := 0
          chip := s.spi.chip.afterInit s.cfg m } }
    ∧ exec (.pipeInit m) s = exec (.init m) s

/-- R156, R198, R357: DEINIT of a DMA session. -/
def Obligations.DmaDeinitEndsSession : Prop :=
  ∀ s : State, s.Quiet → s.DmaSession →
    exec .deinit s = .next
      { s.afterDeinit with
        initState := .hasHardware
        notifyLog := if s.linkReported then s.notifyLog ++ [false] else s.notifyLog
        dma := { s.dma with
          rxPending := false, rxCursor := 0, txCursor := 0, lmState := .idle, lmLink := false, fltColl0 := 0, fltColl1 := 0
          rxActive := false, txActive := false, mdioBusy := false
          regs := { s.dma.regs with
            eimr := 0, ecr := 0, eir := s.dma.regs.eir &&& ~~~0x00000007, fltPres0 := 0, fltPres1 := 0 } } }

/-- R156, R248, R265, R357: DEINIT of an SPI session. -/
def Obligations.SpiDeinitClosesSocket : Prop :=
  ∀ s : State, s.Quiet → s.SpiSession → s.cfg.chipPresent = true → 1 ≤ s.cfg.sockPollBound →
    exec .deinit s = .next
      { s.afterDeinit with
        initState := .hasHardware
        notifyLog := if s.linkReported then s.notifyLog ++ [false] else s.notifyLog
        spi := { s.spi with
          rxPending := false, txDone := false, intLatched := false, csActive := false, ibufStart := 0, ibufSize := 0, faultSock := false
          chip := { s.spi.chip with simr := 0x00, sSr := 0x00, sendQueue := [], sIr := 0x00 } } }

/-- R152, R156: DEINIT outside a session under every schedule; the second of two DEINITs changes nothing. -/
def Obligations.DeinitIdempotent : Prop :=
  (∀ s : State, s.initState ≠ .initialized →
    exec .deinit s = .next
      { s.afterDeinit with
        initState := if s.initState = .phyInitialized then .hasHardware else s.initState
        dma := if s.cfg.backend = .spi then s.dma else { s.dma with
          rxPending := false, rxCursor := 0, txCursor := 0, lmState := .idle, lmLink := false, fltColl0 := 0, fltColl1 := 0 }
        spi := if s.cfg.backend = .dma then s.spi else { s.spi with
          rxPending := false, txDone := false, intLatched := false, ibufStart := 0, ibufSize := 0, faultSock := false } })
  ∧ ∀ s t : State, exec .deinit s = .next t → exec .deinit t = .next t

/-- R161, R41, R56: SET_MAC stores the variable, and in a session the hardware's station address. -/
def Obligations.SetMacStoresAddress : Prop :=
  ∀ (s : State) (m : MacAddr),
    (s.initState ≠ .initialized → exec (.setMac m) s = .next { s with mac := m, resBuf := [0x00] })
    ∧ (s.Quiet → s.DmaSession → exec (.setMac m) s = .next
      { s with mac := m, resBuf := [0x00], dma := { s.dma with regs := { s.dma.regs with
          palr := m.b0 ++ m.b1 ++ m.b2 ++ m.b3, paur := m.b4 ++ m.b5 ++ 0#16 } } })
    ∧ (s.Quiet → s.SpiSession → s.cfg.chipPresent = true → exec (.setMac m) s = .next
      { s with mac := m, resBuf := [0x00], spi := { s.spi with csActive := false, chip := { s.spi.chip with shar := m } } })

/-! ## The DMA data plane -/

/-- R97, R165, R205, R251, R281: when PROC_INPUT has nothing to give. A counter at the cap touches nothing (every schedule). On the DMA
build a clear flag, or a set one whose cursor descriptor hardware owns, answers NONE and leaves the flag clear; on the SPI build with an
empty local buffer and a clear flag no transaction is made. PIPE_PROC_INPUT then answers OK with zero frames. -/
def Obligations.InputWithNothingWaiting : Prop :=
  (∀ (s : State) (c : U16), s.DataOpen → s.cfg.rxLoopCap ≤ c.toNat → exec (.procInput c) s = .next { s with resBuf := [0x01] })
  ∧ (∀ (s : State) (c : U16), s.Quiet → s.cfg.wf = true → s.DmaSession → c.toNat < s.cfg.rxLoopCap →
    (s.dma.rxPending = true → s.dma.rxCursor < s.cfg.nRx ∧ ∃ st : U16, st.getLsbD 15 = true
      ∧ Memory.half? s.dma.mem (descAddr s.cfg.rxRingBase s.dma.rxCursor + 2) = some st) →
    exec (.procInput c) s = .next { s with resBuf := [0x01], dma := { s.dma with rxPending := false } }
    ∧ exec .pipeProcInput s = .next { s with resBuf := [0x00, 0x00, 0x00], dma := { s.dma with rxPending := false } })
  ∧ ∀ (s : State) (c : U16), s.Quiet → s.cfg.wf = true → s.SpiSession → s.spi.faultSock = false → c.toNat < s.cfg.rxLoopCap →
    s.cfg.spiIntWired = true → s.spi.rxPending = false → s.spi.ibufSize ≤ s.spi.ibufStart →
    exec (.procInput c) s = .next { s with resBuf := [0x01], spi := { s.spi with ibufStart := 0, ibufSize := 0 } }
    ∧ exec .pipeProcInput s = .next { s with resBuf := [0x00, 0x00, 0x00], spi := { s.spi with ibufStart := 0, ibufSize := 0 } }

/-- R92, R93, R205, R322, R323: PROC_INPUT takes the frame the cursor's descriptor holds. An error bit drops and counts it without an
allocation; a failed allocation drops and counts it; otherwise the host reads the bytes memory holds, whatever its cache held, with a drawn
timestamp. In every case the descriptor is re-armed, the doorbell rung, the cursor advanced and the flag set again. -/
def Obligations.DmaInputTakesFrame : Prop :=
  ∀ (s : State) (c st n : U16), s.Quiet → s.cfg.wf = true → s.DmaSession → c.toNat < s.cfg.rxLoopCap → s.dma.rxPending = true →
    s.dma.rxCursor < s.cfg.nRx → Memory.half? s.dma.mem (descAddr s.cfg.rxRingBase s.dma.rxCursor + 2) = some st →
    st.getLsbD 15 = false → Memory.half? s.dma.mem (descAddr s.cfg.rxRingBase s.dma.rxCursor) = some n → n.toNat ≤ s.cfg.bufSize →
    let a := rxBufAddr s.cfg s.dma.rxCursor
    let d := cacheInvalidate a s.cfg.bufSize s.dma
    (st &&& 0x0037 ≠ 0 →
      exec (.procInput c) s = .next { s.rearmed st d with cntRxErr := s.cntRxErr + 1, resBuf := [0x01] })
    ∧ (st &&& 0x0037 = 0 → s.draws.takeAlloc.1 = false →
      exec (.procInput c) s = .next
        { s.rearmed st d with draws := s.draws.takeAlloc.2, cntRxNomem := s.cntRxNomem + 1, resBuf := [0x01] })
    ∧ (st &&& 0x0037 = 0 → s.draws.takeAlloc.1 = true → ∀ b : List Byte, Memory.readBytes s.dma.mem a n.toNat = some b →
      exec (.procInput c) s = .next
        { s.rearmed st (hostReadRange d a n.toNat).2 with
          draws := s.draws.takeAlloc.2.takeTimestamp.2
          resBuf := 0x00 :: (putBe32 s.draws.takeAlloc.2.takeTimestamp.1 ++ putBe16 n ++ b) })

/-- R94, R164, R207, R208, R285, R286, R321: the four transmit operations on the DMA build. A busy cursor descriptor answers AGAIN (FALSE
from PIPE_TX_RAW) and only the counter changes. A free one: the frame is in the slot's buffer in memory, LEN and STATUS are stored, the
doorbell is rung, the cursor advances, and no byte outside the slot's buffer and those two fields changes. -/
def Obligations.DmaOutputGivesFrame : Prop :=
  ∀ (s : State) (i : Instr) (b : List Byte) (st : U16), s.Quiet → s.cfg.wf = true → s.DmaSession → MemoriesWf s →
    Sends s.cfg i b → 0 < b.length → b.length ≤ s.cfg.maxLenTagged → s.dma.txCursor < s.cfg.nTx →
    Memory.half? s.dma.mem (descAddr s.cfg.txRingBase s.dma.txCursor + 2) = some st →
    let a := txBufAddr s.cfg s.dma.txCursor
    let desc := descAddr s.cfg.txRingBase s.dma.txCursor
    (st.getLsbD 15 = true → exec i s = .next { s with cntTxAgain := s.cntTxAgain + 1, resBuf := [noRoomCode i] })
    ∧ (st.getLsbD 15 = false → ∃ mem', exec i s = .next
        { s with
          resBuf := [0x00]
          dma := { s.dma with
            mem := mem', cache := (cacheFlush a b.length (hostWriteRange s.dma a b)).cache
            txActive := true, txCursor := if st.getLsbD 13 then 0 else s.dma.txCursor + 1 } }
      ∧ Memory.readBytes mem' a b.length = some b
      ∧ Memory.half? mem' desc = some (BitVec.ofNat 16 b.length)
      ∧ Memory.half? mem' (desc + 2) = some (0x8C00 ||| (st &&& 0x2000))
      ∧ ∀ x, (x < a ∨ a + s.cfg.bufSize ≤ x) → (x < desc ∨ desc + 4 ≤ x) → Memory.read? mem' x = Memory.read? s.dma.mem x)

/-- R111, R130, R217 to R219, R261, R288, R325: SET_INCOMING_MAC_ALLOWED and PIPE_ALLOW_MAC. With promiscuous mode compiled in they are
REFUSED in every state; on the SPI build they answer FALSE; on the DMA build they act on the bucket of the address. -/
def Obligations.FilterOperations : Prop :=
  (∀ (s : State) (m : MacAddr) (a : Bool) (i : Instr), (i = .setIncomingMacAllowed m a ∨ i = .pipeAllowMac m a) →
    (s.cfg.promiscuous = true → exec i s = .next { s with resBuf := [0x04] })
    ∧ (s.cfg.promiscuous = false → s.SpiSession → exec i s = .next { s with resBuf := [0x01] }))
  ∧ ∀ (s : State) (m : MacAddr) (i : Instr), s.Quiet → s.cfg.promiscuous = false → s.DmaSession →
    let half := (filterHash s.cfg m).getLsbD 5
    let k := ((filterHash s.cfg m).extractLsb' 0 5).toNat
    let pres := s.dma.macRead (if half then .fltPres1 else .fltPres0)
    let coll := if half then s.dma.fltColl1 else s.dma.fltColl0
    ((i = .setIncomingMacAllowed m true ∨ i = .pipeAllowMac m true) →
      exec i s = .next { s with
        resBuf := [0x00]
        dma := if pres.getLsbD k then s.dma.withCollision half (coll ||| 1#32 <<< k)
          else s.dma.withPresence half (pres ||| 1#32 <<< k) })
    ∧ ((i = .setIncomingMacAllowed m false ∨ i = .pipeAllowMac m false) →
      exec i s = .next (if coll.getLsbD k then { s with resBuf := [0x01] }
        else { s with resBuf := [0x00], dma := s.dma.withPresence half (pres &&& ~~~(1#32 <<< k)) }))

/-! ## The SPI data plane -/

/-- R69, R250, R258, R322: while a record waits in the local buffer PROC_INPUT pops it, whatever the schedule; no transaction is made. The same
through PIPE_PROC_INPUT when it is the last one and the flag is clear: the stack's verdict is drawn (R281, R282). -/
def Obligations.SpiInputPopsRecord : Prop :=
  (∀ (s : State) (c : U16) (r : List Byte), s.SpiSession → s.spi.faultSock = false → c.toNat < s.cfg.rxLoopCap →
    s.spi.ibufStart + r.length ≤ s.spi.ibufSize → validRecord s.cfg.recMinLen r →
    Memory.readBytes s.spi.ibuf s.spi.ibufStart r.length = some r →
    exec (.procInput c) s = .next
      (State.delivers { s with spi := { s.spi with ibufStart := s.spi.ibufStart + r.length } } (r.drop 2)))
  ∧ ∀ (s : State) (r : List Byte), s.Quiet → s.SpiSession → s.spi.faultSock = false → 2 ≤ s.cfg.rxLoopCap →
    s.cfg.rxLoopCap ≤ 65535 → s.cfg.spiIntWired = true → s.spi.rxPending = false → 0 < r.length →
    s.spi.ibufStart + r.length = s.spi.ibufSize → validRecord s.cfg.recMinLen r →
    Memory.readBytes s.spi.ibuf s.spi.ibufStart r.length = some r → s.draws.takeAlloc.1 = true →
    let ts := s.draws.takeAlloc.2.takeTimestamp
    let v := ts.2.takeAccept
    exec .pipeProcInput s = .next
      { s with
        draws := v.2
        stackRxLog := if v.1 then s.stackRxLog ++ [(r.drop 2, ts.1)] else s.stackRxLog
        resBuf := [0x00, 0x00, if v.1 then 0x01 else 0x00]
        spi := { s.spi with ibufStart := 0, ibufSize := 0 } }

/-- R250 to R255, R257, R258: with the local buffer empty PROC_INPUT reads everything the chip announces, keeps the whole records,
acknowledges exactly them, leaves a trailing partial record in the chip, and pops the first record, if there is one. -/
def Obligations.SpiInputFetchesRecords : Prop :=
  ∀ (s : State) (c : U16) (rs : List (List Byte)) (tail : List Byte), s.Quiet → s.cfg.wf = true → s.SpiSession → SocketInv s →
    s.spi.chip.RingInv → c.toNat < s.cfg.rxLoopCap → s.spi.ibufSize ≤ s.spi.ibufStart →
    (s.cfg.spiIntWired = true → s.spi.rxPending = true) → s.spi.chip.sRxRsr.toNat = (rs.flatten ++ tail).length →
    ringRead s.spi.chip.rxMem s.spi.chip.rxBytes s.spi.chip.sRxRd.toNat (rs.flatten ++ tail).length = some (rs.flatten ++ tail) →
    (∀ r ∈ rs, validRecord s.cfg.recMinLen r) → partialRecord s.cfg.recMinLen tail →
    exec (.procInput c) s = .next
      (let t := { s with spi := s.spi.fetched s.cfg (rs.flatten ++ tail) rs.flatten.length tail.length };
      match rs with
      | [] => { t with resBuf := [0x01] }
      | r :: _ => State.delivers { t with spi := { t.spi with ibufStart := r.length } } (r.drop 2))

/-- R253, R256, R262, R324: a prefix below the minimum closes and reopens the socket; nothing is acknowledged; the whole records before it
stay in the local buffer, and the first of them, if there is one, is popped. -/
def Obligations.SpiInputRecoversFromCorruption : Prop :=
  ∀ (s : State) (c : U16) (rs : List (List Byte)) (tail : List Byte), s.Quiet → s.cfg.wf = true → s.SpiSession → SocketInv s →
    s.spi.chip.RingInv → c.toNat < s.cfg.rxLoopCap → s.spi.ibufSize ≤ s.spi.ibufStart →
    (s.cfg.spiIntWired = true → s.spi.rxPending = true) → s.spi.chip.sRxRsr.toNat = (rs.flatten ++ tail).length →
    ringRead s.spi.chip.rxMem s.spi.chip.rxBytes s.spi.chip.sRxRd.toNat (rs.flatten ++ tail).length = some (rs.flatten ++ tail) →
    (∀ r ∈ rs, validRecord s.cfg.recMinLen r) → corruptRecord s.cfg.recMinLen tail →
    exec (.procInput c) s = .next
      (let t := { s with spi := s.spi.recovered s.cfg (rs.flatten ++ tail) rs.flatten.length };
      match rs with
      | [] => { t with resBuf := [0x01] }
      | r :: _ => State.delivers { t with spi := { t.spi with ibufStart := r.length } } (r.drop 2))

/-- R253, R254, R256, R257: the scanner finds exactly the whole records before a trailing partial record, and tells a corrupt prefix from
a partial one. -/
def Obligations.ScannerFindsWholeRecords : Prop :=
  ∀ (minLen : Nat) (rs : List (List Byte)) (tail : List Byte), 2 ≤ minLen → (∀ r ∈ rs, validRecord minLen r) →
    (partialRecord minLen tail → scanRecords minLen (rs.flatten ++ tail) = (rs.flatten.length, false))
    ∧ (corruptRecord minLen tail → scanRecords minLen (rs.flatten ++ tail) = (rs.flatten.length, true))

/-- R164, R259, R260, R266, R285, R286, R321: the four transmit operations on the SPI build. Without room in the chip's ring at any look
only the counter (and what line 3 clears) changes; with room the bytes are in the ring, the write pointer and the queue are advanced, and
the free space is what R266 computes. -/
def Obligations.SpiOutputQueuesFrame : Prop :=
  ∀ (s : State) (i : Instr) (b : List Byte), s.Quiet → s.cfg.wf = true → s.SpiSession → SocketInv s → s.spi.chip.RingInv →
    MemoriesWf s → Sends s.cfg i b → 0 < b.length → b.length ≤ s.cfg.maxLenTagged →
    let sIr := if s.cfg.spiIntWired then s.spi.chip.sIr &&& ~~~0x10 else s.spi.chip.sIr
    let txDone := if s.cfg.spiIntWired then false else s.spi.txDone
    (s.spi.chip.sTxFsr.toNat < b.length → exec i s = .next
      { s with
        cntTxAgain := s.cntTxAgain + 1, resBuf := [noRoomCode i]
        spi := { s.spi with csActive := false, txDone := txDone, chip := { s.spi.chip with sIr := sIr } } })
    ∧ (b.length ≤ s.spi.chip.sTxFsr.toNat → ∃ tx', exec i s = .next
        (let wr := s.spi.chip.sTxWr + BitVec.ofNat 16 b.length;
        { s with
          resBuf := [0x00]
          spi := { s.spi with
            csActive := false, txDone := txDone
            chip := { s.spi.chip with
              sIr := sIr, txMem := tx', sTxWr := wr, txWrCommitted := wr, sendQueue := s.spi.chip.sendQueue ++ [wr]
              sTxFsr := BitVec.ofNat 16 (s.spi.chip.txBytes - (wr - s.spi.chip.sTxRd).toNat) } } })
      ∧ RingHolds s.spi.chip.txBytes s.spi.chip.sTxWr.toNat b s.spi.chip.txMem tx')

/-! ## The link monitor -/

/-- R181, R183, R284, R302, R303: one POLL of the DMA monitor makes at most one transition. -/
def Obligations.DmaPollMakesOneTransition : Prop :=
  ∀ (s : State) (i : Instr), s.Quiet → s.DmaSession → (i = .poll ∨ i = .pipePollLink) →
    let eir := s.dma.regs.eir &&& ~~~0x00000002
    let done := s.dma.mdioBusy && s.dma.regs.eir.getLsbD 1
    let v := s.dma.regs.mmfr
    (s.dma.lmState = .idle → exec i s = .next
      (if s.dma.mdioBusy then { s with resBuf := [0x00] }
      else { s with resBuf := [0x00], dma := { s.dma with
        lmState := .waitLink, mdioBusy := true, regs := { s.dma.regs with eir := eir, mmfr := mmfrRead s.cfg 0x01 } } }))
    ∧ (s.dma.lmState = .waitLink → exec i s = .next
      (if done then { s with resBuf := [0x00], dma := { s.dma with
        lmState := .waitStatus, lmLink := v.getLsbD 2, mdioBusy := true
        regs := { s.dma.regs with eir := eir, mmfr := mmfrRead s.cfg 0x10 } } }
      else { s with resBuf := [0x00] }))
    ∧ (s.dma.lmState = .waitStatus → exec i s = .next
      (if done then
        State.evaluated
          { s with
            resBuf := [0x00]
            linkInfo := if s.dma.lmLink then
                ⟨if v.getLsbD 1 then 10 else 100, v.getLsbD 2, v.getLsbD 4, v.getLsbD 14⟩
              else s.linkInfo
            dma := { s.dma with lmState := .idle, mdioBusy := false, regs := { s.dma.regs with eir := eir } } }
          s.dma.lmLink
      else { s with resBuf := [0x00] }))

/-- R59, R284, R301, R305, R306: one POLL of the SPI monitor is a whole pass; bits 7:3 of PHYCFGR are drawn and ignored. -/
def Obligations.SpiPollReadsLink : Prop :=
  ∀ (s : State) (i : Instr), s.Quiet → s.SpiSession → s.cfg.chipPresent = true → (i = .poll ∨ i = .pipePollLink) →
    exec i s = .next
      (State.evaluated
        { s with
          resBuf := [0x00]
          draws := s.draws.takeChipByte.2
          linkInfo := if s.spi.chip.link.up then
              ⟨if s.spi.chip.link.spd100 then 100 else 10, s.spi.chip.link.full, false, false⟩
            else s.linkInfo
          spi := { s.spi with csActive := false } }
        s.spi.chip.link.up)

/-- R301, R308, R310 (c): FORCE_LINK_UP sets the sticky override and reports the link up once. -/
def Obligations.ForceLinkUpReportsOnce : Prop :=
  ∀ s : State, s.Quiet → s.initState = .initialized →
    exec .forceLinkUp s = .next
      { s with
        linkManual := true, linkReported := true, resBuf := [0x00]
        notifyLog := if s.linkReported then s.notifyLog else s.notifyLog ++ [true] }

/-! ## The other agents -/

/-- R209, R210: !WIRE_RX on the DMA build: admission, an idle engine, a descriptor that is not hardware's, and a frame received. -/
def Obligations.DmaWireRxFillsDescriptor : Prop :=
  ∀ (s : State) (b : List Byte) (err : Byte), s.Quiet → s.cfg.backend = .dma →
    let r := s.dma.regs
    let dst := destination b
    let admitted := r.ecr.getLsbD 0 = true ∧ 14 ≤ b.length
      ∧ (r.rcr.getLsbD 0 = true ∨ dst = stationAddress r ∨ broadcast dst = true ∨ presenceBit r (filterHash s.cfg dst) = true)
    let desc := descAddr r.rdsr s.dma.hwRxIdx
    ((¬ admitted ∨ s.dma.rxActive = false) → exec (.wireRx b err) s = .next s)
    ∧ (admitted → s.dma.rxActive = true → desc % 8 = 0 → desc + 8 ≤ 2 ^ 32 → ∀ st : U16, Memory.half? s.dma.mem (desc + 2) = some st →
      (st.getLsbD 15 = false → exec (.wireRx b err) s = .next { s with dma := { s.dma with rxActive := false } })
      ∧ (st.getLsbD 15 = true → ∀ buf : U32, Memory.word? s.dma.mem (desc + 4) = some buf → buf.toNat + s.cfg.bufSize ≤ 2 ^ 32 →
        exec (.wireRx b err) s = .next
          (let k := min b.length s.cfg.bufSize
          let e : U16 := (err.zeroExtend 16 &&& 0x0037) ||| (if (r.rcr.extractLsb' 16 14).toNat < b.length + 4 then 0x0020 else 0)
            ||| (if s.cfg.bufSize < b.length then 0x0001 else 0)
          { s with dma := { s.dma with
              mem := withDescriptor (Memory.writeBytes s.dma.mem buf.toNat (b.take k)) desc (BitVec.ofNat 16 k)
                ((st &&& 0x2000) ||| 0x0800 ||| e)
              regs := { r with eir := r.eir ||| 0x00000001 }
              hwRxIdx := if st.getLsbD 13 then 0 else s.dma.hwRxIdx + 1 } })))

/-- R269: !WIRE_RX on the SPI build: a frame the chip does not admit changes nothing; an admitted one is appended to the ring as a record. -/
def Obligations.ChipWireRxAppendsRecord : Prop :=
  ∀ (s : State) (b : List Byte) (err : Byte), s.Quiet → s.cfg.backend = .spi → s.spi.chip.RingInv → MemoriesWf s →
    let q := s.spi.chip
    let dst := destination b
    let n := b.length + 2
    let admitted := q.sSr = 0x42 ∧ 14 ≤ b.length ∧ err = 0 ∧ n ≤ q.rxBytes - q.sRxRsr.toNat
      ∧ (q.sMr.getLsbD 7 = false ∨ dst = q.shar ∨ broadcast dst = true ∨ group dst = true)
    (¬ admitted → exec (.wireRx b err) s = .next s)
    ∧ (admitted → ∃ rx', exec (.wireRx b err) s = .next
        { s with spi := { s.spi with
            intLatched := if q.simr.getLsbD 0 && q.sImr.getLsbD 2 then true else s.spi.intLatched
            chip := { q with
              rxMem := rx', sRxWr := q.sRxWr + BitVec.ofNat 16 n, sRxRsr := q.sRxRsr + BitVec.ofNat 16 n, sIr := q.sIr ||| 0x04 } } }
      ∧ RingHolds q.rxBytes q.sRxWr.toNat (putBe16 (BitVec.ofNat 16 n) ++ b) q.rxMem rx')

/-- R213, R268: !DMA_TX and !CHIP_SEND_DONE put the oldest frame on the wire. A descriptor the host rules never make stops the model by
name (93_implementation_defined.md U12). -/
def Obligations.TransmitEnginesSend : Prop :=
  (∀ s : State, s.Quiet → s.cfg.backend = .dma →
    let desc := descAddr s.dma.regs.tdsr s.dma.hwTxIdx
    (s.dma.regs.ecr.getLsbD 0 = false ∨ s.dma.txActive = false → exec .dmaTx s = .next s)
    ∧ (s.dma.regs.ecr.getLsbD 0 = true → s.dma.txActive = true → desc % 8 = 0 → desc + 8 ≤ 2 ^ 32 →
      ∀ st : U16, Memory.half? s.dma.mem (desc + 2) = some st →
      (st.getLsbD 15 = false → exec .dmaTx s = .next { s with dma := { s.dma with txActive := false } })
      ∧ (st.getLsbD 15 = true → ∀ n : U16, Memory.half? s.dma.mem desc = some n →
        ((st.getLsbD 10 = false ∨ st.getLsbD 11 = false ∨ n = 0 ∨ s.cfg.bufSize < n.toNat) →
          exec .dmaTx s = .fault (.badTransmitDescriptor s.dma.hwTxIdx))
        ∧ (st.getLsbD 10 = true → st.getLsbD 11 = true → n ≠ 0 → n.toNat ≤ s.cfg.bufSize →
          ∀ (buf : U32) (f : List Byte), Memory.word? s.dma.mem (desc + 4) = some buf → buf.toNat + n.toNat ≤ 2 ^ 32 →
          Memory.readBytes s.dma.mem buf.toNat n.toNat = some f →
          exec .dmaTx s = .next
            { s with
              wireTxLog := s.wireTxLog ++ [f]
              dma := { s.dma with
                mem := Memory.writeBytes s.dma.mem (desc + 2) (putLe16 (st &&& 0x2000))
                regs := { s.dma.regs with eir := s.dma.regs.eir ||| 0x00000004 }
                hwTxIdx := if st.getLsbD 13 then 0 else s.dma.hwTxIdx + 1 } }))))
  ∧ ∀ s : State, s.Quiet → s.cfg.backend = .spi →
    let q := s.spi.chip
    (q.sSr ≠ 0x42 ∨ q.sendQueue = [] → exec .chipSendDone s = .next s)
    ∧ (q.sSr = 0x42 → ∀ (e : U16) (rest : List U16) (f : List Byte), q.sendQueue = e :: rest →
      ringRead q.txMem q.txBytes q.sTxRd.toNat (e - q.sTxRd).toNat = some f →
      exec .chipSendDone s = .next
        { s with
          wireTxLog := s.wireTxLog ++ [f]
          spi := { s.spi with
            intLatched := if q.simr.getLsbD 0 && q.sImr.getLsbD 4 then true else s.spi.intLatched
            chip := { q with
              sendQueue := rest, sTxRd := e, sIr := q.sIr ||| 0x10
              sTxFsr := BitVec.ofNat 16 (q.txBytes - (q.txWrCommitted - e).toNat) } } })

/-- R182, R189: !MDIO_DONE completes the management frame in flight. Read: LINKREG and STSREG show the live link, their other bits are
drawn. Write: 0x0D is kept as REGCR, 0x0E goes to the selected extended register or to its address as REGCR's function says, 0x01, 0x02,
0x03 and 0x10 are ignored, any other register is kept; what is kept reads back and nothing else of the PHY changes. -/
def Obligations.MdioDoneCompletesFrame : Prop :=
  ∀ s : State, s.Quiet → s.cfg.backend = .dma →
    let f := s.dma.regs.mmfr
    let ra := f.extractLsb' 18 5
    let enabled := s.dma.clocksOn = true ∧ s.dma.mdioBusy = true ∧ s.dma.regs.eir.getLsbD 1 = false
    let answers := s.cfg.phyPresent = true ∧ f.extractLsb' 23 5 = s.cfg.phyAddr
    let p := s.dma.phy
    let v := f.extractLsb' 0 16
    let p' := p.regWrite ra v
    (¬ enabled → exec .mdioDone s = .next s)
    ∧ (enabled → f.extractLsb' 28 2 = 0b10#2 →
      (¬ answers → exec .mdioDone s = .next { s with dma := s.dma.completed 0xFFFF })
      ∧ (answers →
        (ra = 0x02 → exec .mdioDone s = .next { s with dma := s.dma.completed (s.cfg.phyId.extractLsb' 16 16) })
        ∧ (ra = 0x03 → exec .mdioDone s = .next { s with dma := s.dma.completed (s.cfg.phyId.extractLsb' 0 16) })
        ∧ (ra = 0x01 → ∃ v : U16, v.getLsbD 2 = p.link.up
          ∧ (∀ j, j ≠ 2 → v.getLsbD j = s.draws.takePhyBits.1.getLsbD j)
          ∧ exec .mdioDone s = .next { s with draws := s.draws.takePhyBits.2, dma := s.dma.completed v })
        ∧ (ra = 0x10 → ∃ v : U16, v.getLsbD 0 = p.link.up ∧ v.getLsbD 1 = p.link.speed10 ∧ v.getLsbD 2 = p.link.full
          ∧ v.getLsbD 4 = p.link.autonegDone ∧ v.getLsbD 14 = p.link.mdix
          ∧ (∀ j, j ≠ 0 → j ≠ 1 → j ≠ 2 → j ≠ 4 → j ≠ 14 → v.getLsbD j = s.draws.takePhyBits.1.getLsbD j)
          ∧ exec .mdioDone s = .next { s with draws := s.draws.takePhyBits.2, dma := s.dma.completed v })
        ∧ (ra = 0x0E → exec .mdioDone s = .next { s with
            dma := s.dma.completed (if p.regcr.extractLsb' 14 2 = 1#2 then p.extValue p.extAddr.toNat else p.extAddr) })
        ∧ (ra ≠ 0x01 → ra ≠ 0x02 → ra ≠ 0x03 → ra ≠ 0x0E → ra ≠ 0x10 →
          exec .mdioDone s = .next { s with dma := s.dma.completed (p.regValue ra.toNat) })))
    ∧ (enabled → f.extractLsb' 28 2 = 0b01#2 →
      (¬ answers → exec .mdioDone s = .next { s with dma := s.dma.completed v })
      ∧ (answers → exec .mdioDone s = .next { s with dma := DmaState.completed { s.dma with phy := p' } v }))
    ∧ (ra = 0x0D → p' = { p with regcr := v })
    ∧ (ra = 0x0E → p.regcr.extractLsb' 14 2 ≠ 1#2 → p' = { p with extAddr := v })
    ∧ (ra = 0x0E → p.regcr.extractLsb' 14 2 = 1#2 →
      p' = { p with ext := p'.ext } ∧ p'.extValue p.extAddr.toNat = v ∧ ∀ k, k ≠ p.extAddr.toNat → p'.extValue k = p.extValue k)
    ∧ (ra = 0x01 ∨ ra = 0x02 ∨ ra = 0x03 ∨ ra = 0x10 → p' = p)
    ∧ (ra ≠ 0x01 → ra ≠ 0x02 → ra ≠ 0x03 → ra ≠ 0x0D → ra ≠ 0x0E → ra ≠ 0x10 →
      p' = { p with reg := p'.reg } ∧ p'.regValue ra.toNat = v ∧ ∀ k, k ≠ ra.toNat → p'.regValue k = p.regValue k)

/-- R211, R216, R270 to R273, R330: the interrupt agent, the link oracle, the chip's reset completion and a ring fault, each where it is
enabled. -/
def Obligations.InterruptLinkResetAndFaultEvents : Prop :=
  (∀ s : State, s.Quiet → s.cfg.backend = .dma →
    (s.dma.regs.eir &&& s.dma.regs.eimr ≠ 0 → exec .isr s = .next
      { s with dma := { s.dma with rxPending := true, regs := { s.dma.regs with eir := s.dma.regs.eir &&& ~~~0x00000001 } } })
    ∧ ∀ f : Byte, exec (.link f) s = .next { s with dma := { s.dma with phy := { s.dma.phy with
        link := ⟨f.getLsbD 0, !f.getLsbD 1, f.getLsbD 2, f.getLsbD 3, f.getLsbD 4⟩ } } })
  ∧ ∀ s : State, s.Quiet → s.cfg.backend = .spi →
    (s.cfg.spiIntWired = true → s.spi.intLatched = true → s.spi.csActive = false → exec .isr s = .next
      { s with spi := { s.spi with intLatched := false, rxPending := true, txDone := true } })
    ∧ (∀ f : Byte, exec (.link f) s = .next { s with spi := { s.spi with chip := { s.spi.chip with
        link := ⟨f.getLsbD 0, f.getLsbD 1, f.getLsbD 2⟩ } } })
    ∧ (s.cfg.chipPresent = true → s.spi.chip.mr.getLsbD 7 = true → exec .chipResetDone s = .next
      { s with spi := { s.spi with chip := { s.spi.chip with mr := 0x00 } } })
    ∧ ∀ (a : U16) (v : Byte), s.spi.chip.sSr = 0x42 → exec (.ringFault a v) s = .next
      { s with spi := { s.spi with chip := { s.spi.chip with
          rxMem := Memory.write s.spi.chip.rxMem (a.toNat % s.spi.chip.rxBytes) v } } }

/-- R1, R129: an event whose agent step is not enabled, or whose agent the build does not have, is a no-op. -/
def Obligations.DisabledEventsDoNothing : Prop :=
  (∀ (s : State) (i : Instr), s.Quiet → s.cfg.backend = .dma →
    (i = .chipSendDone ∨ i = .chipResetDone ∨ (∃ a v, i = .ringFault a v)
      ∨ (i = .isr ∧ s.dma.regs.eir &&& s.dma.regs.eimr = 0)) → exec i s = .next s)
  ∧ ∀ (s : State) (i : Instr), s.Quiet → s.cfg.backend = .spi →
    (i = .dmaTx ∨ i = .mdioDone
      ∨ (i = .isr ∧ (s.cfg.spiIntWired = false ∨ s.spi.intLatched = false ∨ s.spi.csActive = true))
      ∨ (i = .chipResetDone ∧ (s.cfg.chipPresent = false ∨ s.spi.chip.mr.getLsbD 7 = false))
      ∨ ((∃ a v, i = .ringFault a v) ∧ s.spi.chip.sSr ≠ 0x42)) → exec i s = .next s

/-! ## Headlines -/

/-- R281, R282, R291: PIPE_PROC_INPUT is its PROC_INPUT commands, one after the other, with the stack's verdict drawn in between; under
every schedule and on both builds. -/
def Obligations.PipeInputIsItsCommands : Prop :=
  ∀ s : State, s.cfg.rxLoopCap ≤ 65535 → exec .pipeProcInput s = pipeInputByCommands (s.cfg.rxLoopCap + 1) 0 0 s

/-- R86 to R90, R215 (d), R361: byte transparency of the cache. A flushed range is in memory as the host wrote it; an invalidated range
reads as memory holds it, whatever the cache held; neither operation touches another line. -/
def Obligations.CacheKeepsBytes : Prop :=
  ∀ (d : DmaState) (a : Nat) (b : List Byte), d.mem.wf → cacheWf d.cache →
    (let d' := cacheFlush a b.length (hostWriteRange d a b);
      Memory.readBytes d'.mem a b.length = some b
      ∧ (∀ x, (∀ k, k < b.length → lineOf x ≠ lineOf (a + k)) → Memory.read? d'.mem x = Memory.read? d.mem x)
      ∧ (hostReadRange d' a b.length).1 = some b)
    ∧ ∀ n k : Nat, k ≤ n → Memory.readBytes d.mem a k = some b → (hostReadRange (cacheInvalidate a n d) a k).1 = some b

/-- R207, R209 to R211, R205, R213, R215 (d): byte transparency of the DMA build, through the commands. What the wire offers is what the
host gets, and what the host hands in is what goes on the wire. -/
def Obligations.DmaFramesPassUnchanged : Prop :=
  (∀ (s : State) (b : List Byte) (err : Byte) (st : U16), s.Quiet → s.cfg.wf = true → s.DmaSession → MacInv s → MemoriesWf s →
    s.dma.rxActive = true → s.dma.regs.rdsr = s.cfg.rxRingBase → s.dma.hwRxIdx = s.dma.rxCursor → s.dma.rxCursor < s.cfg.nRx →
    (∃ len, DescAt s.dma.mem (descAddr s.cfg.rxRingBase s.dma.rxCursor) len st
      (BitVec.ofNat 32 (rxBufAddr s.cfg s.dma.rxCursor))) → st.getLsbD 15 = true →
    14 ≤ b.length → b.length ≤ s.cfg.bufSize → b.length + 4 ≤ (s.dma.regs.rcr.extractLsb' 16 14).toNat → err &&& 0x37 = 0 →
    (destination b = stationAddress s.dma.regs ∨ broadcast (destination b) = true) → s.draws.takeAlloc.1 = true →
    ∃ t u v, exec (.wireRx b err) s = .next t ∧ exec .isr t = .next u ∧ exec (.procInput 0) u = .next v
      ∧ v.resBuf = 0x00 :: (putBe32 s.draws.takeAlloc.2.takeTimestamp.1 ++ putBe16 (BitVec.ofNat 16 b.length) ++ b))
  ∧ ∀ (s : State) (b : List Byte) (st : U16), s.Quiet → s.cfg.wf = true → s.DmaSession → MacInv s → MemoriesWf s →
    s.dma.regs.tdsr = s.cfg.txRingBase → s.dma.hwTxIdx = s.dma.txCursor → s.dma.txCursor < s.cfg.nTx →
    (∃ len, DescAt s.dma.mem (descAddr s.cfg.txRingBase s.dma.txCursor) len st
      (BitVec.ofNat 32 (txBufAddr s.cfg s.dma.txCursor))) → st.getLsbD 15 = false →
    0 < b.length → b.length ≤ s.cfg.maxLenTagged →
    ∃ t u, exec (.output b) s = .next t ∧ exec .dmaTx t = .next u ∧ u.wireTxLog = s.wireTxLog ++ [b]

/-- R250 to R258, R259, R266 to R269, R271, R275 (b), (c): byte transparency of the SPI build, through the commands. -/
def Obligations.SpiFramesPassUnchanged : Prop :=
  (∀ (s : State) (b : List Byte), s.Quiet → s.cfg.wf = true → s.SpiSession → SocketInv s → s.spi.chip.RingInv → MemoriesWf s →
    s.cfg.spiIntWired = true → s.spi.chip.simr.getLsbD 0 = true → s.spi.chip.sImr.getLsbD 2 = true → s.spi.csActive = false →
    s.spi.chip.sRxRsr = 0 → s.spi.ibufSize ≤ s.spi.ibufStart →
    14 ≤ b.length → s.cfg.recMinLen ≤ b.length + 2 → b.length + 2 ≤ s.spi.chip.rxBytes →
    (destination b = s.spi.chip.shar ∨ broadcast (destination b) = true) → s.draws.takeAlloc.1 = true →
    ∃ t u v, exec (.wireRx b 0) s = .next t ∧ exec .isr t = .next u ∧ exec (.procInput 0) u = .next v
      ∧ v.resBuf = 0x00 :: (putBe32 s.draws.takeAlloc.2.takeTimestamp.1 ++ putBe16 (BitVec.ofNat 16 b.length) ++ b))
  ∧ ∀ (s : State) (b : List Byte), s.Quiet → s.cfg.wf = true → s.SpiSession → SocketInv s → s.spi.chip.RingInv → MemoriesWf s →
    s.spi.chip.sendQueue = [] → 0 < b.length → b.length ≤ s.cfg.maxLenTagged →
    ∃ t u, exec (.output b) s = .next t ∧ exec .chipSendDone t = .next u ∧ u.wireTxLog = s.wireTxLog ++ [b]
end

