-- ==== Sys2Proof/Laws/Monad.lean ====
section
/-! SUPPORT. How an operation inside the block runs: one lemma per basic action, and the rules for relating the state before an operation to
the state after it. -/

namespace Sys2Proof.Machine

variable {α β : Type}

/-! ## Basic actions, applied to a state -/

theorem bind_apply (m : M α) (f : α → M β) (s : State) :
    (m >>= f) s = match m s with
      | .ok r => f r.1 r.2
      | .error e => .error e := by
  show Except.bind (m s) _ = _
  cases m s <;> rfl

@[simp] theorem pure_apply (a : α) (s : State) : (pure a : M α) s = .ok (a, s) := rfl
@[simp] theorem get_apply (s : State) : (get : M State) s = .ok (s, s) := rfl
@[simp] theorem set_apply (s t : State) : (set t : M Unit) s = .ok ((), t) := rfl
@[simp] theorem modify_apply (f : State → State) (s : State) : (modify f : M Unit) s = .ok ((), f s) := rfl

/-- Going on after an action that ends well. -/
theorem bind_ok {m : M α} {f : α → M β} {s t : State} {a : α} (h : m s = .ok (a, t)) : (m >>= f) s = f a t := by
  rw [bind_apply, h]

theorem bind_error {m : M α} {f : α → M β} {s : State} {e : Stop} (h : m s = .error e) : (m >>= f) s = .error e := by
  rw [bind_apply, h]

/-- What a sequence that ends well did first. -/
theorem bind_ok_inv {m : M α} {f : α → M β} {s t : State} {b : β} (h : (m >>= f) s = .ok (b, t)) :
    ∃ a u, m s = .ok (a, u) ∧ f a u = .ok (b, t) := by
  rw [bind_apply] at h
  cases hm : m s with
  | ok r => rw [hm] at h; exact ⟨r.1, r.2, rfl, h⟩
  | error e => rw [hm] at h; simp at h

@[simp] theorem pure_bind_apply (a : α) (f : α → M β) (s : State) : ((pure a : M α) >>= f) s = f a s := rfl
@[simp] theorem get_bind_apply (f : State → M β) (s : State) : ((get : M State) >>= f) s = f s s := rfl
@[simp] theorem set_bind_apply (u : State) (f : Unit → M β) (s : State) : ((set u : M Unit) >>= f) s = f () u := rfl
@[simp] theorem modify_bind_apply (g : State → State) (f : Unit → M β) (s : State) :
    ((modify g : M Unit) >>= f) s = f () (g s) := rfl

@[simp] theorem config_apply (s : State) : config s = .ok (s.cfg, s) := rfl
@[simp] theorem config_bind_apply (f : Config → M β) (s : State) : (config >>= f) s = f s.cfg s := rfl
@[simp] theorem modifyDma_apply (f : DmaState → DmaState) (s : State) :
    modifyDma f s = .ok ((), { s with dma := f s.dma }) := rfl
@[simp] theorem modifyDma_bind_apply (g : DmaState → DmaState) (f : Unit → M β) (s : State) :
    (modifyDma g >>= f) s = f () { s with dma := g s.dma } := rfl
@[simp] theorem modifySpi_apply (f : SpiState → SpiState) (s : State) :
    modifySpi f s = .ok ((), { s with spi := f s.spi }) := rfl
@[simp] theorem modifySpi_bind_apply (g : SpiState → SpiState) (f : Unit → M β) (s : State) :
    (modifySpi g >>= f) s = f () { s with spi := g s.spi } := rfl
@[simp] theorem modifyChip_apply (f : Chip → Chip) (s : State) :
    modifyChip f s = .ok ((), { s with spi := { s.spi with chip := f s.spi.chip } }) := rfl
@[simp] theorem modifyChip_bind_apply (g : Chip → Chip) (f : Unit → M β) (s : State) :
    (modifyChip g >>= f) s = f () { s with spi := { s.spi with chip := g s.spi.chip } } := rfl
@[simp] theorem raise_apply (c : Condition) (s : State) : raise c s = .ok ((), s.raise c) := rfl
@[simp] theorem raise_bind_apply (c : Condition) (f : Unit → M β) (s : State) : (raise c >>= f) s = f () (s.raise c) := rfl
@[simp] theorem macRead_apply (r : MacReg) (s : State) : macRead r s = .ok (s.dma.macRead r, s) := rfl
@[simp] theorem drawBy_apply (take : Draws → α × Draws) (s : State) :
    drawBy take s = .ok ((take s.draws).1, { s with draws := (take s.draws).2 }) := rfl
@[simp] theorem drawBy_bind_apply (take : Draws → α × Draws) (f : α → M β) (s : State) :
    (drawBy take >>= f) s = f (take s.draws).1 { s with draws := (take s.draws).2 } := rfl
@[simp] theorem stopFault_apply (f : Fault) (s : State) : (stopFault f : M α) s = .error (.fault f) := rfl
@[simp] theorem stopRefuse_apply (r : Refusal) (s : State) : (stopRefuse r : M α) s = .error (.refuse r) := rfl
@[simp] theorem orFault_some (a : α) (f : Fault) : orFault (some a) f = pure a := rfl
@[simp] theorem orFault_none (f : Fault) : (orFault none f : M α) = stopFault f := rfl

/-- A choice between two operations, applied to a state. -/
theorem branch_apply {p : Prop} [Decidable p] (x y : M α) (s : State) :
    (if p then x else y) s = if p then x s else y s := by
  split <;> rfl

theorem onlyIf_pos {p : Prop} [Decidable p] {m : M Unit} (h : p) : onlyIf p m = m := if_pos h

theorem onlyIf_neg {p : Prop} [Decidable p] {m : M Unit} (h : ¬p) : onlyIf p m = pure () := if_neg h

/-- On the DMA build the DMA side runs (R1). -/
theorem byBackend_dma {x y : M α} {s : State} (h : s.cfg.backend = .dma) : byBackend x y s = x s := by
  simp [byBackend, h]

/-- On the SPI build the SPI side runs (R1). -/
theorem byBackend_spi {x y : M α} {s : State} (h : s.cfg.backend = .spi) : byBackend x y s = y s := by
  simp [byBackend, h]

/-! ## How an operation ends -/

theorem runCommand_ok {m : M Result} {s t : State} {r : Result} (h : m s = .ok (r, t)) :
    runCommand m s = .next (t.respond r) := by
  simp [runCommand, h]

theorem runCommand_next_iff {m : M Result} {s u : State} :
    runCommand m s = .next u ↔ ∃ r t, m s = .ok (r, t) ∧ u = t.respond r := by
  unfold runCommand
  cases h : m s with
  | ok r =>
    obtain ⟨r, t⟩ := r
    constructor
    · intro h
      cases h
      exact ⟨r, t, rfl, rfl⟩
    · rintro ⟨r', t', h, rfl⟩
      cases h
      rfl
  | error e => cases e <;> simp

theorem runSilent_ok {m : M Unit} {s t : State} (h : m s = .ok ((), t)) : runSilent m s = .next t := by
  simp [runSilent, h]

theorem runSilent_next_iff {m : M Unit} {s u : State} : runSilent m s = .next u ↔ m s = .ok ((), u) := by
  unfold runSilent
  cases h : m s with
  | ok r => simp [Prod.ext_iff]
  | error e => cases e <;> simp

/-! ## Relating before and after -/

/-- Whenever `m` ends well, the states before and after are related. -/
def Steps (R : State → State → Prop) (m : M α) : Prop := ∀ s a t, m s = .ok (a, t) → R s t

/-- A relation that chains: it holds from a state to itself and of two steps if it holds of each. -/
structure Chains (R : State → State → Prop) : Prop where
  refl : ∀ s, R s s
  trans : ∀ s t u, R s t → R t u → R s u

theorem Chains.and {R Q : State → State → Prop} (hR : Chains R) (hQ : Chains Q) : Chains fun s t => R s t ∧ Q s t :=
  ⟨fun s => ⟨hR.refl s, hQ.refl s⟩, fun s t u h k => ⟨hR.trans s t u h.1 k.1, hQ.trans s t u h.2 k.2⟩⟩

/-- Keeping an invariant chains. -/
theorem Chains.keeps (I : State → Prop) : Chains fun s t => I s → I t :=
  ⟨fun _ h => h, fun _ _ _ h k i => k (h i)⟩

/-- Leaving a view of the state as it is chains. -/
theorem Chains.same {γ : Type} (v : State → γ) : Chains fun s t => v t = v s :=
  ⟨fun _ => rfl, fun _ _ _ h k => k.trans h⟩

namespace Steps

variable {R : State → State → Prop}

theorem mono {Q : State → State → Prop} {m : M α} (h : Steps R m) (hq : ∀ s t, R s t → Q s t) : Steps Q m :=
  fun s a t hm => hq s t (h s a t hm)

theorem pure (hR : Chains R) (a : α) : Steps R (Pure.pure a : M α) := by
  intro s b t h
  simp at h
  exact h.2 ▸ hR.refl s

theorem bind (hR : Chains R) {m : M α} {f : α → M β} (hm : Steps R m) (hf : ∀ a, Steps R (f a)) :
    Steps R (m >>= f) := by
  intro s b t h
  obtain ⟨a, u, h1, h2⟩ := bind_ok_inv h
  exact hR.trans s u t (hm s a u h1) (hf a u b t h2)

/-- Reading the state first: the rest may use what was read. -/
theorem get_bind {f : State → M β} (h : ∀ s b t, f s s = .ok (b, t) → R s t) : Steps R ((get : M State) >>= f) :=
  fun s b t hm => h s b t hm

/-- Reading the state first, the rest being related whatever was read. -/
theorem get_bind' {f : State → M β} (h : ∀ u, Steps R (f u)) : Steps R ((get : M State) >>= f) :=
  fun s b t hm => h s s b t hm

theorem config_bind {f : Config → M β} (h : ∀ c, Steps R (f c)) : Steps R (config >>= f) :=
  fun s b t hm => h s.cfg s b t hm

theorem get (hR : Chains R) : Steps R (MonadState.get : M State) := by
  intro s b t h
  have h2 : Except.ok (s, s) = (Except.ok (b, t) : Except Stop _) := h
  simp at h2
  exact h2.2 ▸ hR.refl s

theorem modifies {f : State → State} (h : ∀ s, R s (f s)) : Steps R (modify f : M Unit) := by
  intro s b t hm
  have h2 : Except.ok ((), f s) = (Except.ok (b, t) : Except Stop _) := hm
  simp at h2
  exact h2 ▸ h s

theorem stopFault (f : Fault) : Steps R (Machine.stopFault f : M α) := by
  intro s b t h
  simp at h

theorem stopRefuse (r : Refusal) : Steps R (Machine.stopRefuse r : M α) := by
  intro s b t h
  simp at h

theorem orFault (hR : Chains R) (o : Option α) (f : Fault) : Steps R (Machine.orFault o f) := by
  cases o with
  | none => exact stopFault f
  | some a => exact pure hR a

theorem ite {p : Prop} [Decidable p] {x y : M α} (hx : p → Steps R x) (hy : ¬p → Steps R y) :
    Steps R (if p then x else y) := by
  split
  · exact hx ‹_›
  · exact hy ‹_›

theorem onlyIf (hR : Chains R) {p : Prop} [Decidable p] {m : M Unit} (hm : p → Steps R m) :
    Steps R (Machine.onlyIf p m) :=
  ite hm fun _ => pure hR ()

theorem byBackend {x y : M α} (hx : Steps (fun s t => s.cfg.backend = .dma → R s t) x)
    (hy : Steps (fun s t => s.cfg.backend = .spi → R s t) y) : Steps R (Machine.byBackend x y) := by
  intro s a t h
  cases hb : s.cfg.backend with
  | dma => rw [byBackend_dma hb] at h; exact hx s a t h hb
  | spi => rw [byBackend_spi hb] at h; exact hy s a t h hb

/-- The two sides, each related in every build. -/
theorem byBackend' {x y : M α} (hx : Steps R x) (hy : Steps R y) : Steps R (Machine.byBackend x y) :=
  byBackend (hx.mono fun _ _ h _ => h) (hy.mono fun _ _ h _ => h)

theorem drawBy {take : Draws → α × Draws} (h : ∀ s, R s { s with draws := (take s.draws).2 }) :
    Steps R (Machine.drawBy take) := by
  intro s a t hm
  simp at hm
  exact hm.2 ▸ h s

/-- A command keeps a relation that its operation keeps and that answering keeps. -/
theorem runCommand {m : M Result} (hm : Steps R m) (hR : Chains R) (hr : ∀ s r, R s (s.respond r)) {s t : State}
    (h : Machine.runCommand m s = .next t) : R s t := by
  obtain ⟨r, u, h1, rfl⟩ := runCommand_next_iff.mp h
  exact hR.trans _ _ _ (hm s r u h1) (hr u r)

theorem runSilent {m : M Unit} (hm : Steps R m) {s t : State} (h : Machine.runSilent m s = .next t) : R s t :=
  hm s () t (runSilent_next_iff.mp h)

end Steps

end Sys2Proof.Machine
end

