-- ==== Sys2Proof/Laws/Atoms.lean ====
section
/-! SUPPORT. What the machine can do, said once: `Atom` lists every single change a step is made of, by kind, and the lemmas after it say
which kinds each operation is made of, under every schedule. An invariant that every atom keeps is then kept by every operation. -/

namespace Sys2Proof.Machine

/-- The kinds of change. -/
inductive Kind where
  | draws
  | script
  | wire
  | rxEngine
  | txEngine
  | engineMem
  | rxFlag
  | phyReg
  | phyLink
  | mac (r : MacReg)
  | mdioBusy
  | descMem
  | cache
  | rxCursor
  | txCursor
  | monitor
  | coll
  | probe
  | dmaCleared
  | chipRx
  | chipTx
  | chipReset
  | ringFault
  | chipLink
  | latch
  | spiFlags
  | cs
  | chipReg
  | chipRing
  | chipCommand
  | ibuf
  | sockFault
  | spiSession
  | spiCleared
  | initState
  | station
  | capsRead
  | linkInfo
  | linkSettings
  | reported
  | manual
  | notify
  | counter
  | stack
  | sessionStart
  | sessionCleared
  deriving DecidableEq, Repr

/-- The backend a kind of change belongs to, if only one build has it (R1). -/
def Kind.backend : Kind → Option Backend
  | .rxEngine => some .dma
  | .txEngine => some .dma
  | .engineMem => some .dma
  | .rxFlag => some .dma
  | .phyReg => some .dma
  | .phyLink => some .dma
  | .mac _ => some .dma
  | .mdioBusy => some .dma
  | .descMem => some .dma
  | .cache => some .dma
  | .rxCursor => some .dma
  | .txCursor => some .dma
  | .monitor => some .dma
  | .coll => some .dma
  | .probe => some .dma
  | .dmaCleared => some .dma
  | .chipRx => some .spi
  | .chipTx => some .spi
  | .chipReset => some .spi
  | .ringFault => some .spi
  | .chipLink => some .spi
  | .latch => some .spi
  | .spiFlags => some .spi
  | .cs => some .spi
  | .chipReg => some .spi
  | .chipRing => some .spi
  | .chipCommand => some .spi
  | .ibuf => some .spi
  | .sockFault => some .spi
  | .spiSession => some .spi
  | .spiCleared => some .spi
  | _ => none

/-- One change. -/
inductive Atom : Kind → State → State → Prop
  | draws (s : State) (d : Draws) : Atom .draws s { s with draws := d }
  | script (s : State) (e : List AgentStep) (rest : List (List AgentStep)) (h : s.script = e :: rest) :
      Atom .script s { s with script := rest }
  | wire (s : State) (f : List Byte) : Atom .wire s { s with wireTxLog := s.wireTxLog ++ [f] }
  | rxReleased (s : State) (st : U16) (h : s.dma.rxActive = true) :
      Atom .rxEngine s
        { s with dma := { s.dma with
            regs := { s.dma.regs with eir := setEvent s.dma.regs.eir 0 }, hwRxIdx := advance st s.dma.hwRxIdx } }
  | rxIdle (s : State) : Atom .rxEngine s { s with dma := { s.dma with rxActive := false } }
  | txFinished (s : State) (st : U16) (h : s.dma.txActive = true) :
      Atom .txEngine s
        { s with dma := { s.dma with
            regs := { s.dma.regs with eir := setEvent s.dma.regs.eir 2 }, hwTxIdx := advance st s.dma.hwTxIdx } }
  | txIdle (s : State) : Atom .txEngine s { s with dma := { s.dma with txActive := false } }
  | engineMem (s : State) (a : Nat) (bs : List Byte) :
      Atom .engineMem s { s with dma := { s.dma with mem := Memory.writeBytes s.dma.mem a bs } }
  | rxFlag (s : State) (b : Bool) : Atom .rxFlag s { s with dma := { s.dma with rxPending := b } }
  | mdioFinished (s : State) (v : U16) (h : mdioEnabled s.dma = true) :
      Atom .phyReg s { s with dma := finishMdio v s.dma }
  | mdioWritten (s : State) (ra : BitVec 5) (v : U16) (h : mdioEnabled s.dma = true) :
      Atom .phyReg s { s with dma := finishMdio v { s.dma with phy := s.dma.phy.regWrite ra v } }
  | phyLink (s : State) (l : PhyLink) :
      Atom .phyLink s { s with dma := { s.dma with phy := { s.dma.phy with link := l } } }
  | mac (s : State) (r : MacReg) (v : U32) : Atom (.mac r) s { s with dma := s.dma.macWrite r v }
  | mdioBusy (s : State) (b : Bool) : Atom .mdioBusy s { s with dma := { s.dma with mdioBusy := b } }
  | descMem (s : State) (a : Nat) (bs : List Byte) :
      Atom .descMem s { s with dma := { s.dma with mem := Memory.writeBytes s.dma.mem a bs } }
  | cacheRead (s : State) (a n : Nat) : Atom .cache s { s with dma := (hostReadRange s.dma a n).2 }
  | cacheWrite (s : State) (a : Nat) (bs : List Byte) : Atom .cache s { s with dma := hostWriteRange s.dma a bs }
  | cacheFlush (s : State) (a n : Nat) : Atom .cache s { s with dma := cacheFlush a n s.dma }
  | cacheInvalidate (s : State) (a n : Nat) : Atom .cache s { s with dma := cacheInvalidate a n s.dma }
  | rxCursor (s : State) (i : Nat) : Atom .rxCursor s { s with dma := { s.dma with rxCursor := i } }
  | txCursor (s : State) (i : Nat) : Atom .txCursor s { s with dma := { s.dma with txCursor := i } }
  | monitor (s : State) (x : LmState) (b : Bool) :
      Atom .monitor s { s with dma := { s.dma with lmState := x, lmLink := b } }
  | collSet (s : State) (half : Bool) (k : Nat) : Atom .coll s { s with dma := s.dma.setColl half k }
  | collZero (s : State) : Atom .coll s { s with dma := { s.dma with fltColl0 := 0, fltColl1 := 0 } }
  | clocks (s : State) (b : Bool) : Atom .probe s { s with dma := { s.dma with clocksOn := b } }
  | pins (s : State) (b : Bool) : Atom .probe s { s with dma := { s.dma with pinsConfigured := b } }
  | phyPulse (s : State) :
      Atom .probe s { s with dma := { s.dma with phyResetDone := true, phy := s.dma.phy.pulse } }
  | phyResetOff (s : State) : Atom .probe s { s with dma := { s.dma with phyResetDone := false } }
  | dmaCleared (s : State) : Atom .dmaCleared s { s with dma := s.dma.sessionCleared }
  | chipReceived (s : State) (bytes : List Byte) (err : Byte) (ho : s.spi.chip.sSr = srMacraw)
      (h : chipAdmits s.spi.chip bytes err = true) :
      Atom .chipRx s { s with spi := { s.spi with chip := s.spi.chip.received bytes } }
  | chipSent (s : State) (e : U16) (rest : List U16) (ho : s.spi.chip.sSr = srMacraw)
      (h : s.spi.chip.sendQueue = e :: rest) :
      Atom .chipTx s { s with spi := { s.spi with chip := s.spi.chip.sent e rest } }
  | chipResetDone (s : State) :
      Atom .chipReset s { s with spi := { s.spi with chip := { s.spi.chip with mr := 0x00 } } }
  | ringFault (s : State) (a : Nat) (v : Byte) :
      Atom .ringFault s
        { s with spi := { s.spi with chip := { s.spi.chip with
            rxMem := Memory.write s.spi.chip.rxMem (ringIndex s.spi.chip.rxBytes a) v } } }
  | chipLink (s : State) (l : ChipLink) :
      Atom .chipLink s { s with spi := { s.spi with chip := { s.spi.chip with link := l } } }
  | latch (s : State) (b : Bool) : Atom .latch s { s with spi := { s.spi with intLatched := b } }
  | spiFlags (s : State) (b c : Bool) : Atom .spiFlags s { s with spi := { s.spi with rxPending := b, txDone := c } }
  | cs (s : State) (b : Bool) : Atom .cs s { s with spi := { s.spi with csActive := b } }
  | storeCommon (s : State) (a : Nat) (v : Byte) :
      Atom .chipReg s { s with spi := { s.spi with chip := s.spi.chip.storeCommon a v } }
  | storeSocket (s : State) (a : Nat) (v : Byte) :
      Atom .chipReg s { s with spi := { s.spi with chip := s.spi.chip.storeSocket a v } }
  | storeRing (s : State) (a : Nat) (v : Byte) :
      Atom .chipRing s
        { s with spi := { s.spi with chip := { s.spi.chip with
            txMem := Memory.write s.spi.chip.txMem (ringIndex s.spi.chip.txBytes a) v } } }
  | chipOpened (s : State) (hr : legalBufKb s.spi.chip.sRxbufSize.toNat = true)
      (ht : legalBufKb s.spi.chip.sTxbufSize.toNat = true) :
      Atom .chipCommand s { s with spi := { s.spi with chip := s.spi.chip.opened } }
  | chipClosed (s : State) : Atom .chipCommand s { s with spi := { s.spi with chip := s.spi.chip.closed } }
  | chipQueued (s : State) (ho : s.spi.chip.sSr = srMacraw) (hn : s.spi.chip.sTxWr ≠ s.spi.chip.txWrCommitted)
      (h : ptrDiff s.spi.chip.sTxWr s.spi.chip.txWrCommitted ≤ s.spi.chip.sTxFsr.toNat) :
      Atom .chipCommand s { s with spi := { s.spi with chip := s.spi.chip.queued } }
  | chipAcknowledged (s : State) (ho : s.spi.chip.sSr = srMacraw)
      (h : ptrDiff s.spi.chip.sRxRd s.spi.chip.rxRdCommitted ≤ s.spi.chip.sRxRsr.toNat) :
      Atom .chipCommand s { s with spi := { s.spi with chip := s.spi.chip.acknowledged } }
  | ibufFilled (s : State) (bs : List Byte) (n : Nat) :
      Atom .ibuf s
        { s with spi := { s.spi with ibuf := Memory.writeBytes s.spi.ibuf 0 bs, ibufStart := 0, ibufSize := n } }
  | ibufMoved (s : State) (a n : Nat) : Atom .ibuf s { s with spi := { s.spi with ibufStart := a, ibufSize := n } }
  | sockFault (s : State) : Atom .sockFault s { s with spi := { s.spi with faultSock := true } }
  | spiSession (s : State) :
      Atom .spiSession s
        { s with spi := { s.spi with intLatched := false, ibufStart := 0, ibufSize := 0, faultSock := false } }
  | spiCleared (s : State) : Atom .spiCleared s { s with spi := s.spi.sessionCleared }
  | initState (s : State) (x : InitState) : Atom .initState s { s with initState := x }
  | station (s : State) (m : MacAddr) : Atom .station s { s with mac := m }
  | capsRead (s : State) : Atom .capsRead s { s with capsRead := true }
  | linkInfo (s : State) (r : LinkRecord) : Atom .linkInfo s { s with linkInfo := r }
  | linkSettings (s : State) (r : LinkRecord) : Atom .linkSettings s { s with linkSettings := r }
  | reported (s : State) (b : Bool) : Atom .reported s { s with linkReported := b }
  | manual (s : State) : Atom .manual s { s with linkManual := true }
  | notify (s : State) (b : Bool) : Atom .notify s { s with notifyLog := s.notifyLog ++ [b] }
  | rxErr (s : State) : Atom .counter s { s with cntRxErr := s.cntRxErr + 1 }
  | rxNomem (s : State) : Atom .counter s { s with cntRxNomem := s.cntRxNomem + 1 }
  | txAgain (s : State) : Atom .counter s { s with cntTxAgain := s.cntTxAgain + 1 }
  | stack (s : State) (f : List Byte) (ts : U32) : Atom .stack s { s with stackRxLog := s.stackRxLog ++ [(f, ts)] }
  | sessionStart (s : State) :
      Atom .sessionStart s
        { s with
          caps := capsOf s.cfg
          capsRead := false
          linkReported := false
          linkManual := false
          linkInfo := LinkRecord.zero
          linkSettings := LinkRecord.zero
          initState := .initialized }
  | sessionCleared (s : State) : Atom .sessionCleared s s.sessionCleared

/-- Changes of the listed kinds, one after the other, each of a kind this build has. -/
inductive Chain (l : List Kind) : State → State → Prop
  | refl (s : State) : Chain l s s
  | step {s t u : State} {k : Kind} : Chain l s t → k ∈ l → (∀ b, k.backend = some b → t.cfg.backend = b) →
      Atom k t u → Chain l s u

theorem Atom.cfg {k : Kind} {s t : State} (h : Atom k s t) : t.cfg = s.cfg := by
  cases h <;> rfl

theorem Chain.cfg {l : List Kind} {s t : State} (h : Chain l s t) : t.cfg = s.cfg := by
  induction h with
  | refl => rfl
  | step _ _ _ ha ih => exact ha.cfg.trans ih

theorem Chain.trans {l : List Kind} {s t u : State} (h : Chain l s t) (k : Chain l t u) : Chain l s u := by
  induction k with
  | refl => exact h
  | step _ hk hb ha ih => exact .step ih hk hb ha

theorem Chain.chains (l : List Kind) : Chains (Chain l) := ⟨.refl, fun _ _ _ => .trans⟩

theorem Chain.widen {l l' : List Kind} {s t : State} (hl : l ⊆ l') (h : Chain l s t) : Chain l' s t := by
  induction h with
  | refl => exact .refl _
  | step _ hk hb ha ih => exact .step ih (hl hk) hb ha

/-- What every atom of the listed kinds does, a chain of them does. -/
theorem Chain.lift {l : List Kind} {R : State → State → Prop} (hR : Chains R)
    (h : ∀ k s t, k ∈ l → (∀ b, k.backend = some b → s.cfg.backend = b) → Atom k s t → R s t) {s t : State}
    (hc : Chain l s t) : R s t := by
  induction hc with
  | refl => exact hR.refl _
  | step _ hk hb ha ih => exact hR.trans _ _ _ ih (h _ _ _ hk hb ha)

/-- Chains of changes in a build that has one backend. -/
def On (b : Backend) (l : List Kind) (s t : State) : Prop := s.cfg.backend = b → Chain l s t

theorem On.chains (b : Backend) (l : List Kind) : Chains (On b l) :=
  ⟨fun _ _ => .refl _, fun _ _ _ h k hb => (h hb).trans (k ((h hb).cfg ▸ hb))⟩

/-- An atom of a kind every build has. -/
theorem Chain.one {l : List Kind} {k : Kind} {s t : State} (hk : k ∈ l) (hb : k.backend = none) (h : Atom k s t) :
    Chain l s t :=
  .step (.refl s) hk (by simp [hb]) h

/-- An atom in the build that has its kind. -/
theorem On.one {b : Backend} {l : List Kind} {k : Kind} {s t : State} (hk : k ∈ l)
    (hb : k.backend = some b ∨ k.backend = none) (h : Atom k s t) : On b l s t := fun hs =>
  .step (.refl s) hk (by rcases hb with hb | hb <;> simp [hb, hs]) h

namespace Steps

variable {α β : Type}

theorem widen {l l' : List Kind} {m : M α} (h : Steps (Chain l) m) (hl : l ⊆ l') : Steps (Chain l') m :=
  h.mono fun _ _ => .widen hl

theorem on {b : Backend} {l l' : List Kind} {m : M α} (h : Steps (Chain l) m) (hl : l ⊆ l') : Steps (On b l') m :=
  h.mono fun _ _ k _ => k.widen hl

theorem onWiden {b : Backend} {l l' : List Kind} {m : M α} (h : Steps (On b l) m) (hl : l ⊆ l') : Steps (On b l') m :=
  h.mono fun _ _ k hb => (k hb).widen hl

/-- Two sides of an operation, each in its own build. -/
theorem backends {l : List Kind} {x y : M α} (hx : Steps (On .dma l) x) (hy : Steps (On .spi l) y) :
    Steps (Chain l) (Machine.byBackend x y) :=
  Steps.byBackend hx hy

end Steps

/-! ## The agents -/

/-- What the agents other than the host can change (R2). -/
def agentKinds : List Kind :=
  [.draws, .script, .wire, .rxEngine, .txEngine, .engineMem, .rxFlag, .phyReg, .phyLink, .mac .eir, .chipRx, .chipTx,
    .chipReset, .ringFault, .chipLink, .latch, .spiFlags]

end Sys2Proof.Machine
end

