-- ==== Sys2Proof/Laws/Memory.lean ====
section
/-! SUPPORT. Byte memory: a read after a write, the canonical form and that every operation keeps it, ranges, rings and descriptor
fields. -/

namespace Sys2Proof.Machine

namespace Memory

/-! ## One byte -/

theorem wf_nil : Memory.wf [] := List.Pairwise.nil

theorem wf_cons {k : Nat} {v : Byte} {m : Memory} : Memory.wf ((k, v) :: m) ↔ (∀ p ∈ m, k < p.1) ∧ Memory.wf m :=
  List.pairwise_cons

/-- Below the first address nothing is listed. -/
theorem read?_of_lt {m : Memory} {a : Nat} (h : ∀ p ∈ m, a < p.1) : Memory.read? m a = none := by
  induction m with
  | nil => rfl
  | cons p m ih =>
    obtain ⟨k, v⟩ := p
    have hk := h (k, v) (by simp)
    simp only [Memory.read?]
    rw [if_neg (by omega)]
    exact ih fun q hq => h q (by simp [hq])

/-- Writing adds no address but the one written. -/
theorem mem_write {m : Memory} {a : Nat} {b : Byte} {p : Host.Cell} (h : p ∈ Memory.write m a b) :
    p = (a, b) ∨ p ∈ m := by
  induction m with
  | nil => simpa [Memory.write] using h
  | cons q m ih =>
    obtain ⟨k, v⟩ := q
    simp only [Memory.write] at h
    split at h
    · simpa using h
    · split at h
      · rcases List.mem_cons.mp h with h | h
        · exact .inl h
        · exact .inr (by simp [h])
      · rcases List.mem_cons.mp h with h | h
        · exact .inr (by simp [h])
        · rcases ih h with h | h
          · exact .inl h
          · exact .inr (by simp [h])

/-- A write keeps the canonical form. -/
theorem wf_write {m : Memory} (h : m.wf) (a : Nat) (b : Byte) : (Memory.write m a b).wf := by
  induction m with
  | nil => exact wf_cons.mpr ⟨by simp, wf_nil⟩
  | cons q m ih =>
    obtain ⟨k, v⟩ := q
    have hc := wf_cons.mp h
    simp only [Memory.write]
    split
    · rename_i hlt
      refine wf_cons.mpr ⟨fun p hp => ?_, h⟩
      rcases List.mem_cons.mp hp with rfl | hp
      · exact hlt
      · exact lt_trans hlt (hc.1 p hp)
    · split
      · rename_i heq
        exact wf_cons.mpr ⟨fun p hp => heq ▸ hc.1 p hp, hc.2⟩
      · rename_i hle hne
        refine wf_cons.mpr ⟨fun p hp => ?_, ih hc.2⟩
        rcases mem_write hp with rfl | hp
        · show k < a
          omega
        · exact hc.1 p hp

/-- A read after a write: the byte written at its address, every other address as before. The list
need not be canonical for this. -/
theorem read?_write_any (m : Memory) (a : Nat) (b : Byte) (x : Nat) :
    Memory.read? (Memory.write m a b) x = if x = a then some b else Memory.read? m x := by
  induction m with
  | nil =>
    simp only [Memory.write, Memory.read?]
    by_cases hx : x = a
    · simp [hx]
    · rw [if_neg (fun h => hx h.symm), if_neg hx]
  | cons q m ih =>
    obtain ⟨k, v⟩ := q
    simp only [Memory.write]
    split
    · by_cases hx : x = a
      · simp [Memory.read?, hx]
      · simp only [Memory.read?]
        rw [if_neg (fun h => hx h.symm), if_neg hx]
    · split
      · rename_i heq
        by_cases hx : x = a
        · simp [Memory.read?, hx]
        · simp only [Memory.read?]
          rw [if_neg (fun h => hx h.symm), if_neg hx, if_neg (fun h => hx (by omega))]
      · rename_i hle hne
        simp only [Memory.read?]
        by_cases hk : k = x
        · rw [if_pos hk, if_pos hk, if_neg (by omega)]
        · rw [if_neg hk, if_neg hk]
          exact ih

theorem read?_write {m : Memory} (_ : m.wf) (a : Nat) (b : Byte) (x : Nat) :
    Memory.read? (Memory.write m a b) x = if x = a then some b else Memory.read? m x := read?_write_any m a b x

theorem read?_write_same {m : Memory} (h : m.wf) (a : Nat) (b : Byte) : Memory.read? (Memory.write m a b) a = some b := by
  rw [read?_write h, if_pos rfl]

theorem read?_write_ne {m : Memory} (h : m.wf) {a x : Nat} (b : Byte) (hx : x ≠ a) :
    Memory.read? (Memory.write m a b) x = Memory.read? m x := by
  rw [read?_write h, if_neg hx]

/-! ## Ranges -/

theorem wf_writeBytes {m : Memory} (h : m.wf) (a : Nat) (bs : List Byte) : (Memory.writeBytes m a bs).wf := by
  induction bs generalizing m a with
  | nil => exact h
  | cons b bs ih => exact ih (wf_write h a b) (a + 1)

theorem read?_writeBytes_any (m : Memory) (a : Nat) (bs : List Byte) (x : Nat) :
    Memory.read? (Memory.writeBytes m a bs) x
      = if a ≤ x ∧ x < a + bs.length then bs[x - a]? else Memory.read? m x := by
  induction bs generalizing m a with
  | nil =>
    rw [if_neg (by simp)]
    rfl
  | cons b bs ih =>
    simp only [Memory.writeBytes]
    rw [ih (Memory.write m a b) (a + 1), read?_write_any]
    simp only [List.length_cons]
    by_cases hx : x = a
    · subst hx
      rw [if_neg (by omega), if_pos rfl, if_pos (by omega)]
      simp
    · by_cases h1 : a + 1 ≤ x ∧ x < a + 1 + bs.length
      · rw [if_pos h1, if_pos (by omega)]
        have : x - a = (x - (a + 1)) + 1 := by omega
        rw [this, List.getElem?_cons_succ]
      · rw [if_neg h1, if_neg hx, if_neg (by omega)]

theorem read?_writeBytes {m : Memory} (_ : m.wf) (a : Nat) (bs : List Byte) (x : Nat) :
    Memory.read? (Memory.writeBytes m a bs) x
      = if a ≤ x ∧ x < a + bs.length then bs[x - a]? else Memory.read? m x := read?_writeBytes_any m a bs x

/-- A store changes nothing outside its bytes. -/
theorem sameOutside_writeBytes {m : Memory} (h : m.wf) (a : Nat) (bs : List Byte) :
    SameOutside a bs.length m (Memory.writeBytes m a bs) := fun x hx => by
  rw [read?_writeBytes h, if_neg (by omega)]

/-- Ranges read the same when their bytes do. -/
theorem readBytes_congr {m m' : Memory} {a n : Nat} (h : ∀ x, a ≤ x → x < a + n → Memory.read? m' x = Memory.read? m x) :
    Memory.readBytes m' a n = Memory.readBytes m a n := by
  induction n generalizing a with
  | zero => rfl
  | succ n ih =>
    simp only [Memory.readBytes]
    rw [h a (le_refl a) (by omega), ih fun x h1 h2 => h x (by omega) (by omega)]

/-- A range reads as the bytes `bs` when each byte does. -/
theorem readBytes_of {m : Memory} {a : Nat} {bs : List Byte} (h : ∀ k, k < bs.length → Memory.read? m (a + k) = bs[k]?) :
    Memory.readBytes m a bs.length = some bs := by
  induction bs generalizing a with
  | nil => rfl
  | cons b bs ih =>
    have h0 := h 0 (by simp)
    simp at h0
    have ht : Memory.readBytes m (a + 1) bs.length = some bs := by
      refine ih fun k hk => ?_
      have := h (k + 1) (by simpa using hk)
      rw [show a + 1 + k = a + (k + 1) by omega]
      simpa using this
    simp [Memory.readBytes, h0, ht]

/-- What a range that reads well says of its bytes. -/
theorem readBytes_length {m : Memory} {a n : Nat} {bs : List Byte} (h : Memory.readBytes m a n = some bs) :
    bs.length = n := by
  induction n generalizing a bs with
  | zero => simp [Memory.readBytes] at h; simp [← h]
  | succ n ih =>
    simp only [Memory.readBytes] at h
    split at h
    · rename_i b bs' h1 h2
      simp at h
      rw [← h, List.length_cons, ih h2]
    · simp at h

theorem readBytes_get {m : Memory} {a n : Nat} {bs : List Byte} (h : Memory.readBytes m a n = some bs) {k : Nat}
    (hk : k < n) : Memory.read? m (a + k) = bs[k]? := by
  induction n generalizing a bs k with
  | zero => omega
  | succ n ih =>
    simp only [Memory.readBytes] at h
    split at h
    · rename_i b bs' h1 h2
      simp at h
      subst h
      cases k with
      | zero => simpa using h1
      | succ k =>
        rw [show a + (k + 1) = a + 1 + k by omega]
        simpa using ih h2 (by omega)
    · simp at h

/-- A range read after a store of exactly it. -/
theorem readBytes_writeBytes_any (m : Memory) (a : Nat) (bs : List Byte) :
    Memory.readBytes (Memory.writeBytes m a bs) a bs.length = some bs := by
  refine readBytes_of fun k hk => ?_
  rw [read?_writeBytes_any, if_pos (by omega)]
  congr 1
  omega

theorem readBytes_writeBytes {m : Memory} (_ : m.wf) (a : Nat) (bs : List Byte) :
    Memory.readBytes (Memory.writeBytes m a bs) a bs.length = some bs := readBytes_writeBytes_any m a bs

/-- A range read after a store elsewhere. -/
theorem readBytes_writeBytes_apart {m : Memory} (h : m.wf) {a b n : Nat} {bs : List Byte}
    (hd : a + n ≤ b ∨ b + bs.length ≤ a) : Memory.readBytes (Memory.writeBytes m b bs) a n = Memory.readBytes m a n := by
  refine readBytes_congr fun x h1 h2 => ?_
  rw [read?_writeBytes h, if_neg (by omega)]

theorem readBytes_append {m : Memory} {a n k : Nat} {bs cs : List Byte} (h : Memory.readBytes m a n = some bs)
    (h2 : Memory.readBytes m (a + n) k = some cs) : Memory.readBytes m a (n + k) = some (bs ++ cs) := by
  have hl := readBytes_length h
  have hl2 := readBytes_length h2
  have : n + k = (bs ++ cs).length := by simp [hl, hl2]
  rw [this]
  refine readBytes_of fun j hj => ?_
  by_cases hjn : j < n
  · rw [readBytes_get h hjn, List.getElem?_append_left (by omega)]
  · have := readBytes_get h2 (k := j - n) (by simp at hj; omega)
    rw [show a + n + (j - n) = a + j by omega] at this
    rw [this, List.getElem?_append_right (by omega), hl]

theorem readBytes_split {m : Memory} {a n k : Nat} {bs : List Byte} (h : Memory.readBytes m a (n + k) = some bs) :
    Memory.readBytes m a n = some (bs.take n) ∧ Memory.readBytes m (a + n) k = some (bs.drop n) := by
  have hl := readBytes_length h
  constructor
  · have h1 : (bs.take n).length = n := by simp; omega
    have := readBytes_of (m := m) (a := a) (bs := bs.take n) fun j hj => by
      rw [readBytes_get h (by omega), List.getElem?_take_of_lt (by omega)]
    rwa [h1] at this
  · have h1 : (bs.drop n).length = k := by simp; omega
    have := readBytes_of (m := m) (a := a + n) (bs := bs.drop n) fun j hj => by
      rw [show a + n + j = a + (n + j) by omega, readBytes_get h (by omega), List.getElem?_drop]
    rwa [h1] at this

/-! ## Rings (R68, R82) -/

/-- Every byte of the ring after a store from pointer `p` on: the stored byte at the `n` places it covers, any other as before. -/
theorem ringHolds_ringWrite (m : Memory) {size p : Nat} {bs : List Byte} (hs : bs.length ≤ size) (hd : size ∣ 65536) :
    RingHolds size p bs m (ringWrite m size p bs) := by
  have hpos : 0 < size := Nat.pos_of_dvd_of_pos hd (by decide)
  have hidx : ∀ a, a % 65536 % size = a % size := fun a => Nat.mod_mod_of_dvd a hd
  have hne : ∀ i j, i < size → j < size → i ≠ j → (p + i) % size ≠ (p + j) % size := by
    intro i j hi hj hij he
    have h1 : (p + i) % size = (p + j) % size := he
    have h2 := Nat.ModEq.add_left_cancel' p (show p + i ≡ p + j [MOD size] from h1)
    unfold Nat.ModEq at h2
    rw [Nat.mod_eq_of_lt hi, Nat.mod_eq_of_lt hj] at h2
    exact hij h2
  induction bs generalizing m p with
  | nil => exact ⟨fun j hj => by simp at hj, fun x hx => rfl⟩
  | cons b bs ih =>
    have hl : bs.length + 1 ≤ size := by simpa using hs
    have hne' : ∀ i j, i < size → j < size → i ≠ j → (p + 1 + i) % size ≠ (p + 1 + j) % size := by
      intro i j hi hj hij he
      have h2 := Nat.ModEq.add_left_cancel' (p + 1) (show p + 1 + i ≡ p + 1 + j [MOD size] from he)
      unfold Nat.ModEq at h2
      rw [Nat.mod_eq_of_lt hi, Nat.mod_eq_of_lt hj] at h2
      exact hij h2
    have ih' := ih (Memory.write m (ringIndex size (p % 65536)) b) (p := p + 1) (by omega) hne'
    refine ⟨fun j hj => ?_, fun x hx => ?_⟩
    · cases j with
      | zero =>
        show Memory.read? (ringWrite (Memory.write m (ringIndex size (p % 65536)) b) size (p + 1) bs) _ = _
        rw [ih'.others _ fun k hk => ?_, read?_write_any, if_pos (by simp [ringIndex])]
        · rfl
        · rw [hidx, hidx, show p + 1 + k = p + (k + 1) by omega]
          exact hne 0 (k + 1) hpos (by omega) (by omega)
      | succ j =>
        show Memory.read? (ringWrite (Memory.write m (ringIndex size (p % 65536)) b) size (p + 1) bs) _ = _
        rw [show p + (j + 1) = p + 1 + j by omega, ih'.stored j (by simpa using hj)]
        simp
    · show Memory.read? (ringWrite (Memory.write m (ringIndex size (p % 65536)) b) size (p + 1) bs) x = _
      rw [ih'.others x fun k hk => ?_, read?_write_any, if_neg ?_]
      · have := hx 0 (by simp)
        simpa [ringIndex] using this
      · have := hx (k + 1) (by simpa using hk)
        rwa [show p + 1 + k = p + (k + 1) by omega]

/-- A ring read of what was stored from the same pointer on. -/
theorem ringRead_of {m : Memory} {size p : Nat} {bs : List Byte}
    (h : ∀ j, j < bs.length → Memory.read? m ((p + j) % 65536 % size) = bs[j]?) : ringRead m size p bs.length = some bs := by
  induction bs generalizing p with
  | nil => rfl
  | cons b bs ih =>
    have h0 := h 0 (by simp)
    have ht : ringRead m size (p + 1) bs.length = some bs := by
      refine ih fun j hj => ?_
      have := h (j + 1) (by simpa using hj)
      rw [show p + 1 + j = p + (j + 1) by omega]
      simpa using this
    simp only [List.length_cons]
    unfold ringRead
    have h0' : Memory.read? m (ringIndex size (p % 65536)) = some b := by simpa [ringIndex] using h0
    rw [h0', ht]

theorem wf_ringWrite {m : Memory} (h : m.wf) (size p : Nat) (bs : List Byte) : (ringWrite m size p bs).wf := by
  induction bs generalizing m p with
  | nil => exact h
  | cons b bs ih => exact ih (wf_write h _ _) (p + 1)

/-! ## Descriptor fields (R83) -/

theorem half?_of {m : Memory} {a : Nat} {lo hi : Byte} (h0 : Memory.read? m a = some lo)
    (h1 : Memory.read? m (a + 1) = some hi) : Memory.half? m a = some (join16 hi lo) := by
  simp [Memory.half?, h0, h1]

theorem half?_congr {m m' : Memory} {a : Nat} (h0 : Memory.read? m' a = Memory.read? m a)
    (h1 : Memory.read? m' (a + 1) = Memory.read? m (a + 1)) : Memory.half? m' a = Memory.half? m a := by
  simp [Memory.half?, h0, h1]

theorem join16_hi8_lo8 (v : U16) : join16 (hi8 v) (lo8 v) = v := by
  unfold join16 hi8 lo8
  refine BitVec.eq_of_getLsbD_eq fun i hi => ?_
  rw [BitVec.getLsbD_append, BitVec.getLsbD_extractLsb', BitVec.getLsbD_extractLsb']
  by_cases h : i < 8
  · simp [h]
  · have h2 : i - 8 < 8 := by omega
    have h3 : 8 + (i - 8) = i := by omega
    simp [h, h2, h3]

/-- A halfword read after a store of it. -/
theorem half?_write {m : Memory} (h : m.wf) (a : Nat) (v : U16) :
    Memory.half? (Memory.writeBytes m a (putLe16 v)) a = some v := by
  have h0 : Memory.read? (Memory.writeBytes m a (putLe16 v)) a = some (lo8 v) := by
    rw [read?_writeBytes h, if_pos (by simp [putLe16])]
    simp [putLe16]
  have h1 : Memory.read? (Memory.writeBytes m a (putLe16 v)) (a + 1) = some (hi8 v) := by
    rw [read?_writeBytes h, if_pos (by simp [putLe16])]
    simp [putLe16]
  rw [half?_of h0 h1, join16_hi8_lo8]

/-- A halfword read after a store elsewhere. -/
theorem half?_write_apart {m : Memory} (h : m.wf) {a b : Nat} {bs : List Byte} (hd : a + 2 ≤ b ∨ b + bs.length ≤ a) :
    Memory.half? (Memory.writeBytes m b bs) a = Memory.half? m a := by
  apply half?_congr
  · rw [read?_writeBytes h, if_neg (by omega)]
  · rw [read?_writeBytes h, if_neg (by omega)]

/-- What two bytes that read as a halfword are. -/
theorem readBytes_two {m : Memory} {a : Nat} {v : U16} (h : Memory.half? m a = some v) :
    ∃ lo hi, Memory.readBytes m a 2 = some [lo, hi] ∧ join16 hi lo = v := by
  unfold Memory.half? at h
  cases h0 : Memory.read? m a with
  | none => simp [h0] at h
  | some lo =>
    cases h1 : Memory.read? m (a + 1) with
    | none => simp [h0, h1] at h
    | some hi =>
      simp [h0, h1] at h
      exact ⟨lo, hi, by simp [Memory.readBytes, h0, h1], h⟩

end Memory

end Sys2Proof.Machine
end

