-- ==== Sys2Proof/Laws/Cache.lean ====
section
/-! SUPPORT. The cache (R86 to R90): what the host sees of a byte, how each operation changes it, and that every operation keeps the
canonical form. -/

namespace Sys2Proof.Machine

/-- The cached copy a line's next access finds is canonical and inside its line. -/
def CacheLine.ok (x : CacheLine) : Prop := x.data.wf ∧ ∀ p ∈ x.data, lineOf p.1 = x.line

/-- What the host sees at an address (R86): the cached copy's byte, or memory's. -/
def DmaState.view (d : DmaState) (a : Nat) : Option Byte := Memory.read? (lineForAccess d (lineOf a)).data a

namespace Cache

theorem wf_nil : cacheWf [] := ⟨List.Pairwise.nil, by simp⟩

theorem wf_cons {x : CacheLine} {c : List CacheLine} :
    cacheWf (x :: c) ↔ (∀ y ∈ c, x.line < y.line) ∧ x.ok ∧ cacheWf c := by
  constructor
  · rintro ⟨h1, h2⟩
    have h1 := List.pairwise_cons.mp h1
    exact ⟨h1.1, h2 x (by simp), h1.2, fun y hy => h2 y (by simp [hy])⟩
  · rintro ⟨h1, h2, h3⟩
    refine ⟨List.pairwise_cons.mpr ⟨h1, h3.1⟩, fun y hy => ?_⟩
    rcases List.mem_cons.mp hy with rfl | hy
    · exact h2
    · exact h3.2 y hy

theorem mem_putLine {c : List CacheLine} {x y : CacheLine} (h : y ∈ putLine c x) : y = x ∨ y ∈ c := by
  induction c with
  | nil => simpa [putLine] using h
  | cons z c ih =>
    simp only [putLine] at h
    split at h
    · simpa using h
    · split at h
      · rcases List.mem_cons.mp h with h | h
        · exact .inl h
        · exact .inr (by simp [h])
      · rcases List.mem_cons.mp h with h | h
        · exact .inr (by simp [h])
        · rcases ih h with h | h
          · exact .inl h
          · exact .inr (by simp [h])

theorem wf_putLine {c : List CacheLine} (h : cacheWf c) {x : CacheLine} (hx : x.ok) : cacheWf (putLine c x) := by
  induction c with
  | nil => exact wf_cons.mpr ⟨by simp, hx, wf_nil⟩
  | cons z c ih =>
    have hz := wf_cons.mp h
    simp only [putLine]
    split
    · rename_i hlt
      refine wf_cons.mpr ⟨fun y hy => ?_, hx, h⟩
      rcases List.mem_cons.mp hy with rfl | hy
      · exact hlt
      · exact lt_trans hlt (hz.1 y hy)
    · split
      · rename_i heq
        exact wf_cons.mpr ⟨fun y hy => heq ▸ hz.1 y hy, hx, hz.2.2⟩
      · rename_i h1 h2
        refine wf_cons.mpr ⟨fun y hy => ?_, hz.2.1, ih hz.2.2⟩
        rcases mem_putLine hy with rfl | hy
        · omega
        · exact hz.1 y hy

theorem findLine_putLine (c : List CacheLine) (x : CacheLine) (l : Nat) :
    findLine (putLine c x) l = if l = x.line then some x else findLine c l := by
  induction c with
  | nil =>
    simp only [putLine, findLine]
    by_cases h : l = x.line
    · simp [h]
    · simp [h, Ne.symm h]
  | cons z c ih =>
    simp only [putLine]
    split
    · by_cases h : l = x.line
      · simp [findLine, h]
      · simp only [findLine]
        rw [if_neg (fun k => h k.symm), if_neg h]
    · split
      · rename_i heq
        by_cases h : l = x.line
        · simp [findLine, h]
        · simp only [findLine]
          rw [if_neg (fun k => h k.symm), if_neg h, if_neg (fun k => h (by omega))]
      · rename_i h1 h2
        simp only [findLine]
        by_cases hz : z.line = l
        · rw [if_pos hz, if_pos hz, if_neg (by omega)]
        · rw [if_neg hz, if_neg hz, ih]

theorem findLine_line {c : List CacheLine} {l : Nat} {x : CacheLine} (h : findLine c l = some x) : x.line = l := by
  induction c with
  | nil => simp [findLine] at h
  | cons z c ih =>
    simp only [findLine] at h
    split at h
    · simp at h; subst h; assumption
    · exact ih h

theorem findLine_mem {c : List CacheLine} {l : Nat} {x : CacheLine} (h : findLine c l = some x) : x ∈ c := by
  induction c with
  | nil => simp [findLine] at h
  | cons z c ih =>
    simp only [findLine] at h
    split at h
    · simp at h; simp [h]
    · simp [ih h]

/-- A line whose number is below all of a cache's is not in it. -/
theorem findLine_none {c : List CacheLine} {l : Nat} (h : ∀ y ∈ c, y.line ≠ l) : findLine c l = none := by
  induction c with
  | nil => rfl
  | cons z c ih =>
    simp only [findLine]
    rw [if_neg (h z (by simp)), ih fun y hy => h y (by simp [hy])]

/-! ## Lines of memory -/

theorem wf_filter {m : Memory} (h : m.wf) (p : Host.Cell → Bool) : Memory.wf (m.filter p) := h.filter p

theorem read?_filter_line {m : Memory} (f : Nat → Bool) (a : Nat) :
    Memory.read? (m.filter fun p => f p.1) a = if f a then Memory.read? m a else none := by
  induction m with
  | nil => simp [Memory.read?]
  | cons q m ih =>
    obtain ⟨k, v⟩ := q
    by_cases hk : k = a
    · subst hk
      by_cases hf : f k
      · simp [hf, Memory.read?]
      · simp only [List.filter_cons, hf, Memory.read?, Bool.false_eq_true, if_false] at *
        exact ih
    · by_cases hf : f k
      · simp only [List.filter_cons, hf, if_true, Memory.read?]
        rw [if_neg hk, if_neg hk, ih]
      · simp only [List.filter_cons, hf, Bool.false_eq_true, if_false, Memory.read?]
        rw [if_neg hk, ih]

theorem read?_lineBytes (m : Memory) (l a : Nat) :
    Memory.read? (lineBytes m l) a = if lineOf a = l then Memory.read? m a else none := by
  have := read?_filter_line (m := m) (fun k => lineOf k == l) a
  simpa [lineBytes] using this

theorem lineBytes_ok {m : Memory} (h : m.wf) (l : Nat) (dirty : Bool) :
    CacheLine.ok { line := l, dirty := dirty, data := lineBytes m l } := by
  refine ⟨wf_filter h _, fun p hp => ?_⟩
  have := (List.mem_filter.mp hp).2
  simpa using this

theorem lineForAccess_line (d : DmaState) (l : Nat) : (lineForAccess d l).line = l := by
  unfold lineForAccess
  cases h : findLine d.cache l with
  | none => rfl
  | some x => exact findLine_line h

theorem lineForAccess_ok {d : DmaState} (hm : d.mem.wf) (hc : cacheWf d.cache) (l : Nat) : (lineForAccess d l).ok := by
  unfold lineForAccess
  cases h : findLine d.cache l with
  | none => exact lineBytes_ok hm l false
  | some x => exact hc.2 x (findLine_mem h)

/-- A line that is not cached shows memory's bytes. -/
theorem view_uncached {d : DmaState} {a : Nat} (h : findLine d.cache (lineOf a) = none) : d.view a = Memory.read? d.mem a := by
  unfold DmaState.view lineForAccess
  rw [h]
  simp [read?_lineBytes]

theorem view_cached {d : DmaState} {a : Nat} {x : CacheLine} (h : findLine d.cache (lineOf a) = some x) :
    d.view a = Memory.read? x.data a := by
  unfold DmaState.view lineForAccess
  rw [h]

/-! ## Host reads and writes (R86, R87) -/

theorem hostReadByte_value (d : DmaState) (a : Nat) : (hostReadByte d a).1 = d.view a := rfl

theorem hostReadByte_mem (d : DmaState) (a : Nat) : (hostReadByte d a).2.mem = d.mem := rfl

theorem hostReadByte_wf {d : DmaState} (hm : d.mem.wf) (hc : cacheWf d.cache) (a : Nat) :
    cacheWf (hostReadByte d a).2.cache := wf_putLine hc (lineForAccess_ok hm hc _)

theorem hostReadByte_view (d : DmaState) (a x : Nat) : (hostReadByte d a).2.view x = d.view x := by
  by_cases h : lineOf x = lineOf a
  · have h1 : findLine (hostReadByte d a).2.cache (lineOf x) = some (lineForAccess d (lineOf a)) := by
      show findLine (putLine d.cache (lineForAccess d (lineOf a))) (lineOf x) = _
      rw [findLine_putLine, if_pos (by rw [lineForAccess_line, h])]
    rw [view_cached h1]
    unfold DmaState.view
    rw [h]
  · have h1 : findLine (hostReadByte d a).2.cache (lineOf x) = findLine d.cache (lineOf x) := by
      show findLine (putLine d.cache (lineForAccess d (lineOf a))) (lineOf x) = _
      rw [findLine_putLine, if_neg (by rw [lineForAccess_line]; exact h)]
    unfold DmaState.view lineForAccess
    rw [h1, hostReadByte_mem]

theorem hostWriteByte_mem (d : DmaState) (a : Nat) (b : Byte) : (hostWriteByte d a b).mem = d.mem := rfl

theorem lineWritten_ok {d : DmaState} (hm : d.mem.wf) (hc : cacheWf d.cache) (a : Nat) (b : Byte) :
    CacheLine.ok { lineForAccess d (lineOf a) with
      dirty := true, data := Memory.write (lineForAccess d (lineOf a)).data a b } := by
  have ho := lineForAccess_ok hm hc (lineOf a)
  refine ⟨Memory.wf_write ho.1 a b, fun p hp => ?_⟩
  rcases Memory.mem_write hp with rfl | hp
  · exact (lineForAccess_line d _).symm
  · exact ho.2 p hp

theorem hostWriteByte_wf {d : DmaState} (hm : d.mem.wf) (hc : cacheWf d.cache) (a : Nat) (b : Byte) :
    cacheWf (hostWriteByte d a b).cache := wf_putLine hc (lineWritten_ok hm hc a b)

theorem hostWriteByte_find (d : DmaState) (a : Nat) (b : Byte) (l : Nat) :
    findLine (hostWriteByte d a b).cache l = if l = lineOf a then
      some { lineForAccess d (lineOf a) with dirty := true, data := Memory.write (lineForAccess d (lineOf a)).data a b }
    else findLine d.cache l := by
  unfold hostWriteByte
  simp only [findLine_putLine, lineForAccess_line]

theorem hostWriteByte_view {d : DmaState} (hm : d.mem.wf) (hc : cacheWf d.cache) (a : Nat) (b : Byte) (x : Nat) :
    (hostWriteByte d a b).view x = if x = a then some b else d.view x := by
  by_cases h : lineOf x = lineOf a
  · rw [view_cached (by rw [hostWriteByte_find, if_pos h]), Memory.read?_write (lineForAccess_ok hm hc _).1]
    unfold DmaState.view
    rw [h]
  · have h1 : findLine (hostWriteByte d a b).cache (lineOf x) = findLine d.cache (lineOf x) := by
      rw [hostWriteByte_find, if_neg h]
    rw [if_neg (fun k => h (by rw [k]))]
    unfold DmaState.view lineForAccess
    rw [h1, hostWriteByte_mem]

/-- A host read of a range leaves memory and what the host sees as they are. -/
theorem hostReadRange_keeps {d : DmaState} (hm : d.mem.wf) (hc : cacheWf d.cache) (a n : Nat) :
    (hostReadRange d a n).2.mem = d.mem ∧ cacheWf (hostReadRange d a n).2.cache
      ∧ ∀ x, (hostReadRange d a n).2.view x = d.view x := by
  induction n generalizing d a with
  | zero => exact ⟨rfl, hc, fun _ => rfl⟩
  | succ n ih =>
    have h1 : (hostReadByte d a).2.mem = d.mem := rfl
    have ih' := ih (d := (hostReadByte d a).2) (h1 ▸ hm) (hostReadByte_wf hm hc a) (a + 1)
    have key : (hostReadRange d a (n + 1)).2 = (hostReadByte d a).2
        ∨ (hostReadRange d a (n + 1)).2 = (hostReadRange (hostReadByte d a).2 (a + 1) n).2 := by
      simp only [hostReadRange]
      split
      · rename_i h; left; rw [h]
      · rename_i h
        split
        · rename_i h2; right; rw [h, h2]
        · rename_i h2; right; rw [h, h2]
    rcases key with hk | hk
    · rw [hk]
      exact ⟨rfl, hostReadByte_wf hm hc a, fun x => hostReadByte_view d a x⟩
    · rw [hk]
      exact ⟨ih'.1.trans h1, ih'.2.1, fun x => (ih'.2.2 x).trans (hostReadByte_view d a x)⟩

/-- What a host read of a range gives: the bytes it sees. -/
theorem hostReadRange_value {d : DmaState} (a : Nat) (bs : List Byte) (h : ∀ k, k < bs.length → d.view (a + k) = bs[k]?) :
    (hostReadRange d a bs.length).1 = some bs := by
  induction bs generalizing d a with
  | nil => rfl
  | cons b bs ih =>
    have h0 := h 0 (by simp)
    simp at h0
    have h1 : hostReadByte d a = (some b, (hostReadByte d a).2) := by
      rw [← h0]
      rfl
    have h2 := ih (d := (hostReadByte d a).2) (a + 1) fun k hk => by
      rw [hostReadByte_view]
      have := h (k + 1) (by simpa using hk)
      rw [show a + 1 + k = a + (k + 1) by omega]
      simpa using this
    have h3 : hostReadRange (hostReadByte d a).2 (a + 1) bs.length
        = (some bs, (hostReadRange (hostReadByte d a).2 (a + 1) bs.length).2) := by
      rw [← h2]
    simp only [List.length_cons, hostReadRange]
    rw [h1]
    simp only
    rw [h3]

theorem hostWriteRange_mem (d : DmaState) (a : Nat) (bs : List Byte) : (hostWriteRange d a bs).mem = d.mem := by
  induction bs generalizing d a with
  | nil => rfl
  | cons b bs ih =>
    show (hostWriteRange (hostWriteByte d a b) (a + 1) bs).mem = d.mem
    rw [ih]
    rfl

/-- A host write of a range: the host sees the bytes there, and everything else as before. -/
theorem hostWriteRange_keeps {d : DmaState} (hm : d.mem.wf) (hc : cacheWf d.cache) (a : Nat) (bs : List Byte) :
    cacheWf (hostWriteRange d a bs).cache
      ∧ ∀ x, (hostWriteRange d a bs).view x = if a ≤ x ∧ x < a + bs.length then bs[x - a]? else d.view x := by
  induction bs generalizing d a with
  | nil => exact ⟨hc, fun x => by rw [if_neg (by simp)]; rfl⟩
  | cons b bs ih =>
    have ih' := ih (d := hostWriteByte d a b) hm (hostWriteByte_wf hm hc a b) (a + 1)
    refine ⟨ih'.1, fun x => ?_⟩
    show (hostWriteRange (hostWriteByte d a b) (a + 1) bs).view x = _
    rw [ih'.2 x, hostWriteByte_view hm hc]
    simp only [List.length_cons]
    by_cases hx : x = a
    · subst hx
      rw [if_neg (by omega), if_pos rfl, if_pos (by omega)]
      simp
    · by_cases h1 : a + 1 ≤ x ∧ x < a + 1 + bs.length
      · rw [if_pos h1, if_pos (by omega)]
        have : x - a = (x - (a + 1)) + 1 := by omega
        rw [this, List.getElem?_cons_succ]
      · rw [if_neg h1, if_neg hx, if_neg (by omega)]

/-- A host write leaves lines outside its range as they were in the cache. -/
theorem hostWriteRange_find_apart (d : DmaState) (a : Nat) (bs : List Byte) {l : Nat}
    (h : ∀ x, a ≤ x → x < a + bs.length → lineOf x ≠ l) : findLine (hostWriteRange d a bs).cache l = findLine d.cache l := by
  induction bs generalizing d a with
  | nil => rfl
  | cons b bs ih =>
    show findLine (hostWriteRange (hostWriteByte d a b) (a + 1) bs).cache l = _
    rw [ih _ _ fun x h1 h2 => h x (by omega) (by simp; omega), hostWriteByte_find]
    rw [if_neg (Ne.symm (h a (le_refl a) (by simp)))]

/-- After a host write every line of its range is cached and dirty. -/
theorem hostWriteRange_dirty (d : DmaState) (a : Nat) (bs : List Byte) {x : Nat} (h1 : a ≤ x) (h2 : x < a + bs.length) :
    ∃ y, findLine (hostWriteRange d a bs).cache (lineOf x) = some y ∧ y.dirty = true := by
  have keep : ∀ (bs : List Byte) (d : DmaState) (a l : Nat), (∃ y, findLine d.cache l = some y ∧ y.dirty = true) →
      ∃ y, findLine (hostWriteRange d a bs).cache l = some y ∧ y.dirty = true := by
    intro bs
    induction bs with
    | nil => exact fun _ _ _ h => h
    | cons b bs ih =>
      intro d a l h
      refine ih _ (a + 1) l ?_
      rw [hostWriteByte_find]
      split
      · exact ⟨_, rfl, rfl⟩
      · exact h
  induction bs generalizing d a with
  | nil => simp at h2; omega
  | cons b bs ih =>
    by_cases hx : x = a
    · subst hx
      refine keep bs _ _ _ ?_
      rw [hostWriteByte_find, if_pos rfl]
      exact ⟨_, rfl, rfl⟩
    · exact ih (hostWriteByte d a b) (a + 1) (by omega) (by simp at h2; omega)

/-! ## Write-back, flush, invalidate (R88, R89) -/

theorem foldl_write {m : Memory} (hm : m.wf) {c : Memory} (hc : c.wf) :
    Memory.wf (c.foldl (fun m p => Memory.write m p.1 p.2) m)
      ∧ ∀ a, Memory.read? (c.foldl (fun m p => Memory.write m p.1 p.2) m) a
          = (Memory.read? c a).or (Memory.read? m a) := by
  induction c generalizing m with
  | nil => exact ⟨hm, fun a => rfl⟩
  | cons q c ih =>
    obtain ⟨k, v⟩ := q
    have hq := Memory.wf_cons.mp hc
    have ih' := ih (m := Memory.write m k v) (Memory.wf_write hm k v) hq.2
    refine ⟨ih'.1, fun a => ?_⟩
    simp only [List.foldl_cons]
    rw [ih'.2 a, Memory.read?_write hm]
    simp only [Memory.read?]
    by_cases hk : k = a
    · subst hk
      rw [if_pos rfl, if_pos rfl, Memory.read?_of_lt hq.1]
      simp
    · rw [if_neg hk, if_neg (Ne.symm hk)]

theorem writeBack_wf {m : Memory} (hm : m.wf) {x : CacheLine} (hx : x.ok) : (writeBack m x).wf :=
  (foldl_write (wf_filter hm _) hx.1).1

/-- Memory after a write-back: the copy's bytes on its line, everything else as before. -/
theorem read?_writeBack {m : Memory} (hm : m.wf) {x : CacheLine} (hx : x.ok) (a : Nat) :
    Memory.read? (writeBack m x) a = if lineOf a = x.line then Memory.read? x.data a else Memory.read? m a := by
  unfold writeBack
  rw [(foldl_write (wf_filter hm _) hx.1).2 a]
  have hf := read?_filter_line (m := m) (fun k => lineOf k != x.line) a
  rw [hf]
  by_cases h : lineOf a = x.line
  · simp [h]
  · have hd : Memory.read? x.data a = none := by
      have : ∀ (c : Memory), (∀ p ∈ c, lineOf p.1 = x.line) → Memory.read? c a = none := by
        intro c
        induction c with
        | nil => exact fun _ => rfl
        | cons q c ih =>
          obtain ⟨k, v⟩ := q
          intro hc
          simp only [Memory.read?]
          rw [if_neg (fun hk => h (by rw [← hk]; exact hc (k, v) (by simp)))]
          exact ih fun p hp => hc p (by simp [hp])
      exact this _ hx.2
    simp [h, hd]

theorem flushLines_spec {c : List CacheLine} (hc : cacheWf c) {m : Memory} (hm : m.wf) (a n : Nat) :
    (flushLines a n c m).wf ∧ ∀ x, Memory.read? (flushLines a n c m) x
      = match findLine c (lineOf x) with
        | some y => if overlaps a n y.line && y.dirty then Memory.read? y.data x else Memory.read? m x
        | none => Memory.read? m x := by
  induction c generalizing m with
  | nil => exact ⟨hm, fun x => rfl⟩
  | cons y c ih =>
    have hy := Cache.wf_cons.mp hc
    simp only [flushLines]
    split
    · rename_i ho
      have ih' := ih hy.2.2 (m := writeBack m y) (writeBack_wf hm hy.2.1)
      refine ⟨ih'.1, fun x => ?_⟩
      rw [ih'.2 x]
      simp only [findLine]
      by_cases hl : y.line = lineOf x
      · rw [if_pos hl]
        simp only
        rw [ho, findLine_none fun z hz => by have := hy.1 z hz; omega]
        simp only [if_true]
        rw [read?_writeBack hm hy.2.1, if_pos hl.symm]
      · rw [if_neg hl]
        have hw : Memory.read? (writeBack m y) x = Memory.read? m x := by
          rw [read?_writeBack hm hy.2.1, if_neg (fun h => hl h.symm)]
        rw [hw]
    · rename_i ho
      have ih' := ih hy.2.2 (m := m) hm
      refine ⟨ih'.1, fun x => ?_⟩
      rw [ih'.2 x]
      simp only [findLine]
      by_cases hl : y.line = lineOf x
      · rw [if_pos hl]
        simp only
        rw [findLine_none fun z hz => by have := hy.1 z hz; omega]
        rw [if_neg ho]
      · rw [if_neg hl]

theorem findLine_map_clean (c : List CacheLine) (f : CacheLine → Bool) (l : Nat) :
    findLine (c.map fun x => if f x then { x with dirty := false } else x) l
      = (findLine c l).map fun x => if f x then { x with dirty := false } else x := by
  induction c with
  | nil => rfl
  | cons y c ih =>
    simp only [List.map_cons, findLine]
    have hl : (if f y then { y with dirty := false } else y : CacheLine).line = y.line := by split <;> rfl
    rw [hl]
    by_cases h : y.line = l
    · rw [if_pos h, if_pos h]; rfl
    · rw [if_neg h, if_neg h, ih]

theorem cacheFlush_wf {d : DmaState} (hm : d.mem.wf) (hc : cacheWf d.cache) (a n : Nat) :
    (cacheFlush a n d).mem.wf ∧ cacheWf (cacheFlush a n d).cache := by
  refine ⟨(flushLines_spec hc hm a n).1, ?_⟩
  have key : ∀ c : List CacheLine, cacheWf c →
      cacheWf (c.map fun x => if overlaps a n x.line then { x with dirty := false } else x) := by
    intro c
    induction c with
    | nil => exact fun _ => Cache.wf_nil
    | cons y c ih =>
      intro h
      have hy := Cache.wf_cons.mp h
      simp only [List.map_cons]
      refine Cache.wf_cons.mpr ⟨fun z hz => ?_, ?_, ih hy.2.2⟩
      · obtain ⟨w, hw, rfl⟩ := List.mem_map.mp hz
        have := hy.1 w hw
        split <;> split <;> exact this
      · split
        · exact hy.2.1
        · exact hy.2.1
  exact key d.cache hc

/-- Memory after a flush (R88): on a dirty cached line that overlaps the range, the copy; elsewhere as before. -/
theorem read?_cacheFlush {d : DmaState} (hm : d.mem.wf) (hc : cacheWf d.cache) (a n x : Nat) :
    Memory.read? (cacheFlush a n d).mem x
      = match findLine d.cache (lineOf x) with
        | some y => if overlaps a n y.line && y.dirty then Memory.read? y.data x else Memory.read? d.mem x
        | none => Memory.read? d.mem x :=
  (flushLines_spec hc hm a n).2 x

/-- A flush changes nothing the host sees. -/
theorem cacheFlush_view {d : DmaState} (hm : d.mem.wf) (hc : cacheWf d.cache) (a n x : Nat) :
    (cacheFlush a n d).view x = d.view x := by
  have hf : findLine (cacheFlush a n d).cache (lineOf x)
      = (findLine d.cache (lineOf x)).map fun y => if overlaps a n y.line then { y with dirty := false } else y :=
    findLine_map_clean d.cache (fun y => overlaps a n y.line) (lineOf x)
  cases h : findLine d.cache (lineOf x) with
  | none =>
    rw [h] at hf
    rw [view_uncached hf, view_uncached h, read?_cacheFlush hm hc, h]
  | some y =>
    rw [h] at hf
    rw [view_cached hf, view_cached h]
    show Memory.read? (if overlaps a n y.line then { y with dirty := false } else y : CacheLine).data x = _
    split <;> rfl

/-- After a flush of a range that the host has just written, memory holds the bytes (R88). -/
theorem flushed_bytes {d : DmaState} (hm : d.mem.wf) (hc : cacheWf d.cache) (a : Nat) (bs : List Byte) :
    Memory.readBytes (cacheFlush a bs.length (hostWriteRange d a bs)).mem a bs.length = some bs := by
  refine Memory.readBytes_of fun k hk => ?_
  have hw := hostWriteRange_keeps hm hc a bs
  have hm' : (hostWriteRange d a bs).mem.wf := by rw [hostWriteRange_mem]; exact hm
  obtain ⟨y, hy, hdirty⟩ := hostWriteRange_dirty d a bs (x := a + k) (by omega) (by omega)
  rw [read?_cacheFlush hm' hw.1, hy]
  have hov : overlaps a bs.length y.line = true := by
    rw [findLine_line hy]
    unfold overlaps lineOf
    simp
    omega
  simp only [hov, hdirty, Bool.and_self, if_true]
  rw [← view_cached hy, hw.2, if_pos (by omega)]
  congr 1
  omega

/-- A flush of a range the host has just written leaves memory outside the range's lines as it was. -/
theorem flushed_apart {d : DmaState} (hm : d.mem.wf) (hc : cacheWf d.cache) (a : Nat) (bs : List Byte) {x : Nat}
    (hx : overlaps a bs.length (lineOf x) = false) :
    Memory.read? (cacheFlush a bs.length (hostWriteRange d a bs)).mem x = Memory.read? d.mem x := by
  have hw := hostWriteRange_keeps hm hc a bs
  have hm' : (hostWriteRange d a bs).mem.wf := by rw [hostWriteRange_mem]; exact hm
  rw [read?_cacheFlush hm' hw.1, hostWriteRange_mem]
  cases h : findLine (hostWriteRange d a bs).cache (lineOf x) with
  | none => rfl
  | some y =>
    have := findLine_line h
    simp [this, hx]

/-- After an invalidate no line of the range is cached (R89). -/
theorem findLine_invalidate (d : DmaState) (a n : Nat) (l : Nat) :
    findLine (cacheInvalidate a n d).cache l = if overlaps a n l then none else findLine d.cache l := by
  show findLine (d.cache.filter fun x => !overlaps a n x.line) l = _
  induction d.cache with
  | nil => simp [findLine]
  | cons y c ih =>
    by_cases hy : overlaps a n y.line
    · simp only [List.filter_cons, hy, Bool.not_true, Bool.false_eq_true, if_false, findLine]
      rw [ih]
      by_cases hl : y.line = l
      · subst hl; simp [hy]
      · rw [if_neg hl]
    · simp only [List.filter_cons, hy, Bool.not_false, if_true, findLine]
      by_cases hl : y.line = l
      · subst hl; simp [hy]
      · rw [if_neg hl, if_neg hl, ih]

theorem cacheInvalidate_wf {d : DmaState} (hc : cacheWf d.cache) (a n : Nat) : cacheWf (cacheInvalidate a n d).cache :=
  ⟨hc.1.filter _, fun x hx => hc.2 x (List.mem_filter.mp hx).1⟩

/-- After an invalidate the host sees memory's bytes in the range, and everything else as before (R89). -/
theorem cacheInvalidate_view (d : DmaState) (a n x : Nat) :
    (cacheInvalidate a n d).view x = if overlaps a n (lineOf x) then Memory.read? d.mem x else d.view x := by
  by_cases h : overlaps a n (lineOf x)
  · have hf : findLine (cacheInvalidate a n d).cache (lineOf x) = none := by rw [findLine_invalidate, if_pos h]
    rw [view_uncached hf, if_pos h]
    rfl
  · have hf : findLine (cacheInvalidate a n d).cache (lineOf x) = findLine d.cache (lineOf x) := by
      rw [findLine_invalidate, if_neg h]
    rw [if_neg h]
    unfold DmaState.view lineForAccess
    rw [hf]
    rfl

/-- A host read of a range that has just been invalidated gives memory's bytes (R89, R92). -/
theorem invalidated_read {d : DmaState} {a n k : Nat} {bs : List Byte} (hb : Memory.readBytes d.mem a k = some bs)
    (hk : k ≤ n) : (hostReadRange (cacheInvalidate a n d) a k).1 = some bs := by
  have hl := Memory.readBytes_length hb
  rw [← hl]
  refine hostReadRange_value a bs fun j hj => ?_
  rw [cacheInvalidate_view, if_pos]
  · exact Memory.readBytes_get hb (by omega)
  · unfold overlaps lineOf
    simp
    omega

end Cache

end Sys2Proof.Machine
end

