-- ==== Sys2Proof/Laws/Does.lean ====
section
/-! SUPPORT. Which kinds of change each operation is made of, under every schedule: one lemma per operation, in the order of Machine. -/

namespace Sys2Proof.Machine

variable {α β : Type} {R : State → State → Prop}

/-! ## Memory access (Ops) -/

theorem checkDmaRange_steps (hR : Chains R) (a n : Nat) : Steps R (checkDmaRange a n) :=
  Steps.ite (fun _ => Steps.pure hR ()) fun _ => Steps.stopFault _

theorem checkAligned_steps (hR : Chains R) (a n : Nat) : Steps R (checkAligned a n) :=
  Steps.ite (fun _ => Steps.pure hR ()) fun _ => Steps.stopRefuse _

theorem dmaReadBytes_steps (hR : Chains R) (a n : Nat) : Steps R (dmaReadBytes a n) :=
  Steps.bind hR (checkDmaRange_steps hR a n) fun _ => Steps.get_bind' fun _ => Steps.orFault hR _ _

theorem dmaRead16_steps (hR : Chains R) (a : Nat) : Steps R (dmaRead16 a) :=
  Steps.bind hR (checkAligned_steps hR a 2) fun _ => Steps.bind hR (dmaReadBytes_steps hR a 2) fun _ => Steps.pure hR _

theorem dmaRead32_steps (hR : Chains R) (a : Nat) : Steps R (dmaRead32 a) :=
  Steps.bind hR (checkAligned_steps hR a 4) fun _ => Steps.bind hR (dmaReadBytes_steps hR a 4) fun _ => Steps.pure hR _

/-- A relation that stores into DMA memory keep. -/
abbrev KeptByStores (R : State → State → Prop) : Prop :=
  ∀ s a bs, R s { s with dma := { s.dma with mem := Memory.writeBytes s.dma.mem a bs } }

theorem dmaWriteBytes_steps (hR : Chains R) (hw : KeptByStores R) (a : Nat) (bs : List Byte) :
    Steps R (dmaWriteBytes a bs) :=
  Steps.bind hR (checkDmaRange_steps hR a _) fun _ => Steps.modifies fun s => hw s a bs

theorem dmaWrite16_steps (hR : Chains R) (hw : KeptByStores R) (a : Nat) (v : U16) : Steps R (dmaWrite16 a v) :=
  Steps.bind hR (checkAligned_steps hR a 2) fun _ => dmaWriteBytes_steps hR hw a _

theorem dmaWrite32_steps (hR : Chains R) (hw : KeptByStores R) (a : Nat) (v : U32) : Steps R (dmaWrite32 a v) :=
  Steps.bind hR (checkAligned_steps hR a 4) fun _ => dmaWriteBytes_steps hR hw a _

/-! ## Agents -/

theorem phyRegRead_steps (ra : BitVec 5) : Steps (Chain agentKinds) (phyRegRead ra) := by
  have hR := Chain.chains agentKinds
  have hd : Steps (Chain agentKinds) drawPhyBits :=
    Steps.drawBy fun s => Chain.one (k := .draws) (by decide) rfl (.draws s _)
  refine Steps.get_bind' fun u => ?_
  refine Steps.ite (fun _ => Steps.bind hR hd fun _ => Steps.pure hR _) fun _ => ?_
  refine Steps.ite (fun _ => Steps.pure hR _) fun _ => ?_
  refine Steps.ite (fun _ => Steps.pure hR _) fun _ => ?_
  refine Steps.ite (fun _ => Steps.bind hR hd fun _ => Steps.pure hR _) fun _ => ?_
  refine Steps.ite (fun _ => ?_) fun _ => Steps.pure hR _
  exact Steps.ite (fun _ => Steps.pure hR _) fun _ => Steps.pure hR _

theorem engineStores : KeptByStores (On .dma agentKinds) := fun s a bs =>
  On.one (k := .engineMem) (by decide) (.inl rfl) (.engineMem s a bs)

/-- A state relation that only has to hold of the state an operation is run in. -/
theorem Steps.at' {m : M α} (h : Steps R m) {s t : State} {a : α} (hm : m s = .ok (a, t)) : R s t := h s a t hm

/-- A read of memory leaves the state as it is. -/
theorem eq_of_reads {m : M α} (h : Steps (fun s t => t = s) m) {s t : State} {a : α} (hm : m s = .ok (a, t)) : t = s :=
  h s a t hm

theorem Chains.eq : Chains fun s t : State => t = s := ⟨fun _ => rfl, fun _ _ _ h k => k.trans h⟩

theorem rxEngine_steps (bytes : List Byte) (err : Byte) : Steps (On .dma agentKinds) (rxEngine bytes err) := by
  have hR := On.chains .dma agentKinds
  intro s a t h
  unfold rxEngine at h
  rw [get_bind_apply, branch_apply] at h
  split at h
  · rename_i hact
    obtain ⟨st, u, h1, h2⟩ := bind_ok_inv h
    have hu := eq_of_reads (dmaRead16_steps Chains.eq _) h1
    subst hu
    rw [branch_apply] at h2
    split at h2
    · obtain ⟨buf, u2, h3, h4⟩ := bind_ok_inv h2
      have hu2 := eq_of_reads (dmaRead32_steps Chains.eq _) h3
      subst hu2
      obtain ⟨_, u3, h5, h6⟩ := bind_ok_inv h4
      obtain ⟨_, u4, h7, h8⟩ := bind_ok_inv h6
      obtain ⟨_, u5, h9, h10⟩ := bind_ok_inv h8
      let K : State → State → Prop := fun s t => t.dma.rxActive = s.dma.rxActive ∧ t.dma.hwRxIdx = s.dma.hwRxIdx
      have hK : Chains K :=
        ⟨fun _ => ⟨rfl, rfl⟩, fun _ _ _ x y => ⟨y.1.trans x.1, y.2.trans x.2⟩⟩
      have hKw : KeptByStores K := fun _ _ _ => ⟨rfl, rfl⟩
      have k5 := dmaWriteBytes_steps hK hKw _ _ _ _ _ h5
      have k7 := dmaWrite16_steps hK hKw _ _ _ _ _ h7
      have k9 := dmaWrite16_steps hK hKw _ _ _ _ _ h9
      have k := hK.trans _ _ _ k5 (hK.trans _ _ _ k7 k9)
      refine hR.trans _ _ _ (dmaWriteBytes_steps hR engineStores _ _ _ _ _ h5) ?_
      refine hR.trans _ _ _ (dmaWrite16_steps hR engineStores _ _ _ _ _ h7) ?_
      refine hR.trans _ _ _ (dmaWrite16_steps hR engineStores _ _ _ _ _ h9) ?_
      simp at h10
      rw [← h10, ← k.2]
      exact On.one (k := .rxEngine) (by decide) (.inl rfl) (.rxReleased u5 st (k.1.trans hact))
    · simp at h2
      rw [← h2]
      exact On.one (k := .rxEngine) (by decide) (.inl rfl) (.rxIdle _)
  · exact Steps.pure hR () _ _ _ h

theorem txEngine_steps : Steps (On .dma agentKinds) txEngine := by
  have hR := On.chains .dma agentKinds
  intro s a t h
  unfold txEngine at h
  rw [get_bind_apply, branch_apply] at h
  split at h
  · rename_i hact
    obtain ⟨st, u, h1, h2⟩ := bind_ok_inv h
    have hu := eq_of_reads (dmaRead16_steps Chains.eq _) h1
    subst hu
    rw [branch_apply] at h2
    split at h2
    · obtain ⟨len, u2, h3, h4⟩ := bind_ok_inv h2
      have hu2 := eq_of_reads (dmaRead16_steps Chains.eq _) h3
      subst hu2
      rw [branch_apply] at h4
      split at h4
      · obtain ⟨buf, u3, h5, h6⟩ := bind_ok_inv h4
        have hu3 := eq_of_reads (dmaRead32_steps Chains.eq _) h5
        subst hu3
        obtain ⟨f, u4, h7, h8⟩ := bind_ok_inv h6
        have hu4 := eq_of_reads (dmaReadBytes_steps Chains.eq _ _) h7
        subst hu4
        rw [modify_bind_apply] at h8
        obtain ⟨_, u5, h9, h10⟩ := bind_ok_inv h8
        let K : State → State → Prop := fun s t => t.dma.txActive = s.dma.txActive ∧ t.dma.hwTxIdx = s.dma.hwTxIdx
        have hK : Chains K :=
          ⟨fun _ => ⟨rfl, rfl⟩, fun _ _ _ x y => ⟨y.1.trans x.1, y.2.trans x.2⟩⟩
        have hKw : KeptByStores K := fun _ _ _ => ⟨rfl, rfl⟩
        have k := dmaWrite16_steps hK hKw _ _ _ _ _ h9
        refine hR.trans _ _ _ (On.one (k := .wire) (by decide) (.inr rfl) (.wire _ f)) ?_
        refine hR.trans _ _ _ (dmaWrite16_steps hR engineStores _ _ _ _ _ h9) ?_
        simp at h10
        rw [← h10]
        have hi : u4.dma.hwTxIdx = u5.dma.hwTxIdx := k.2.symm
        rw [hi]
        refine On.one (k := .txEngine) (by decide) (.inl rfl) (.txFinished u5 st (k.1.trans ?_))
        simp only [Bool.and_eq_true] at hact
        exact hact.2
      · exact absurd h4 (by simp)
    · simp at h2
      rw [← h2]
      exact On.one (k := .txEngine) (by decide) (.inl rfl) (.txIdle _)
  · exact Steps.pure hR () _ _ _ h

theorem setRxPending_steps : Steps (On .dma agentKinds) setRxPending :=
  Steps.modifies fun s => On.one (k := .rxFlag) (by decide) (.inl rfl) (.rxFlag s true)

theorem dmaIsr_steps : Steps (On .dma agentKinds) dmaIsr := by
  have hR := On.chains .dma agentKinds
  refine Steps.get_bind' fun u => Steps.ite (fun _ => ?_) fun _ => Steps.pure hR ()
  exact Steps.bind hR (Steps.modifies fun s => On.one (k := .mac .eir) (by decide) (.inl rfl) (.mac s .eir 1))
    fun _ => setRxPending_steps

theorem mdioComplete_steps : Steps (On .dma agentKinds) mdioComplete := by
  have hR := On.chains .dma agentKinds
  have hfin : ∀ (s : State) (v : U16), mdioEnabled s.dma = true →
      On .dma agentKinds s { s with dma := finishMdio v s.dma } := fun s v h =>
    On.one (k := .phyReg) (by decide) (.inl rfl) (.mdioFinished s v h)
  intro s a t h
  unfold mdioComplete at h
  rw [get_bind_apply, branch_apply] at h
  split at h
  · rename_i hen
    rw [branch_apply] at h
    split at h
    · rw [branch_apply] at h
      split at h
      · obtain ⟨v, u, h1, h2⟩ := bind_ok_inv h
        simp at h2
        have k1 := phyRegRead_steps _ _ _ _ h1
        have hd : u.dma = s.dma := by
          have hv : Steps (fun s t : State => t.dma = s.dma) (phyRegRead (mmfrRa s.dma.regs.mmfr)) := by
            have hE : Chains fun s t : State => t.dma = s.dma := Chains.same _
            have hdr : Steps (fun s t : State => t.dma = s.dma) drawPhyBits := Steps.drawBy fun _ => rfl
            refine Steps.get_bind' fun u => ?_
            refine Steps.ite (fun _ => Steps.bind hE hdr fun _ => Steps.pure hE _) fun _ => ?_
            refine Steps.ite (fun _ => Steps.pure hE _) fun _ => ?_
            refine Steps.ite (fun _ => Steps.pure hE _) fun _ => ?_
            refine Steps.ite (fun _ => Steps.bind hE hdr fun _ => Steps.pure hE _) fun _ => ?_
            refine Steps.ite (fun _ => ?_) fun _ => Steps.pure hE _
            exact Steps.ite (fun _ => Steps.pure hE _) fun _ => Steps.pure hE _
          exact hv _ _ _ h1
        refine hR.trans _ _ _ (fun _ => k1) ?_
        rw [← h2]
        exact hfin u v (by rw [hd]; exact hen)
      · simp at h
        rw [← h]
        exact hfin s _ hen
    · rw [branch_apply] at h
      split at h
      · rw [branch_apply] at h
        split at h
        · simp at h
          rw [← h]
          exact On.one (k := .phyReg) (by decide) (.inl rfl) (.mdioWritten s _ _ hen)
        · simp at h
          rw [← h]
          exact hfin s _ hen
      · simp at h
        rw [← h]
        exact hfin s _ hen
  · exact Steps.pure hR () _ _ _ h

theorem latchCause_steps (cause : Nat) : Steps (On .spi agentKinds) (latchCause cause) := by
  refine Steps.modifies fun s => ?_
  by_cases h : latches s.spi.chip cause = true
  · simp only [h, if_true]
    exact On.one (k := .latch) (by decide) (.inl rfl) (.latch s true)
  · simp only [h]
    exact (On.chains _ _).refl s

theorem chipWireRx_steps (bytes : List Byte) (err : Byte) : Steps (On .spi agentKinds) (chipWireRx bytes err) := by
  have hR := On.chains .spi agentKinds
  intro s a t h
  unfold chipWireRx at h
  rw [get_bind_apply, branch_apply] at h
  split at h
  · rename_i ho
    rw [modifyChip_bind_apply] at h
    refine hR.trans _ _ _ ?_ (latchCause_steps 2 _ _ _ h)
    exact On.one (k := .chipRx) (by decide) (.inl rfl) (.chipReceived s bytes err ho.1 ho.2)
  · exact Steps.pure hR () _ _ _ h

theorem chipSendDone_steps : Steps (On .spi agentKinds) chipSendDone := by
  have hR := On.chains .spi agentKinds
  intro s a t h
  unfold chipSendDone at h
  rw [get_bind_apply] at h
  cases hq : s.spi.chip.sendQueue with
  | nil =>
    simp only [hq] at h
    exact Steps.pure hR () _ _ _ h
  | cons e rest =>
    simp only [hq] at h
    rw [branch_apply] at h
    split at h
    · rename_i ho
      obtain ⟨f, u, h1, h2⟩ := bind_ok_inv h
      have hu := eq_of_reads (Steps.orFault Chains.eq _ _) h1
      subst hu
      rw [modify_bind_apply, modifyChip_bind_apply] at h2
      refine hR.trans _ _ _ (On.one (k := .wire) (by decide) (.inr rfl) (.wire _ f)) ?_
      refine hR.trans _ _ _ ?_ (latchCause_steps 4 _ _ _ h2)
      exact On.one (k := .chipTx) (by decide) (.inl rfl) (.chipSent { u with wireTxLog := u.wireTxLog ++ [f] } e rest ho hq)
    · exact Steps.pure hR () _ _ _ h

theorem chipResetDone_steps : Steps (On .spi agentKinds) chipResetDone := by
  have hR := On.chains .spi agentKinds
  refine Steps.get_bind' fun u => Steps.ite (fun _ => ?_) fun _ => Steps.pure hR ()
  exact Steps.modifies fun s => On.one (k := .chipReset) (by decide) (.inl rfl) (.chipResetDone s)

theorem spiIsr_steps : Steps (On .spi agentKinds) spiIsr := by
  have hR := On.chains .spi agentKinds
  refine Steps.get_bind' fun u => Steps.ite (fun _ => ?_) fun _ => Steps.pure hR ()
  refine Steps.bind hR (Steps.modifies fun s => On.one (k := .latch) (by decide) (.inl rfl) (.latch s false)) fun _ => ?_
  exact Steps.modifies fun s => On.one (k := .spiFlags) (by decide) (.inl rfl) (.spiFlags s true true)

theorem ringFault_steps (a : U16) (v : Byte) : Steps (On .spi agentKinds) (ringFault a v) := by
  have hR := On.chains .spi agentKinds
  refine Steps.get_bind' fun u => Steps.ite (fun _ => ?_) fun _ => Steps.pure hR ()
  exact Steps.modifies fun s => On.one (k := .ringFault) (by decide) (.inl rfl) (.ringFault s _ v)

/-- An agent step changes only what agents can change (R2, R129). -/
theorem agentStep_steps (a : AgentStep) : Steps (Chain agentKinds) (agentStep a) := by
  have hd := On.chains .dma agentKinds
  have hs := On.chains .spi agentKinds
  cases a with
  | wireRx bytes err =>
    have hw : Steps (On .dma agentKinds) (dmaWireRx bytes err) := by
      unfold dmaWireRx
      refine Steps.get_bind' fun u => ?_
      split
      · exact rxEngine_steps bytes err
      · exact Steps.pure hd ()
    exact Steps.backends hw (chipWireRx_steps bytes err)
  | dmaTx => exact Steps.backends txEngine_steps (Steps.pure hs ())
  | isr => exact Steps.backends dmaIsr_steps spiIsr_steps
  | mdioDone => exact Steps.backends mdioComplete_steps (Steps.pure hs ())
  | link f =>
    refine Steps.backends (Steps.modifies fun s => ?_) (Steps.modifies fun s => ?_)
    · exact On.one (k := .phyLink) (by decide) (.inl rfl) (.phyLink s _)
    · exact On.one (k := .chipLink) (by decide) (.inl rfl) (.chipLink s _)
  | chipSendDone => exact Steps.backends (Steps.pure hd ()) chipSendDone_steps
  | chipResetDone => exact Steps.backends (Steps.pure hd ()) chipResetDone_steps
  | ringFault a v => exact Steps.backends (Steps.pure hd ()) (ringFault_steps a v)

theorem runSteps_steps (l : List AgentStep) : Steps (Chain agentKinds) (runSteps l) := by
  have hR := Chain.chains agentKinds
  induction l with
  | nil => exact Steps.pure hR ()
  | cons a rest ih => exact Steps.bind hR (agentStep_steps a) fun _ => ih

theorem repeatStep_steps (a : AgentStep) (n : Nat) : Steps (Chain agentKinds) (repeatStep a n) := by
  have hR := Chain.chains agentKinds
  induction n with
  | zero => exact Steps.pure hR ()
  | succ n ih => exact Steps.bind hR (agentStep_steps a) fun _ => ih

/-- Between two micro-steps only the agents' part of the state changes (R3). -/
theorem boundary_steps : Steps (Chain agentKinds) boundary := by
  have hR := Chain.chains agentKinds
  refine Steps.bind hR ?_ fun _ => ?_
  · intro s a t h
    unfold scriptedSteps at h
    rw [get_bind_apply] at h
    cases hs : s.script with
    | nil =>
      simp only [hs] at h
      exact Steps.pure hR () _ _ _ h
    | cons e rest =>
      simp only [hs] at h
      rw [set_bind_apply] at h
      refine hR.trans _ _ _ ?_ (runSteps_steps e _ _ _ h)
      exact Chain.one (k := .script) (by decide) rfl (.script s e rest hs)
  · refine Steps.get_bind' fun u => ?_
    refine Steps.bind hR (Steps.onlyIf hR fun _ => agentStep_steps _) fun _ => ?_
    refine Steps.bind hR (Steps.onlyIf hR fun _ => agentStep_steps _) fun _ => ?_
    refine Steps.bind hR (Steps.onlyIf hR fun _ => repeatStep_steps _ _) fun _ => ?_
    refine Steps.bind hR (Steps.onlyIf hR fun _ => repeatStep_steps _ _) fun _ => ?_
    exact Steps.onlyIf hR fun _ => agentStep_steps _

/-- A micro-step is its own change and then the agents'. -/
theorem micro_steps (hR : Chains R) {m : M α} (hm : Steps R m) (hb : Steps R boundary) : Steps R (micro m) :=
  Steps.bind hR hm fun _ => Steps.bind hR hb fun _ => Steps.pure hR _

theorem micro_chain {l : List Kind} {m : M α} (hl : agentKinds ⊆ l) (hm : Steps (Chain l) m) :
    Steps (Chain l) (micro m) :=
  micro_steps (Chain.chains l) hm (boundary_steps.widen hl)

theorem micro_on {b : Backend} {l : List Kind} {m : M α} (hl : agentKinds ⊆ l) (hm : Steps (On b l) m) :
    Steps (On b l) (micro m) :=
  micro_steps (On.chains b l) hm (boundary_steps.on hl)

end Sys2Proof.Machine
end

