-- ==== Sys2Proof/Laws/DoesHost.lean ====
section
/-! SUPPORT. Which kinds of change each host operation is made of, under every schedule (continued from Does). -/

namespace Sys2Proof.Machine

variable {α β : Type}

/-! ## The management bus -/

/-- What the management bus rules change (R181 to R185). -/
def mdioKinds : List Kind := agentKinds ++ [.mac .mmfr, .mdioBusy]

theorem microMac {l : List Kind} {r : MacReg} (hl : agentKinds ⊆ l) (hr : Kind.mac r ∈ l) (v : U32) :
    Steps (On .dma l) (micro (macWrite r v)) := by
  refine micro_on hl (Steps.ite (fun _ => Steps.stopRefuse _) fun _ => ?_)
  exact Steps.modifies fun s => On.one hr (.inl rfl) (.mac s r v)

theorem microMacRead {l : List Kind} (hl : agentKinds ⊆ l) (r : MacReg) : Steps (On .dma l) (micro (macRead r)) := by
  refine micro_on hl ?_
  exact Steps.get_bind' fun _ => Steps.pure (On.chains _ _) _

theorem setMdioBusy_steps {l : List Kind} (h : Kind.mdioBusy ∈ l) (b : Bool) : Steps (On .dma l) (setMdioBusy b) :=
  Steps.modifies fun s => On.one h (.inl rfl) (.mdioBusy s b)

theorem mdioIssue_steps (frame : U32) : Steps (On .dma mdioKinds) (mdioIssue frame) := by
  have hR := On.chains .dma mdioKinds
  refine Steps.get_bind' fun u => Steps.ite (fun _ => Steps.pure hR _) fun _ => ?_
  refine Steps.bind hR (microMac (by decide) (by decide) _) fun _ => ?_
  refine Steps.bind hR (microMac (by decide) (by decide) _) fun _ => ?_
  refine Steps.bind hR (micro_on (by decide) (setMdioBusy_steps (by decide) _)) fun _ => Steps.pure hR _

theorem mdioCollect_steps : Steps (On .dma mdioKinds) mdioCollect := by
  have hR := On.chains .dma mdioKinds
  refine Steps.get_bind' fun u => Steps.ite (fun _ => ?_) fun _ => Steps.pure hR _
  refine Steps.bind hR (microMacRead (by decide) _) fun e => Steps.ite (fun _ => ?_) fun _ => Steps.pure hR _
  refine Steps.bind hR (microMacRead (by decide) _) fun f => ?_
  refine Steps.bind hR (micro_on (by decide) (Steps.bind hR ?_ fun _ => setMdioBusy_steps (by decide) _))
    fun _ => Steps.pure hR _
  refine Steps.ite (fun _ => Steps.stopRefuse _) fun _ => ?_
  exact Steps.modifies fun s => On.one (k := .mac .eir) (by decide) (.inl rfl) (.mac s .eir _)

theorem mdioAwait_steps (n : Nat) : Steps (On .dma mdioKinds) (mdioAwait n) := by
  have hR := On.chains .dma mdioKinds
  induction n with
  | zero =>
    exact Steps.bind hR (micro_on (by decide) (setMdioBusy_steps (by decide) _)) fun _ => Steps.pure hR _
  | succ n ih =>
    refine Steps.bind hR mdioCollect_steps fun r => ?_
    cases r with
    | none => exact ih
    | some v => exact Steps.pure hR _

theorem mdioTransact_steps (frame : U32) : Steps (On .dma mdioKinds) (mdioTransact frame) := by
  have hR := On.chains .dma mdioKinds
  refine Steps.config_bind fun c => Steps.bind hR (mdioIssue_steps frame) fun b => ?_
  exact Steps.ite (fun _ => mdioAwait_steps _) fun _ => Steps.pure hR _

theorem mdioRead_steps (ra : BitVec 5) : Steps (On .dma mdioKinds) (mdioRead ra) :=
  Steps.config_bind fun _ => mdioTransact_steps _

theorem mdioWrite_steps (ra : BitVec 5) (v : U16) : Steps (On .dma mdioKinds) (mdioWrite ra v) :=
  Steps.config_bind fun _ =>
    Steps.bind (On.chains _ _) (mdioTransact_steps _) fun _ => Steps.pure (On.chains _ _) _

theorem phySelect_steps (a : U16) : Steps (On .dma mdioKinds) (phySelect a) := by
  have hR := On.chains .dma mdioKinds
  refine Steps.bind hR (mdioWrite_steps _ _) fun w1 => Steps.ite (fun _ => ?_) fun _ => Steps.pure hR _
  refine Steps.bind hR (mdioWrite_steps _ _) fun w2 => Steps.ite (fun _ => ?_) fun _ => Steps.pure hR _
  exact mdioWrite_steps _ _

theorem phyWrite_steps (a v : U16) : Steps (On .dma mdioKinds) (phyWrite a v) := by
  have hR := On.chains .dma mdioKinds
  refine Steps.ite (fun _ => mdioWrite_steps _ _) fun _ => ?_
  refine Steps.bind hR (phySelect_steps a) fun ok => Steps.ite (fun _ => ?_) fun _ => Steps.pure hR _
  exact mdioWrite_steps _ _

/-! ## DMA: probe and initialisation -/

/-- What the DMA probe changes (R190). -/
def dmaProbeKinds : List Kind := mdioKinds ++ [.probe, .initState]

theorem dmaProbe_steps : Steps (On .dma dmaProbeKinds) dmaProbe := by
  have hR := On.chains .dma dmaProbeKinds
  have hm : ∀ ra, Steps (On .dma dmaProbeKinds) (mdioRead ra) := fun ra => (mdioRead_steps ra).onWiden (by decide)
  refine Steps.config_bind fun c => ?_
  refine Steps.bind hR (micro_on (by decide) (Steps.modifies fun s => ?_)) fun _ => ?_
  · exact On.one (k := .probe) (by decide) (.inl rfl) (.clocks s true)
  refine Steps.bind hR (micro_on (by decide) (Steps.modifies fun s => ?_)) fun _ => ?_
  · exact On.one (k := .probe) (by decide) (.inl rfl) (.pins s true)
  refine Steps.bind hR (micro_on (by decide) (Steps.modifies fun s => ?_)) fun _ => ?_
  · exact On.one (k := .probe) (by decide) (.inl rfl) (.phyPulse s)
  refine Steps.bind hR (hm _) fun hi => Steps.bind hR (hm _) fun lo => Steps.ite (fun _ => ?_) fun _ => ?_
  · exact Steps.modifies fun s => On.one (k := .initState) (by decide) (.inr rfl) (.initState s _)
  refine Steps.bind hR (micro_on (by decide) (Steps.modifies fun s => ?_)) fun _ => ?_
  · exact On.one (k := .probe) (by decide) (.inl rfl) (.phyResetOff s)
  refine Steps.bind hR (micro_on (by decide) (Steps.modifies fun s => ?_)) fun _ => ?_
  · exact On.one (k := .probe) (by decide) (.inl rfl) (.pins s false)
  refine Steps.bind hR (micro_on (by decide) (Steps.modifies fun s => ?_)) fun _ => ?_
  · exact On.one (k := .probe) (by decide) (.inl rfl) (.clocks s false)
  exact Steps.modifies fun s => On.one (k := .initState) (by decide) (.inr rfl) (.initState s .noHardware)

theorem tune_steps (l : List (U16 × U16)) : Steps (On .dma mdioKinds) (tune l) := by
  have hR := On.chains .dma mdioKinds
  induction l with
  | nil => exact Steps.pure hR _
  | cons p rest ih =>
    exact Steps.bind hR (phyWrite_steps p.1 p.2) fun ok => Steps.ite (fun _ => ih) fun _ => Steps.pure hR _

/-- What writing the rings changes (R192, R193). -/
def ringKinds : List Kind := agentKinds ++ [.descMem]

theorem descStores {l : List Kind} (h : Kind.descMem ∈ l) : KeptByStores (On .dma l) := fun s a bs =>
  On.one h (.inl rfl) (.descMem s a bs)

theorem microStore16 {l : List Kind} (hl : agentKinds ⊆ l) (h : Kind.descMem ∈ l) (a : Nat) (v : U16) :
    Steps (On .dma l) (micro (dmaWrite16 a v)) :=
  micro_on hl (dmaWrite16_steps (On.chains _ _) (descStores h) a v)

theorem microStore32 {l : List Kind} (hl : agentKinds ⊆ l) (h : Kind.descMem ∈ l) (a : Nat) (v : U32) :
    Steps (On .dma l) (micro (dmaWrite32 a v)) :=
  micro_on hl (dmaWrite32_steps (On.chains _ _) (descStores h) a v)

theorem zeroRing_steps (rb bb : U32) (size n i : Nat) : Steps (On .dma ringKinds) (zeroRing rb bb size i n) := by
  have hR := On.chains .dma ringKinds
  induction n generalizing i with
  | zero => exact Steps.pure hR ()
  | succ n ih =>
    refine Steps.bind hR (Steps.bind hR (microStore16 (by decide) (by decide) _ _) fun _ => ?_) fun _ => ih (i + 1)
    exact Steps.bind hR (microStore16 (by decide) (by decide) _ _) fun _ => microStore32 (by decide) (by decide) _ _

theorem seedRing_steps (rb : U32) (n i : Nat) : Steps (On .dma ringKinds) (seedRing rb i n) := by
  have hR := On.chains .dma ringKinds
  induction n generalizing i with
  | zero => exact Steps.pure hR ()
  | succ n ih => exact Steps.bind hR (microStore16 (by decide) (by decide) _ _) fun _ => ih (i + 1)

theorem dmaRings_steps : Steps (On .dma ringKinds) dmaRings := by
  have hR := On.chains .dma ringKinds
  refine Steps.config_bind fun c => ?_
  refine Steps.bind hR (zeroRing_steps _ _ _ _ _) fun _ => Steps.bind hR (zeroRing_steps _ _ _ _ _) fun _ => ?_
  exact Steps.bind hR (seedRing_steps _ _ _) fun _ => microStore16 (by decide) (by decide) _ _

/-- What programming the station address changes (R161, R194). -/
def dmaStationKinds : List Kind := agentKinds ++ [.mac .palr, .mac .paur]

theorem dmaWriteStation_steps (m : MacAddr) : Steps (On .dma dmaStationKinds) (dmaWriteStation m) :=
  Steps.bind (On.chains _ _) (microMac (by decide) (by decide) _) fun _ => microMac (by decide) (by decide) _

/-- What programming the controller changes (R194). -/
def programKinds : List Kind :=
  dmaStationKinds
    ++ [.station, .mac .rdsr, .mac .tdsr, .mac .mrbr, .mac .rcr, .mac .acc, .mac .fltPres0, .mac .fltPres1, .coll]

theorem dmaProgram_steps (m : MacAddr) : Steps (On .dma programKinds) (dmaProgram m) := by
  have hR := On.chains .dma programKinds
  refine Steps.config_bind fun c => ?_
  refine Steps.bind hR (microMac (by decide) (by decide) _) fun _ => ?_
  refine Steps.bind hR (microMac (by decide) (by decide) _) fun _ => ?_
  refine Steps.bind hR (microMac (by decide) (by decide) _) fun _ => ?_
  refine Steps.bind hR (microMac (by decide) (by decide) _) fun _ => ?_
  refine Steps.bind hR (microMac (by decide) (by decide) _) fun _ => ?_
  refine Steps.bind hR (Steps.modifies fun s => ?_) fun _ => ?_
  · exact On.one (k := .station) (by decide) (.inr rfl) (.station s m)
  refine Steps.bind hR ((dmaWriteStation_steps m).onWiden (by decide)) fun _ => ?_
  refine Steps.bind hR (microMac (by decide) (by decide) _) fun _ => ?_
  refine Steps.bind hR (microMac (by decide) (by decide) _) fun _ => ?_
  exact Steps.modifies fun s => On.one (k := .coll) (by decide) (.inl rfl) (.collZero s)

/-- What the last steps of the initialisation change (R195, R196). -/
def enableKinds : List Kind := agentKinds ++ [.mac .eimr, .mac .ecr, .rxCursor, .txCursor, .monitor]

theorem dmaUnmask_steps : Steps (On .dma enableKinds) dmaUnmask :=
  Steps.bind (On.chains _ _) (microMac (by decide) (by decide) _) fun _ => microMac (by decide) (by decide) _

theorem dmaEnable_steps : Steps (On .dma enableKinds) dmaEnable := by
  have hR := On.chains .dma enableKinds
  refine Steps.bind hR (Steps.modifies fun s => ?_) fun _ => ?_
  · have h1 := On.one (b := .dma) (l := enableKinds) (k := .rxCursor) (by decide) (.inl rfl) (.rxCursor s 0)
    have h2 := On.one (b := .dma) (l := enableKinds) (k := .txCursor) (by decide) (.inl rfl)
      (.txCursor { s with dma := { s.dma with rxCursor := 0 } } 0)
    have h3 := On.one (b := .dma) (l := enableKinds) (k := .monitor) (by decide) (.inl rfl)
      (.monitor { s with dma := { s.dma with rxCursor := 0, txCursor := 0 } } .idle false)
    exact hR.trans _ _ _ h1 (hR.trans _ _ _ h2 h3)
  refine Steps.bind hR (micro_on (by decide) (Steps.modifies fun s => ?_)) fun _ => microMac (by decide) (by decide) _
  exact On.one (k := .rxFlag) (by decide) (.inl rfl) (.rxFlag s false)

/-- What the whole of R192 to R196 changes. -/
def bringUpKinds : List Kind := ringKinds ++ programKinds ++ enableKinds

theorem dmaBringUp_steps (m : MacAddr) : Steps (On .dma bringUpKinds) (dmaBringUp m) := by
  have hR := On.chains .dma bringUpKinds
  refine Steps.bind hR (dmaRings_steps.onWiden (by decide)) fun _ => ?_
  refine Steps.bind hR ((dmaProgram_steps m).onWiden (by decide)) fun _ => ?_
  exact Steps.bind hR (dmaUnmask_steps.onWiden (by decide)) fun _ => dmaEnable_steps.onWiden (by decide)

/-- What the DMA part of DEINIT changes (R198). -/
def dmaShutDownKinds : List Kind := agentKinds ++ [.mac .eimr, .mac .ecr, .mac .fltPres0, .mac .fltPres1, .mdioBusy]

theorem dmaShutDown_steps : Steps (On .dma dmaShutDownKinds) dmaShutDown := by
  have hR := On.chains .dma dmaShutDownKinds
  refine Steps.bind hR (microMac (by decide) (by decide) _) fun _ => ?_
  refine Steps.bind hR (microMac (by decide) (by decide) _) fun _ => ?_
  refine Steps.bind hR (microMac (by decide) (by decide) _) fun _ => ?_
  refine Steps.bind hR (microMac (by decide) (by decide) _) fun _ => ?_
  refine Steps.bind hR (microMac (by decide) (by decide) _) fun _ => ?_
  exact micro_on (by decide) (setMdioBusy_steps (by decide) _)

/-! ## DMA: data plane -/

/-- What PROC_INPUT changes on the DMA build (R205). -/
def dmaInputKinds : List Kind := agentKinds ++ [.counter, .cache, .descMem, .mac .rdar, .rxCursor]

theorem dmaTakeFrame_steps (i : Nat) (st : U16) (n : Nat) : Steps (On .dma dmaInputKinds) (dmaTakeFrame i st n) := by
  have hR := On.chains .dma dmaInputKinds
  refine Steps.config_bind fun c => Steps.ite (fun _ => ?_) fun _ => ?_
  · refine Steps.bind hR (Steps.modifies fun s => ?_) fun _ => Steps.pure hR _
    exact On.one (k := .counter) (by decide) (.inr rfl) (.rxErr s)
  refine Steps.bind hR (Steps.drawBy fun s => ?_) fun ok => Steps.ite (fun _ => ?_) fun _ => ?_
  · exact On.one (k := .draws) (by decide) (.inr rfl) (.draws s _)
  · refine Steps.bind hR (micro_on (by decide) ?_) fun b => Steps.bind hR (Steps.drawBy fun s => ?_) fun ts => Steps.pure hR _
    · refine Steps.bind hR (checkDmaRange_steps hR _ _) fun _ => ?_
      intro s a t h
      rw [get_bind_apply, set_bind_apply] at h
      have ho := eq_of_reads (Steps.orFault Chains.eq _ _) h
      rw [ho]
      exact On.one (k := .cache) (by decide) (.inl rfl) (.cacheRead s _ _)
    · exact On.one (k := .draws) (by decide) (.inr rfl) (.draws s _)
  · refine Steps.bind hR (Steps.modifies fun s => ?_) fun _ => Steps.pure hR _
    exact On.one (k := .counter) (by decide) (.inr rfl) (.rxNomem s)

theorem dmaRearm_steps (i : Nat) (st : U16) : Steps (On .dma dmaInputKinds) (dmaRearm i st) := by
  have hR := On.chains .dma dmaInputKinds
  refine Steps.config_bind fun c => ?_
  refine Steps.bind hR (microStore16 (by decide) (by decide) _ _) fun _ => ?_
  refine Steps.bind hR (microStore16 (by decide) (by decide) _ _) fun _ => ?_
  refine Steps.bind hR (microMac (by decide) (by decide) _) fun _ => ?_
  refine Steps.bind hR (Steps.modifies fun s => ?_) fun _ => micro_on (by decide) (Steps.modifies fun s => ?_)
  · exact On.one (k := .rxCursor) (by decide) (.inl rfl) (.rxCursor s _)
  · exact On.one (k := .rxFlag) (by decide) (.inl rfl) (.rxFlag s true)

theorem dmaReceive_steps : Steps (On .dma dmaInputKinds) dmaReceive := by
  have hR := On.chains .dma dmaInputKinds
  refine Steps.get_bind' fun u => ?_
  refine Steps.bind hR (micro_on (by decide) (dmaRead16_steps hR _)) fun st => Steps.ite (fun _ => Steps.pure hR _) fun _ => ?_
  refine Steps.bind hR (micro_on (by decide) (Steps.modifies fun s => ?_)) fun _ => ?_
  · exact On.one (k := .cache) (by decide) (.inl rfl) (.cacheInvalidate s _ _)
  refine Steps.bind hR (micro_on (by decide) (dmaRead16_steps hR _)) fun n => ?_
  refine Steps.bind hR (dmaTakeFrame_steps _ _ _) fun r => ?_
  exact Steps.bind hR (dmaRearm_steps _ _) fun _ => Steps.pure hR _

theorem dmaProcInput_steps : Steps (On .dma dmaInputKinds) dmaProcInput := by
  have hR := On.chains .dma dmaInputKinds
  refine Steps.bind hR (micro_on (by decide) ?_) fun p => Steps.ite (fun _ => dmaReceive_steps) fun _ => Steps.pure hR _
  intro s a t h
  have h2 : (pure s.dma.rxPending : M Bool) { s with dma := { s.dma with rxPending := false } } = .ok (a, t) := h
  simp at h2
  rw [← h2.2]
  exact On.one (k := .rxFlag) (by decide) (.inl rfl) (.rxFlag s false)

/-- What OUTPUT changes on the DMA build (R207). -/
def dmaOutputKinds : List Kind := agentKinds ++ [.counter, .cache, .descMem, .mac .tdar, .txCursor]

theorem dmaGive_steps (i : Nat) (st : U16) (bytes : List Byte) : Steps (On .dma dmaOutputKinds) (dmaGive i st bytes) := by
  have hR := On.chains .dma dmaOutputKinds
  refine Steps.config_bind fun c => ?_
  refine Steps.bind hR (micro_on (by decide) ?_) fun _ => ?_
  · refine Steps.bind hR (Steps.bind hR (checkDmaRange_steps hR _ _) fun _ => Steps.modifies fun s => ?_) fun _ =>
      Steps.modifies fun s => ?_
    · exact On.one (k := .cache) (by decide) (.inl rfl) (.cacheWrite s _ _)
    · exact On.one (k := .cache) (by decide) (.inl rfl) (.cacheFlush s _ _)
  refine Steps.bind hR (microStore16 (by decide) (by decide) _ _) fun _ => ?_
  refine Steps.bind hR (microStore16 (by decide) (by decide) _ _) fun _ => ?_
  refine Steps.bind hR (microMac (by decide) (by decide) _) fun _ => Steps.modifies fun s => ?_
  exact On.one (k := .txCursor) (by decide) (.inl rfl) (.txCursor s _)

theorem dmaOutput_steps (bytes : List Byte) : Steps (On .dma dmaOutputKinds) (dmaOutput bytes) := by
  have hR := On.chains .dma dmaOutputKinds
  refine Steps.get_bind' fun u => ?_
  refine Steps.bind hR (micro_on (by decide) (dmaRead16_steps hR _)) fun st => Steps.ite (fun _ => ?_) fun _ => ?_
  · refine Steps.bind hR (Steps.modifies fun s => ?_) fun _ => Steps.pure hR _
    exact On.one (k := .counter) (by decide) (.inr rfl) (.txAgain s)
  · exact Steps.bind hR (dmaGive_steps _ _ _) fun _ => Steps.pure hR _

/-- What SET_INCOMING_MAC_ALLOWED changes on the DMA build (R217 to R219). -/
def filterKinds : List Kind := agentKinds ++ [.mac .fltPres0, .mac .fltPres1, .coll]

theorem microPres (half : Bool) (v : U32) : Steps (On .dma filterKinds) (micro (macWrite (presReg half) v)) := by
  cases half
  · exact microMac (r := .fltPres0) (by decide) (by decide) v
  · exact microMac (r := .fltPres1) (by decide) (by decide) v

theorem dmaFilter_steps (m : MacAddr) (allow : Bool) : Steps (On .dma filterKinds) (dmaFilter m allow) := by
  have hR := On.chains .dma filterKinds
  refine Steps.config_bind fun c => Steps.ite (fun _ => ?_) fun _ => ?_
  · refine Steps.bind hR (microMacRead (by decide) _) fun p => Steps.ite (fun _ => ?_) fun _ => ?_
    · refine Steps.bind hR (Steps.modifies fun s => ?_) fun _ => Steps.pure hR _
      exact On.one (k := .coll) (by decide) (.inl rfl) (.collSet s _ _)
    · exact Steps.bind hR (microPres _ _) fun _ => Steps.pure hR _
  · refine Steps.get_bind' fun u => Steps.ite (fun _ => ?_) fun _ => ?_
    · exact Steps.bind hR (Steps.modifies fun s => hR.refl s) fun _ => Steps.pure hR _
    · exact Steps.bind hR (microMacRead (by decide) _) fun p => Steps.bind hR (microPres _ _) fun _ => Steps.pure hR _

/-! ## SPI: the bus -/

/-- What SPI transactions change (R231 to R236). -/
def busKinds : List Kind := agentKinds ++ [.cs, .chipReg, .chipRing, .chipCommand]

theorem setCs_steps (b : Bool) : Steps (On .spi busKinds) (setCs b) :=
  Steps.modifies fun s => On.one (k := .cs) (by decide) (.inl rfl) (.cs s b)

theorem drawChipByte_steps : Steps (On .spi busKinds) drawChipByte :=
  Steps.drawBy fun s => On.one (k := .draws) (by decide) (.inr rfl) (.draws s _)

theorem commonByte_steps (u : State) (a : Nat) : Steps (On .spi busKinds) (commonByte u a) := by
  have hR := On.chains .spi busKinds
  unfold commonByte
  simp only []
  split
  case h_11 => exact Steps.bind hR drawChipByte_steps fun _ => Steps.pure hR _
  case h_13 => exact drawChipByte_steps
  all_goals exact Steps.pure hR _

theorem socketByte_steps (c : Chip) (a : Nat) : Steps (On .spi busKinds) (socketByte c a) := by
  have hR := On.chains .spi busKinds
  unfold socketByte
  split
  case h_20 => exact drawChipByte_steps
  all_goals exact Steps.pure hR _

theorem chipByte_steps (bsb a : Nat) : Steps (On .spi busKinds) (chipByte bsb a) := by
  have hR := On.chains .spi busKinds
  refine Steps.get_bind' fun u => Steps.ite (fun _ => ?_) fun _ => Steps.pure hR _
  split
  · exact commonByte_steps _ _
  · exact socketByte_steps _ _
  · exact Steps.orFault hR _ _
  · exact Steps.orFault hR _ _
  · exact Steps.stopRefuse _

theorem chipCommand_steps (v : Byte) : Steps (On .spi busKinds) (chipCommand v) := by
  have hR := On.chains .spi busKinds
  refine Steps.ite (fun _ => ?_) fun _ => ?_
  · intro s a t h
    unfold chipOpen at h
    rw [get_bind_apply, branch_apply] at h
    split at h
    · rw [branch_apply] at h
      split at h
      · rename_i hl
        simp only [Bool.and_eq_true] at hl
        simp at h
        rw [← h]
        exact On.one (k := .chipCommand) (by decide) (.inl rfl) (.chipOpened s hl.1 hl.2)
      · exact absurd h (by simp)
    · exact Steps.pure hR () _ _ _ h
  refine Steps.ite (fun _ => Steps.modifies fun s => ?_) fun _ => ?_
  · exact On.one (k := .chipCommand) (by decide) (.inl rfl) (.chipClosed s)
  refine Steps.ite (fun _ => ?_) fun _ => ?_
  · intro s a t h
    unfold chipSend at h
    rw [get_bind_apply, branch_apply] at h
    split at h
    · rename_i ho
      rw [branch_apply] at h
      split at h
      · rename_i hl
        simp at h
        rw [← h]
        exact On.one (k := .chipCommand) (by decide) (.inl rfl) (.chipQueued s ho.1 ho.2 hl)
      · exact absurd h (by simp)
    · exact Steps.pure hR () _ _ _ h
  refine Steps.ite (fun _ => ?_) fun _ => Steps.pure hR ()
  intro s a t h
  unfold chipRecv at h
  rw [get_bind_apply, branch_apply] at h
  split at h
  · rename_i ho
    rw [branch_apply] at h
    split at h
    · rename_i hl
      simp at h
      rw [← h]
      exact On.one (k := .chipCommand) (by decide) (.inl rfl) (.chipAcknowledged s ho hl)
    · exact absurd h (by simp)
  · exact Steps.pure hR () _ _ _ h

theorem chipStore_steps (bsb a : Nat) (v : Byte) : Steps (On .spi busKinds) (chipStore bsb a v) := by
  have hR := On.chains .spi busKinds
  refine Steps.get_bind' fun u => Steps.ite (fun _ => ?_) fun _ => Steps.pure hR _
  split
  · exact Steps.modifies fun s => On.one (k := .chipReg) (by decide) (.inl rfl) (.storeCommon s a v)
  · refine Steps.ite (fun _ => chipCommand_steps v) fun _ => Steps.modifies fun s => ?_
    exact On.one (k := .chipReg) (by decide) (.inl rfl) (.storeSocket s a v)
  · exact Steps.modifies fun s => On.one (k := .chipRing) (by decide) (.inl rfl) (.storeRing s a v)
  · exact Steps.pure hR ()
  · exact Steps.stopRefuse _

theorem chipBytes_steps (bsb addr n : Nat) : Steps (On .spi busKinds) (chipBytes bsb addr n) := by
  have hR := On.chains .spi busKinds
  induction n generalizing addr with
  | zero => exact Steps.pure hR _
  | succ n ih =>
    exact Steps.bind hR (chipByte_steps _ _) fun _ => Steps.bind hR (ih _) fun _ => Steps.pure hR _

theorem chipStores_steps (bsb addr : Nat) (bs : List Byte) : Steps (On .spi busKinds) (chipStores bsb addr bs) := by
  have hR := On.chains .spi busKinds
  induction bs generalizing addr with
  | nil => exact Steps.pure hR _
  | cons b bs ih => exact Steps.bind hR (chipStore_steps _ _ _) fun _ => ih _

theorem chipSelected_steps {R : State → State → Prop} (hR : Chains R) (w : Bool) (h : List Byte) : Steps R (chipSelected w h) := by
  unfold chipSelected
  split
  · exact Steps.pure hR _
  · exact Steps.stopRefuse _

theorem spiRead_steps (bsb addr n : Nat) : Steps (On .spi busKinds) (spiRead bsb addr n) := by
  have hR := On.chains .spi busKinds
  refine micro_on (by decide) (Steps.bind hR (setCs_steps _) fun _ => ?_)
  refine Steps.bind hR (chipSelected_steps hR _ _) fun _ => Steps.bind hR (chipBytes_steps _ _ _) fun _ => ?_
  exact Steps.bind hR (setCs_steps _) fun _ => Steps.pure hR _

theorem spiStores_steps (bsb addr : Nat) (bs : List Byte) : Steps (On .spi busKinds) (spiStores bsb addr bs) := by
  have hR := On.chains .spi busKinds
  refine Steps.bind hR (setCs_steps _) fun _ => ?_
  exact Steps.bind hR (chipSelected_steps hR _ _) fun _ => Steps.bind hR (chipStores_steps _ _ _) fun _ => setCs_steps _

theorem spiWrite_steps (bsb addr : Nat) (bs : List Byte) : Steps (On .spi busKinds) (spiWrite bsb addr bs) :=
  micro_on (by decide) (spiStores_steps bsb addr bs)

theorem spiReadByte_steps (bsb addr : Nat) : Steps (On .spi busKinds) (spiReadByte bsb addr) :=
  Steps.bind (On.chains _ _) (spiRead_steps _ _ _) fun _ => Steps.pure (On.chains _ _) _

theorem spiRead16_steps (bsb addr : Nat) : Steps (On .spi busKinds) (spiRead16 bsb addr) :=
  Steps.bind (On.chains _ _) (spiRead_steps _ _ _) fun _ => Steps.pure (On.chains _ _) _

theorem spiReadTorn_steps (bsb addr : Nat) : Steps (On .spi busKinds) (spiReadTorn bsb addr) := by
  have hR := On.chains .spi busKinds
  refine Steps.bind hR (micro_on (by decide) (Steps.bind hR (setCs_steps _) fun _ =>
    Steps.bind hR (chipSelected_steps hR _ _) fun _ => chipByte_steps _ _)) fun _ => ?_
  refine Steps.bind hR (micro_on (by decide) (Steps.bind hR (chipByte_steps _ _) fun _ => ?_)) fun _ => Steps.pure hR _
  exact Steps.bind hR (setCs_steps _) fun _ => Steps.pure hR _

theorem spiRead16Stable_steps (bsb addr : Nat) : Steps (On .spi busKinds) (spiRead16Stable bsb addr) := by
  have hR := On.chains .spi busKinds
  refine Steps.config_bind fun c => ?_
  induction c.spiStableReadBound with
  | zero => exact Steps.pure hR _
  | succ n ih =>
    refine Steps.bind hR (spiReadTorn_steps _ _) fun a => Steps.bind hR (spiReadTorn_steps _ _) fun b => ?_
    exact Steps.ite (fun _ => Steps.pure hR _) fun _ => ih

theorem pollByte_steps (bsb addr : Nat) (p : Byte → Bool) (n : Nat) : Steps (On .spi busKinds) (pollByte bsb addr p n) := by
  have hR := On.chains .spi busKinds
  induction n with
  | zero => exact Steps.pure hR _
  | succ n ih =>
    exact Steps.bind hR (spiReadByte_steps _ _) fun b => Steps.ite (fun _ => Steps.pure hR _) fun _ => ih

theorem sockCommand_steps (v : Byte) : Steps (On .spi busKinds) (sockCommand v) :=
  Steps.config_bind fun _ => Steps.bind (On.chains _ _) (spiWrite_steps _ _ _) fun _ => pollByte_steps _ _ _ _

theorem awaitSocket_steps (v : Byte) : Steps (On .spi busKinds) (awaitSocket v) :=
  Steps.config_bind fun _ => pollByte_steps _ _ _ _

/-- What the recovery of the socket changes (R262). -/
def recoverKinds : List Kind := busKinds ++ [.sockFault]

theorem recover_steps : Steps (On .spi recoverKinds) recover := by
  have hR := On.chains .spi recoverKinds
  refine Steps.bind hR ((sockCommand_steps _).onWiden (by decide)) fun _ => ?_
  refine Steps.bind hR ((awaitSocket_steps _).onWiden (by decide)) fun _ => ?_
  refine Steps.bind hR ((sockCommand_steps _).onWiden (by decide)) fun _ => ?_
  refine Steps.bind hR ((awaitSocket_steps _).onWiden (by decide)) fun ok => ?_
  refine Steps.ite (fun _ => Steps.pure hR _) fun _ => Steps.modifies fun s => ?_
  exact On.one (k := .sockFault) (by decide) (.inl rfl) (.sockFault s)

/-! ## SPI: probe and initialisation -/

theorem spiProbeSteps_steps : Steps (On .spi busKinds) spiProbeSteps := by
  have hR := On.chains .spi busKinds
  have hscr : ∀ p, Steps (On .spi busKinds) (spiScratch p) := fun p =>
    Steps.bind hR (spiWrite_steps _ _ _) fun _ => Steps.bind hR (spiRead16_steps _ _) fun _ => Steps.pure hR _
  refine Steps.bind hR (micro_on (by decide) (setCs_steps _)) fun _ => ?_
  refine Steps.bind hR ?_ fun r => Steps.ite (fun _ => ?_) fun _ => Steps.pure hR _
  · exact Steps.config_bind fun _ => Steps.bind hR (spiWrite_steps _ _ _) fun _ => pollByte_steps _ _ _ _
  refine Steps.bind hR ?_ fun t => Steps.ite (fun _ => ?_) fun _ => Steps.pure hR _
  · refine Steps.config_bind fun c => Steps.bind hR (hscr _) fun a => ?_
    exact Steps.ite (fun _ => hscr _) fun _ => Steps.pure hR _
  · exact Steps.config_bind fun _ => Steps.bind hR (spiReadByte_steps _ _) fun _ => Steps.pure hR _

/-- What the SPI probe changes (R240 to R243). -/
def spiProbeKinds : List Kind := busKinds ++ [.initState]

theorem spiProbe_steps : Steps (On .spi spiProbeKinds) spiProbe := by
  have hR := On.chains .spi spiProbeKinds
  refine Steps.bind hR (spiProbeSteps_steps.onWiden (by decide)) fun ok => Steps.ite (fun _ => ?_) fun _ => ?_
  · exact Steps.modifies fun s => On.one (k := .initState) (by decide) (.inr rfl) (.initState s _)
  · exact Steps.modifies fun s => On.one (k := .initState) (by decide) (.inr rfl) (.initState s .noHardware)

/-- What the configuration and opening of the socket change (R244 to R246). -/
def spiBringUpKinds : List Kind := busKinds ++ [.station, .spiSession]

theorem spiBringUp_steps (m : MacAddr) : Steps (On .spi spiBringUpKinds) (spiBringUp m) := by
  have hR := On.chains .spi spiBringUpKinds
  have hw : ∀ a b c, Steps (On .spi spiBringUpKinds) (spiWrite a b c) := fun a b c =>
    (spiWrite_steps a b c).onWiden (by decide)
  refine Steps.bind hR ?_ fun _ => Steps.bind hR ?_ fun ok => Steps.ite (fun _ => ?_) fun _ => Steps.pure hR _
  · refine Steps.config_bind fun c => Steps.bind hR (Steps.modifies fun s => ?_) fun _ => ?_
    · exact On.one (k := .station) (by decide) (.inr rfl) (.station s m)
    refine Steps.bind hR (hw _ _ _) fun _ => Steps.bind hR (hw _ _ _) fun _ => Steps.bind hR (hw _ _ _) fun _ => ?_
    refine Steps.bind hR (hw _ _ _) fun _ => Steps.bind hR (hw _ _ _) fun _ => Steps.bind hR (hw _ _ _) fun _ => ?_
    exact hw _ _ _
  · exact Steps.bind hR ((sockCommand_steps _).onWiden (by decide)) fun _ => (awaitSocket_steps _).onWiden (by decide)
  · refine Steps.bind hR ?_ fun _ => Steps.pure hR _
    refine Steps.bind hR (micro_on (by decide) (Steps.modifies fun s => ?_)) fun _ => ?_
    · exact On.one (k := .spiFlags) (by decide) (.inl rfl) (.spiFlags s false s.spi.txDone)
    refine Steps.bind hR (micro_on (by decide) (Steps.modifies fun s => ?_)) fun _ => Steps.modifies fun s => ?_
    · exact On.one (k := .spiFlags) (by decide) (.inl rfl) (.spiFlags s s.spi.rxPending false)
    · exact On.one (k := .spiSession) (by decide) (.inl rfl) (.spiSession s)

theorem spiMask_steps : Steps (On .spi busKinds) spiMask := by
  refine micro_on (by decide) (Steps.bind (On.chains .spi busKinds) (spiStores_steps _ _ _) fun _ => Steps.modifies fun s => ?_)
  exact On.one (k := .latch) (by decide) (.inl rfl) (.latch s false)

theorem spiShutDown_steps : Steps (On .spi busKinds) spiShutDown := by
  have hR := On.chains .spi busKinds
  refine Steps.bind hR spiMask_steps fun _ => Steps.bind hR (sockCommand_steps _) fun _ => ?_
  exact Steps.bind hR (awaitSocket_steps _) fun _ => spiWrite_steps _ _ _

/-! ## SPI: data plane -/

/-- What PROC_INPUT changes on the SPI build (R250 to R258). -/
def spiInputKinds : List Kind := recoverKinds ++ [.ibuf, .counter]

theorem spiPop_steps : Steps (On .spi spiInputKinds) spiPop := by
  have hR := On.chains .spi spiInputKinds
  have hrd : ∀ a n, Steps (On .spi spiInputKinds) (ibufRead a n) := fun a n =>
    Steps.get_bind' fun _ => Steps.orFault hR _ _
  refine Steps.get_bind' fun u => Steps.bind hR (hrd _ _) fun p => Steps.bind hR (hrd _ _) fun f => ?_
  refine Steps.bind hR (Steps.modifies fun s => ?_) fun _ => ?_
  · exact On.one (k := .ibuf) (by decide) (.inl rfl) (.ibufMoved s _ s.spi.ibufSize)
  refine Steps.bind hR (Steps.drawBy fun s => ?_) fun ok => Steps.ite (fun _ => ?_) fun _ => ?_
  · exact On.one (k := .draws) (by decide) (.inr rfl) (.draws s _)
  · refine Steps.bind hR (Steps.drawBy fun s => ?_) fun _ => Steps.pure hR _
    exact On.one (k := .draws) (by decide) (.inr rfl) (.draws s _)
  · refine Steps.bind hR (Steps.modifies fun s => ?_) fun _ => Steps.pure hR _
    exact On.one (k := .counter) (by decide) (.inr rfl) (.rxNomem s)

theorem recoverWide : Steps (On .spi spiInputKinds) recover := recover_steps.onWiden (by decide)

theorem spiRefill_steps : Steps (On .spi spiInputKinds) spiRefill := by
  have hR := On.chains .spi spiInputKinds
  refine Steps.config_bind fun c => Steps.bind hR ((spiRead16Stable_steps _ _).onWiden (by decide)) fun r => ?_
  split
  · exact Steps.pure hR _
  · exact Steps.pure hR _
  refine Steps.ite (fun _ => ?_) fun _ => ?_
  · exact Steps.bind hR (Steps.modifies fun s => hR.refl s) fun _ => Steps.bind hR recoverWide fun _ => Steps.pure hR _
  · refine Steps.bind hR ((spiRead16_steps _ _).onWiden (by decide)) fun rd => ?_
    refine Steps.bind hR ((spiRead_steps _ _ _).onWiden (by decide)) fun bs => ?_
    refine Steps.bind hR (Steps.modifies fun s => ?_) fun _ => Steps.pure hR _
    exact On.one (k := .ibuf) (by decide) (.inl rfl) (.ibufFilled s bs _)

theorem spiScan_steps (r rd : Nat) : Steps (On .spi spiInputKinds) (spiScan r rd) := by
  have hR := On.chains .spi spiInputKinds
  refine Steps.config_bind fun c => Steps.bind hR (Steps.get_bind' fun _ => Steps.orFault hR _ _) fun b => ?_
  refine Steps.bind hR (Steps.modifies fun s => ?_) fun _ => ?_
  · exact On.one (k := .ibuf) (by decide) (.inl rfl) (.ibufMoved s s.spi.ibufStart _)
  refine Steps.ite (fun _ => ?_) fun _ => ?_
  · exact Steps.bind hR (Steps.modifies fun s => hR.refl s) fun _ => recoverWide
  refine Steps.ite (fun _ => ?_) fun _ => Steps.pure hR _
  refine Steps.bind hR ((spiWrite_steps _ _ _).onWiden (by decide)) fun _ => ?_
  exact Steps.bind hR ((sockCommand_steps _).onWiden (by decide)) fun _ => Steps.pure hR _

theorem spiFetch_steps : Steps (On .spi spiInputKinds) spiFetch := by
  have hR := On.chains .spi spiInputKinds
  refine Steps.bind hR ((spiWrite_steps _ _ _).onWiden (by decide)) fun _ => Steps.bind hR spiRefill_steps fun r => ?_
  split
  · exact Steps.pure hR _
  · refine Steps.bind hR (spiScan_steps _ _) fun _ => Steps.get_bind' fun u => ?_
    exact Steps.ite (fun _ => spiPop_steps) fun _ => Steps.pure hR _

theorem spiProcInput_steps : Steps (On .spi spiInputKinds) spiProcInput := by
  have hR := On.chains .spi spiInputKinds
  refine Steps.get_bind' fun u => Steps.ite (fun _ => spiPop_steps) fun _ => ?_
  refine Steps.bind hR (Steps.modifies fun s => ?_) fun _ => Steps.ite (fun _ => ?_) fun _ => spiFetch_steps
  · exact On.one (k := .ibuf) (by decide) (.inl rfl) (.ibufMoved s 0 0)
  refine Steps.bind hR (micro_on (by decide) ?_) fun p => Steps.ite (fun _ => spiFetch_steps) fun _ => Steps.pure hR _
  intro s a t h
  have h2 : (pure s.spi.rxPending : M Bool) { s with spi := { s.spi with rxPending := false } } = .ok (a, t) := h
  simp at h2
  rw [← h2.2]
  exact On.one (k := .spiFlags) (by decide) (.inl rfl) (.spiFlags s false s.spi.txDone)

/-- What OUTPUT changes on the SPI build (R259). -/
def spiOutputKinds : List Kind := busKinds ++ [.counter]

theorem clearSpiTxDone_steps : Steps (On .spi spiOutputKinds) clearSpiTxDone := by
  have hR := On.chains .spi spiOutputKinds
  refine Steps.bind hR (micro_on (by decide) ?_) fun _ => Steps.pure hR _
  intro s a t h
  have h2 : (pure s.spi.txDone : M Bool) { s with spi := { s.spi with txDone := false } } = .ok (a, t) := h
  simp at h2
  rw [← h2.2]
  exact On.one (k := .spiFlags) (by decide) (.inl rfl) (.spiFlags s s.spi.rxPending false)

theorem spiAwaitRoom_steps (len n : Nat) : Steps (On .spi spiOutputKinds) (spiAwaitRoom len n) := by
  have hR := On.chains .spi spiOutputKinds
  induction n with
  | zero => exact Steps.pure hR _
  | succ n ih =>
    refine Steps.config_bind fun c => Steps.bind hR ((spiRead16Stable_steps _ _).onWiden (by decide)) fun v => ?_
    refine Steps.ite (fun _ => Steps.pure hR _) fun _ => ?_
    exact Steps.bind hR (Steps.onlyIf hR fun _ => clearSpiTxDone_steps) fun _ => ih

theorem spiOutput_steps (bytes : List Byte) : Steps (On .spi spiOutputKinds) (spiOutput bytes) := by
  have hR := On.chains .spi spiOutputKinds
  refine Steps.config_bind fun c => Steps.bind hR (Steps.onlyIf hR fun _ => ?_) fun _ => ?_
  · exact Steps.bind hR clearSpiTxDone_steps fun _ => (spiWrite_steps _ _ _).onWiden (by decide)
  refine Steps.bind hR (spiAwaitRoom_steps _ _) fun room => Steps.ite (fun _ => ?_) fun _ => ?_
  · refine Steps.bind hR ?_ fun _ => Steps.pure hR _
    refine Steps.bind hR ((spiRead16_steps _ _).onWiden (by decide)) fun wr => ?_
    refine Steps.bind hR ((spiWrite_steps _ _ _).onWiden (by decide)) fun _ => ?_
    refine Steps.bind hR ((spiWrite_steps _ _ _).onWiden (by decide)) fun _ => ?_
    exact Steps.bind hR ((sockCommand_steps _).onWiden (by decide)) fun _ => Steps.pure hR _
  · refine Steps.bind hR (Steps.modifies fun s => ?_) fun _ => Steps.pure hR _
    exact On.one (k := .counter) (by decide) (.inr rfl) (.txAgain s)

end Sys2Proof.Machine
end

