-- ==== Sys2Proof/Laws/DoesExec.lean ====
section
/-! SUPPORT. Which kinds of change each instruction is made of, under every schedule (continued from DoesHost), and from that: a relation
that every change and every answer keeps is kept by every step. -/

namespace Sys2Proof.Machine

variable {α β : Type} {R : State → State → Prop}

/-! ## The link monitor -/

/-- What Evaluate changes (R300, R301). -/
def evaluateKinds : List Kind := agentKinds ++ [.reported, .notify]

theorem notify_steps (up : Bool) : Steps (Chain evaluateKinds) (notify up) :=
  micro_chain (by decide) (Steps.modifies fun s => Chain.one (k := .notify) (by decide) rfl (.notify s up))

theorem evaluate_steps (up : Bool) : Steps (Chain evaluateKinds) (evaluate up) := by
  have hR := Chain.chains evaluateKinds
  refine Steps.get_bind' fun u => Steps.ite (fun _ => Steps.pure hR _) fun _ => Steps.ite (fun _ => ?_) fun _ => Steps.pure hR _
  refine Steps.bind hR (Steps.modifies fun s => ?_) fun _ => notify_steps up
  exact Chain.one (k := .reported) (by decide) rfl (.reported s up)

/-- What POLL changes on the DMA build (R302, R311 (d)). -/
def dmaPollKinds : List Kind := mdioKinds ++ [.monitor, .linkInfo, .reported, .notify]

/-- What POLL changes on the SPI build (R305, R311 (d)). -/
def spiPollKinds : List Kind := busKinds ++ [.linkInfo, .reported, .notify]

theorem writeLinkInfo_steps {b : Backend} {l : List Kind} (h : Kind.linkInfo ∈ l) (r : LinkRecord) :
    Steps (On b l) (writeLinkInfo r) :=
  Steps.modifies fun s => On.one h (.inr rfl) (.linkInfo s r)

theorem setLmState_steps (x : LmState) : Steps (On .dma dmaPollKinds) (setLmState x) :=
  Steps.modifies fun s => On.one (k := .monitor) (by decide) (.inl rfl) (.monitor s x s.dma.lmLink)

theorem dmaPoll_steps : Steps (On .dma dmaPollKinds) dmaPoll := by
  have hR := On.chains .dma dmaPollKinds
  have hi : ∀ f, Steps (On .dma dmaPollKinds) (mdioIssue f) := fun f => (mdioIssue_steps f).onWiden (by decide)
  have hc : Steps (On .dma dmaPollKinds) mdioCollect := mdioCollect_steps.onWiden (by decide)
  refine Steps.get_bind' fun u => ?_
  split
  · refine Steps.config_bind fun c => Steps.bind hR (hi _) fun b => ?_
    exact Steps.ite (fun _ => setLmState_steps _) fun _ => Steps.pure hR _
  · refine Steps.config_bind fun c => Steps.bind hR hc fun r => ?_
    cases r with
    | none => exact Steps.pure hR _
    | some v =>
      refine Steps.bind hR (Steps.modifies fun s => ?_) fun _ => Steps.bind hR (hi _) fun b => ?_
      · exact On.one (k := .monitor) (by decide) (.inl rfl) (.monitor s s.dma.lmState _)
      · exact Steps.ite (fun _ => setLmState_steps _) fun _ => Steps.pure hR _
  · refine Steps.bind hR hc fun r => ?_
    cases r with
    | none => exact Steps.pure hR _
    | some v =>
      refine Steps.get_bind' fun w => ?_
      refine Steps.bind hR (Steps.onlyIf hR fun _ => writeLinkInfo_steps (by decide) _) fun _ => ?_
      exact Steps.bind hR ((evaluate_steps _).on (by decide)) fun _ => setLmState_steps _

theorem spiPoll_steps : Steps (On .spi spiPollKinds) spiPoll := by
  have hR := On.chains .spi spiPollKinds
  refine Steps.bind hR ((spiReadByte_steps _ _).onWiden (by decide)) fun v => ?_
  refine Steps.bind hR (Steps.onlyIf hR fun _ => writeLinkInfo_steps (by decide) _) fun _ => ?_
  exact (evaluate_steps _).on (by decide)

/-- What FORCE_LINK_UP changes (R308). -/
def forceKinds : List Kind := evaluateKinds ++ [.manual]

theorem forceLink_steps : Steps (Chain forceKinds) forceLink := by
  have hR := Chain.chains forceKinds
  refine Steps.bind hR (Steps.modifies fun s => ?_) fun _ => (evaluate_steps _).widen (by decide)
  exact Chain.one (k := .manual) (by decide) rfl (.manual s)

/-! ## The Driver Contract -/

/-- The state gate changes nothing of itself (R162). -/
theorem gated_steps (hR : Chains R) {m : M Result} (hm : Steps R m) : Steps R (gated m) := by
  refine Steps.get_bind' fun u => Steps.ite (fun _ => hm) fun _ => ?_
  exact Steps.bind hR (Steps.modifies fun s => hR.refl s) fun _ => Steps.pure hR _

theorem thenOk_steps (hR : Chains R) {m : M Unit} (hm : Steps R m) : Steps R (thenOk m) :=
  Steps.bind hR hm fun _ => Steps.pure hR _

/-- What the probe changes (R190, R240 to R243). -/
def probeKinds : List Kind := dmaProbeKinds ++ spiProbeKinds

theorem probe_steps : Steps (Chain probeKinds) probe :=
  Steps.backends (dmaProbe_steps.onWiden (by decide)) (spiProbe_steps.onWiden (by decide))

theorem hasHardware_steps : Steps (Chain probeKinds) hasHardware := by
  have hR := Chain.chains probeKinds
  refine Steps.get_bind' fun u => Steps.bind hR (Steps.onlyIf hR fun _ => probe_steps) fun _ => ?_
  exact Steps.get_bind' fun _ => Steps.pure hR _

/-- What INIT changes (R153). -/
def initKinds : List Kind := probeKinds ++ bringUpKinds ++ spiBringUpKinds ++ [.sessionStart]

theorem initialiseProbed_steps (m : MacAddr) : Steps (Chain initKinds) (initialiseProbed m) := by
  have hR := Chain.chains initKinds
  have hd := On.chains .dma initKinds
  have hs := On.chains .spi initKinds
  refine Steps.get_bind' fun u => Steps.ite (fun _ => Steps.pure hR _) fun _ => Steps.bind hR ?_ fun ok => ?_
  · refine Steps.backends ?_ ?_
    · have hb : Steps (On .dma initKinds) (dmaBringUp m) := (dmaBringUp_steps m).onWiden (by decide)
      refine Steps.get_bind' fun w => Steps.ite (fun _ => ?_) fun _ => Steps.bind hd hb fun _ => Steps.pure hd _
      refine Steps.bind hd ((tune_steps _).onWiden (by decide)) fun ok => Steps.ite (fun _ => ?_) fun _ => Steps.pure hd _
      refine Steps.bind hd (Steps.modifies fun s => ?_) fun _ => Steps.bind hd hb fun _ => Steps.pure hd _
      exact On.one (k := .initState) (by decide) (.inr rfl) (.initState s _)
    · have hb : Steps (On .spi initKinds) (spiBringUp m) := (spiBringUp_steps m).onWiden (by decide)
      refine Steps.get_bind' fun w => Steps.ite (fun _ => ?_) fun _ => hb
      refine Steps.bind hs (spiProbe_steps.onWiden (by decide)) fun _ => Steps.get_bind' fun x => ?_
      exact Steps.ite (fun _ => Steps.pure hs _) fun _ => hb
  · refine Steps.ite (fun _ => ?_) fun _ => Steps.pure hR _
    refine Steps.bind hR (Steps.modifies fun s => ?_) fun _ => Steps.pure hR _
    exact Chain.one (k := .sessionStart) (by decide) rfl (.sessionStart s)

theorem initialise_steps (m : MacAddr) : Steps (Chain initKinds) (initialise m) := by
  have hR := Chain.chains initKinds
  refine Steps.get_bind' fun u => Steps.ite (fun _ => Steps.pure hR _) fun _ => ?_
  refine Steps.bind hR (Steps.onlyIf hR fun _ => probe_steps.widen (by decide)) fun _ => initialiseProbed_steps m

/-- What DEINIT changes (R156). -/
def deinitKinds : List Kind :=
  dmaShutDownKinds ++ busKinds ++ [.reported, .notify, .initState, .sessionCleared, .dmaCleared, .spiCleared]

theorem reportDown_steps : Steps (Chain evaluateKinds) reportDown := by
  have hR := Chain.chains evaluateKinds
  refine Steps.get_bind' fun u => Steps.ite (fun _ => ?_) fun _ => Steps.pure hR _
  refine Steps.bind hR (Steps.modifies fun s => ?_) fun _ => notify_steps false
  exact Chain.one (k := .reported) (by decide) rfl (.reported s false)

theorem endSession_steps : Steps (Chain deinitKinds) endSession := by
  have hR := Chain.chains deinitKinds
  refine Steps.bind hR (Steps.backends (dmaShutDown_steps.onWiden (by decide)) (spiShutDown_steps.onWiden (by decide)))
    fun _ => Steps.bind hR (reportDown_steps.widen (by decide)) fun _ => Steps.modifies fun s => ?_
  exact Chain.one (k := .initState) (by decide) rfl (.initState s _)

theorem deinitialise_steps : Steps (Chain deinitKinds) deinitialise := by
  have hR := Chain.chains deinitKinds
  refine Steps.get_bind' fun u => Steps.bind hR (Steps.onlyIf hR fun _ => endSession_steps) fun _ => ?_
  refine Steps.bind hR (Steps.modifies fun s => ?_) fun _ => ?_
  · unfold State.stepBack
    split
    · exact Chain.one (k := .initState) (by decide) rfl (.initState s _)
    · exact hR.refl s
  refine Steps.bind hR (Steps.modifies fun s => ?_) fun _ => Steps.backends (Steps.modifies fun s => ?_) (Steps.modifies fun s => ?_)
  · exact Chain.one (k := .sessionCleared) (by decide) rfl (.sessionCleared s)
  · exact On.one (k := .dmaCleared) (by decide) (.inl rfl) (.dmaCleared s)
  · exact On.one (k := .spiCleared) (by decide) (.inl rfl) (.spiCleared s)

/-- What SET_MAC changes (R161). -/
def setMacKinds : List Kind := .station :: (dmaStationKinds ++ busKinds)

theorem setMac_steps (m : MacAddr) : Steps (Chain setMacKinds) (setMac m) := by
  have hR := Chain.chains setMacKinds
  refine Steps.bind hR (Steps.modifies fun s => ?_) fun _ => Steps.get_bind' fun u => Steps.ite (fun _ => ?_) fun _ => Steps.pure hR _
  · exact Chain.one (k := .station) (by decide) rfl (.station s m)
  · exact Steps.backends ((dmaWriteStation_steps m).onWiden (by decide)) ((spiWrite_steps _ _ _).onWiden (by decide))

/-- What POLL changes in either build. -/
def pollKinds : List Kind := dmaPollKinds ++ spiPollKinds

theorem pollOp_steps : Steps (Chain pollKinds) pollOp := by
  have hR := Chain.chains pollKinds
  refine gated_steps hR (thenOk_steps hR (Steps.backends ?_ ?_))
  · exact dmaPoll_steps.onWiden (by decide)
  · exact spiPoll_steps.onWiden (by decide)

/-! ## Data plane and pipeline -/

/-- What PROC_INPUT changes in either build. -/
def inputKinds : List Kind := dmaInputKinds ++ spiInputKinds

theorem procInput_steps (c : Nat) : Steps (Chain inputKinds) (procInput c) := by
  have hR := Chain.chains inputKinds
  refine Steps.get_bind' fun u => Steps.ite (fun _ => ?_) fun _ => Steps.ite (fun _ => Steps.pure hR _) fun _ => ?_
  · exact Steps.bind hR (Steps.modifies fun s => hR.refl s) fun _ => Steps.pure hR _
  · exact Steps.backends (dmaProcInput_steps.onWiden (by decide)) (spiProcInput_steps.onWiden (by decide))

/-- What OUTPUT changes in either build. -/
def outputKinds : List Kind := dmaOutputKinds ++ spiOutputKinds

theorem outputOp_steps (bytes : List Byte) : Steps (Chain outputKinds) (outputOp bytes) := by
  have hR := Chain.chains outputKinds
  refine Steps.get_bind' fun u => Steps.ite (fun _ => ?_) fun _ => ?_
  · exact Steps.bind hR (Steps.modifies fun s => hR.refl s) fun _ => Steps.pure hR _
  · exact Steps.backends ((dmaOutput_steps bytes).onWiden (by decide)) ((spiOutput_steps bytes).onWiden (by decide))

theorem filterOp_steps (m : MacAddr) (allow : Bool) : Steps (Chain filterKinds) (filterOp m allow) := by
  have hR := Chain.chains filterKinds
  refine Steps.config_bind fun c => Steps.ite (fun _ => ?_) fun _ => gated_steps hR ?_
  · exact Steps.bind hR (Steps.modifies fun s => hR.refl s) fun _ => Steps.pure hR _
  · refine Steps.bind hR (Steps.backends (dmaFilter_steps m allow) ?_) fun _ => Steps.pure hR _
    exact Steps.pure (On.chains _ _) _

/-- What PIPE_PROC_INPUT changes (R281, R282). -/
def pipeInputKinds : List Kind := inputKinds ++ [.stack]

theorem inputLoop_steps (fuel c k : Nat) : Steps (Chain pipeInputKinds) (inputLoop fuel c k) := by
  have hR := Chain.chains pipeInputKinds
  induction fuel generalizing c k with
  | zero => exact Steps.pure hR _
  | succ fuel ih =>
    refine Steps.bind hR ((procInput_steps c).widen (by decide)) fun r => ?_
    cases r with
    | invalid => exact Steps.ite (fun _ => Steps.pure hR _) fun _ => Steps.pure hR _
    | nothing => exact Steps.pure hR _
    | frame ts f =>
      refine Steps.bind hR ?_ fun k1 => ih _ _
      refine Steps.bind hR (Steps.drawBy fun s => ?_) fun a => Steps.ite (fun _ => ?_) fun _ => Steps.pure hR _
      · exact Chain.one (k := .draws) (by decide) rfl (.draws s _)
      · refine Steps.bind hR (Steps.modifies fun s => ?_) fun _ => Steps.pure hR _
        exact Chain.one (k := .stack) (by decide) rfl (.stack s f ts)

/-! ## Instructions -/

/-- The kinds of change each instruction is made of, its answer in RES_BUF aside. -/
def instrKinds : Instr → List Kind
  | .isUnknown => []
  | .hasHardware => probeKinds
  | .getSystemMac => []
  | .getMac => []
  | .setMac _ => setMacKinds
  | .init _ => initKinds
  | .deinit => deinitKinds
  | .getCapabilities => [.capsRead]
  | .procInput _ => inputKinds
  | .poll => pollKinds
  | .output _ => outputKinds
  | .outputFrame _ => outputKinds
  | .setIncomingMacAllowed _ _ => filterKinds
  | .forceLinkUp => forceKinds
  | .setLinkSettings _ _ _ _ => [.linkSettings]
  | .getLinkInfo => []
  | .getStats => []
  | .pipeInit _ => initKinds
  | .pipeProcInput => pipeInputKinds
  | .pipePollLink => pollKinds
  | .pipeTxChain _ => outputKinds
  | .pipeTxRaw _ => outputKinds
  | .pipeAllowMac _ _ => filterKinds
  | .wireRx _ _ => agentKinds
  | .dmaTx => agentKinds
  | .isr => agentKinds
  | .mdioDone => agentKinds
  | .link _ => agentKinds
  | .chipSendDone => agentKinds
  | .chipResetDone => agentKinds
  | .ringFault _ _ => agentKinds

/-- What a command's run is: its changes, then its answer. -/
theorem command_chain {l : List Kind} {m : M Result} (hm : Steps (Chain l) m) {s t : State} (h : runCommand m s = .next t) :
    ∃ u, Chain l s u ∧ ∃ r, t = u.respond r := by
  obtain ⟨r, u, h1, rfl⟩ := runCommand_next_iff.mp h
  exact ⟨u, hm _ _ _ h1, r, rfl⟩

theorem event_chain {a : AgentStep} {s t : State} (h : runEvent a s = .next t) : Chain agentKinds s t :=
  Steps.runSilent (micro_chain (List.Subset.refl _) (agentStep_steps a)) h

/-- Everything an instruction that goes on can have done: changes of its kinds, and for a command the answer. -/
theorem exec_chain {i : Instr} {s t : State} (h : exec i s = .next t) :
    ∃ u, Chain (instrKinds i) s u ∧ (t = u ∨ ∃ r, t = u.respond r) := by
  have hC := Chain.chains
  have cmd : ∀ {l : List Kind} {m : M Result}, Steps (Chain l) m → runCommand m s = .next t →
      ∃ u, Chain l s u ∧ (t = u ∨ ∃ r, t = u.respond r) := fun hm h =>
    let ⟨u, hc, hr⟩ := command_chain hm h
    ⟨u, hc, .inr hr⟩
  have ev : ∀ {a : AgentStep}, runEvent a s = .next t → ∃ u, Chain agentKinds s u ∧ (t = u ∨ ∃ r, t = u.respond r) :=
    fun h => ⟨t, event_chain h, .inl rfl⟩
  cases i with
  | isUnknown => exact cmd (Steps.get_bind' fun _ => Steps.pure (hC _) _) h
  | hasHardware => exact cmd (Steps.bind (hC _) hasHardware_steps fun _ => Steps.pure (hC _) _) h
  | getSystemMac => exact cmd (Steps.config_bind fun _ => Steps.pure (hC _) _) h
  | getMac => exact cmd (Steps.get_bind' fun _ => Steps.pure (hC _) _) h
  | setMac m => exact cmd (thenOk_steps (hC _) (setMac_steps m)) h
  | init m => exact cmd (Steps.bind (hC _) (initialise_steps m) fun _ => Steps.pure (hC _) _) h
  | deinit => exact cmd (thenOk_steps (hC _) deinitialise_steps) h
  | getCapabilities =>
    refine cmd (gated_steps (hC [.capsRead]) ?_) h
    intro s a t h
    unfold capabilities at h
    rw [get_bind_apply, branch_apply] at h
    split at h
    · rw [raise_bind_apply] at h
      exact Steps.pure (hC [.capsRead]) _ _ _ _ h
    · rw [set_bind_apply] at h
      simp at h
      rw [← h.2]
      exact Chain.one (k := .capsRead) (by decide) rfl (.capsRead s)
  | procInput c => exact cmd (Steps.bind (hC _) (procInput_steps _) fun _ => Steps.pure (hC _) _) h
  | poll => exact cmd pollOp_steps h
  | output bytes => exact cmd (Steps.bind (hC _) (outputOp_steps _) fun _ => Steps.pure (hC _) _) h
  | outputFrame bytes => exact cmd (Steps.bind (hC _) (outputOp_steps _) fun _ => Steps.pure (hC _) _) h
  | setIncomingMacAllowed m a => exact cmd (filterOp_steps m a) h
  | forceLinkUp => exact cmd (gated_steps (hC _) (thenOk_steps (hC _) forceLink_steps)) h
  | setLinkSettings sp d n x =>
    refine cmd (gated_steps (hC [.linkSettings]) (thenOk_steps (hC _) (Steps.modifies fun s => ?_))) h
    exact Chain.one (k := .linkSettings) (by decide) rfl (.linkSettings s _)
  | getLinkInfo => exact cmd (Steps.get_bind' fun _ => Steps.pure (hC _) _) h
  | getStats => exact cmd (Steps.get_bind' fun _ => Steps.pure (hC _) _) h
  | pipeInit m =>
    refine cmd (Steps.bind (hC initKinds) (Steps.bind (hC _) (hasHardware_steps.widen (by decide)) fun ok => ?_)
      fun _ => Steps.pure (hC _) _) h
    exact Steps.ite (fun _ => initialise_steps m) fun _ => Steps.pure (hC _) _
  | pipeProcInput =>
    refine cmd (Steps.config_bind fun c => Steps.bind (hC _) (inputLoop_steps _ _ _) fun r => ?_) h
    cases r <;> exact Steps.pure (hC _) _
  | pipePollLink => exact cmd pollOp_steps h
  | pipeTxChain bytes =>
    refine cmd (Steps.bind (hC _) (Steps.config_bind fun c => Steps.ite (fun _ => ?_) fun _ => outputOp_steps _)
      fun _ => Steps.pure (hC _) _) h
    exact Steps.bind (hC _) (Steps.modifies fun s => (hC _).refl s) fun _ => Steps.pure (hC _) _
  | pipeTxRaw bytes =>
    refine cmd (Steps.bind (hC _) (Steps.config_bind fun c => Steps.ite (fun _ => ?_) fun _ => Steps.pure (hC _) _)
      fun _ => Steps.pure (hC _) _) h
    exact Steps.bind (hC _) (outputOp_steps _) fun _ => Steps.pure (hC _) _
  | pipeAllowMac m a => exact cmd (filterOp_steps m a) h
  | wireRx bytes e => exact ev h
  | dmaTx => exact ev h
  | isr => exact ev h
  | mdioDone => exact ev h
  | link f => exact ev h
  | chipSendDone => exact ev h
  | chipResetDone => exact ev h
  | ringFault a v => exact ev h

/-! ## Steps -/

/-- What a step does around its instruction: it takes an item, and may answer REFUSED (R130). -/
theorem step_cases {s t : State} (h : step s = .next t) :
    (s.input = [] ∧ Chain agentKinds s t)
    ∨ (∃ it u, fetch s = some (it, u) ∧
        ((∃ i, it.decode = .ok i ∧ exec i u = .next t)
          ∨ (∃ e, it.decode = .error e ∧ t = (u.raise .refused).respond (.plain .refused)))) := by
  unfold step at h
  cases hf : fetch s with
  | none =>
    simp only [hf] at h
    refine .inl ⟨?_, Steps.runSilent boundary_steps h⟩
    unfold fetch at hf
    cases hi : s.input with
    | nil => rfl
    | cons it rest => cases it <;> simp [hi] at hf
  | some p =>
    obtain ⟨it, u⟩ := p
    simp only [hf] at h
    refine .inr ⟨it, u, rfl, ?_⟩
    cases hd : it.decode with
    | ok i =>
      simp only [hd] at h
      exact .inl ⟨i, rfl, h⟩
    | error e =>
      simp only [hd] at h
      refine .inr ⟨e, rfl, ?_⟩
      cases it with
      | command bs => simpa [rejectItem, eq_comm] using h
      | event bs => simp [rejectItem] at h

/-- The two ways a step takes an item. -/
theorem fetch_cases {s u : State} {it : Item} (h : fetch s = some (it, u)) :
    ∃ rest, s.input = it :: rest ∧
      ((∃ bs, it = .command bs ∧ u = { s with input := rest, cmdBuf := bs })
        ∨ (∃ bs, it = .event bs ∧ u = { s with input := rest })) := by
  unfold fetch at h
  cases hi : s.input with
  | nil => simp [hi] at h
  | cons x rest =>
    cases x with
    | command bs =>
      simp [hi] at h
      exact ⟨rest, by rw [← h.1], .inl ⟨bs, h.1.symm, h.2.symm⟩⟩
    | event bs =>
      simp [hi] at h
      exact ⟨rest, by rw [← h.1], .inr ⟨bs, h.1.symm, h.2.symm⟩⟩

/-- A relation kept by every instruction, by taking an item and by an answer is kept by every step. -/
theorem step_lift (hR : Chains R) (hi : ∀ s rest bs, R s { s with input := rest, cmdBuf := bs })
    (hr : ∀ s r, R s (State.respond s r)) (ha : ∀ s t, Chain agentKinds s t → R s t)
    (he : ∀ i s t, exec i s = .next t → R s t) {s t : State} (h : step s = .next t) : R s t := by
  rcases step_cases h with ⟨_, hc⟩ | ⟨it, u, hf, hx⟩
  · exact ha _ _ hc
  · have hu : R s u := by
      obtain ⟨rest, _, ⟨bs, _, rfl⟩ | ⟨bs, _, rfl⟩⟩ := fetch_cases hf
      · exact hi s rest bs
      · exact hi s rest s.cmdBuf
    refine hR.trans _ _ _ hu ?_
    rcases hx with ⟨i, _, he'⟩ | ⟨e, _, rfl⟩
    · exact he _ _ _ he'
    · exact hr u (.plain .refused)

/-- A relation that every change, taking an item and an answer keep is kept by every step. -/
theorem step_lift_atoms (hR : Chains R) (hi : ∀ s rest bs, R s { s with input := rest, cmdBuf := bs })
    (hr : ∀ s r, R s (State.respond s r))
    (ha : ∀ k s t, (∀ b, k.backend = some b → s.cfg.backend = b) → Atom k s t → R s t) {s t : State}
    (h : step s = .next t) : R s t := by
  have hc : ∀ {l : List Kind} {s t : State}, Chain l s t → R s t := fun h =>
    Chain.lift hR (fun k s t _ hb h => ha k s t hb h) h
  refine step_lift hR hi hr (fun _ _ h => hc h) (fun i s t he => ?_) h
  obtain ⟨u, hu, ht⟩ := exec_chain he
  rcases ht with rfl | ⟨r, rfl⟩
  · exact hc hu
  · exact hR.trans _ _ _ (hc hu) (hr u r)

end Sys2Proof.Machine
end

