-- ==== Sys2Proof/Laws/Calm.lean ====
section
/-! SUPPORT. Runs in which nothing happens between micro-steps: what each shared operation then does, exactly. A state is calm under the
quiet schedule, and under the prompt completions of R197 and R247 as long as no completion is enabled. -/

namespace Sys2Proof.Machine

variable {α β : Type}

/-- No agent step happens at the boundary after this state. -/
structure Calm (s : State) : Prop where
  script : s.script = []
  prompt : s.prompt = Prompt.quiet ∨ (s.prompt = Prompt.completions
    ∧ (s.cfg.backend = .dma → mdioEnabled s.dma = false) ∧ (s.cfg.backend = .spi → s.spi.chip.mr.getLsbD 7 = false))

theorem State.Quiet.calm {s : State} (h : s.Quiet) : Calm s := ⟨h.1, .inl h.2⟩

/-- What calm depends on. -/
theorem Calm.of {s t : State} (h : Calm s) (h1 : t.script = s.script) (h2 : t.prompt = s.prompt) (h3 : t.cfg = s.cfg)
    (h4 : mdioEnabled s.dma = false → mdioEnabled t.dma = false)
    (h5 : s.spi.chip.mr.getLsbD 7 = false → t.spi.chip.mr.getLsbD 7 = false) : Calm t := by
  refine ⟨h1.trans h.script, ?_⟩
  rcases h.prompt with hp | ⟨hp, hd, hs⟩
  · exact .inl (h2.trans hp)
  · exact .inr ⟨h2.trans hp, fun hb => h4 (hd (h3 ▸ hb)), fun hb => h5 (hs (h3 ▸ hb))⟩

theorem scriptedSteps_nil {s : State} (h : s.script = []) : scriptedSteps s = .ok ((), s) := by
  unfold scriptedSteps
  rw [get_bind_apply, h]
  rfl

theorem boundary_calm {s : State} (h : Calm s) : boundary s = .ok ((), s) := by
  unfold boundary
  rw [bind_ok (scriptedSteps_nil h.script)]
  unfold promptSteps
  rw [get_bind_apply]
  rcases h.prompt with hp | ⟨hp, hd, hs⟩
  · rw [hp]
    rfl
  · rw [hp]
    have h1 : agentStep .mdioDone s = .ok ((), s) := by
      show byBackend mdioComplete (pure ()) s = _
      cases hb : s.cfg.backend with
      | dma =>
        rw [byBackend_dma hb]
        unfold mdioComplete
        rw [get_bind_apply, branch_apply, if_neg (by rw [hd hb]; simp)]
        rfl
      | spi => rw [byBackend_spi hb]; rfl
    have h2 : agentStep .chipResetDone s = .ok ((), s) := by
      show byBackend (pure ()) chipResetDone s = _
      cases hb : s.cfg.backend with
      | dma => rw [byBackend_dma hb]; rfl
      | spi =>
        rw [byBackend_spi hb]
        unfold chipResetDone
        rw [get_bind_apply, branch_apply, if_neg (by rw [hs hb]; simp)]
        rfl
    have o1 : onlyIf (Prompt.completions.mdioDone = true) (agentStep .mdioDone) = agentStep .mdioDone := onlyIf_pos rfl
    have o2 : onlyIf (Prompt.completions.chipResetDone = true) (agentStep .chipResetDone) = agentStep .chipResetDone :=
      onlyIf_pos rfl
    rw [o1, bind_ok h1, o2, bind_ok h2]
    rfl

/-- A micro-step that ends in a calm state is just its own change. -/
theorem micro_ok {m : M α} {s t : State} {a : α} (h : m s = .ok (a, t)) (hc : Calm t) : micro m s = .ok (a, t) := by
  unfold micro
  rw [bind_ok h, bind_ok (boundary_calm hc)]
  rfl

theorem micro_bind {m : M α} {f : α → M β} {s t : State} {a : α} (h : m s = .ok (a, t)) (hc : Calm t) :
    (micro m >>= f) s = f a t := bind_ok (micro_ok h hc)

/-! ## DMA memory (R80 to R85) -/

theorem checkDmaRange_ok {a n : Nat} (h : a + n ≤ dmaSpaceEnd) (s : State) : checkDmaRange a n s = .ok ((), s) := by
  unfold checkDmaRange
  rw [if_pos h]
  rfl

theorem checkAligned_ok {a n : Nat} (h : a % n = 0) (s : State) : checkAligned a n s = .ok ((), s) := by
  unfold checkAligned
  rw [if_pos h]
  rfl

theorem dmaReadBytes_ok {a n : Nat} {bs : List Byte} {s : State} (hr : a + n ≤ dmaSpaceEnd)
    (h : Memory.readBytes s.dma.mem a n = some bs) : dmaReadBytes a n s = .ok (bs, s) := by
  unfold dmaReadBytes
  rw [bind_ok (checkDmaRange_ok hr s), get_bind_apply, h]
  rfl

theorem dmaWriteBytes_ok {a : Nat} {bs : List Byte} {s : State} (hr : a + bs.length ≤ dmaSpaceEnd) :
    dmaWriteBytes a bs s = .ok ((), { s with dma := { s.dma with mem := Memory.writeBytes s.dma.mem a bs } }) := by
  unfold dmaWriteBytes
  rw [bind_ok (checkDmaRange_ok hr s)]
  rfl

/-- A halfword of coherent memory (R83, R84). -/
theorem dmaRead16_ok {a : Nat} {v : U16} {s : State} (ha : a % 2 = 0) (hr : a + 2 ≤ dmaSpaceEnd)
    (h : Memory.half? s.dma.mem a = some v) : dmaRead16 a s = .ok (v, s) := by
  obtain ⟨lo, hi, hb, hv⟩ := Memory.readBytes_two h
  unfold dmaRead16
  rw [bind_ok (checkAligned_ok ha s), bind_ok (dmaReadBytes_ok hr hb), ← hv]
  rfl

theorem dmaWrite16_ok {a : Nat} {v : U16} {s : State} (ha : a % 2 = 0) (hr : a + 2 ≤ dmaSpaceEnd) :
    dmaWrite16 a v s = .ok ((), { s with dma := { s.dma with mem := Memory.writeBytes s.dma.mem a (putLe16 v) } }) := by
  unfold dmaWrite16
  rw [bind_ok (checkAligned_ok ha s), dmaWriteBytes_ok (by simpa [putLe16] using hr)]

theorem join32_of_halves (b0 b1 b2 b3 : Byte) : join32 b0 b1 b2 b3 = (join16 b3 b2 ++ join16 b1 b0 : U32) := by
  unfold join32 join16
  refine BitVec.eq_of_getLsbD_eq fun i hi => ?_
  simp only [BitVec.getLsbD_append]
  by_cases h1 : i < 8
  · simp [h1, show i < 16 by omega]
  · by_cases h2 : i < 16
    · simp [h1, h2, show i - 8 < 8 by omega]
    · by_cases h3 : i < 24
      · simp [h1, h2, show ¬(i - 8 < 8) by omega, show i - 16 < 8 by omega,
          show i - 8 - 8 = i - 16 by omega]
      · simp [h1, h2, show ¬(i - 8 < 8) by omega, show ¬(i - 16 < 8) by omega, show ¬(i - 8 - 8 < 8) by omega,
          show i - 8 - 8 - 8 = i - 16 - 8 by omega]

/-- A word of coherent memory (R83, R84). -/
theorem dmaRead32_ok {a : Nat} {v : U32} {s : State} (ha : a % 4 = 0) (hr : a + 4 ≤ dmaSpaceEnd)
    (h : Memory.word? s.dma.mem a = some v) : dmaRead32 a s = .ok (v, s) := by
  unfold Memory.word? at h
  cases h0 : Memory.half? s.dma.mem a with
  | none => simp [h0] at h
  | some lo =>
    cases h1 : Memory.half? s.dma.mem (a + 2) with
    | none => simp [h0, h1] at h
    | some hi =>
      simp only [h0, h1, Option.some.injEq] at h
      obtain ⟨b0, b1, hb, hlo⟩ := Memory.readBytes_two h0
      obtain ⟨b2, b3, hb2, hhi⟩ := Memory.readBytes_two h1
      have hb4 := Memory.readBytes_append hb hb2
      unfold dmaRead32
      rw [bind_ok (checkAligned_ok ha s), bind_ok (dmaReadBytes_ok hr hb4)]
      have : join32 b0 b1 b2 b3 = v := by rw [join32_of_halves, hlo, hhi, h]
      rw [← this]
      rfl

theorem dmaWrite32_ok {a : Nat} {v : U32} {s : State} (ha : a % 4 = 0) (hr : a + 4 ≤ dmaSpaceEnd) :
    dmaWrite32 a v s = .ok ((), { s with dma := { s.dma with mem := Memory.writeBytes s.dma.mem a (putLe32 v) } }) := by
  unfold dmaWrite32
  rw [bind_ok (checkAligned_ok ha s), dmaWriteBytes_ok (by simpa [putLe32] using hr)]

/-! ## The MAC window -/

/-- A write of any register but MMFR, and of MMFR with a legal frame (R32, R125). -/
theorem macWrite_ok {r : MacReg} {v : U32} (h : r ≠ .mmfr ∨ mmfrLegal v = true) (s : State) :
    macWrite r v s = .ok ((), { s with dma := s.dma.macWrite r v }) := by
  unfold macWrite
  rw [if_neg]
  · rfl
  · rcases h with h | h
    · cases r <;> simp_all
    · simp [h]

theorem mmfrRead_legal (c : Config) (ra : BitVec 5) : mmfrLegal (mmfrRead c ra) = true := by
  unfold mmfrLegal mmfrRead mmfrOp
  generalize c.phyAddr = p
  revert p ra
  decide +kernel

/-! ## Sequences of halves -/

theorem hi_lo_toNat (v : U16) : (hi8 v).toNat * 256 + (lo8 v).toNat = v.toNat := by
  have h := congrArg BitVec.toNat (Memory.join16_hi8_lo8 v)
  unfold join16 at h
  rw [BitVec.toNat_append, ← Nat.shiftLeft_add_eq_or_of_lt (lo8 v).isLt, Nat.shiftLeft_eq] at h
  simpa using h

end Sys2Proof.Machine
end

