-- ==== Sys2Proof/Laws/CalmMdio.lean ====
section
/-! SUPPORT. The management bus in calm runs: one transaction that completes promptly, and one that never does (R181 to R185, R197). -/

namespace Sys2Proof.Machine

/-- The state right after a frame has been issued (R181). -/
def State.mdioIssued (s : State) (frame : U32) : State :=
  { s with dma := { s.dma with mdioBusy := true, regs := { s.dma.regs with eir := w1c32 s.dma.regs.eir 0x00000002, mmfr := frame } } }

/-- The state right after a completed frame has been collected (R183). -/
def State.mdioCollected (s : State) : State :=
  { s with dma := { s.dma with mdioBusy := false, regs := { s.dma.regs with eir := w1c32 s.dma.regs.eir 0x00000002 } } }

theorem w1c32_clears (v : U32) : (w1c32 v 0x00000002).getLsbD 1 = false := by
  simp [w1c32]

theorem setEvent_sets (v : U32) : (setEvent v 1).getLsbD 1 = true := by
  simp [setEvent, bitMask]

theorem w1c32_setEvent (v : U32) : w1c32 (setEvent (w1c32 v 0x00000002) 1) 0x00000002 = w1c32 v 0x00000002 := by
  refine BitVec.eq_of_getLsbD_eq fun i hi => ?_
  simp only [w1c32, setEvent, bitMask, BitVec.getLsbD_and, BitVec.getLsbD_or, BitVec.getLsbD_not, hi, decide_true, Bool.true_and]
  by_cases h : i = 1
  · subst h; simp
  · have h2 : (2#32).getLsbD i = false := by
      have : (2#32) = 1#32 <<< 1 := by decide
      rw [this, BitVec.getLsbD_shiftLeft]
      rcases Nat.lt_or_ge i 1 with h' | h'
      · simp [h']
      · simp [show ¬i < 1 by omega, show ¬(i - 1 = 0) by omega, BitVec.getLsbD_one]
    simp [h2]

theorem w1c32_idem (v k : U32) : w1c32 (w1c32 v k) k = w1c32 v k := by
  unfold w1c32
  rw [BitVec.and_assoc, BitVec.and_self]

theorem mdioEnabled_of_clear {d : DmaState} (h : d.mdioBusy = false) : mdioEnabled d = false := by
  simp [mdioEnabled, h]

theorem mdioEnabled_of_done {d : DmaState} (h : d.regs.eir.getLsbD 1 = true) : mdioEnabled d = false := by
  simp [mdioEnabled, h]

theorem mdioEnabled_issued {s : State} (h : s.dma.clocksOn = true) (frame : U32) : mdioEnabled (s.mdioIssued frame).dma = true := by
  show (s.dma.clocksOn && true && !(w1c32 s.dma.regs.eir 0x00000002).getLsbD 1) = true
  rw [h, w1c32_clears]
  rfl

theorem macWrite_mmfr_ok {v : U32} (h : mmfrLegal v = true) (s : State) :
    macWrite .mmfr v s = .ok ((), { s with dma := { s.dma with regs := { s.dma.regs with mmfr := v } } }) :=
  macWrite_ok (.inr h) s

/-- On the DMA build the boundary after an enabled transaction, with prompt completions, is its completion (R182, R197). -/
theorem boundary_completes {s u : State} (hs : s.script = []) (hp : s.prompt = Prompt.completions) (hb : s.cfg.backend = .dma)
    (hc : mdioComplete s = .ok ((), u)) (hu : u.cfg = s.cfg) : boundary s = .ok ((), u) := by
  unfold boundary
  rw [bind_ok (scriptedSteps_nil hs)]
  unfold promptSteps
  rw [get_bind_apply, hp]
  have o1 : onlyIf (Prompt.completions.mdioDone = true) (agentStep .mdioDone) = agentStep .mdioDone := onlyIf_pos rfl
  have o2 : onlyIf (Prompt.completions.chipResetDone = true) (agentStep .chipResetDone) = agentStep .chipResetDone :=
    onlyIf_pos rfl
  have h1 : agentStep .mdioDone s = .ok ((), u) := (byBackend_dma hb).trans hc
  have h2 : agentStep .chipResetDone u = .ok ((), u) := byBackend_dma (x := pure ()) (y := chipResetDone) (hu ▸ hb)
  rw [o1, bind_ok h1, o2, bind_ok h2]
  rfl

/-- Issuing a frame while none is in flight, up to the boundary after its last micro-step. -/
theorem mdioIssue_ok {s u : State} {frame : U32} (hc : Calm s) (hbusy : s.dma.mdioBusy = false) (hl : mmfrLegal frame = true)
    (hb : boundary (s.mdioIssued frame) = .ok ((), u)) : mdioIssue frame s = .ok (true, u) := by
  unfold mdioIssue
  rw [get_bind_apply, branch_apply, if_neg (by simp [hbusy])]
  have calm : ∀ t : State, t.script = s.script → t.prompt = s.prompt → t.cfg = s.cfg → t.dma.mdioBusy = s.dma.mdioBusy →
      t.spi = s.spi → Calm t := fun t h1 h2 h3 h4 h5 =>
    hc.of h1 h2 h3 (fun _ => mdioEnabled_of_clear (h4.trans hbusy)) (fun h => h5 ▸ h)
  refine (micro_bind (macWrite_ok (.inl (by decide)) s) (calm _ rfl rfl rfl rfl rfl)).trans ?_
  refine (micro_bind (macWrite_mmfr_ok hl { s with dma := s.dma.macWrite .eir 0x00000002 }) (calm _ rfl rfl rfl rfl rfl)).trans ?_
  have : micro (setMdioBusy true) { s with dma := { s.dma with regs := { s.dma.regs with
      eir := w1c32 s.dma.regs.eir 0x00000002, mmfr := frame } } } = .ok ((), u) := by
    unfold micro setMdioBusy
    rw [modifyDma_bind_apply]
    exact (bind_ok (s := s.mdioIssued frame) hb).trans rfl
  exact bind_ok this

theorem mdioIssue_busy {s : State} {frame : U32} (hbusy : s.dma.mdioBusy = true) : mdioIssue frame s = .ok (false, s) := by
  unfold mdioIssue
  rw [get_bind_apply, branch_apply, if_pos (by simp [hbusy])]
  rfl

/-- Collecting a completed frame. -/
theorem mdioCollect_done {s : State} (hc : Calm s) (hbusy : s.dma.mdioBusy = true) (hd : s.dma.regs.eir.getLsbD 1 = true) :
    mdioCollect s = .ok (some (mmfrData s.dma.regs.mmfr), s.mdioCollected) := by
  unfold mdioCollect
  rw [get_bind_apply, branch_apply, if_pos (by simp [hbusy])]
  refine ((micro_bind (macRead_apply .eir s) hc).trans (branch_apply _ _ _)).trans ((if_pos hd).trans ?_)
  refine (micro_bind (macRead_apply .mmfr s) hc).trans ?_
  have hcalm : Calm s.mdioCollected := hc.of rfl rfl rfl (fun _ => mdioEnabled_of_clear rfl) (fun h => h)
  refine (micro_bind (t := s.mdioCollected) (a := ()) ?_ hcalm).trans rfl
  · rw [bind_ok (macWrite_ok (.inl (by decide)) s)]
    rfl

/-- Collecting while nothing has completed. -/
theorem mdioCollect_waiting {s : State} (hc : Calm s) (hd : s.dma.regs.eir.getLsbD 1 = false) :
    mdioCollect s = .ok (none, s) := by
  unfold mdioCollect
  rw [get_bind_apply, branch_apply]
  split
  · exact ((micro_bind (macRead_apply .eir s) hc).trans (branch_apply _ _ _)).trans
      (if_neg (show ¬ s.dma.regs.eir.getLsbD 1 = true by rw [hd]; decide))
  · rfl

theorem mdioCollect_idle {s : State} (hbusy : s.dma.mdioBusy = false) : mdioCollect s = .ok (none, s) := by
  unfold mdioCollect
  rw [get_bind_apply, branch_apply, if_neg (by simp [hbusy])]
  rfl

/-- A transaction that completes right after its issue (R197). -/
theorem mdioTransact_prompt {s u : State} {frame : U32} (hc : Calm s) (hp : s.prompt = Prompt.completions) (hb : s.cfg.backend = .dma)
    (hbusy : s.dma.mdioBusy = false) (hbound : 1 ≤ s.cfg.mdioPollBound) (hl : mmfrLegal frame = true)
    (hm : mdioComplete (s.mdioIssued frame) = .ok ((), u)) (hu : u.cfg = s.cfg) (hcu : Calm u)
    (hub : u.dma.mdioBusy = true) (hud : u.dma.regs.eir.getLsbD 1 = true) :
    mdioTransact frame s = .ok (some (mmfrData u.dma.regs.mmfr), u.mdioCollected) := by
  unfold mdioTransact
  rw [config_bind_apply, bind_ok (mdioIssue_ok hc hbusy hl (boundary_completes hc.script hp hb hm hu))]
  rw [if_pos rfl]
  obtain ⟨n, hn⟩ : ∃ n, s.cfg.mdioPollBound = n + 1 := ⟨s.cfg.mdioPollBound - 1, by omega⟩
  rw [hn]
  unfold mdioAwait
  rw [bind_ok (mdioCollect_done hcu hub hud)]
  rfl

/-- Polls that never see the flag: the transaction is abandoned (R184). -/
theorem mdioAwait_abandons {s : State} (hq : s.Quiet) (hd : s.dma.regs.eir.getLsbD 1 = false) (n : Nat) :
    mdioAwait n s = .ok (none, { s with dma := { s.dma with mdioBusy := false } }) := by
  induction n with
  | zero =>
    unfold mdioAwait
    have h : setMdioBusy false s = .ok ((), { s with dma := { s.dma with mdioBusy := false } }) := rfl
    rw [micro_bind h (State.Quiet.calm hq)]
    rfl
  | succ n ih =>
    unfold mdioAwait
    rw [bind_ok (mdioCollect_waiting hq.calm hd)]
    exact ih

/-- A transaction that does not complete within the bound (R184, R197). -/
theorem mdioTransact_quiet {s : State} {frame : U32} (hq : s.Quiet) (hbusy : s.dma.mdioBusy = false) (hl : mmfrLegal frame = true) :
    mdioTransact frame s =
      .ok (none, { s with dma := { s.dma with regs := { s.dma.regs with
        eir := w1c32 s.dma.regs.eir 0x00000002, mmfr := frame } } }) := by
  unfold mdioTransact
  rw [config_bind_apply]
  rw [bind_ok (mdioIssue_ok (u := s.mdioIssued frame) hq.calm hbusy hl (boundary_calm (State.Quiet.calm hq)))]
  rw [if_pos rfl, mdioAwait_abandons (s := s.mdioIssued frame) hq (w1c32_clears _)]
  show Except.ok (none, _) = _
  congr 3
  simp [State.mdioIssued, hbusy]

/-! ## What a prompt transaction does, frame by frame -/

theorem getLsbD_shifted5 (x : BitVec 5) (k i : Nat) :
    (x.zeroExtend 32 <<< k).getLsbD i = (decide (i < 32) && decide (k ≤ i) && x.getLsbD (i - k)) := by
  rw [BitVec.getLsbD_shiftLeft]
  by_cases h : i < 32
  · by_cases h2 : i < k
    · simp [h, h2, show ¬ k ≤ i by omega]
    · simp [h, h2, show k ≤ i by omega, show i - k < 32 by omega]
  · simp [h]

theorem getLsbD_mmfrWrite (c : Config) (ra : BitVec 5) (v : U16) (i : Nat) (hi : i < 32) :
    (mmfrWrite c ra v).getLsbD i = ((0x50020000#32).getLsbD i || (decide (23 ≤ i) && c.phyAddr.getLsbD (i - 23))
      || (decide (18 ≤ i) && ra.getLsbD (i - 18)) || v.getLsbD i) := by
  unfold mmfrWrite
  rw [BitVec.getLsbD_or, BitVec.getLsbD_or, BitVec.getLsbD_or, getLsbD_shifted5, getLsbD_shifted5]
  simp [hi]

theorem mmfrOp_write (c : Config) (ra : BitVec 5) (v : U16) : mmfrOp (mmfrWrite c ra v) = 0b01#2 := by
  refine BitVec.eq_of_getLsbD_eq fun i hi => ?_
  rw [mmfrOp, BitVec.getLsbD_extractLsb', getLsbD_mmfrWrite _ _ _ _ (by omega)]
  rcases (show i = 0 ∨ i = 1 by omega) with rfl | rfl <;> simp

theorem mmfrWrite_legal (c : Config) (ra : BitVec 5) (v : U16) : mmfrLegal (mmfrWrite c ra v) = true := by
  have h1 : (mmfrWrite c ra v).extractLsb' 30 2 = 0b01#2 := by
    refine BitVec.eq_of_getLsbD_eq fun i hi => ?_
    rw [BitVec.getLsbD_extractLsb', getLsbD_mmfrWrite _ _ _ _ (by omega)]
    rcases (show i = 0 ∨ i = 1 by omega) with rfl | rfl <;> simp
  have h2 : (mmfrWrite c ra v).extractLsb' 16 2 = 0b10#2 := by
    refine BitVec.eq_of_getLsbD_eq fun i hi => ?_
    rw [BitVec.getLsbD_extractLsb', getLsbD_mmfrWrite _ _ _ _ (by omega)]
    rcases (show i = 0 ∨ i = 1 by omega) with rfl | rfl <;> simp
  simp [mmfrLegal, h1, h2, mmfrOp_write]

theorem mmfrPa_write (c : Config) (ra : BitVec 5) (v : U16) : mmfrPa (mmfrWrite c ra v) = c.phyAddr := by
  refine BitVec.eq_of_getLsbD_eq fun i hi => ?_
  rw [mmfrPa, BitVec.getLsbD_extractLsb', getLsbD_mmfrWrite _ _ _ _ (by omega)]
  rcases (show i = 0 ∨ i = 1 ∨ i = 2 ∨ i = 3 ∨ i = 4 by omega) with rfl | rfl | rfl | rfl | rfl <;> simp

theorem mmfrRa_write (c : Config) (ra : BitVec 5) (v : U16) : mmfrRa (mmfrWrite c ra v) = ra := by
  refine BitVec.eq_of_getLsbD_eq fun i hi => ?_
  rw [mmfrRa, BitVec.getLsbD_extractLsb', getLsbD_mmfrWrite _ _ _ _ (by omega)]
  rcases (show i = 0 ∨ i = 1 ∨ i = 2 ∨ i = 3 ∨ i = 4 by omega) with rfl | rfl | rfl | rfl | rfl <;> simp

theorem mmfrData_write (c : Config) (ra : BitVec 5) (v : U16) : mmfrData (mmfrWrite c ra v) = v := by
  refine BitVec.eq_of_getLsbD_eq fun i hi => ?_
  rw [mmfrData, BitVec.getLsbD_extractLsb', getLsbD_mmfrWrite _ _ _ _ (by omega)]
  rw [Nat.zero_add]
  have : (0x50020000#32).getLsbD i = false := by
    have h : ∀ j : Fin 16, (0x50020000#32).getLsbD j.val = false := by decide
    exact h ⟨i, hi⟩
  simp [this, hi, show ¬(23 ≤ i) by omega, show ¬(18 ≤ i) by omega]

theorem mmfrRead_fields (c : Config) (ra : BitVec 5) :
    mmfrOp (mmfrRead c ra) = 0b10#2 ∧ mmfrPa (mmfrRead c ra) = c.phyAddr ∧ mmfrRa (mmfrRead c ra) = ra := by
  unfold mmfrOp mmfrPa mmfrRa mmfrRead
  generalize c.phyAddr = p
  revert p ra
  decide +kernel

theorem getLsbD_high (i : Nat) (hi : i < 32) : (0xFFFF0000#32).getLsbD i = decide (16 ≤ i) := by
  have h : ∀ j : Fin 32, (0xFFFF0000#32).getLsbD j.val = decide (16 ≤ j.val) := by decide
  exact h ⟨i, hi⟩

theorem mmfrData_withData (f : U32) (v : U16) : mmfrData (mmfrWithData f v) = v := by
  refine BitVec.eq_of_getLsbD_eq fun i hi => ?_
  rw [mmfrData, BitVec.getLsbD_extractLsb', mmfrWithData, BitVec.getLsbD_or, BitVec.getLsbD_and]
  rw [Nat.zero_add, getLsbD_high i (by omega)]
  simp [show ¬(16 ≤ i) by omega, show i < 32 by omega, hi]

theorem mmfrWithData_twice (f : U32) (v w : U16) : mmfrWithData (mmfrWithData f v) w = mmfrWithData f w := by
  refine BitVec.eq_of_getLsbD_eq fun i hi => ?_
  simp only [mmfrWithData, BitVec.getLsbD_or, BitVec.getLsbD_and, getLsbD_high i hi]
  by_cases h : 16 ≤ i
  · simp [h]
  · simp [h]

/-- A write frame holds its own data. -/
theorem mmfrWithData_write (c : Config) (ra : BitVec 5) (v : U16) : mmfrWithData (mmfrWrite c ra v) v = mmfrWrite c ra v := by
  refine BitVec.eq_of_getLsbD_eq fun i hi => ?_
  simp only [mmfrWithData, BitVec.getLsbD_or, BitVec.getLsbD_and, getLsbD_high i hi, getLsbD_mmfrWrite _ _ _ _ hi]
  have hl : i < 16 → (0x50020000#32).getLsbD i = false := fun h => by
    have h' : ∀ j : Fin 16, (0x50020000#32).getLsbD j.val = false := by decide
    exact h' ⟨i, h⟩
  by_cases h : 16 ≤ i
  · simp [h]
  · rw [hl (by omega)]
    simp [h, show ¬(23 ≤ i) by omega, show ¬(18 ≤ i) by omega, hi]

/-- The read of an identity register (R182, R188, R189). -/
theorem mdioRead_identity {s : State} (hp : s.Prompted) (hb : s.cfg.backend = .dma) (hclk : s.dma.clocksOn = true)
    (hbusy : s.dma.mdioBusy = false) (hbound : 1 ≤ s.cfg.mdioPollBound) {ra : BitVec 5} {id : U16}
    (hid : (ra = 0x02 ∧ id = s.cfg.phyId.extractLsb' 16 16) ∨ (ra = 0x03 ∧ id = s.cfg.phyId.extractLsb' 0 16)) :
    let v := if s.cfg.phyPresent then id else 0xFFFF
    mdioRead ra s = .ok (some v, { s with dma := { s.dma with regs := { s.dma.regs with
      eir := w1c32 s.dma.regs.eir 0x00000002, mmfr := mmfrWithData (mmfrRead s.cfg ra) v } } }) := by
  intro v
  have hcalm : Calm s := ⟨hp.1, .inr ⟨hp.2, fun _ => mdioEnabled_of_clear hbusy, by simp [hb]⟩⟩
  obtain ⟨f1, f2, f3⟩ := mmfrRead_fields s.cfg ra
  have hm : mdioComplete (s.mdioIssued (mmfrRead s.cfg ra)) =
      .ok ((), { s.mdioIssued (mmfrRead s.cfg ra) with dma := finishMdio v (s.mdioIssued (mmfrRead s.cfg ra)).dma }) := by
    unfold mdioComplete
    rw [get_bind_apply, branch_apply, if_pos]
    · show (if mmfrOp (mmfrRead s.cfg ra) = 2#2 then _ else _ : M Unit) _ = _
      rw [branch_apply, if_pos f1]
      show (if (s.cfg.phyPresent && mmfrPa (mmfrRead s.cfg ra) == s.cfg.phyAddr) = true then _ else _ : M Unit) _ = _
      rw [branch_apply, f2]
      cases hpp : s.cfg.phyPresent with
      | false => simp [v, hpp]
      | true =>
        rw [if_pos (by simp)]
        refine (bind_ok (t := s.mdioIssued (mmfrRead s.cfg ra)) (a := id) ?_).trans ?_
        · show phyRegRead (mmfrRa (mmfrRead s.cfg ra)) _ = _
          rw [f3]
          unfold phyRegRead
          rcases hid with ⟨rfl, rfl⟩ | ⟨rfl, rfl⟩ <;> rfl
        · simp [v, hpp]
    · exact mdioEnabled_issued hclk _
  unfold mdioRead
  rw [config_bind_apply]
  refine (mdioTransact_prompt hcalm hp.2 hb hbusy hbound (mmfrRead_legal _ _) hm rfl ?_ rfl (setEvent_sets _)).trans ?_
  · exact ⟨hp.1, .inr ⟨hp.2, fun _ => mdioEnabled_of_done (setEvent_sets _), by simp [State.mdioIssued, hb]⟩⟩
  · simp [State.mdioCollected, State.mdioIssued, finishMdio, mmfrData_withData, hbusy]
    exact w1c32_setEvent _

/-- A write to a PHY register (R182, R185, R189). -/
theorem mdioWrite_prompt {s : State} (hp : s.Prompted) (hb : s.cfg.backend = .dma) (hclk : s.dma.clocksOn = true)
    (hbusy : s.dma.mdioBusy = false) (hbound : 1 ≤ s.cfg.mdioPollBound) (ra : BitVec 5) (v : U16) :
    mdioWrite ra v s = .ok (true, { s with dma := { s.dma with
      phy := if s.cfg.phyPresent then s.dma.phy.regWrite ra v else s.dma.phy
      regs := { s.dma.regs with eir := w1c32 s.dma.regs.eir 0x00000002, mmfr := mmfrWrite s.cfg ra v } } }) := by
  have hcalm : Calm s := ⟨hp.1, .inr ⟨hp.2, fun _ => mdioEnabled_of_clear hbusy, by simp [hb]⟩⟩
  have hop := mmfrOp_write s.cfg ra v
  have hm : mdioComplete (s.mdioIssued (mmfrWrite s.cfg ra v)) =
      .ok ((), { s.mdioIssued (mmfrWrite s.cfg ra v) with dma := finishMdio v { (s.mdioIssued (mmfrWrite s.cfg ra v)).dma with
        phy := if s.cfg.phyPresent then s.dma.phy.regWrite ra v else s.dma.phy } }) := by
    unfold mdioComplete
    rw [get_bind_apply, branch_apply, if_pos]
    · show (if mmfrOp (mmfrWrite s.cfg ra v) = 2#2 then _ else if mmfrOp (mmfrWrite s.cfg ra v) = 1#2 then _ else _ : M Unit) _ = _
      rw [branch_apply, if_neg (by rw [hop]; decide), branch_apply, if_pos hop]
      show (if (s.cfg.phyPresent && mmfrPa (mmfrWrite s.cfg ra v) == s.cfg.phyAddr) = true then _ else _ : M Unit) _ = _
      rw [branch_apply, mmfrPa_write]
      cases hpp : s.cfg.phyPresent with
      | false =>
        rw [if_neg (by simp), modifyDma_apply]
        simp [State.mdioIssued, mmfrData_write]
      | true =>
        rw [if_pos (by simp), modifyDma_apply]
        simp [State.mdioIssued, mmfrData_write, mmfrRa_write]
    · exact mdioEnabled_issued hclk _
  unfold mdioWrite
  rw [config_bind_apply]
  refine (bind_ok (mdioTransact_prompt hcalm hp.2 hb hbusy hbound (mmfrWrite_legal _ _ _) hm rfl ?_ rfl (setEvent_sets _))).trans ?_
  · exact ⟨hp.1, .inr ⟨hp.2, fun _ => mdioEnabled_of_done (setEvent_sets _), by simp [State.mdioIssued, hb]⟩⟩
  · simp [State.mdioCollected, State.mdioIssued, finishMdio, hbusy, mmfrWithData_write]
    exact w1c32_setEvent _

end Sys2Proof.Machine
end

