-- ==== Sys2Proof/Laws/CalmProbe.lean ====
section
/-! SUPPORT. The DMA probe and the tuning writes in calm runs (R190, R191). -/

namespace Sys2Proof.Machine

/-- What one prompt PHY write leaves (R182, R185, R189). -/
def State.mdioWrote (s : State) (w : BitVec 5 × U16) : State :=
  { s with dma := { s.dma with
    phy := if s.cfg.phyPresent then s.dma.phy.regWrite w.1 w.2 else s.dma.phy
    regs := { s.dma.regs with eir := w1c32 s.dma.regs.eir 0x00000002, mmfr := mmfrWrite s.cfg w.1 w.2 } } }

/-- When PHY writes complete promptly (R197). -/
structure PhyReady (s : State) : Prop where
  prompted : s.Prompted
  backend : s.cfg.backend = .dma
  clocks : s.dma.clocksOn = true
  idle : s.dma.mdioBusy = false
  bound : 1 ≤ s.cfg.mdioPollBound

theorem PhyReady.wrote {s : State} (h : PhyReady s) (w : BitVec 5 × U16) : PhyReady (s.mdioWrote w) :=
  ⟨h.prompted, h.backend, h.clocks, h.idle, h.bound⟩

theorem PhyReady.wroteAll {s : State} (h : PhyReady s) (ws : List (BitVec 5 × U16)) : PhyReady (ws.foldl State.mdioWrote s) := by
  induction ws generalizing s with
  | nil => exact h
  | cons w ws ih => exact ih (h.wrote w)

theorem mdioWrite_ready {s : State} (h : PhyReady s) (ra : BitVec 5) (v : U16) :
    mdioWrite ra v s = .ok (true, s.mdioWrote (ra, v)) :=
  mdioWrite_prompt h.prompted h.backend h.clocks h.idle h.bound ra v

theorem phyWrite_ready {s : State} (h : PhyReady s) (a v : U16) :
    phyWrite a v s = .ok (true, (tuningWrites a v).foldl State.mdioWrote s) := by
  unfold phyWrite tuningWrites
  by_cases ha : a.toNat ≤ 0x001F
  · rw [branch_apply, if_pos (by simp [isDirect, ha]), if_pos ha]
    exact mdioWrite_ready h _ _
  · rw [branch_apply, if_neg (by simp [isDirect]; omega), if_neg ha]
    unfold phySelect
    have h1 := h.wrote (0x0D, 0x001F)
    have h2 := h1.wrote (0x0E, a)
    have h3 := h2.wrote (0x0D, 0x401F)
    have hs : phySelect a s = .ok (true, ((s.mdioWrote (0x0D, 0x001F)).mdioWrote (0x0E, a)).mdioWrote (0x0D, 0x401F)) := by
      unfold phySelect
      refine (bind_ok (mdioWrite_ready h _ _)).trans ((branch_apply _ _ _).trans ((if_pos rfl).trans ?_))
      refine (bind_ok (mdioWrite_ready h1 _ _)).trans ((branch_apply _ _ _).trans ((if_pos rfl).trans ?_))
      exact mdioWrite_ready h2 _ _
    refine (bind_ok hs).trans ((branch_apply _ _ _).trans ((if_pos rfl).trans ?_))
    exact mdioWrite_ready h3 _ _

theorem tune_ready {s : State} (h : PhyReady s) (l : List (U16 × U16)) :
    tune l s = .ok (true, (l.flatMap fun p => tuningWrites p.1 p.2).foldl State.mdioWrote s) := by
  induction l generalizing s with
  | nil => rfl
  | cons p l ih =>
    unfold tune
    refine (bind_ok (phyWrite_ready h p.1 p.2)).trans ((branch_apply _ _ _).trans ((if_pos rfl).trans ?_))
    rw [ih (h.wroteAll _), List.flatMap_cons, List.foldl_append]

/-- A run of PHY writes at once. -/
theorem mdioWroteAll (s : State) (ws : List (BitVec 5 × U16)) :
    ws.foldl State.mdioWrote s = { s with dma := { s.dma with
      phy := if s.cfg.phyPresent then ws.foldl (fun q w => q.regWrite w.1 w.2) s.dma.phy else s.dma.phy
      regs := { s.dma.regs with
        eir := if ws = [] then s.dma.regs.eir else w1c32 s.dma.regs.eir 0x00000002
        mmfr := match ws.getLast? with
          | none => s.dma.regs.mmfr
          | some w => mmfrWrite s.cfg w.1 w.2 } } } := by
  induction ws generalizing s with
  | nil => simp
  | cons w ws ih =>
    rw [List.foldl_cons, ih]
    cases hp : s.cfg.phyPresent <;> cases ws with
    | nil => simp [State.mdioWrote, hp]
    | cons w' ws =>
      have : (w' :: ws).getLast? = some ((w' :: ws).getLast (by simp)) := List.getLast?_eq_some_getLast _
      simp only [State.mdioWrote, hp, w1c32_idem, List.getLast?_cons_cons, this]
      simp

/-- The first write of a list that never completes (R191). -/
theorem tune_quiet {s : State} (hq : s.Quiet) (hbusy : s.dma.mdioBusy = false) {l : List (U16 × U16)} {w : BitVec 5 × U16}
    {ws : List (BitVec 5 × U16)} (hl : (l.flatMap fun p => tuningWrites p.1 p.2) = w :: ws) :
    tune l s = .ok (false, { s with dma := { s.dma with regs := { s.dma.regs with
      eir := w1c32 s.dma.regs.eir 0x00000002, mmfr := mmfrWrite s.cfg w.1 w.2 } } }) := by
  have hw : ∀ ra v, mdioWrite ra v s = .ok (false, { s with dma := { s.dma with regs := { s.dma.regs with
      eir := w1c32 s.dma.regs.eir 0x00000002, mmfr := mmfrWrite s.cfg ra v } } }) := by
    intro ra v
    unfold mdioWrite
    rw [config_bind_apply]
    refine (bind_ok (mdioTransact_quiet hq hbusy (mmfrWrite_legal _ _ _))).trans ?_
    rfl
  cases l with
  | nil => simp at hl
  | cons p l =>
    unfold tune
    have hp : ∃ ws', tuningWrites p.1 p.2 = w :: ws' := by
      unfold tuningWrites at hl ⊢
      rw [List.flatMap_cons] at hl
      split at hl
      · rw [if_pos ‹_›]
        simp at hl
        exact ⟨[], by simp [hl.1]⟩
      · rw [if_neg ‹_›]
        simp at hl
        exact ⟨[(0x0E, p.1), (0x0D, 0x401F), (0x0E, p.2)], by rw [← hl.1]; rfl⟩
    obtain ⟨ws', hws⟩ := hp
    have : phyWrite p.1 p.2 s = .ok (false, { s with dma := { s.dma with regs := { s.dma.regs with
        eir := w1c32 s.dma.regs.eir 0x00000002, mmfr := mmfrWrite s.cfg w.1 w.2 } } }) := by
      unfold phyWrite
      unfold tuningWrites at hws
      by_cases ha : p.1.toNat ≤ 0x001F
      · rw [if_pos ha] at hws
        rw [branch_apply, if_pos (by simp [isDirect, ha])]
        simp at hws
        rw [← hws.1]
        exact hw _ _
      · rw [if_neg ha] at hws
        rw [branch_apply, if_neg (by simp [isDirect]; omega)]
        simp at hws
        rw [← hws.1]
        have hs : phySelect p.1 s = .ok (false, { s with dma := { s.dma with regs := { s.dma.regs with
            eir := w1c32 s.dma.regs.eir 0x00000002, mmfr := mmfrWrite s.cfg 0x0D 0x001F } } }) := by
          unfold phySelect
          refine (bind_ok (hw _ _)).trans ((branch_apply _ _ _).trans ((if_neg (by simp)).trans ?_))
          rfl
        refine (bind_ok hs).trans ((branch_apply _ _ _).trans ((if_neg (by simp)).trans ?_))
        rfl
    refine (bind_ok this).trans ((branch_apply _ _ _).trans ((if_neg (by simp)).trans ?_))
    rfl

/-! ## The probe -/

theorem identity_halves (v : U32) : (v.extractLsb' 16 16 ++ v.extractLsb' 0 16 : U32) = v := by
  refine BitVec.eq_of_getLsbD_eq fun i hi => ?_
  rw [BitVec.getLsbD_append]
  by_cases h : i < 16
  · simp [h]
  · simp [h, show i - 16 < 16 by omega, show 16 + (i - 16) = i by omega]

/-- The three switches of P1 to P3, in a calm run that stays calm with them on. -/
theorem dmaProbe_switches {s : State} {f : M Unit} (hc : Calm s) (hbusy : s.dma.mdioBusy = false) :
    (do micro (modifyDma fun d => { d with clocksOn := true })
        micro (modifyDma fun d => { d with pinsConfigured := true })
        micro (modifyDma fun d => { d with phyResetDone := true, phy := d.phy.pulse })
        f) s =
      f { s with dma := { s.dma with clocksOn := true, pinsConfigured := true, phyResetDone := true, phy := s.dma.phy.pulse } } := by
  have calm : ∀ t : State, t.script = s.script → t.prompt = s.prompt → t.cfg = s.cfg → t.dma.mdioBusy = s.dma.mdioBusy →
      t.spi = s.spi → Calm t := fun t h1 h2 h3 h4 h5 =>
    hc.of h1 h2 h3 (fun _ => mdioEnabled_of_clear (h4.trans hbusy)) (fun h => h5 ▸ h)
  refine (micro_bind (modifyDma_apply _ s) (calm _ rfl rfl rfl rfl rfl)).trans ?_
  refine (micro_bind (modifyDma_apply _ { s with dma := { s.dma with clocksOn := true } }) (calm _ rfl rfl rfl rfl rfl)).trans ?_
  exact micro_bind (modifyDma_apply _ { s with dma := { s.dma with clocksOn := true, pinsConfigured := true } })
    (calm _ rfl rfl rfl rfl rfl)

/-- The roll-back of P4 (R190). -/
theorem dmaProbe_rollback {s : State} (hc : Calm s) (hbusy : s.dma.mdioBusy = false) :
    (do micro (modifyDma fun d => { d with phyResetDone := false })
        micro (modifyDma fun d => { d with pinsConfigured := false })
        micro (modifyDma fun d => { d with clocksOn := false })
        raise .hardwareAbsent : M Unit) s =
      .ok ((), { s with
        initState := .noHardware
        dma := { s.dma with clocksOn := false, pinsConfigured := false, phyResetDone := false } }) := by
  have calm : ∀ t : State, t.script = s.script → t.prompt = s.prompt → t.cfg = s.cfg → t.dma.mdioBusy = s.dma.mdioBusy →
      t.spi = s.spi → Calm t := fun t h1 h2 h3 h4 h5 =>
    hc.of h1 h2 h3 (fun _ => mdioEnabled_of_clear (h4.trans hbusy)) (fun h => h5 ▸ h)
  refine (micro_bind (modifyDma_apply _ s) (calm _ rfl rfl rfl rfl rfl)).trans ?_
  refine (micro_bind (modifyDma_apply _ { s with dma := { s.dma with phyResetDone := false } }) (calm _ rfl rfl rfl rfl rfl)).trans ?_
  exact micro_bind (modifyDma_apply _ { s with dma := { s.dma with phyResetDone := false, pinsConfigured := false } })
    (calm _ rfl rfl rfl rfl rfl)

end Sys2Proof.Machine
end

