-- ==== Sys2Proof/Laws/Gates.lean ====
section
/-! SUPPORT. The gates in front of the operations (R111, R151, R162, R165, R327): what an operation answers when it is turned away, and
that it runs when it is not. Under every schedule. -/

namespace Sys2Proof.Machine

variable {α : Type}

/-- A command whose answer is made from an operation's value. -/
theorem runCommand_bind {m : M α} {f : α → Result} {s t : State} {a : α} (h : m s = .ok (a, t)) :
    runCommand (do return f (← m)) s = .next (t.respond (f a)) := runCommand_ok (by rw [bind_ok h]; rfl)

/-! ## The state gate (R162) -/

theorem gated_outside {m : M Result} {s : State} (h : s.initState ≠ .initialized) : gated m s = .ok (.plain .invalid, s) := by
  unfold gated
  rw [get_bind_apply, branch_apply, if_neg h]
  rfl

theorem gated_inside {m : M Result} {s : State} (h : s.initState = .initialized) : gated m s = m s := by
  unfold gated
  rw [get_bind_apply, branch_apply, if_pos h]

theorem thenOk_ok {m : M Unit} {s t : State} (h : m s = .ok ((), t)) : thenOk m s = .ok (.plain .ok, t) := bind_ok h

/-! ## The data plane (R162, R165) -/

theorem dataPlaneClosed_false {s : State} (h : s.DataOpen) : dataPlaneClosed s = false := by
  unfold dataPlaneClosed
  cases hb : s.cfg.backend with
  | dma => simp [h.1]
  | spi => simp [h.1, h.2 hb]

theorem DataOpen_dma {s : State} (h : s.DmaSession) : s.DataOpen := ⟨h.2, fun hb => by rw [h.1] at hb; cases hb⟩

theorem DataOpen_spi {s : State} (h : s.SpiSession) (hf : s.spi.faultSock = false) : s.DataOpen := ⟨h.2, fun _ => hf⟩

theorem outputOp_closed {s : State} (h : dataPlaneClosed s = true) (b : List Byte) : outputOp b s = .ok (.invalid, s) := by
  unfold outputOp
  rw [get_bind_apply, branch_apply, if_pos (by simp [h])]
  rfl

theorem outputOp_open {s : State} (h : s.DataOpen) {b : List Byte} (h0 : 0 < b.length) (h1 : b.length ≤ s.cfg.maxLenTagged) :
    outputOp b s = byBackend (dmaOutput b) (spiOutput b) s := by
  unfold outputOp
  rw [get_bind_apply, branch_apply, if_neg]
  simp [dataPlaneClosed_false h, carriable]
  exact ⟨List.ne_nil_of_length_pos h0, h1⟩

theorem procInput_closed {s : State} (h : dataPlaneClosed s = true) (c : Nat) : procInput c s = .ok (.invalid, s) := by
  unfold procInput
  rw [get_bind_apply, branch_apply, if_pos (by simp [h])]
  rfl

theorem procInput_capped {s : State} (h : s.DataOpen) {c : Nat} (hc : s.cfg.rxLoopCap ≤ c) : procInput c s = .ok (.nothing, s) := by
  unfold procInput
  rw [get_bind_apply, branch_apply, if_neg (by simp [dataPlaneClosed_false h]), branch_apply, if_pos hc]
  rfl

theorem procInput_open {s : State} (h : s.DataOpen) {c : Nat} (hc : c < s.cfg.rxLoopCap) :
    procInput c s = byBackend dmaProcInput spiProcInput s := by
  unfold procInput
  rw [get_bind_apply, branch_apply, if_neg (by simp [dataPlaneClosed_false h]), branch_apply, if_neg (by omega)]

/-! ## The pipeline's calls (R281, R285, R286) -/

theorem pipeProcInput_closed {s : State} (h : dataPlaneClosed s = true) : pipeProcInput s = .ok (.plain .invalid, s) := by
  unfold pipeProcInput
  rw [config_bind_apply]
  unfold inputLoop
  rw [bind_ok (bind_ok (procInput_closed h 0))]
  rfl

/-- PIPE_PROC_INPUT when its first call gives no frame. -/
theorem pipeProcInput_none {s t : State} (h : procInput 0 s = .ok (.nothing, t)) : pipeProcInput s = .ok (⟨.ok, [0x00, 0x00]⟩, t) := by
  unfold pipeProcInput
  rw [config_bind_apply]
  unfold inputLoop
  rw [bind_ok (bind_ok h)]
  rfl

theorem pipeTxChain_closed {s : State} (h : dataPlaneClosed s = true) (b : List Byte) : pipeTxChain b s = .ok (.invalid, s) := by
  unfold pipeTxChain
  rw [config_bind_apply, branch_apply]
  split
  · rfl
  · exact outputOp_closed h _

theorem pipeTxRaw_closed {s : State} (h : dataPlaneClosed s = true) (b : List Byte) : pipeTxRaw b s = .ok (false, s) := by
  unfold pipeTxRaw
  rw [config_bind_apply, branch_apply]
  split
  · unfold outputFrameOp
    rw [bind_ok (outputOp_closed h b)]
    rfl
  · rfl

/-- The four transmit instructions are OUTPUT of the frame, PIPE_TX_RAW with its answer made boolean (R164, R208, R285, R286). -/
theorem exec_of_sends {s t : State} {i : Instr} {b : List Byte} {r : Status} (hs : Sends s.cfg i b) (h : outputOp b s = .ok (r, t)) :
    exec i s = .next (t.respond (match i with
      | .pipeTxRaw _ => boolResult (r == .ok)
      | _ => .plain r)) := by
  rcases hs with rfl | rfl | ⟨pad, hp, rfl⟩ | ⟨rfl, hl⟩
  · exact runCommand_bind h
  · exact runCommand_bind h
  · refine runCommand_bind (m := pipeTxChain (pad ++ b)) (f := .plain) ?_
    unfold pipeTxChain
    rw [config_bind_apply, branch_apply, if_neg (by simp [hp])]
    rw [show (pad ++ b).drop s.cfg.stackPad = b by rw [← hp]; exact List.drop_left]
    exact h
  · refine runCommand_bind (m := pipeTxRaw b) (f := boolResult) ?_
    unfold pipeTxRaw
    rw [config_bind_apply, branch_apply, if_pos hl]
    unfold outputFrameOp
    rw [bind_ok h]
    rfl

/-! ## The filter's gates (R111, R217) -/

theorem filterOp_compiledOut {s : State} (h : s.cfg.promiscuous = true) (m : MacAddr) (a : Bool) :
    filterOp m a s = .ok (.plain .refused, s) := by
  unfold filterOp unlessPromiscuous
  rw [config_bind_apply, branch_apply, if_pos h]
  rfl

theorem filterOp_gated {s : State} (h : s.cfg.promiscuous = false) (m : MacAddr) (a : Bool) :
    filterOp m a s = gated (do return .plain (← byBackend (dmaFilter m a) (pure .no))) s := by
  unfold filterOp unlessPromiscuous
  rw [config_bind_apply, branch_apply, if_neg (by simp [h])]

/-! ## Probing and INIT (R151, R153) -/

theorem hasHardware_past {s : State} (h : s.initState ≠ .start) : hasHardware s = .ok (s.initState != .noHardware, s) := by
  unfold hasHardware
  rw [get_bind_apply, onlyIf_neg h]
  rfl

theorem hasHardware_start {s t : State} (h : s.initState = .start) (hp : probe s = .ok ((), t)) :
    hasHardware s = .ok (t.initState != .noHardware, t) := by
  unfold hasHardware
  rw [get_bind_apply, onlyIf_pos h, bind_ok hp]
  rfl

theorem initialise_noHardware {s : State} (h : s.initState = .noHardware) (m : MacAddr) : initialise m s = .ok (false, s) := by
  unfold initialise
  rw [get_bind_apply, branch_apply, if_neg (by simp [h]), onlyIf_neg (by simp [h])]
  show initialiseProbed m s = _
  unfold initialiseProbed
  rw [get_bind_apply, branch_apply, if_pos h]
  rfl

theorem initialise_initialized {s : State} (h : s.initState = .initialized) (m : MacAddr) : initialise m s = .ok (true, s) := by
  unfold initialise
  rw [get_bind_apply, branch_apply, if_pos h]
  rfl

/-- Past the probe INIT is the backend's bring-up and the session start (R153). -/
theorem initialise_past {s t : State} {ok : Bool} (h1 : s.initState ≠ .start) (h2 : s.initState ≠ .noHardware)
    (h3 : s.initState ≠ .initialized) {m : MacAddr} (h : byBackend (dmaInit m) (spiInit m) s = .ok (ok, t)) :
    initialise m s = (if ok then (do sessionStart; pure true : M Bool) t else .ok (false, t)) := by
  unfold initialise
  rw [get_bind_apply, branch_apply, if_neg h3, onlyIf_neg h1]
  show initialiseProbed m s = _
  unfold initialiseProbed
  rw [get_bind_apply, branch_apply, if_neg h2, bind_ok h, branch_apply]
  rfl

/-- Past the probe PIPE_INIT is INIT (R280). -/
theorem pipeInit_past {s : State} (h1 : s.initState ≠ .start) (m : MacAddr) : pipeInit m s = initialise m s := by
  unfold pipeInit
  rw [bind_ok (hasHardware_past h1), branch_apply]
  by_cases h : s.initState = .noHardware
  · rw [initialise_noHardware h, h]
    rfl
  · rw [if_pos]
    cases hs : s.initState <;> simp_all

end Sys2Proof.Machine
end

