-- ==== Sys2Proof/Laws/CalmDma.lean ====
section
/-! SUPPORT. The DMA backend's operations in runs in which nothing happens between micro-steps: what each leaves, exactly (R192 to R196,
R198, R205, R207, R217 to R219). -/

namespace Sys2Proof.Machine

variable {α β : Type}

/-- The DMA build, with no agent step at any boundary: the quiet schedule, or the prompt completions with no management transaction in
flight. -/
structure StillDma (s : State) : Prop where
  backend : s.cfg.backend = .dma
  script : s.script = []
  prompt : s.prompt = Prompt.quiet ∨ (s.prompt = Prompt.completions ∧ s.dma.mdioBusy = false)

theorem StillDma.calm {s : State} (h : StillDma s) : Calm s := by
  refine ⟨h.script, ?_⟩
  rcases h.prompt with hp | ⟨hp, hb⟩
  · exact .inl hp
  · exact .inr ⟨hp, fun _ => mdioEnabled_of_clear hb, fun hs => by rw [h.backend] at hs; cases hs⟩

theorem StillDma.of {s t : State} (h : StillDma s) (h1 : t.cfg = s.cfg) (h2 : t.script = s.script) (h3 : t.prompt = s.prompt)
    (h4 : t.dma.mdioBusy = s.dma.mdioBusy ∨ t.dma.mdioBusy = false) : StillDma t := by
  refine ⟨h1 ▸ h.backend, h2.trans h.script, ?_⟩
  rcases h.prompt with hp | ⟨hp, hb⟩
  · exact .inl (h3.trans hp)
  · exact .inr ⟨h3.trans hp, by rcases h4 with h4 | h4 <;> simp [h4, hb]⟩

theorem State.Quiet.stillDma {s : State} (h : s.Quiet) (hb : s.cfg.backend = .dma) : StillDma s := ⟨hb, h.1, .inl h.2⟩

/-- A change of the DMA state that leaves the management bus alone. -/
abbrev State.withDma (s : State) (d : DmaState) : State := { s with dma := d }

theorem StillDma.withDma {s : State} (h : StillDma s) {d : DmaState} (hd : d.mdioBusy = s.dma.mdioBusy ∨ d.mdioBusy = false) :
    StillDma (s.withDma d) := h.of rfl rfl rfl hd

theorem macWrite_mdioBusy (d : DmaState) (r : MacReg) (v : U32) : (d.macWrite r v).mdioBusy = d.mdioBusy := by
  cases r <;> simp only [DmaState.macWrite, DmaState.writeEcr] <;> repeat' (first | rfl | split)

/-- One micro-step that is a write of a MAC register. -/
theorem micro_macWrite {s : State} (h : StillDma s) {r : MacReg} (hr : r ≠ .mmfr) (v : U32) :
    micro (macWrite r v) s = .ok ((), s.withDma (s.dma.macWrite r v)) :=
  micro_ok (macWrite_ok (.inl hr) s) (h.withDma (.inl (macWrite_mdioBusy _ _ _))).calm

/-- One micro-step that changes the DMA state in a given way. -/
theorem micro_modifyDma {s : State} (h : StillDma s) {f : DmaState → DmaState} (hf : (f s.dma).mdioBusy = s.dma.mdioBusy ∨
    (f s.dma).mdioBusy = false) : micro (modifyDma f) s = .ok ((), s.withDma (f s.dma)) :=
  micro_ok (modifyDma_apply f s) (h.withDma hf).calm

/-- Memory changed, everything else as it was. -/
abbrev State.withMem (s : State) (m : Memory) : State := { s with dma := { s.dma with mem := m } }

theorem StillDma.withMem {s : State} (h : StillDma s) (m : Memory) : StillDma (s.withMem m) := h.withDma (.inl rfl)

/-- One micro-step that stores a halfword (R83 to R85). -/
theorem micro_write16 {s : State} (h : StillDma s) {a : Nat} (ha : a % 2 = 0) (hr : a + 2 ≤ dmaSpaceEnd) (v : U16) :
    micro (dmaWrite16 a v) s = .ok ((), s.withMem (Memory.writeBytes s.dma.mem a (putLe16 v))) :=
  micro_ok (dmaWrite16_ok ha hr) (h.withMem _).calm

/-- One micro-step that stores a word. -/
theorem micro_write32 {s : State} (h : StillDma s) {a : Nat} (ha : a % 4 = 0) (hr : a + 4 ≤ dmaSpaceEnd) (v : U32) :
    micro (dmaWrite32 a v) s = .ok ((), s.withMem (Memory.writeBytes s.dma.mem a (putLe32 v))) :=
  micro_ok (dmaWrite32_ok ha hr) (h.withMem _).calm

/-- One micro-step that reads a halfword. -/
theorem micro_read16 {s : State} (h : StillDma s) {a : Nat} (ha : a % 2 = 0) (hr : a + 2 ≤ dmaSpaceEnd) {v : U16}
    (hv : Memory.half? s.dma.mem a = some v) : micro (dmaRead16 a) s = .ok (v, s) :=
  micro_ok (dmaRead16_ok ha hr hv) h.calm

/-! ## Descriptors in memory -/

/-- A descriptor's place: aligned and inside the address space (R81, R84). -/
structure Placed (a : Nat) : Prop where
  aligned : a % 8 = 0
  inside : a + 8 ≤ dmaSpaceEnd

theorem Memory.word?_congr {m m' : Memory} {a : Nat} (h0 : Memory.half? m' a = Memory.half? m a)
    (h2 : Memory.half? m' (a + 2) = Memory.half? m (a + 2)) : Memory.word? m' a = Memory.word? m a := by
  simp [Memory.word?, h0, h2]

theorem Memory.writeBytes_append (m : Memory) (a : Nat) (bs cs : List Byte) :
    Memory.writeBytes m a (bs ++ cs) = Memory.writeBytes (Memory.writeBytes m a bs) (a + bs.length) cs := by
  induction bs generalizing m a with
  | nil => rfl
  | cons b bs ih =>
    show Memory.writeBytes (Memory.write m a b) (a + 1) (bs ++ cs) = _
    rw [ih, List.length_cons, show a + (bs.length + 1) = a + 1 + bs.length by omega]
    rfl

theorem putLe32_halves (v : U32) : putLe32 v = putLe16 (v.extractLsb' 0 16) ++ putLe16 (v.extractLsb' 16 16) := by
  have h : ∀ k n i j : Nat, n + j ≤ k → ((v.extractLsb' i k).extractLsb' n j) = v.extractLsb' (i + n) j := by
    intro k n i j hk
    refine BitVec.eq_of_getLsbD_eq fun x hx => ?_
    simp only [BitVec.getLsbD_extractLsb', Nat.add_assoc]
    simp [show n + x < k by omega, hx]
  simp [putLe32, putLe16, lo8, hi8, h]

/-- A word read after a store of it. -/
theorem Memory.word?_write {m : Memory} (h : m.wf) (a : Nat) (v : U32) :
    Memory.word? (Memory.writeBytes m a (putLe32 v)) a = some v := by
  rw [putLe32_halves, Memory.writeBytes_append]
  have hl : (putLe16 (v.extractLsb' 0 16)).length = 2 := rfl
  rw [hl]
  have h1 := Memory.wf_writeBytes h a (putLe16 (v.extractLsb' 0 16))
  unfold Memory.word?
  rw [Memory.half?_write h1, Memory.half?_write_apart h1 (by left; omega), Memory.half?_write h]
  show some _ = some v
  exact congrArg some (identity_halves v)

/-- A word read after a store elsewhere. -/
theorem Memory.word?_write_apart {m : Memory} (h : m.wf) {a b : Nat} {bs : List Byte} (hd : a + 4 ≤ b ∨ b + bs.length ≤ a) :
    Memory.word? (Memory.writeBytes m b bs) a = Memory.word? m a :=
  Memory.word?_congr (Memory.half?_write_apart h (by omega)) (Memory.half?_write_apart h (by omega))

/-- A store outside a descriptor leaves it as it was. -/
theorem DescAt.write_apart {m : Memory} (hm : m.wf) {a b : Nat} {bs : List Byte} {len st : U16} {buf : U32} (h : DescAt m a len st buf)
    (hd : a + 8 ≤ b ∨ b + bs.length ≤ a) : DescAt (Memory.writeBytes m b bs) a len st buf :=
  ⟨(Memory.half?_write_apart hm (by omega)).trans h.len, (Memory.half?_write_apart hm (by omega)).trans h.status,
    (Memory.word?_write_apart hm (by omega)).trans h.buf⟩

/-- A store of the status word. -/
theorem DescAt.write_status {m : Memory} (hm : m.wf) {a : Nat} {len st : U16} {buf : U32} (h : DescAt m a len st buf) (v : U16) :
    DescAt (Memory.writeBytes m (a + 2) (putLe16 v)) a len v buf :=
  ⟨(Memory.half?_write_apart hm (by simp)).trans h.len, Memory.half?_write hm _ _,
    (Memory.word?_write_apart hm (by simp [putLe16])).trans h.buf⟩

/-! ## The rings (R192, R193) -/

/-- One descriptor as R192 leaves it. -/
theorem zeroDescriptor_ok {s : State} (h : StillDma s) {a : Nat} (ha : Placed a) (buf : U32) (hm : s.dma.mem.wf) :
    ∃ m', zeroDescriptor a buf s = .ok ((), s.withMem m') ∧ m'.wf ∧ DescAt m' a 0 0 buf ∧ SameOutside a 8 s.dma.mem m' := by
  obtain ⟨h8, hi⟩ := ha
  let m1 := Memory.writeBytes s.dma.mem a (putLe16 0)
  let m2 := Memory.writeBytes m1 (a + 2) (putLe16 0)
  let m3 := Memory.writeBytes m2 (a + 4) (putLe32 buf)
  have w1 : m1.wf := Memory.wf_writeBytes hm _ _
  have w2 : m2.wf := Memory.wf_writeBytes w1 _ _
  refine ⟨m3, ?_, Memory.wf_writeBytes w2 _ _, ⟨?_, ?_, Memory.word?_write w2 _ _⟩, ?_⟩
  · unfold zeroDescriptor writeLen writeStatus writeBuf
    refine (bind_ok (micro_write16 h (by omega) (by omega) 0)).trans ?_
    refine (bind_ok (micro_write16 (h.withMem m1) (a := a + 2) (by omega) (by omega) 0)).trans ?_
    exact micro_write32 (h.withMem m2) (a := a + 4) (by omega) (by omega) buf
  · rw [Memory.half?_write_apart w2 (by left; omega), Memory.half?_write_apart w1 (by left; omega), Memory.half?_write hm]
  · rw [Memory.half?_write_apart w2 (by left; omega), Memory.half?_write w1]
  · intro x hx
    rw [Memory.sameOutside_writeBytes w2 (a + 4) (putLe32 buf) x (by simp [putLe32]; omega),
      Memory.sameOutside_writeBytes w1 (a + 2) (putLe16 0) x (by simp [putLe16]; omega),
      Memory.sameOutside_writeBytes hm a (putLe16 0) x (by simp [putLe16]; omega)]

/-- A ring's place: aligned and inside the address space (R81, R84). -/
structure RingPlaced (base : U32) (n : Nat) : Prop where
  aligned : base.toNat % 8 = 0
  inside : base.toNat + 8 * n ≤ dmaSpaceEnd

theorem RingPlaced.desc {base : U32} {n i : Nat} (h : RingPlaced base n) (hi : i < n) : Placed (descAddr base i) := by
  have := h.aligned
  have := h.inside
  exact ⟨by unfold descAddr; omega, by unfold descAddr; omega⟩

theorem descAddr_apart {base : U32} {i j : Nat} (h : i ≠ j) : descAddr base i + 8 ≤ descAddr base j ∨ descAddr base j + 8 ≤ descAddr base i := by
  unfold descAddr
  omega

/-- A descriptor reads as memory does on its eight bytes. -/
theorem DescAt.congr {m m' : Memory} {a : Nat} {len st : U16} {buf : U32} (h : DescAt m a len st buf)
    (he : ∀ x, a ≤ x → x < a + 8 → Memory.read? m' x = Memory.read? m x) : DescAt m' a len st buf :=
  ⟨(Memory.half?_congr (he _ (by omega) (by omega)) (he _ (by omega) (by omega))).trans h.len,
    (Memory.half?_congr (he _ (by omega) (by omega)) (he _ (by omega) (by omega))).trans h.status,
    (Memory.word?_congr (Memory.half?_congr (he _ (by omega) (by omega)) (he _ (by omega) (by omega)))
      (Memory.half?_congr (he _ (by omega) (by omega)) (he _ (by omega) (by omega)))).trans h.buf⟩

/-- R192 for a whole ring. -/
theorem zeroRing_ok {base bb : U32} {size n : Nat} (hp : RingPlaced base n) (k : Nat) {i : Nat} (hik : i + k = n) {s : State}
    (h : StillDma s) (hm : s.dma.mem.wf) :
    ∃ m', zeroRing base bb size i k s = .ok ((), s.withMem m') ∧ m'.wf
      ∧ (∀ j, i ≤ j → j < n → DescAt m' (descAddr base j) 0 0 (bb + BitVec.ofNat 32 (j * size)))
      ∧ SameOutside (descAddr base i) (8 * k) s.dma.mem m' := by
  induction k generalizing i s with
  | zero => exact ⟨s.dma.mem, rfl, hm, fun j h1 h2 => by omega, fun _ _ => rfl⟩
  | succ k ih =>
    obtain ⟨m1, e1, w1, d1, o1⟩ := zeroDescriptor_ok h (hp.desc (i := i) (by omega)) (bb + BitVec.ofNat 32 (i * size)) hm
    obtain ⟨m2, e2, w2, d2, o2⟩ := ih (i := i + 1) (by omega) (h.withMem m1) w1
    have hd : descAddr base (i + 1) = descAddr base i + 8 := by unfold descAddr; omega
    refine ⟨m2, ?_, w2, fun j h1 h2 => ?_, fun x hx => ?_⟩
    · unfold zeroRing
      exact (bind_ok e1).trans e2
    · by_cases hj : j = i
      · subst hj
        exact d1.congr fun x h3 h4 => o2 x (by omega)
      · exact d2 j (by omega) h2
    · rw [o2 x (by omega), o1 x (by omega)]

/-- R193 for a receive ring. -/
theorem seedRing_ok {base : U32} {n : Nat} (hp : RingPlaced base n) {buf : Nat → U32} (k : Nat) {i : Nat} (hik : i + k = n) {s : State}
    (h : StillDma s) (hm : s.dma.mem.wf) (hd : ∀ j, i ≤ j → j < n → DescAt s.dma.mem (descAddr base j) 0 0 (buf j)) :
    ∃ m', seedRing base i k s = .ok ((), s.withMem m') ∧ m'.wf
      ∧ (∀ j, i ≤ j → j < n → DescAt m' (descAddr base j) 0 (if j + 1 = n then 0xA000 else 0x8000) (buf j))
      ∧ SameOutside (descAddr base i) (8 * k) s.dma.mem m' := by
  induction k generalizing i s with
  | zero => exact ⟨s.dma.mem, rfl, hm, fun j h1 h2 => by omega, fun _ _ => rfl⟩
  | succ k ih =>
    obtain ⟨h8, hin⟩ := hp.desc (i := i) (by omega)
    have hdn : descAddr base (i + 1) = descAddr base i + 8 := by unfold descAddr; omega
    let v : U16 := bitOwn ||| (if k = 0 then bitWrap else 0)
    let m1 := Memory.writeBytes s.dma.mem (descAddr base i + 2) (putLe16 v)
    have w1 : m1.wf := Memory.wf_writeBytes hm _ _
    have e1 := micro_write16 h (a := descAddr base i + 2) (by omega) (by omega) v
    have hd1 : ∀ j, i + 1 ≤ j → j < n → DescAt m1 (descAddr base j) 0 0 (buf j) := fun j h1 h2 =>
      (hd j (by omega) h2).write_apart hm (by simp only [putLe16, List.length_cons, List.length_nil]; unfold descAddr; omega)
    obtain ⟨m2, e2, w2, d2, o2⟩ := ih (i := i + 1) (by omega) (h.withMem m1) w1 hd1
    refine ⟨m2, ?_, w2, fun j h1 h2 => ?_, fun x hx => ?_⟩
    · unfold seedRing
      exact (bind_ok e1).trans e2
    · by_cases hj : j = i
      · subst hj
        have hv : v = if j + 1 = n then 0xA000 else 0x8000 := by
          show bitOwn ||| (if k = 0 then bitWrap else 0) = _
          by_cases hk : k = 0
          · rw [if_pos hk, if_pos (by omega)]; rfl
          · rw [if_neg hk, if_neg (by omega)]; rfl
        have := ((hd j h1 h2).write_status hm v).congr (m' := m2) fun x h3 h4 => o2 x (by omega)
        rwa [hv] at this
      · exact d2 j (by omega) h2
    · rw [o2 x (by omega), Memory.sameOutside_writeBytes hm _ _ x (by simp only [putLe16, List.length_cons, List.length_nil]; omega)]

/-- What `Config.wf` says of the rings and buffers. -/
structure Layout (c : Config) : Prop where
  rxPos : 1 ≤ c.nRx
  txPos : 1 ≤ c.nTx
  rx : RingPlaced c.rxRingBase c.nRx
  tx : RingPlaced c.txRingBase c.nTx
  rxBuf : c.rxBufBase.toNat + c.nRx * c.bufSize ≤ dmaSpaceEnd
  txBuf : c.txBufBase.toNat + c.nTx * c.bufSize ≤ dmaSpaceEnd
  rings : c.rxRingBase.toNat + 8 * c.nRx ≤ c.txRingBase.toNat ∨ c.txRingBase.toNat + 8 * c.nTx ≤ c.rxRingBase.toNat
  rxRxBuf : c.rxRingBase.toNat + 8 * c.nRx ≤ c.rxBufBase.toNat ∨ c.rxBufBase.toNat + c.nRx * c.bufSize ≤ c.rxRingBase.toNat
  txTxBuf : c.txRingBase.toNat + 8 * c.nTx ≤ c.txBufBase.toNat ∨ c.txBufBase.toNat + c.nTx * c.bufSize ≤ c.txRingBase.toNat
  lines : c.bufSize % 64 = 0
  txLines : c.txBufBase.toNat % 64 = 0
  fits : c.maxLenTagged ≤ c.bufSize
  small : c.bufSize < 16384
  maxFl : c.maxFl = c.maxLenTagged + 4

theorem layout_of_wf {c : Config} (h : c.wf = true) : Layout c := by
  simp only [Config.wf, Bool.and_eq_true, decide_eq_true_eq, disjointRanges, Bool.or_eq_true, and_assoc] at h
  obtain ⟨h1, h2, h3, h4, h5, h6, -, -, -, -, -, -, -, -, -, -, -, -, -, -, -, -, -, h7, h8, -, h9, h10, h11, h12, h13, h14, h15, -, -, h16, -⟩ := h
  exact ⟨h1, h2, ⟨h7, h10⟩, ⟨h8, h11⟩, h12, h13, h14, h15, h16, h3, h9, h4, h5, h6⟩


/-- P6 (R192, R193): both rings seeded, and nothing else changed. -/
theorem dmaRings_ok {s : State} (h : StillDma s) (hl : Layout s.cfg) (hm : s.dma.mem.wf) :
    ∃ m', dmaRings s = .ok ((), s.withMem m') ∧ m'.wf ∧ RingsSeeded s.cfg s.dma.mem m' := by
  have hrx : descAddr s.cfg.rxRingBase 0 = s.cfg.rxRingBase.toNat := by simp [descAddr]
  have htx : descAddr s.cfg.txRingBase 0 = s.cfg.txRingBase.toNat := by simp [descAddr]
  have hap : ∀ i j, i < s.cfg.nRx → j < s.cfg.nTx →
      descAddr s.cfg.rxRingBase i + 8 ≤ descAddr s.cfg.txRingBase j ∨ descAddr s.cfg.txRingBase j + 8 ≤ descAddr s.cfg.rxRingBase i := by
    intro i j h1 h2
    have := hl.rings
    unfold descAddr
    omega
  obtain ⟨m1, e1, w1, d1, o1⟩ := zeroRing_ok (bb := s.cfg.rxBufBase) (size := s.cfg.bufSize) hl.rx s.cfg.nRx (i := 0) (by omega) h hm
  obtain ⟨m2, e2, w2, d2, o2⟩ := zeroRing_ok (bb := s.cfg.txBufBase) (size := s.cfg.bufSize) hl.tx s.cfg.nTx (i := 0) (by omega)
    (h.withMem m1) w1
  have d1' : ∀ j, 0 ≤ j → j < s.cfg.nRx → DescAt m2 (descAddr s.cfg.rxRingBase j) 0 0 (s.cfg.rxBufBase + BitVec.ofNat 32 (j * s.cfg.bufSize)) :=
    fun j h1 h2 => (d1 j h1 h2).congr fun x h3 h4 => o2 x (by
      have := hl.rings
      rw [htx]
      unfold descAddr at h3 h4
      omega)
  obtain ⟨m3, e3, w3, d3, o3⟩ := seedRing_ok hl.rx s.cfg.nRx (i := 0) (by omega) (h.withMem m2) w2 d1'
  have d2' : ∀ j, j < s.cfg.nTx → DescAt m3 (descAddr s.cfg.txRingBase j) 0 0 (s.cfg.txBufBase + BitVec.ofNat 32 (j * s.cfg.bufSize)) :=
    fun j h2 => (d2 j (by omega) h2).congr fun x h3 h4 => o3 x (by
      have := hl.rings
      rw [hrx]
      unfold descAddr at h3 h4
      omega)
  obtain ⟨h8, hin⟩ := hl.tx.desc (i := s.cfg.nTx - 1) (by have := hl.txPos; omega)
  have e4 := micro_write16 (h.withMem m3) (a := descAddr s.cfg.txRingBase (s.cfg.nTx - 1) + 2) (by omega) (by omega) bitWrap
  refine ⟨_, ?_, Memory.wf_writeBytes w3 (descAddr s.cfg.txRingBase (s.cfg.nTx - 1) + 2) (putLe16 bitWrap), ⟨fun i hi => ?_, fun i hi => ?_, fun x h1 h2 => ?_⟩⟩
  · unfold dmaRings
    rw [config_bind_apply]
    exact (bind_ok e1).trans ((bind_ok e2).trans ((bind_ok e3).trans e4))
  · refine (d3 i (by omega) hi).write_apart w3 ?_
    have := hap i (s.cfg.nTx - 1) hi (by have := hl.txPos; omega)
    simp only [putLe16, List.length_cons, List.length_nil]
    omega
  · by_cases hl2 : i + 1 = s.cfg.nTx
    · rw [if_pos hl2]
      have : s.cfg.nTx - 1 = i := by omega
      rw [this]
      exact (d2' i hi).write_status w3 bitWrap
    · rw [if_neg hl2]
      refine (d2' i hi).write_apart w3 ?_
      simp only [putLe16, List.length_cons, List.length_nil]
      unfold descAddr
      omega
  · have hlast : descAddr s.cfg.txRingBase (s.cfg.nTx - 1) + 8 = s.cfg.txRingBase.toNat + 8 * s.cfg.nTx := by
      have := hl.txPos
      unfold descAddr
      omega
    have hfirst : s.cfg.txRingBase.toNat ≤ descAddr s.cfg.txRingBase (s.cfg.nTx - 1) := by unfold descAddr; omega
    rw [Memory.sameOutside_writeBytes w3 _ _ x (by simp only [putLe16, List.length_cons, List.length_nil]; omega),
      o3 x (by rw [hrx]; omega), o2 x (by rw [htx]; omega), o1 x (by rw [hrx]; omega)]

/-! ## P7 to P9 (R194 to R196) -/

/-- A run of plain register writes, each a micro-step. -/
theorem macWrite_then {s : State} (h : StillDma s) {r : MacReg} (hr : r ≠ .mmfr) (v : U32) (f : Unit → M β) :
    (micro (macWrite r v) >>= f) s = f () (s.withDma (s.dma.macWrite r v)) := bind_ok (micro_macWrite h hr v)

theorem StillDma.wrote {s : State} (h : StillDma s) (r : MacReg) (v : U32) : StillDma (s.withDma (s.dma.macWrite r v)) :=
  h.withDma (.inl (macWrite_mdioBusy _ _ _))

theorem aligned_and {v : U32} (h : v.toNat % 8 = 0) : v &&& 0xFFFFFFF8 = v := by
  refine BitVec.eq_of_getLsbD_eq fun i hi => ?_
  rw [BitVec.getLsbD_and]
  by_cases h3 : i < 3
  · have : v.getLsbD i = false := by
      have hv : v.toNat = 8 * (v.toNat / 8) := by omega
      unfold BitVec.getLsbD
      rw [hv, show (8 : Nat) = 2 ^ 3 by rfl, Nat.testBit_two_pow_mul]
      simp; omega
    simp [this]
  · have : (0xFFFFFFF8#32).getLsbD i = true := by
      rw [show (0xFFFFFFF8#32) = ~~~(7#32) by rfl, BitVec.getLsbD_not]
      have : (7#32).getLsbD i = false := by
        unfold BitVec.getLsbD
        exact Nat.testBit_lt_two_pow (Nat.lt_of_lt_of_le (by decide : 7 < 2 ^ 3) (Nat.pow_le_pow_right (by decide) (by omega)))
      simp [this]
      omega
    simp [this]

theorem getLsbD_ofNat_high {n i : Nat} {w : Nat} (h : n < 2 ^ i) : (BitVec.ofNat w n).getLsbD i = false := by
  rw [BitVec.getLsbD_ofNat]
  simp [Nat.testBit_lt_two_pow h]

theorem mrbr_kept {n : Nat} (h1 : n % 64 = 0) (h2 : n < 16384) : BitVec.ofNat 32 n &&& 0x00003FC0 = BitVec.ofNat 32 n := by
  refine BitVec.eq_of_getLsbD_eq fun i hi => ?_
  rw [BitVec.getLsbD_and]
  by_cases h6 : i < 6
  · have : (BitVec.ofNat 32 n).getLsbD i = false := by
      rw [BitVec.getLsbD_ofNat, show n = 2 ^ 6 * (n / 64) by omega, Nat.testBit_two_pow_mul]
      simp; omega
    simp [this]
  · by_cases h14 : i < 14
    · have : (0x00003FC0#32).getLsbD i = true := by
        have : ∀ j : Fin 14, 6 ≤ j.val → (0x00003FC0#32).getLsbD j.val = true := by decide
        exact this ⟨i, h14⟩ (by simp; omega)
      simp [this]
    · rw [getLsbD_ofNat_high (Nat.lt_of_lt_of_le (show n < 2 ^ 14 from h2) (Nat.pow_le_pow_right (by decide) (by omega)))]
      simp

theorem rcr_kept {n : Nat} (h : n < 16384) (p : Bool) :
    ((BitVec.ofNat 32 n <<< 16) ||| (if p then 1#32 else 0#32)) &&& 0x3FFF0001#32
      = (BitVec.ofNat 32 n <<< 16) ||| (if p then 1#32 else 0#32) := by
  have hp : ∀ i, i ≠ 0 → (if p then 1#32 else 0#32).getLsbD i = false := by
    intro i hi
    cases p
    · simp
    · exact getLsbD_ofNat_high (Nat.one_lt_two_pow hi)
  have hm : ∀ j : Fin 32, (0x3FFF0001#32).getLsbD j.val = (decide (j.val = 0) || (decide (16 ≤ j.val) && decide (j.val < 30))) := by decide
  refine BitVec.eq_of_getLsbD_eq fun i hi => ?_
  rw [BitVec.getLsbD_and, hm ⟨i, hi⟩, BitVec.getLsbD_or, BitVec.getLsbD_shiftLeft]
  by_cases h0 : i = 0
  · subst h0; simp
  · rw [hp i h0]
    by_cases h16 : 16 ≤ i
    · by_cases h30 : i < 30
      · simp [h0, h16, h30]
      · rw [getLsbD_ofNat_high (i := i - 16) (Nat.lt_of_lt_of_le (show n < 2 ^ 14 from h) (Nat.pow_le_pow_right (by decide) (by omega)))]
        simp
    · simp [show i < 16 by omega]

theorem paur_kept (m : MacAddr) : paurOf m &&& 0xFFFF0000#32 = paurOf m := by
  refine BitVec.eq_of_getLsbD_eq fun i hi => ?_
  rw [BitVec.getLsbD_and, getLsbD_high i hi]
  unfold paurOf
  rw [BitVec.getLsbD_append]
  by_cases h : 16 ≤ i
  · simp [h]
  · simp [h, show i < 16 by omega]

/-- PALR then PAUR (R161, R363). -/
theorem dmaWriteStation_ok {s : State} (h : StillDma s) (m : MacAddr) :
    dmaWriteStation m s = .ok ((), s.withDma { s.dma with regs := { s.dma.regs with palr := palrOf m, paur := paurOf m } }) := by
  unfold dmaWriteStation
  refine (macWrite_then h (by decide) _ _).trans ?_
  refine (micro_macWrite (h.wrote .palr _) (by decide) _).trans ?_
  show Except.ok ((), s.withDma { s.dma with regs := { s.dma.regs with palr := palrOf m, paur := paurOf m &&& 0xFFFF0000#32 } }) = _
  rw [paur_kept]

/-- A register write, the new registers said field by field. -/
theorem regs_then {s : State} (h : StillDma s) {r : MacReg} (hr : r ≠ .mmfr) {v : U32} {g : MacRegs}
    (hg : s.dma.macWrite r v = { s.dma with regs := g }) (f : Unit → M β) :
    (micro (macWrite r v) >>= f) s = f () (s.withDma { s.dma with regs := g }) := by
  rw [macWrite_then h hr, hg]

theorem StillDma.withRegs {s : State} (h : StillDma s) (g : MacRegs) : StillDma (s.withDma { s.dma with regs := g }) := h.withDma (.inl rfl)

/-- P7's first five register writes (R194). -/
theorem dmaProgram_rings {s : State} (h : StillDma s) (hl : Layout s.cfg) (f : M β) :
    (do micro (macWrite .rdsr s.cfg.rxRingBase)
        micro (macWrite .tdsr s.cfg.txRingBase)
        micro (macWrite .mrbr (BitVec.ofNat 32 s.cfg.bufSize))
        micro (macWrite .rcr (rcrValue s.cfg))
        micro (macWrite .acc s.cfg.csumFlags)
        f) s = f (s.withDma { s.dma with regs := { s.dma.regs with
          rdsr := s.cfg.rxRingBase, tdsr := s.cfg.txRingBase, mrbr := BitVec.ofNat 32 s.cfg.bufSize, rcr := rcrValue s.cfg
          acc := s.cfg.csumFlags } }) := by
  have e1 := aligned_and hl.rx.aligned
  have e2 := aligned_and hl.tx.aligned
  have e3 := mrbr_kept hl.lines hl.small
  have e4 : rcrValue s.cfg &&& 0x3FFF0001 = rcrValue s.cfg :=
    rcr_kept (by have := hl.maxFl; have := hl.fits; have := hl.small; have := hl.lines; omega) s.cfg.promiscuous
  refine (regs_then h (g := { s.dma.regs with rdsr := s.cfg.rxRingBase }) (by decide) (by simp only [DmaState.macWrite, e1]) _).trans ?_
  have h1 := h.withRegs { s.dma.regs with rdsr := s.cfg.rxRingBase }
  refine (regs_then h1 (g := { s.dma.regs with rdsr := s.cfg.rxRingBase, tdsr := s.cfg.txRingBase }) (by decide)
    (by simp only [DmaState.macWrite, e2]) _).trans ?_
  have h2 := h.withRegs { s.dma.regs with rdsr := s.cfg.rxRingBase, tdsr := s.cfg.txRingBase }
  refine (regs_then h2 (g := { s.dma.regs with
    rdsr := s.cfg.rxRingBase, tdsr := s.cfg.txRingBase, mrbr := BitVec.ofNat 32 s.cfg.bufSize }) (by decide)
    (by simp only [DmaState.macWrite, e3]) _).trans ?_
  have h3 := h.withRegs { s.dma.regs with rdsr := s.cfg.rxRingBase, tdsr := s.cfg.txRingBase, mrbr := BitVec.ofNat 32 s.cfg.bufSize }
  refine (regs_then h3 (g := { s.dma.regs with
    rdsr := s.cfg.rxRingBase, tdsr := s.cfg.txRingBase, mrbr := BitVec.ofNat 32 s.cfg.bufSize, rcr := rcrValue s.cfg }) (by decide)
    (by simp only [DmaState.macWrite, e4]) _).trans ?_
  have h4 := h.withRegs { s.dma.regs with
    rdsr := s.cfg.rxRingBase, tdsr := s.cfg.txRingBase, mrbr := BitVec.ofNat 32 s.cfg.bufSize, rcr := rcrValue s.cfg }
  exact regs_then h4 (by decide) rfl _

/-- P7 (R194). -/
theorem dmaProgram_ok {s : State} (h : StillDma s) (hl : Layout s.cfg) (m : MacAddr) :
    dmaProgram m s = .ok ((), { s with mac := m, dma := { s.dma with
      fltColl0 := 0, fltColl1 := 0
      regs := { s.dma.regs with
        rdsr := s.cfg.rxRingBase, tdsr := s.cfg.txRingBase, mrbr := BitVec.ofNat 32 s.cfg.bufSize, rcr := rcrValue s.cfg
        acc := s.cfg.csumFlags, palr := palrOf m, paur := paurOf m, fltPres0 := 0, fltPres1 := 0 } } }) := by
  unfold dmaProgram
  rw [config_bind_apply]
  refine (dmaProgram_rings h hl _).trans ?_
  rw [modify_bind_apply]
  let g : MacRegs := { s.dma.regs with
    rdsr := s.cfg.rxRingBase, tdsr := s.cfg.txRingBase, mrbr := BitVec.ofNat 32 s.cfg.bufSize, rcr := rcrValue s.cfg
    acc := s.cfg.csumFlags }
  let t : State := { s with mac := m, dma := { s.dma with regs := g } }
  have ht : StillDma t := h.of rfl rfl rfl (.inl rfl)
  refine (bind_ok (dmaWriteStation_ok ht m)).trans ?_
  let g1 : MacRegs := { g with palr := palrOf m, paur := paurOf m }
  have h1 : StillDma (t.withDma { t.dma with regs := g1 }) := ht.withRegs g1
  refine (regs_then h1 (g := { g1 with fltPres0 := 0 }) (by decide) rfl _).trans ?_
  refine (regs_then (h1.withRegs { g1 with fltPres0 := 0 }) (g := { g1 with fltPres0 := 0, fltPres1 := 0 }) (by decide) rfl _).trans ?_
  rfl

/-- R192 to R196 in one run, the MAC disabled before. -/
theorem dmaBringUp_ok {s : State} (h : StillDma s) (hl : Layout s.cfg) (hm : s.dma.mem.wf) (he : s.dma.regs.ecr = 0) (m : MacAddr) :
    ∃ m', dmaBringUp m s = .ok ((), { s with mac := m, dma := { s.dma.afterInit s.cfg m with mem := m' } }) ∧ m'.wf
      ∧ RingsSeeded s.cfg s.dma.mem m' := by
  obtain ⟨m', e1, w1, r1⟩ := dmaRings_ok h hl hm
  refine ⟨m', ?_, w1, r1⟩
  have e2 := dmaProgram_ok (h.withMem m') hl m
  unfold dmaBringUp
  refine (bind_ok e1).trans ((bind_ok e2).trans ?_)
  unfold dmaUnmask
  refine Eq.trans (bind_ok (Eq.trans (macWrite_then ?a (by decide) _ _) (micro_macWrite ?b (by decide) _))) ?_
  case a => exact h.of rfl rfl rfl (.inl rfl)
  case b => exact h.of rfl rfl rfl (.inl rfl)
  unfold dmaEnable
  rw [modifyDma_bind_apply]
  refine Eq.trans (bind_ok (micro_modifyDma ?a (.inl rfl))) ?_
  case a => exact h.of rfl rfl rfl (.inl rfl)
  refine Eq.trans (micro_macWrite ?a (by decide) _) ?_
  case a => exact h.of rfl rfl rfl (.inl rfl)
  simp only [DmaState.macWrite, DmaState.writeEcr, State.withDma, he]
  rfl

/-- The DMA part of DEINIT (R198). -/
theorem dmaShutDown_ok {s : State} (h : StillDma s) :
    dmaShutDown s = .ok ((), s.withDma { s.dma with
      rxActive := false, txActive := false, mdioBusy := false
      regs := { s.dma.regs with
        eimr := 0, ecr := 0, eir := s.dma.regs.eir &&& ~~~0x00000007, fltPres0 := 0, fltPres1 := 0 } }) := by
  unfold dmaShutDown
  refine Eq.trans (macWrite_then h (by decide) _ _) ?_
  refine Eq.trans (macWrite_then ?a (by decide) _ _) ?_
  case a => exact h.of rfl rfl rfl (.inl rfl)
  refine Eq.trans (macWrite_then ?a (by decide) _ _) ?_
  case a => exact h.of rfl rfl rfl (.inl rfl)
  refine Eq.trans (macWrite_then ?a (by decide) _ _) ?_
  case a => exact h.of rfl rfl rfl (.inl rfl)
  refine Eq.trans (macWrite_then ?a (by decide) _ _) ?_
  case a => exact h.of rfl rfl rfl (.inl rfl)
  unfold setMdioBusy
  refine Eq.trans (micro_modifyDma ?a (.inr rfl)) ?_
  case a => exact h.of rfl rfl rfl (.inl rfl)
  rfl

/-! ## Receive (R205) -/

theorem micro_testAndClear {s : State} (h : StillDma s) :
    micro testAndClearRxPending s = .ok (s.dma.rxPending, s.withDma { s.dma with rxPending := false }) :=
  micro_ok rfl (h.of (t := s.withDma { s.dma with rxPending := false }) rfl rfl rfl (.inl rfl)).calm

/-- The receive buffer of a slot lies inside the address space. -/
theorem Layout.rxSlot {c : Config} (hl : Layout c) {i n : Nat} (hi : i < c.nRx) (hn : n ≤ c.bufSize) : rxBufAddr c i + n ≤ dmaSpaceEnd := by
  have h := hl.rxBuf
  have : (i + 1) * c.bufSize ≤ c.nRx * c.bufSize := Nat.mul_le_mul_right _ hi
  rw [Nat.add_mul] at this
  unfold rxBufAddr
  omega

theorem Layout.txSlot {c : Config} (hl : Layout c) {i n : Nat} (hi : i < c.nTx) (hn : n ≤ c.bufSize) : txBufAddr c i + n ≤ dmaSpaceEnd := by
  have h := hl.txBuf
  have : (i + 1) * c.bufSize ≤ c.nTx * c.bufSize := Nat.mul_le_mul_right _ hi
  rw [Nat.add_mul] at this
  unfold txBufAddr
  omega

theorem hostReadRange_rest (d : DmaState) (a n : Nat) : ∃ c, (hostReadRange d a n).2 = { d with cache := c } := by
  induction n generalizing d a with
  | zero => exact ⟨d.cache, rfl⟩
  | succ n ih =>
    unfold hostReadRange hostReadByte
    obtain ⟨c, hc⟩ := ih { d with cache := putLine d.cache (lineForAccess d (lineOf a)) } (a + 1)
    cases h1 : Memory.read? (lineForAccess d (lineOf a)).data a with
    | none => exact ⟨putLine d.cache (lineForAccess d (lineOf a)), by simp only [h1]⟩
    | some b =>
      cases h2 : hostReadRange { d with cache := putLine d.cache (lineForAccess d (lineOf a)) } (a + 1) n with
      | mk o d2 =>
        rw [h2] at hc
        refine ⟨c, ?_⟩
        simp only [h1, h2]
        cases o with
        | none => exact hc
        | some bs => exact hc

/-- A host read neither reads nor changes the receive flag. -/
theorem hostReadRange_rxPending (d : DmaState) (x : Bool) (a n : Nat) :
    hostReadRange { d with rxPending := x } a n = ((hostReadRange d a n).1, { (hostReadRange d a n).2 with rxPending := x }) := by
  induction n generalizing d a with
  | zero => rfl
  | succ n ih =>
    have e : hostReadByte { d with rxPending := x } a = ((hostReadByte d a).1, { (hostReadByte d a).2 with rxPending := x }) := rfl
    unfold hostReadRange
    rw [e]
    cases h1 : hostReadByte d a with
    | mk o d1 =>
      cases o with
      | none => rfl
      | some b =>
        simp only [ih]
        cases h2 : hostReadRange d1 (a + 1) n with
        | mk o2 d2 => cases o2 <;> rfl

theorem hostWriteRange_rest (d : DmaState) (a : Nat) (bs : List Byte) : ∃ c, hostWriteRange d a bs = { d with cache := c } := by
  induction bs generalizing d a with
  | nil => exact ⟨d.cache, rfl⟩
  | cons b bs ih =>
    obtain ⟨c, hc⟩ := ih (hostWriteByte d a b) (a + 1)
    exact ⟨c, hc⟩

/-- Lines 10 to 12: an error bit is counted, nothing is drawn. -/
theorem dmaTakeFrame_error {s : State} {i n : Nat} {st : U16} (he : st &&& 0x0037 ≠ 0) :
    dmaTakeFrame i st n s = .ok (.nothing, { s with cntRxErr := s.cntRxErr + 1 }) := by
  unfold dmaTakeFrame
  rw [config_bind_apply, branch_apply, if_pos (by simpa [hasRxError, rxErrMask] using he)]
  rfl

/-- Lines 13 to 15: a failed allocation is counted. -/
theorem dmaTakeFrame_noMemory {s : State} {i n : Nat} {st : U16} (he : st &&& 0x0037 = 0) (ha : s.draws.takeAlloc.1 = false) :
    dmaTakeFrame i st n s = .ok (.nothing, { s with draws := s.draws.takeAlloc.2, cntRxNomem := s.cntRxNomem + 1 }) := by
  unfold dmaTakeFrame drawAlloc
  rw [config_bind_apply, branch_apply, if_neg (by simpa [hasRxError, rxErrMask] using he), drawBy_bind_apply, ha]
  rfl

/-- Lines 16 to 19: the frame's bytes through the cache, then the timestamp. -/
theorem dmaTakeFrame_frame {s : State} (h : StillDma s) {i n : Nat} {st : U16} (he : st &&& 0x0037 = 0) (ha : s.draws.takeAlloc.1 = true)
    (hr : rxBufAddr s.cfg i + n ≤ dmaSpaceEnd) {b : List Byte} (hb : (hostReadRange s.dma (rxBufAddr s.cfg i) n).1 = some b) :
    dmaTakeFrame i st n s = .ok (.frame s.draws.takeAlloc.2.takeTimestamp.1 b,
      { s with
        draws := s.draws.takeAlloc.2.takeTimestamp.2
        dma := (hostReadRange s.dma (rxBufAddr s.cfg i) n).2 }) := by
  unfold dmaTakeFrame drawAlloc drawTimestamp
  rw [config_bind_apply, branch_apply, if_neg (by simpa [hasRxError, rxErrMask] using he), drawBy_bind_apply, ha]
  obtain ⟨c, hc⟩ := hostReadRange_rest s.dma (rxBufAddr s.cfg i) n
  have e : hostReadBytes (rxBufAddr s.cfg i) n { s with draws := s.draws.takeAlloc.2 }
      = .ok (b, { s with draws := s.draws.takeAlloc.2, dma := (hostReadRange s.dma (rxBufAddr s.cfg i) n).2 }) := by
    unfold hostReadBytes
    rw [bind_ok (checkDmaRange_ok hr _), get_bind_apply, set_bind_apply]
    show orFault (hostReadRange s.dma (rxBufAddr s.cfg i) n).1 _ _ = _
    rw [hb]
    rfl
  have hs : StillDma { s with draws := s.draws.takeAlloc.2, dma := (hostReadRange s.dma (rxBufAddr s.cfg i) n).2 } :=
    h.of rfl rfl rfl (.inl (by rw [hc]))
  rw [if_pos rfl, bind_ok (micro_ok e hs.calm), drawBy_bind_apply]
  rfl

/-- Lines 20 to 24 (R93): re-armed, handed off, the doorbell rung, the cursor advanced, the flag set again. -/
theorem dmaRearm_ok {s : State} (h : StillDma s) {i : Nat} {st : U16} (hp : Placed (descAddr s.cfg.rxRingBase i)) :
    dmaRearm i st s = .ok ((), s.withDma { s.dma with
      mem := withDescriptor s.dma.mem (descAddr s.cfg.rxRingBase i) 0 (0x8000 ||| (st &&& 0x2000))
      rxActive := true, rxPending := true, rxCursor := if st.getLsbD 13 then 0 else i + 1 }) := by
  obtain ⟨h8, hin⟩ := hp
  unfold dmaRearm writeLen writeStatus setRxPending
  rw [config_bind_apply]
  refine (bind_ok (micro_write16 h (by omega) (by omega) 0)).trans ?_
  have h1 := h.withMem (Memory.writeBytes s.dma.mem (descAddr s.cfg.rxRingBase i) (putLe16 0))
  refine (bind_ok (micro_write16 h1 (a := descAddr s.cfg.rxRingBase i + 2) (by omega) (by omega) _)).trans ?_
  refine (macWrite_then (h.withMem _) (by decide) _ _).trans ?_
  rw [modifyDma_bind_apply]
  refine (micro_ok (modify_apply _ _) ?_).trans ?_
  · exact StillDma.calm (by exact h.of rfl rfl rfl (.inl rfl))
  · rfl

/-- A set flag, the cursor's descriptor still hardware's: nothing. -/
theorem dmaReceive_owned {s : State} (h : StillDma s) (hp : Placed (descAddr s.cfg.rxRingBase s.dma.rxCursor)) {st : U16}
    (hst : Memory.half? s.dma.mem (descAddr s.cfg.rxRingBase s.dma.rxCursor + 2) = some st) (ho : st.getLsbD 15 = true) :
    dmaReceive s = .ok (.nothing, s) := by
  obtain ⟨h8, hin⟩ := hp
  unfold dmaReceive readStatus
  rw [get_bind_apply]
  refine (bind_ok (micro_read16 h (by omega) (by omega) hst)).trans ?_
  rw [branch_apply, if_pos (show owned st = true from ho)]
  rfl

/-- A descriptor the host owns: invalidate, length, take, re-arm (R92). -/
theorem dmaReceive_taken {s t : State} {r : Received} (h : StillDma s) (hp : Placed (descAddr s.cfg.rxRingBase s.dma.rxCursor)) {st n : U16}
    (hst : Memory.half? s.dma.mem (descAddr s.cfg.rxRingBase s.dma.rxCursor + 2) = some st) (ho : st.getLsbD 15 = false)
    (hn : Memory.half? s.dma.mem (descAddr s.cfg.rxRingBase s.dma.rxCursor) = some n)
    (ht : dmaTakeFrame s.dma.rxCursor st n.toNat
      (s.withDma (cacheInvalidate (rxBufAddr s.cfg s.dma.rxCursor) s.cfg.bufSize s.dma)) = .ok (r, t))
    (hc : t.cfg = s.cfg) (hs : StillDma t) :
    dmaReceive s = .ok (r, t.withDma { t.dma with
      mem := withDescriptor t.dma.mem (descAddr s.cfg.rxRingBase s.dma.rxCursor) 0 (0x8000 ||| (st &&& 0x2000))
      rxActive := true, rxPending := true, rxCursor := if st.getLsbD 13 then 0 else s.dma.rxCursor + 1 }) := by
  obtain ⟨h8, hin⟩ := hp
  unfold dmaReceive readStatus readLen
  rw [get_bind_apply]
  refine (bind_ok (micro_read16 h (by omega) (by omega) hst)).trans ?_
  rw [branch_apply, if_neg (ne_true_of_eq_false (show owned st = false from ho))]
  refine (bind_ok (micro_modifyDma h (.inl rfl))).trans ?_
  have h1 : StillDma (s.withDma (cacheInvalidate (rxBufAddr s.cfg s.dma.rxCursor) s.cfg.bufSize s.dma)) := h.withDma (.inl rfl)
  refine (bind_ok (micro_read16 h1 (by omega) (by omega) hn)).trans ((bind_ok ht).trans ?_)
  have e := dmaRearm_ok hs (i := s.dma.rxCursor) (st := st) (by rw [hc]; exact ⟨h8, hin⟩)
  rw [hc] at e
  exact (bind_ok e).trans rfl

/-- Clear, then check (R97). -/
theorem dmaProcInput_pending {s : State} (h : StillDma s) (hp : s.dma.rxPending = true) :
    dmaProcInput s = dmaReceive (s.withDma { s.dma with rxPending := false }) := by
  unfold dmaProcInput
  rw [bind_ok (micro_testAndClear h), hp]
  rfl

theorem dmaProcInput_clear {s : State} (h : StillDma s) (hp : s.dma.rxPending = false) :
    dmaProcInput s = .ok (.nothing, s.withDma { s.dma with rxPending := false }) := by
  unfold dmaProcInput
  rw [bind_ok (micro_testAndClear h), hp]
  rfl

/-! ## Transmit (R207) -/

/-- Lines 8 to 14 (R94): copy and flush, LEN, hand-off, doorbell, advance. -/
theorem dmaGive_ok {s : State} (h : StillDma s) {i : Nat} {st : U16} {b : List Byte} (hp : Placed (descAddr s.cfg.txRingBase i))
    (hr : txBufAddr s.cfg i + b.length ≤ dmaSpaceEnd) :
    dmaGive i st b s = .ok ((),
      let d := cacheFlush (txBufAddr s.cfg i) b.length (hostWriteRange s.dma (txBufAddr s.cfg i) b);
      s.withDma { s.dma with
        mem := withDescriptor d.mem (descAddr s.cfg.txRingBase i) (BitVec.ofNat 16 b.length) (0x8C00 ||| (st &&& 0x2000))
        cache := d.cache, txActive := true, txCursor := if st.getLsbD 13 then 0 else i + 1 }) := by
  obtain ⟨h8, hin⟩ := hp
  obtain ⟨c, hc⟩ := hostWriteRange_rest s.dma (txBufAddr s.cfg i) b
  unfold dmaGive writeLen writeStatus
  rw [config_bind_apply]
  let d := cacheFlush (txBufAddr s.cfg i) b.length (hostWriteRange s.dma (txBufAddr s.cfg i) b)
  have hd : d = { s.dma with mem := d.mem, cache := d.cache } := by
    show cacheFlush _ _ (hostWriteRange _ _ _) = _
    unfold d
    rw [hc]
    rfl
  have e : (do hostWriteBytes (txBufAddr s.cfg i) b; modifyDma (cacheFlush (txBufAddr s.cfg i) b.length) : M Unit) s = .ok ((), s.withDma d) := by
    unfold hostWriteBytes
    rw [bind_apply, bind_ok (checkDmaRange_ok hr _)]
    rfl
  have h0 : StillDma (s.withDma d) := h.withDma (.inl (by rw [hd]))
  refine (bind_ok (micro_ok e h0.calm)).trans ?_
  refine (bind_ok (micro_write16 h0 (by omega) (by omega) _)).trans ?_
  have h1 := h0.withMem (Memory.writeBytes d.mem (descAddr s.cfg.txRingBase i) (putLe16 (BitVec.ofNat 16 b.length)))
  refine (bind_ok (micro_write16 h1 (a := descAddr s.cfg.txRingBase i + 2) (by omega) (by omega) _)).trans ?_
  refine (macWrite_then (h0.withMem _) (by decide) _ _).trans ?_
  rw [modifyDma_apply]
  have hst : (bitOwn ||| bitLast ||| bitTc ||| (st &&& bitWrap) : U16) = 0x8C00 ||| (st &&& 0x2000) := rfl
  rw [hst]
  show Except.ok ((), s.withDma { d with
    mem := withDescriptor d.mem (descAddr s.cfg.txRingBase i) (BitVec.ofNat 16 b.length) (0x8C00 ||| (st &&& 0x2000))
    txActive := true, txCursor := if st.getLsbD 13 then 0 else i + 1 }) = _
  rw [hd]

/-- The cursor's descriptor is hardware's: AGAIN (R207, R321). -/
theorem dmaOutput_busy {s : State} (h : StillDma s) {b : List Byte} (hp : Placed (descAddr s.cfg.txRingBase s.dma.txCursor)) {st : U16}
    (hst : Memory.half? s.dma.mem (descAddr s.cfg.txRingBase s.dma.txCursor + 2) = some st) (ho : st.getLsbD 15 = true) :
    dmaOutput b s = .ok (.again, { s with cntTxAgain := s.cntTxAgain + 1 }) := by
  obtain ⟨h8, hin⟩ := hp
  unfold dmaOutput readStatus
  rw [get_bind_apply]
  refine (bind_ok (micro_read16 h (by omega) (by omega) hst)).trans ?_
  rw [branch_apply, if_pos (show owned st = true from ho)]
  rfl

theorem dmaOutput_free {s t : State} (h : StillDma s) {b : List Byte} (hp : Placed (descAddr s.cfg.txRingBase s.dma.txCursor)) {st : U16}
    (hst : Memory.half? s.dma.mem (descAddr s.cfg.txRingBase s.dma.txCursor + 2) = some st) (ho : st.getLsbD 15 = false)
    (hg : dmaGive s.dma.txCursor st b s = .ok ((), t)) : dmaOutput b s = .ok (.ok, t) := by
  obtain ⟨h8, hin⟩ := hp
  unfold dmaOutput readStatus
  rw [get_bind_apply]
  refine (bind_ok (micro_read16 h (by omega) (by omega) hst)).trans ?_
  rw [branch_apply, if_neg (ne_true_of_eq_false (show owned st = false from ho))]
  exact (bind_ok hg).trans rfl

/-! ## The filter (R218, R219) -/

theorem filterAllow_set {s : State} (h : StillDma s) {half : Bool} {k : Nat} (hk : (s.dma.macRead (presReg half)).getLsbD k = true) :
    filterAllow half k s = .ok (.ok, s.withDma (s.dma.setColl half k)) := by
  unfold filterAllow
  refine (bind_ok (micro_ok (macRead_apply _ s) h.calm)).trans ?_
  rw [branch_apply, if_pos hk]
  rfl

theorem filterAllow_clear {s : State} (h : StillDma s) {half : Bool} {k : Nat} (hk : (s.dma.macRead (presReg half)).getLsbD k = false) :
    filterAllow half k s =
      .ok (.ok, s.withDma (s.dma.macWrite (presReg half) (s.dma.macRead (presReg half) ||| bitMask k))) := by
  unfold filterAllow
  refine (bind_ok (micro_ok (macRead_apply _ s) h.calm)).trans ?_
  rw [branch_apply, if_neg (by simp [hk])]
  exact (bind_ok (micro_macWrite h (by cases half <;> decide) _)).trans rfl

theorem filterDisallow_collision {s : State} {half : Bool} {k : Nat} (hk : (s.dma.coll half).getLsbD k = true) :
    filterDisallow half k s = .ok (.no, s) := by
  unfold filterDisallow
  rw [get_bind_apply, branch_apply, if_pos hk]
  rfl

theorem filterDisallow_clear {s : State} (h : StillDma s) {half : Bool} {k : Nat} (hk : (s.dma.coll half).getLsbD k = false) :
    filterDisallow half k s =
      .ok (.ok, s.withDma (s.dma.macWrite (presReg half) (s.dma.macRead (presReg half) &&& ~~~bitMask k))) := by
  unfold filterDisallow
  rw [get_bind_apply, branch_apply, if_neg (by simp [hk])]
  refine (bind_ok (micro_ok (macRead_apply _ s) h.calm)).trans ?_
  exact (bind_ok (micro_macWrite h (by cases half <;> decide) _)).trans rfl

end Sys2Proof.Machine
end

