-- ==== Sys2Proof/Laws/KeepsRings.lean ====
section
/-! SUPPORT. Every change the machine is made of keeps the chip's ring invariants (R68, R275 (d)). -/

namespace Sys2Proof.Machine

theorem ptrDiff_eq (a b : U16) : ptrDiff a b = (65536 - b.toNat + a.toNat) % 65536 := by
  unfold ptrDiff
  rw [BitVec.toNat_sub]

theorem ptrDiff_lt (a b : U16) : ptrDiff a b < 65536 := by
  rw [ptrDiff_eq]; omega

@[simp] theorem ptrDiff_self (a : U16) : ptrDiff a a = 0 := by
  have := a.isLt
  rw [ptrDiff_eq]
  omega

theorem ptrDiff_eq_zero {a b : U16} (h : ptrDiff a b = 0) : a = b := by
  have ha := a.isLt
  have hb := b.isLt
  rw [ptrDiff_eq] at h
  apply BitVec.eq_of_toNat_eq
  omega

/-- Distances on the pointer circle add up, modulo 2^16 (R68). -/
theorem ptrDiff_add (a b c : U16) : ptrDiff a c = (ptrDiff a b + ptrDiff b c) % 65536 := by
  have ha := a.isLt
  have hb := b.isLt
  have hc := c.isLt
  rw [ptrDiff_eq, ptrDiff_eq, ptrDiff_eq]
  omega

/-- Seen from a point on the way, what lies further on lies that much nearer. -/
theorem ptrDiff_from {q e r : U16} (h : ptrDiff e r ≤ ptrDiff q r) : ptrDiff q e = ptrDiff q r - ptrDiff e r := by
  have h1 := ptrDiff_add q e r
  have h2 := ptrDiff_lt q e
  have h3 := ptrDiff_lt e r
  omega

/-- Two points at the same distance are the same. -/
theorem ptrDiff_inj {a b r : U16} (h : ptrDiff a r = ptrDiff b r) : a = b := by
  have h1 := ptrDiff_from (q := a) (e := b) (r := r) (by omega)
  exact ptrDiff_eq_zero (by omega)

theorem legalRing_le {n : Nat} (h : legalRing n) : 1024 ≤ n ∧ n ≤ 16384 := by
  unfold legalRing at h; omega

theorem legalRing_of_kb {b : Byte} (h : legalBufKb b.toNat = true) : legalRing (b.toNat * 1024) := by
  unfold legalBufKb at h
  simp at h
  unfold legalRing
  omega

theorem toNat_ofNat16 {n : Nat} (h : n < 65536) : (BitVec.ofNat 16 n).toNat = n := by
  simp; omega

namespace Chip.RingInv

theorem reset : Chip.reset.RingInv where
  rxLegal := by simp [Chip.reset, legalRing]
  txLegal := by simp [Chip.reset, legalRing]
  rsr := by simp [Chip.reset]
  rsrFits := by simp [Chip.reset]
  fsr := by simp [Chip.reset]
  rising := List.Pairwise.nil
  inside := by simp [Chip.reset]
  lastEnd := by simp [Chip.reset]
  drained := by simp [Chip.reset, srMacraw]

theorem resetStart (c : Chip) : c.resetStart.RingInv where
  rxLegal := reset.rxLegal
  txLegal := reset.txLegal
  rsr := reset.rsr
  rsrFits := reset.rsrFits
  fsr := reset.fsr
  rising := reset.rising
  inside := reset.inside
  lastEnd := reset.lastEnd
  drained := reset.drained

theorem opened {c : Chip} (hr : legalBufKb c.sRxbufSize.toNat = true) (ht : legalBufKb c.sTxbufSize.toNat = true) :
    c.opened.RingInv where
  rxLegal := legalRing_of_kb hr
  txLegal := legalRing_of_kb ht
  rsr := by simp [Chip.opened]
  rsrFits := by simp [Chip.opened]
  fsr := by
    have := legalRing_le (legalRing_of_kb ht)
    show (BitVec.ofNat 16 (c.sTxbufSize.toNat * 1024)).toNat + ptrDiff 0 0 = c.sTxbufSize.toNat * 1024
    rw [ptrDiff_self, toNat_ofNat16 (by omega), Nat.add_zero]
  rising := List.Pairwise.nil
  inside := by simp [Chip.opened]
  lastEnd := by simp [Chip.opened]
  drained := by simp [Chip.opened]

theorem closed {c : Chip} (h : c.RingInv) : c.closed.RingInv :=
  { h with
    rising := List.Pairwise.nil
    inside := by simp [Chip.closed]
    lastEnd := by simp [Chip.closed]
    drained := by simp [Chip.closed, srClosed, srMacraw] }

theorem queued {c : Chip} (h : c.RingInv) (hn : c.sTxWr ≠ c.txWrCommitted)
    (hl : ptrDiff c.sTxWr c.txWrCommitted ≤ c.sTxFsr.toNat) : c.queued.RingInv := by
  have hf := h.fsr
  have ht := legalRing_le h.txLegal
  have hadd := ptrDiff_add c.sTxWr c.txWrCommitted c.sTxRd
  have hpos : 0 < ptrDiff c.sTxWr c.txWrCommitted := by
    rcases Nat.eq_zero_or_pos (ptrDiff c.sTxWr c.txWrCommitted) with h0 | h0
    · exact absurd (ptrDiff_eq_zero h0) hn
    · exact h0
  have hnew : ptrDiff c.sTxWr c.sTxRd = ptrDiff c.sTxWr c.txWrCommitted + ptrDiff c.txWrCommitted c.sTxRd := by omega
  exact
    { rxLegal := h.rxLegal
      txLegal := h.txLegal
      rsr := h.rsr
      rsrFits := h.rsrFits
      fsr := by
        show (BitVec.ofNat 16 (c.txBytes - ptrDiff c.sTxWr c.sTxRd)).toNat + ptrDiff c.sTxWr c.sTxRd = c.txBytes
        rw [toNat_ofNat16 (by omega)]
        omega
      rising := by
        show (c.sendQueue ++ [c.sTxWr]).Pairwise _
        rw [List.pairwise_append]
        refine ⟨h.rising, List.pairwise_singleton _ _, fun a ha b hb => ?_⟩
        have hb' : b = c.sTxWr := by simpa using hb
        subst hb'
        have := h.inside a ha
        show ptrDiff a c.sTxRd < ptrDiff c.sTxWr c.sTxRd
        omega
      inside := by
        intro q hq
        show ptrDiff q c.sTxRd ≤ ptrDiff c.sTxWr c.sTxRd
        rcases List.mem_append.mp (show q ∈ c.sendQueue ++ [c.sTxWr] from hq) with hq | hq
        · have := h.inside q hq
          omega
        · have hb' : q = c.sTxWr := by simpa using hq
          rw [hb']
      lastEnd := by
        intro q hq
        have : (c.sendQueue ++ [c.sTxWr]).getLast? = some q := hq
        show q = c.sTxWr
        simpa [eq_comm] using this
      drained := by
        intro _ hq
        have : c.sendQueue ++ [c.sTxWr] = [] := hq
        simp at this }

theorem acknowledged {c : Chip} (h : c.RingInv) (hl : ptrDiff c.sRxRd c.rxRdCommitted ≤ c.sRxRsr.toNat) :
    c.acknowledged.RingInv := by
  have hr := h.rsr
  have hf := h.rsrFits
  have hx := legalRing_le h.rxLegal
  have hfrom := ptrDiff_from (q := c.sRxWr) (e := c.sRxRd) (r := c.rxRdCommitted) (by omega)
  exact
    { h with
      rsr := by
        show (BitVec.ofNat 16 (ptrDiff c.sRxWr c.sRxRd)).toNat = ptrDiff c.sRxWr c.sRxRd
        exact toNat_ofNat16 (ptrDiff_lt _ _)
      rsrFits := by
        show (BitVec.ofNat 16 (ptrDiff c.sRxWr c.sRxRd)).toNat ≤ c.rxBytes
        rw [toNat_ofNat16 (ptrDiff_lt _ _)]
        omega }

theorem received {c : Chip} (h : c.RingInv) {bytes : List Byte} {err : Byte} (ha : chipAdmits c bytes err = true) :
    (c.received bytes).RingInv := by
  have hr := h.rsr
  have hf := h.rsrFits
  have hx := legalRing_le h.rxLegal
  have hroom : bytes.length + 2 ≤ c.rxBytes - c.sRxRsr.toNat := by
    unfold chipAdmits at ha
    simp only [Bool.and_eq_true, decide_eq_true_eq] at ha
    exact ha.1.2
  have hn : (BitVec.ofNat 16 (bytes.length + 2)).toNat = bytes.length + 2 := toNat_ofNat16 (by omega)
  have hrsr : (c.sRxRsr + BitVec.ofNat 16 (bytes.length + 2)).toNat = c.sRxRsr.toNat + (bytes.length + 2) := by
    rw [BitVec.toNat_add, hn]
    omega
  exact
    { h with
      rsr := by
        show (c.sRxRsr + BitVec.ofNat 16 (bytes.length + 2)).toNat
          = ptrDiff (c.sRxWr + BitVec.ofNat 16 (bytes.length + 2)) c.rxRdCommitted
        rw [hrsr, ptrDiff_eq, BitVec.toNat_add, hn]
        rw [ptrDiff_eq] at hr
        have h1 := c.sRxWr.isLt
        have h2 := c.rxRdCommitted.isLt
        omega
      rsrFits := by
        show (c.sRxRsr + BitVec.ofNat 16 (bytes.length + 2)).toNat ≤ c.rxBytes
        omega }

theorem sent {c : Chip} (h : c.RingInv) {e : U16} {rest : List U16} (hq : c.sendQueue = e :: rest) :
    (c.sent e rest).RingInv := by
  have hf := h.fsr
  have ht := legalRing_le h.txLegal
  have hin : ∀ q ∈ e :: rest, ptrDiff q c.sTxRd ≤ ptrDiff c.txWrCommitted c.sTxRd := hq ▸ h.inside
  have hrise := List.pairwise_cons.mp (hq ▸ h.rising)
  have he := hin e (by simp)
  have hcom := ptrDiff_from he
  have hfar : ∀ q ∈ rest, ptrDiff q e = ptrDiff q c.sTxRd - ptrDiff e c.sTxRd := fun q hq =>
    ptrDiff_from (le_of_lt (hrise.1 q hq))
  exact
    { rxLegal := h.rxLegal
      txLegal := h.txLegal
      rsr := h.rsr
      rsrFits := h.rsrFits
      fsr := by
        show (BitVec.ofNat 16 (c.txBytes - ptrDiff c.txWrCommitted e)).toNat + ptrDiff c.txWrCommitted e = c.txBytes
        rw [toNat_ofNat16 (by omega)]
        omega
      rising := by
        show rest.Pairwise fun a b => ptrDiff a e < ptrDiff b e
        refine List.Pairwise.imp_of_mem ?_ hrise.2
        intro a b ha hb hab
        have h1 := hrise.1 a ha
        rw [hfar a ha, hfar b hb]
        omega
      inside := by
        intro q hq'
        show ptrDiff q e ≤ ptrDiff c.txWrCommitted e
        have := hin q (List.mem_cons_of_mem _ hq')
        have h2 := hrise.1 q hq'
        rw [hfar q hq', hcom]
        omega
      lastEnd := by
        intro q hq'
        have hl : rest.getLast? = some q := hq'
        apply h.lastEnd
        rw [hq]
        cases rest with
        | nil => simp at hl
        | cons x xs => simpa using hl
      drained := by
        intro _ hr
        have hr : rest = [] := hr
        show e = c.txWrCommitted
        apply h.lastEnd
        rw [hq, hr]
        rfl }

theorem storeCommon {c : Chip} (h : c.RingInv) (a : Nat) (v : Byte) : (c.storeCommon a v).RingInv := by
  unfold Chip.storeCommon
  split
  · split
    · exact resetStart c
    · exact { h with }
  all_goals exact { h with }

theorem storeSocket {c : Chip} (h : c.RingInv) (a : Nat) (v : Byte) : (c.storeSocket a v).RingInv := by
  unfold Chip.storeSocket
  split <;> exact { h with }

end Chip.RingInv

/-- Every change keeps the chip's ring invariants. -/
theorem Atom.rings {k : Kind} {s t : State} (h : Atom k s t) (hs : s.spi.chip.RingInv) : t.spi.chip.RingInv := by
  cases h with
  | chipReceived _ bytes err ho h => exact hs.received h
  | chipSent _ e rest ho h => exact hs.sent h
  | storeCommon _ a v => exact hs.storeCommon a v
  | storeSocket _ a v => exact hs.storeSocket a v
  | chipOpened _ hr ht => exact Chip.RingInv.opened hr ht
  | chipClosed => exact hs.closed
  | chipQueued _ ho hn h => exact hs.queued hn h
  | chipAcknowledged _ ho h => exact hs.acknowledged h
  | _ => exact { hs with }

end Sys2Proof.Machine
end

