-- ==== Sys2Proof/Laws/SpiBus.lean ====
section
/-! SUPPORT. The chip takes every header the host sends for the block and address it names (R118, R119), so a transaction is its payload
bytes between the two edges of chip select. -/

namespace Sys2Proof.Machine

theorem controlByte_om (bsb : BitVec 5) (w : Bool) : (controlByte bsb w).extractLsb' 0 2 = 0b00#2 := by
  revert bsb w; decide

theorem controlByte_rwb (bsb : BitVec 5) (w : Bool) : (controlByte bsb w).getLsbD 2 = w := by
  revert bsb w; decide

theorem controlByte_bsb (bsb : BitVec 5) (w : Bool) : (controlByte bsb w).extractLsb' 3 5 = bsb := by
  revert bsb w; decide

theorem join_hi_lo (v : U16) : join16 (hi8 v) (lo8 v) = v := by
  refine BitVec.eq_of_getLsbD_eq fun i hi => ?_
  unfold join16 hi8 lo8
  rw [BitVec.getLsbD_append]
  by_cases h : i < 8
  · simp [h]
  · simp [h, show i - 8 < 8 by omega, show 8 + (i - 8) = i by omega]

theorem headerFields_spiHeader (bsb : BitVec 5) (addr : U16) (w : Bool) :
    headerFields w (spiHeader bsb addr w) = some (bsb, addr, 0b00#2) := by
  unfold spiHeader headerFields
  show (if (controlByte bsb w).getLsbD 2 = w then some _ else none) = _
  rw [if_pos (controlByte_rwb bsb w), controlByte_bsb, controlByte_om, join_hi_lo]

theorem chipSelected_headerOf {bsb : Nat} (h : bsb < 32) (addr : Nat) (w : Bool) :
    chipSelected w (headerOf bsb addr w) = pure (bsb, addr % 65536) := by
  unfold chipSelected headerOf
  rw [headerFields_spiHeader]
  simp [BitVec.toNat_ofNat, Nat.mod_eq_of_lt h]

theorem chipBytes_mod (bsb addr n : Nat) : chipBytes bsb (addr % 65536) n = chipBytes bsb addr n := by
  have : ∀ a b, a % 65536 = b % 65536 → chipBytes bsb a n = chipBytes bsb b n := by
    induction n with
    | zero => intros; rfl
    | succ n ih =>
      intro a b hab
      unfold chipBytes
      rw [ih (a + 1) (b + 1) (by omega)]
      simp [chipAddress, hab]
  exact this _ _ (by omega)

theorem chipStores_mod (bsb addr : Nat) (bs : List Byte) : chipStores bsb (addr % 65536) bs = chipStores bsb addr bs := by
  have : ∀ a b, a % 65536 = b % 65536 → chipStores bsb a bs = chipStores bsb b bs := by
    induction bs with
    | nil => intros; rfl
    | cons v bs ih =>
      intro a b hab
      unfold chipStores
      rw [ih (a + 1) (b + 1) (by omega)]
      simp [chipAddress, hab]
  exact this _ _ (by omega)

/-- A read transaction is its payload between the edges of chip select (R231). -/
theorem spiRead_eq {bsb : Nat} (h : bsb < 32) (addr n : Nat) :
    spiRead bsb addr n = micro (do
      setCs true
      let out ← chipBytes bsb addr n
      setCs false
      pure out) := by
  unfold spiRead
  simp [chipSelected_headerOf h, chipBytes_mod]

/-- A write transaction is its stores between the edges of chip select (R232). -/
theorem spiStores_eq {bsb : Nat} (h : bsb < 32) (addr : Nat) (bs : List Byte) :
    spiStores bsb addr bs = (do
      setCs true
      chipStores bsb addr bs
      setCs false) := by
  unfold spiStores
  simp [chipSelected_headerOf h, chipStores_mod]

theorem spiWrite_eq {bsb : Nat} (h : bsb < 32) (addr : Nat) (bs : List Byte) :
    spiWrite bsb addr bs = micro (do
      setCs true
      chipStores bsb addr bs
      setCs false) := by
  unfold spiWrite
  rw [spiStores_eq h]

/-- The two halves of a two-byte read the agents may step into (R231). -/
theorem spiReadTorn_eq {bsb : Nat} (h : bsb < 32) (addr : Nat) :
    spiReadTorn bsb addr = (do
      let hi ← micro (do
        setCs true
        chipByte bsb (chipAddress addr 0))
      let lo ← micro (do
        let b ← chipByte bsb (chipAddress addr 1)
        setCs false
        pure b)
      pure (be16 [hi, lo] 0)) := by
  unfold spiReadTorn
  simp [chipSelected_headerOf h, chipAddress]

end Sys2Proof.Machine
end

