-- ==== Sys2Proof/Laws/CalmSpi.lean ====
section
/-! SUPPORT. SPI transactions and socket commands in runs in which nothing happens between micro-steps: what each leaves, exactly (R231 to
R236, R263 to R267). -/

namespace Sys2Proof.Machine

variable {α β : Type}

/-- The SPI build with a chip, with no agent step at any boundary: the quiet schedule, or the prompt completions with no reset running. -/
structure StillSpi (s : State) : Prop where
  backend : s.cfg.backend = .spi
  present : s.cfg.chipPresent = true
  script : s.script = []
  prompt : s.prompt = Prompt.quiet ∨ (s.prompt = Prompt.completions ∧ s.spi.chip.mr.getLsbD 7 = false)

theorem StillSpi.calm {s : State} (h : StillSpi s) : Calm s := by
  refine ⟨h.script, ?_⟩
  rcases h.prompt with hp | ⟨hp, hm⟩
  · exact .inl hp
  · exact .inr ⟨hp, (fun hb => by rw [h.backend] at hb; cases hb), fun _ => hm⟩

theorem StillSpi.of {s t : State} (h : StillSpi s) (h1 : t.cfg = s.cfg) (h2 : t.script = s.script) (h3 : t.prompt = s.prompt)
    (h4 : t.spi.chip.mr = s.spi.chip.mr) : StillSpi t := by
  refine ⟨h1 ▸ h.backend, h1 ▸ h.present, h2.trans h.script, ?_⟩
  rcases h.prompt with hp | ⟨hp, hm⟩
  · exact .inl (h3.trans hp)
  · exact .inr ⟨h3.trans hp, h4 ▸ hm⟩

theorem State.Quiet.stillSpi {s : State} (h : s.Quiet) (hb : s.cfg.backend = .spi) (hp : s.cfg.chipPresent = true) : StillSpi s :=
  ⟨hb, hp, h.1, .inl h.2⟩

/-- A change of the SPI state. -/
abbrev State.withSpi (s : State) (p : SpiState) : State := { s with spi := p }

/-- Chip select idle, the chip as given. -/
abbrev State.withChip (s : State) (c : Chip) : State := { s with spi := { s.spi with csActive := false, chip := c } }

/-- Chip select active. -/
abbrev State.selected (s : State) : State := { s with spi := { s.spi with csActive := true } }

theorem StillSpi.withChip {s : State} (h : StillSpi s) {c : Chip} (hc : c.mr = s.spi.chip.mr) : StillSpi (s.withChip c) := h.of rfl rfl rfl hc

/-! ## Stores (R235) -/

theorem chipStore_common {s : State} (h : s.cfg.chipPresent = true) (a : Nat) (v : Byte) :
    chipStore 0 a v s = .ok ((), s.withSpi { s.spi with chip := s.spi.chip.storeCommon a v }) := by
  unfold chipStore
  rw [get_bind_apply, branch_apply, if_pos h]
  rfl

theorem chipStore_socket {s : State} (h : s.cfg.chipPresent = true) {a : Nat} (ha : a ≠ 0x0001) (v : Byte) :
    chipStore 1 a v s = .ok ((), s.withSpi { s.spi with chip := s.spi.chip.storeSocket a v }) := by
  unfold chipStore
  rw [get_bind_apply, branch_apply, if_pos h]
  show (if a = 0x0001 then chipCommand v else modifyChip fun c => c.storeSocket a v) s = _
  rw [branch_apply, if_neg ha]
  rfl

theorem chipStore_command {s : State} (h : s.cfg.chipPresent = true) (v : Byte) : chipStore 1 0x0001 v s = chipCommand v s := by
  unfold chipStore
  rw [get_bind_apply, branch_apply, if_pos h]
  rfl

/-- The chip after the bytes of a write to the common registers. -/
def Chip.storesCommon (c : Chip) (a : Nat) : List Byte → Chip
  | [] => c
  | v :: vs => Chip.storesCommon (c.storeCommon (chipAddress a 0) v) (a + 1) vs

/-- The chip after the bytes of a write to the socket registers. -/
def Chip.storesSocket (c : Chip) (a : Nat) : List Byte → Chip
  | [] => c
  | v :: vs => Chip.storesSocket (c.storeSocket (chipAddress a 0) v) (a + 1) vs

theorem chipStores_common {s : State} (h : s.cfg.chipPresent = true) (a : Nat) (vs : List Byte) :
    chipStores 0 a vs s = .ok ((), s.withSpi { s.spi with chip := s.spi.chip.storesCommon a vs }) := by
  induction vs generalizing s a with
  | nil => rfl
  | cons v vs ih =>
    unfold chipStores
    rw [bind_ok (chipStore_common h _ v)]
    exact ih (s := s.withSpi { s.spi with chip := s.spi.chip.storeCommon (chipAddress a 0) v }) h (a + 1)

theorem chipStores_socket {s : State} (h : s.cfg.chipPresent = true) (a : Nat) (vs : List Byte)
    (ha : ∀ j, j < vs.length → chipAddress (a + j) 0 ≠ 0x0001) :
    chipStores 1 a vs s = .ok ((), s.withSpi { s.spi with chip := s.spi.chip.storesSocket a vs }) := by
  induction vs generalizing s a with
  | nil => rfl
  | cons v vs ih =>
    unfold chipStores
    rw [bind_ok (chipStore_socket h (a := chipAddress a 0) (ha 0 (by simp)) v)]
    refine ih (s := s.withSpi { s.spi with chip := s.spi.chip.storeSocket (chipAddress a 0) v }) h (a + 1) fun j hj => ?_
    rw [show a + 1 + j = a + (j + 1) by omega]
    exact ha (j + 1) (by simpa using hj)

/-- The transaction of a write, once its stores are known; under every schedule. -/
theorem spiStores_of {s : State} {bsb a : Nat} (hb : bsb < 32) {vs : List Byte} {c : Chip}
    (hst : chipStores bsb a vs s.selected = .ok ((), { s with spi := { s.spi with csActive := true, chip := c } })) :
    spiStores bsb a vs s = .ok ((), s.withChip c) := by
  rw [spiStores_eq hb]
  unfold setCs
  rw [modifySpi_bind_apply, bind_ok hst]
  rfl

/-- A write transaction whose stores leave a chip in which no reset has started. -/
theorem spiWrite_of {s : State} (h : StillSpi s) {bsb a : Nat} (hb : bsb < 32) {vs : List Byte} {c : Chip}
    (hst : chipStores bsb a vs s.selected = .ok ((), { s with spi := { s.spi with csActive := true, chip := c } }))
    (hc : c.mr = s.spi.chip.mr) : spiWrite bsb a vs s = .ok ((), s.withChip c) :=
  micro_ok (spiStores_of hb hst) (h.withChip hc).calm

/-- A write to the common registers other than MR. -/
theorem spiWrite_common {s : State} (h : StillSpi s) (a : Nat) (vs : List Byte)
    (hc : (s.spi.chip.storesCommon a vs).mr = s.spi.chip.mr) : spiWrite 0 a vs s = .ok ((), s.withChip (s.spi.chip.storesCommon a vs)) :=
  spiWrite_of h (by decide) (chipStores_common (s := s.selected) h.present a vs) hc

theorem storesSocket_mr (c : Chip) (a : Nat) (vs : List Byte) : (c.storesSocket a vs).mr = c.mr := by
  induction vs generalizing c a with
  | nil => rfl
  | cons v vs ih =>
    refine (ih _ _).trans ?_
    unfold Chip.storeSocket
    split <;> rfl

/-- A write to the socket registers other than S_CR. -/
theorem spiWrite_socket {s : State} (h : StillSpi s) (a : Nat) (vs : List Byte)
    (ha : ∀ j, j < vs.length → chipAddress (a + j) 0 ≠ 0x0001) :
    spiWrite 1 a vs s = .ok ((), s.withChip (s.spi.chip.storesSocket a vs)) :=
  spiWrite_of h (by decide) (chipStores_socket (s := s.selected) h.present a vs ha) (storesSocket_mr _ _ _)

/-- A write of one byte to a socket register other than S_CR. -/
theorem spiWrite_socket1 {s : State} (h : StillSpi s) {a : Nat} (ha : a < 65536) (h1 : a ≠ 0x0001) (v : Byte) :
    spiWrite 1 a [v] s = .ok ((), s.withChip (s.spi.chip.storeSocket a v)) := by
  have e := spiWrite_socket h a [v] (fun j hj => by
    have : j = 0 := by simpa using hj
    subst this
    unfold chipAddress
    simpa [Nat.mod_eq_of_lt ha] using h1)
  rw [e]
  show Except.ok ((), s.withChip (s.spi.chip.storeSocket (chipAddress a 0) v)) = _
  rw [show chipAddress a 0 = a by unfold chipAddress; rw [Nat.add_zero, Nat.mod_eq_of_lt ha]]

/-- A write of bytes into the transmit ring (R68, R82, R235). -/
theorem chipStores_tx {s : State} (h : s.cfg.chipPresent = true) (a : Nat) (vs : List Byte) :
    chipStores 2 a vs s = .ok ((), s.withSpi { s.spi with
      chip := { s.spi.chip with txMem := ringWrite s.spi.chip.txMem s.spi.chip.txBytes a vs } }) := by
  induction vs generalizing s a with
  | nil => rfl
  | cons v vs ih =>
    unfold chipStores
    have e : chipStore 2 (chipAddress a 0) v s = .ok ((), s.withSpi { s.spi with
        chip := { s.spi.chip with txMem := Memory.write s.spi.chip.txMem (ringIndex s.spi.chip.txBytes (a % 65536)) v } }) := by
      unfold chipStore
      rw [get_bind_apply, branch_apply, if_pos h]
      rfl
    rw [bind_ok e]
    exact ih (s := s.withSpi { s.spi with
      chip := { s.spi.chip with txMem := Memory.write s.spi.chip.txMem (ringIndex s.spi.chip.txBytes (a % 65536)) v } }) h (a + 1)

theorem spiWrite_tx {s : State} (h : StillSpi s) (a : Nat) (vs : List Byte) :
    spiWrite 2 a vs s = .ok ((), s.withChip { s.spi.chip with txMem := ringWrite s.spi.chip.txMem s.spi.chip.txBytes a vs }) :=
  spiWrite_of h (by decide) (chipStores_tx (s := s.selected) h.present a vs) rfl

/-- A socket command (R236, R263). -/
theorem spiWrite_command {s : State} (h : StillSpi s) {v : Byte} {c : Chip}
    (hc : chipCommand v s.selected = .ok ((), { s with spi := { s.spi with csActive := true, chip := c } })) (hm : c.mr = s.spi.chip.mr) :
    spiWrite 1 0x0001 [v] s = .ok ((), s.withChip c) := by
  refine spiWrite_of h (by decide) ?_ hm
  unfold chipStores
  exact (bind_ok ((chipStore_command (s := s.selected) h.present v).trans hc)).trans rfl

/-! ## Reads (R234) -/

/-- A one-byte read. -/
theorem spiReadByte_of {s t : State} {bsb a : Nat} (hb : bsb < 32) (ha : a < 65536) {v : Byte}
    (hv : chipByte bsb a s.selected = .ok (v, t)) (ht : StillSpi { t with spi := { t.spi with csActive := false } }) :
    spiReadByte bsb a s = .ok (v, { t with spi := { t.spi with csActive := false } }) := by
  unfold spiReadByte
  rw [spiRead_eq hb]
  have hv' : chipByte bsb (chipAddress a 0) s.selected = .ok (v, t) := by
    unfold chipAddress
    rwa [Nat.add_zero, Nat.mod_eq_of_lt ha]
  refine (micro_bind (t := { t with spi := { t.spi with csActive := false } }) (a := [v]) ?_ ht.calm).trans rfl
  unfold setCs
  rw [modifySpi_bind_apply]
  unfold chipBytes chipBytes
  refine (bind_ok ((bind_ok hv').trans rfl)).trans rfl

theorem chipByte_common {s : State} (h : s.cfg.chipPresent = true) (a : Nat) : chipByte 0 a s = commonByte s a s := by
  unfold chipByte
  rw [get_bind_apply, branch_apply, if_pos h]
  rfl

theorem chipByte_socket {s : State} (h : s.cfg.chipPresent = true) (a : Nat) : chipByte 1 a s = socketByte s.spi.chip a s := by
  unfold chipByte
  rw [get_bind_apply, branch_apply, if_pos h]
  rfl

theorem chipByte_rx {s : State} (h : s.cfg.chipPresent = true) (a : Nat) :
    chipByte 3 a s = chipRingByte .chipRx s.spi.chip.rxMem s.spi.chip.rxBytes a s := by
  unfold chipByte
  rw [get_bind_apply, branch_apply, if_pos h]
  rfl

/-- Chip select idle, everything else as it was. -/
abbrev State.deselected (s : State) : State := s.withChip s.spi.chip

theorem StillSpi.deselected {s : State} (h : StillSpi s) : StillSpi s.deselected := h.withChip rfl

/-- A one-byte read of a socket register that holds `v`. -/
theorem spiReadByte_socket {s : State} (h : StillSpi s) {a : Nat} (ha : a < 65536) {v : Byte}
    (hv : socketByte s.spi.chip a s.selected = .ok (v, s.selected)) : spiReadByte 1 a s = .ok (v, s.deselected) :=
  spiReadByte_of (t := s.selected) (by decide) ha ((chipByte_socket (s := s.selected) h.present a).trans hv) h.deselected

theorem spiReadByte_common {s : State} (h : StillSpi s) {a : Nat} (ha : a < 65536) {v : Byte}
    (hv : commonByte s.selected a s.selected = .ok (v, s.selected)) : spiReadByte 0 a s = .ok (v, s.deselected) :=
  spiReadByte_of (t := s.selected) (by decide) ha ((chipByte_common (s := s.selected) h.present a).trans hv) h.deselected

theorem chipBytes_two {s : State} {bsb a : Nat} {x y : Byte} (h0 : chipByte bsb (chipAddress a 0) s = .ok (x, s))
    (h1 : chipByte bsb (chipAddress (a + 1) 0) s = .ok (y, s)) : chipBytes bsb a 2 s = .ok ([x, y], s) := by
  have e : chipBytes bsb (a + 1) 1 s = .ok ([y], s) := by
    unfold chipBytes
    rw [bind_ok h1]
    rfl
  unfold chipBytes
  rw [bind_ok h0, bind_ok e]
  rfl

/-- A two-byte read of a register that holds `v`. -/
theorem spiRead16_of {s : State} (h : StillSpi s) {bsb a : Nat} (hb : bsb < 32) (ha : a + 1 < 65536) {v : U16}
    (h0 : chipByte bsb a s.selected = .ok (hi8 v, s.selected)) (h1 : chipByte bsb (a + 1) s.selected = .ok (lo8 v, s.selected)) :
    spiRead16 bsb a s = .ok (v.toNat, s.deselected) := by
  unfold spiRead16
  rw [spiRead_eq hb]
  have e0 : chipByte bsb (chipAddress a 0) s.selected = .ok (hi8 v, s.selected) := by
    unfold chipAddress
    rwa [Nat.add_zero, Nat.mod_eq_of_lt (by omega)]
  have e1 : chipByte bsb (chipAddress (a + 1) 0) s.selected = .ok (lo8 v, s.selected) := by
    unfold chipAddress
    rwa [Nat.add_zero, Nat.mod_eq_of_lt (by omega)]
  refine (micro_bind (t := s.deselected) (a := [hi8 v, lo8 v]) ?_ h.deselected.calm).trans ?_
  · unfold setCs
    rw [modifySpi_bind_apply]
    exact (bind_ok (chipBytes_two e0 e1)).trans rfl
  · show Except.ok (be16 [hi8 v, lo8 v] 0, s.deselected) = _
    have : be16 [hi8 v, lo8 v] 0 = v.toNat := hi_lo_toNat v
    rw [this]

/-- The same of a read the agents may step into. -/
theorem spiReadTorn_of {s : State} (h : StillSpi s) {bsb a : Nat} (hb : bsb < 32) (ha : a + 1 < 65536) {v : U16}
    (h0 : chipByte bsb a s.selected = .ok (hi8 v, s.selected)) (h1 : chipByte bsb (a + 1) s.selected = .ok (lo8 v, s.selected)) :
    spiReadTorn bsb a s = .ok (v.toNat, s.deselected) := by
  rw [spiReadTorn_eq hb]
  have e0 : chipByte bsb (chipAddress a 0) s.selected = .ok (hi8 v, s.selected) := by
    unfold chipAddress
    rwa [Nat.add_zero, Nat.mod_eq_of_lt (by omega)]
  have e1 : chipByte bsb (chipAddress a 1) s.selected = .ok (lo8 v, s.selected) := by
    unfold chipAddress
    rwa [Nat.mod_eq_of_lt (by omega)]
  have hsel : StillSpi s.selected := h.of rfl rfl rfl rfl
  refine (micro_bind (t := s.selected) (a := hi8 v) ?_ hsel.calm).trans ?_
  · unfold setCs
    rw [modifySpi_bind_apply]
    exact e0
  · refine (micro_bind (t := s.deselected) (a := lo8 v) ?_ h.deselected.calm).trans ?_
    · exact (bind_ok e1).trans rfl
    · show Except.ok (be16 [hi8 v, lo8 v] 0, s.deselected) = _
      have : be16 [hi8 v, lo8 v] 0 = v.toNat := hi_lo_toNat v
      rw [this]

/-- Two equal reads in a row end the loop at once (R233). -/
theorem spiRead16Stable_of {s : State} {v n : Nat} {bsb a : Nat} (hn : s.cfg.spiStableReadBound = n + 1)
    (h0 : spiReadTorn bsb a s = .ok (v, s.deselected)) (h1 : spiReadTorn bsb a s.deselected = .ok (v, s.deselected)) :
    spiRead16Stable bsb a s = .ok (some v, s.deselected) := by
  unfold spiRead16Stable
  rw [config_bind_apply, hn]
  unfold stableLoop
  refine (bind_ok h0).trans ((bind_ok h1).trans ?_)
  rw [branch_apply, if_pos rfl]
  rfl

theorem rsr_torn {s : State} (h : StillSpi s) : spiReadTorn 1 0x0026 s = .ok (s.spi.chip.sRxRsr.toNat, s.deselected) :=
  spiReadTorn_of h (by decide) (by decide) (chipByte_socket (s := s.selected) h.present _) (chipByte_socket (s := s.selected) h.present _)

theorem fsr_torn {s : State} (h : StillSpi s) : spiReadTorn 1 0x0020 s = .ok (s.spi.chip.sTxFsr.toNat, s.deselected) :=
  spiReadTorn_of h (by decide) (by decide) (chipByte_socket (s := s.selected) h.present _) (chipByte_socket (s := s.selected) h.present _)

/-- The announced byte count (R252). -/
theorem rsr_stable {s : State} (h : StillSpi s) (hn : 1 ≤ s.cfg.spiStableReadBound) :
    spiRead16Stable 1 0x0026 s = .ok (some s.spi.chip.sRxRsr.toNat, s.deselected) :=
  spiRead16Stable_of (n := s.cfg.spiStableReadBound - 1) (by omega) (rsr_torn h) (rsr_torn h.deselected)

/-- The free space (R259). -/
theorem fsr_stable {s : State} (h : StillSpi s) (hn : 1 ≤ s.cfg.spiStableReadBound) :
    spiRead16Stable 1 0x0020 s = .ok (some s.spi.chip.sTxFsr.toNat, s.deselected) :=
  spiRead16Stable_of (n := s.cfg.spiStableReadBound - 1) (by omega) (fsr_torn h) (fsr_torn h.deselected)

theorem rxRd_read {s : State} (h : StillSpi s) : spiRead16 1 0x0028 s = .ok (s.spi.chip.sRxRd.toNat, s.deselected) :=
  spiRead16_of h (by decide) (by decide) (chipByte_socket (s := s.selected) h.present _) (chipByte_socket (s := s.selected) h.present _)

theorem txWr_read {s : State} (h : StillSpi s) : spiRead16 1 0x0024 s = .ok (s.spi.chip.sTxWr.toNat, s.deselected) :=
  spiRead16_of h (by decide) (by decide) (chipByte_socket (s := s.selected) h.present _) (chipByte_socket (s := s.selected) h.present _)

theorem scratch_read {s : State} (h : StillSpi s) : spiRead16 0 0x0019 s = .ok (s.spi.chip.scratch.toNat, s.deselected) :=
  spiRead16_of h (by decide) (by decide) (chipByte_common (s := s.selected) h.present _) (chipByte_common (s := s.selected) h.present _)

/-- The bytes of the receive ring (R68, R82, R252). -/
theorem chipBytes_rx {s : State} (h : s.cfg.chipPresent = true) (a n : Nat) {bs : List Byte}
    (hb : ringRead s.spi.chip.rxMem s.spi.chip.rxBytes a n = some bs) : chipBytes 3 a n s = .ok (bs, s) := by
  induction n generalizing a bs with
  | zero =>
    cases hb
    rfl
  | succ n ih =>
    unfold ringRead at hb
    cases h0 : Memory.read? s.spi.chip.rxMem (ringIndex s.spi.chip.rxBytes (a % 65536)) with
    | none => simp [h0] at hb
    | some v =>
      cases h1 : ringRead s.spi.chip.rxMem s.spi.chip.rxBytes (a + 1) n with
      | none => simp [h0, h1] at hb
      | some vs =>
        simp only [h0, h1, Option.some.injEq] at hb
        subst hb
        unfold chipBytes
        have e : chipByte 3 (chipAddress a 0) s = .ok (v, s) := by
          rw [chipByte_rx h]
          unfold chipRingByte chipAddress
          rw [Nat.add_zero, h0]
          rfl
        rw [bind_ok e, bind_ok (ih (a + 1) h1)]
        rfl

theorem spiRead_rx {s : State} (h : StillSpi s) (a n : Nat) {bs : List Byte}
    (hb : ringRead s.spi.chip.rxMem s.spi.chip.rxBytes a n = some bs) : spiRead 3 a n s = .ok (bs, s.deselected) := by
  rw [spiRead_eq (by decide)]
  refine micro_ok ?_ h.deselected.calm
  unfold setCs
  rw [modifySpi_bind_apply]
  exact (bind_ok (chipBytes_rx (s := s.selected) h.present a n hb)).trans rfl

/-! ## Polls and socket commands -/

/-- A poll whose first read satisfies the test. -/
theorem pollByte_first {s t : State} {bsb a n : Nat} {p : Byte → Bool} {v : Byte} (hn : 1 ≤ n) (h : spiReadByte bsb a s = .ok (v, t))
    (hp : p v = true) : pollByte bsb a p n s = .ok (true, t) := by
  obtain ⟨k, rfl⟩ : ∃ k, n = k + 1 := ⟨n - 1, by omega⟩
  unfold pollByte
  rw [bind_ok h, branch_apply, if_pos hp]
  rfl

/-- Polls of S_CR end at the first (R263). -/
theorem scr_poll {s : State} (h : StillSpi s) (hn : 1 ≤ s.cfg.sockPollBound) :
    pollByte 1 0x0001 (fun b => b == 0x00) s.cfg.sockPollBound s = .ok (true, s.deselected) :=
  pollByte_first hn (spiReadByte_socket h (by decide) rfl) rfl

/-- Polls of S_SR that find the value at once (R245, R248, R262). -/
theorem awaitSocket_at {s : State} (h : StillSpi s) (hn : 1 ≤ s.cfg.sockPollBound) {v : Byte} (hv : s.spi.chip.sSr = v) :
    awaitSocket v s = .ok (true, s.deselected) := by
  unfold awaitSocket
  rw [config_bind_apply]
  refine pollByte_first hn (spiReadByte_socket (v := v) h (by decide) ?_) (by simp)
  show Except.ok (s.spi.chip.sSr, s.selected) = _
  rw [hv]

/-- A socket command and its poll (R236). -/
theorem sockCommand_ok {s : State} (h : StillSpi s) (hn : 1 ≤ s.cfg.sockPollBound) {v : Byte} {c : Chip}
    (hc : chipCommand v s.selected = .ok ((), { s with spi := { s.spi with csActive := true, chip := c } })) (hm : c.mr = s.spi.chip.mr) :
    sockCommand v s = .ok (true, s.withChip c) := by
  unfold sockCommand
  rw [config_bind_apply]
  refine (bind_ok (spiWrite_command h hc hm)).trans ?_
  exact scr_poll (s := s.withChip c) (h.withChip hm) hn

/-- OPEN in raw-frame mode with legal sizes (R264). -/
theorem sock_open {s : State} (h : StillSpi s) (hn : 1 ≤ s.cfg.sockPollBound) (hm : s.spi.chip.sMr &&& 0x0F = 0x04)
    (hr : legalBufKb s.spi.chip.sRxbufSize.toNat = true) (ht : legalBufKb s.spi.chip.sTxbufSize.toNat = true) :
    sockCommand 0x01 s = .ok (true, s.withChip s.spi.chip.opened) := by
  refine sockCommand_ok h hn ?_ rfl
  show chipOpen s.selected = _
  unfold chipOpen
  rw [get_bind_apply, branch_apply, if_pos hm, branch_apply, if_pos (by simp [hr, ht])]
  rfl

/-- CLOSE (R265). -/
theorem sock_close {s : State} (h : StillSpi s) (hn : 1 ≤ s.cfg.sockPollBound) :
    sockCommand 0x10 s = .ok (true, s.withChip s.spi.chip.closed) := sockCommand_ok h hn rfl rfl

/-- RECV inside the announced bytes (R267). -/
theorem sock_recv {s : State} (h : StillSpi s) (hn : 1 ≤ s.cfg.sockPollBound) (ho : s.spi.chip.sSr = srMacraw)
    (hr : ptrDiff s.spi.chip.sRxRd s.spi.chip.rxRdCommitted ≤ s.spi.chip.sRxRsr.toNat) :
    sockCommand 0x40 s = .ok (true, s.withChip s.spi.chip.acknowledged) := by
  refine sockCommand_ok h hn ?_ rfl
  show chipRecv s.selected = _
  unfold chipRecv
  rw [get_bind_apply, branch_apply, if_pos ho, branch_apply, if_pos hr]
  rfl

/-- SEND inside the free space (R266). -/
theorem sock_send {s : State} (h : StillSpi s) (hn : 1 ≤ s.cfg.sockPollBound) (ho : s.spi.chip.sSr = srMacraw)
    (hw : s.spi.chip.sTxWr ≠ s.spi.chip.txWrCommitted) (hr : ptrDiff s.spi.chip.sTxWr s.spi.chip.txWrCommitted ≤ s.spi.chip.sTxFsr.toNat) :
    sockCommand 0x20 s = .ok (true, s.withChip s.spi.chip.queued) := by
  refine sockCommand_ok h hn ?_ rfl
  show chipSend s.selected = _
  unfold chipSend
  rw [get_bind_apply, branch_apply, if_pos ⟨ho, hw⟩, branch_apply, if_pos hr]
  rfl

/-- Recovery (R262): the socket is closed and reopened; with the configuration of INIT it reopens. -/
theorem recover_ok {s : State} (h : StillSpi s) (hn : 1 ≤ s.cfg.sockPollBound) (hm : s.spi.chip.sMr &&& 0x0F = 0x04)
    (hr : legalBufKb s.spi.chip.sRxbufSize.toNat = true) (ht : legalBufKb s.spi.chip.sTxbufSize.toNat = true) :
    recover s = .ok ((), s.withChip s.spi.chip.closed.opened) := by
  have h1 : StillSpi (s.withChip s.spi.chip.closed) := h.withChip rfl
  have h2 : StillSpi (s.withChip s.spi.chip.closed.opened) := h.withChip rfl
  unfold recover
  refine (bind_ok (sock_close h hn)).trans ((bind_ok (awaitSocket_at h1 hn rfl)).trans ?_)
  refine (bind_ok (sock_open (s := s.withChip s.spi.chip.closed) h1 hn hm hr ht)).trans ?_
  exact (bind_ok (awaitSocket_at h2 hn rfl)).trans rfl

end Sys2Proof.Machine
end

