-- ==== Sys2Proof/Laws/CalmSpiOps.lean ====
section
/-! SUPPORT. The SPI backend's operations in runs in which nothing happens between micro-steps: what each leaves, exactly (R240 to R248,
R250 to R262, R305, R306). -/

namespace Sys2Proof.Machine

variable {α β : Type}

/-- What `Config.wf` says of the SPI build. -/
structure SpiBounds (c : Config) : Prop where
  txWait : 1 ≤ c.spiTxWaitBound
  reset : 1 ≤ c.spiResetPollBound
  stable : 1 ≤ c.spiStableReadBound
  sock : 1 ≤ c.sockPollBound
  rxKb : legalBufKb c.rxbufKb = true
  txKb : legalBufKb c.txbufKb = true
  ibuf : c.rxbufKb * 1024 ≤ c.ibufCap
  tx : c.maxLenTagged ≤ c.txbufKb * 1024
  record : 2 ≤ c.recMinLen
  patterns : c.patternA ≠ c.patternB
  loop : c.rxLoopCap ≤ 65535

theorem spiBounds_of_wf {c : Config} (h : c.wf = true) : SpiBounds c := by
  simp only [Config.wf, Bool.and_eq_true, decide_eq_true_eq, disjointRanges, Bool.or_eq_true, and_assoc] at h
  obtain ⟨-, -, -, -, -, -, -, -, -, -, h11, h1, -, h2, h3, h4, h5, h6, h7, h8, h9, -, h10, -⟩ := h
  exact ⟨h1, h2, h3, h4, h5, h6, h7, h8, h9, h10, h11⟩

theorem legalBufKb_cases {k : Nat} (h : legalBufKb k = true) : k = 1 ∨ k = 2 ∨ k = 4 ∨ k = 8 ∨ k = 16 := by
  simpa [legalBufKb, or_assoc] using h

theorem kb_toNat {k : Nat} (h : legalBufKb k = true) : (BitVec.ofNat 8 k).toNat = k := by
  rcases legalBufKb_cases h with rfl | rfl | rfl | rfl | rfl <;> rfl

theorem sMrValue_raw (c : Config) : sMrValue c &&& 0x0F = 0x04 := by
  unfold sMrValue
  cases c.promiscuous <;> decide

theorem sMrValue_eq (c : Config) : sMrValue c = if c.promiscuous then 0x04 else 0x84 := by
  unfold sMrValue
  cases c.promiscuous <;> decide

/-- Both bytes of a register replaced (R83, R234). -/
theorem withLo_withHi (r v : U16) : withLo (withHi r (hi8 v)) (lo8 v) = v := by
  unfold withLo withHi
  have h8 : hi8 (join16 (hi8 v) (lo8 r)) = hi8 v := by
    unfold hi8 join16
    refine BitVec.eq_of_getLsbD_eq fun i hi => ?_
    rw [BitVec.getLsbD_extractLsb', BitVec.getLsbD_append]
    simp [hi]
  rw [h8, join_hi_lo]

/-- A pointer moved by `n` lies `n` past where it was (R68). -/
theorem ptrDiff_advance (a : U16) {n : Nat} (h : n < 65536) : ptrDiff (a + BitVec.ofNat 16 n) a = n := by
  rw [ptrDiff_eq, BitVec.toNat_add, toNat_ofNat16 h]
  have := a.isLt
  omega

/-! ## Initialisation (R244 to R246) -/

/-- S5 to S8 (R244). -/
theorem spiConfigure_ok {s : State} (h : StillSpi s) (m : MacAddr) :
    spiConfigure m s = .ok ((), { s with mac := m, spi := { s.spi with csActive := false, chip := { s.spi.chip with
      shar := m, sMr := sMrValue s.cfg, sRxbufSize := BitVec.ofNat 8 s.cfg.rxbufKb, sTxbufSize := BitVec.ofNat 8 s.cfg.txbufKb
      sImr := 0x14, sIr := w1c8 s.spi.chip.sIr 0xFF, simr := if s.cfg.spiIntWired then 0x01 else 0x00 } } }) := by
  unfold spiConfigure spiWriteStation
  rw [config_bind_apply, modify_bind_apply]
  have h0 : StillSpi { s with mac := m } := h.of rfl rfl rfl rfl
  refine (bind_ok (spiWrite_common h0 0x0009 (macBytes m) rfl)).trans ?_
  let c1 : Chip := { s.spi.chip with shar := m }
  let t (c : Chip) : State := { s with mac := m, spi := { s.spi with csActive := false, chip := c } }
  have ht : ∀ c : Chip, c.mr = s.spi.chip.mr → StillSpi (t c) := fun c hc => h.of rfl rfl rfl hc
  refine (bind_ok (spiWrite_socket1 (s := t c1) (ht _ rfl) (a := 0x0000) (by decide) (by decide) (sMrValue s.cfg))).trans ?_
  let c2 : Chip := { c1 with sMr := sMrValue s.cfg }
  refine (bind_ok (spiWrite_socket1 (s := t c2) (ht _ rfl) (a := 0x001E) (by decide) (by decide) _)).trans ?_
  let c3 : Chip := { c2 with sRxbufSize := BitVec.ofNat 8 s.cfg.rxbufKb }
  refine (bind_ok (spiWrite_socket1 (s := t c3) (ht _ rfl) (a := 0x001F) (by decide) (by decide) _)).trans ?_
  let c4 : Chip := { c3 with sTxbufSize := BitVec.ofNat 8 s.cfg.txbufKb }
  refine (bind_ok (spiWrite_socket1 (s := t c4) (ht _ rfl) (a := 0x002C) (by decide) (by decide) _)).trans ?_
  let c5 : Chip := { c4 with sImr := 0x14 }
  refine (bind_ok (spiWrite_socket1 (s := t c5) (ht _ rfl) (a := 0x0002) (by decide) (by decide) _)).trans ?_
  let c6 : Chip := { c5 with sIr := w1c8 s.spi.chip.sIr 0xFF }
  exact spiWrite_common (s := t c6) (ht _ rfl) 0x0018 _ rfl

/-- R246. -/
theorem spiSessionValues_ok {s : State} (h : StillSpi s) :
    spiSessionValues s = .ok ((), s.withSpi { s.spi with
      rxPending := false, txDone := false, intLatched := false, ibufStart := 0, ibufSize := 0, faultSock := false }) := by
  unfold spiSessionValues
  refine (micro_bind (modifySpi_apply _ s) ?_).trans ?_
  · exact StillSpi.calm (by exact h.of rfl rfl rfl rfl)
  refine (micro_bind (modifySpi_apply _ _) ?_).trans ?_
  · exact StillSpi.calm (by exact h.of rfl rfl rfl rfl)
  rfl

/-- The chip after S5 to S9 (R244, R245, R264). -/
theorem configured_opened {c : Config} (hb : SpiBounds c) (q : Chip) (m : MacAddr) :
    Chip.opened { q with
      shar := m, sMr := sMrValue c, sRxbufSize := BitVec.ofNat 8 c.rxbufKb, sTxbufSize := BitVec.ofNat 8 c.txbufKb
      sImr := 0x14, sIr := w1c8 q.sIr 0xFF, simr := if c.spiIntWired then 0x01 else 0x00 } = q.afterInit c m := by
  have h1 := kb_toNat hb.rxKb
  have h2 := kb_toNat hb.txKb
  have h3 : w1c8 q.sIr 0xFF = 0x00 := by
    unfold w1c8
    generalize q.sIr = v
    revert v
    decide +kernel
  simp only [Chip.opened, Chip.afterInit, sMrValue_eq, h1, h2, h3]
  rfl

/-- S5 to S9 and R246: the socket opens. -/
theorem spiBringUp_ok {s : State} (h : StillSpi s) (hb : SpiBounds s.cfg) (m : MacAddr) :
    spiBringUp m s = .ok (true, { s with mac := m, spi := { s.spi with
      rxPending := false, txDone := false, intLatched := false, csActive := false, faultSock := false, ibufStart := 0, ibufSize := 0
      chip := s.spi.chip.afterInit s.cfg m } }) := by
  unfold spiBringUp
  refine (bind_ok (spiConfigure_ok h m)).trans ?_
  let q : Chip := { s.spi.chip with
    shar := m, sMr := sMrValue s.cfg, sRxbufSize := BitVec.ofNat 8 s.cfg.rxbufKb, sTxbufSize := BitVec.ofNat 8 s.cfg.txbufKb
    sImr := 0x14, sIr := w1c8 s.spi.chip.sIr 0xFF, simr := if s.cfg.spiIntWired then 0x01 else 0x00 }
  let t (c : Chip) : State := { s with mac := m, spi := { s.spi with csActive := false, chip := c } }
  have ht : ∀ c : Chip, c.mr = s.spi.chip.mr → StillSpi (t c) := fun c hc => h.of rfl rfl rfl hc
  have hq : q.opened = s.spi.chip.afterInit s.cfg m := configured_opened hb s.spi.chip m
  have e : spiOpenSocket (t q) = .ok (true, t q.opened) := by
    unfold spiOpenSocket
    refine (bind_ok (sock_open (s := t q) (ht _ rfl) hb.sock (sMrValue_raw s.cfg) ?_ ?_)).trans ?_
    · show legalBufKb (BitVec.ofNat 8 s.cfg.rxbufKb).toNat = true
      rw [kb_toNat hb.rxKb]
      exact hb.rxKb
    · show legalBufKb (BitVec.ofNat 8 s.cfg.txbufKb).toNat = true
      rw [kb_toNat hb.txKb]
      exact hb.txKb
    · exact awaitSocket_at (s := t q.opened) (ht _ rfl) hb.sock rfl
  refine (bind_ok e).trans ?_
  rw [branch_apply, if_pos rfl]
  refine (bind_ok (spiSessionValues_ok (s := t q.opened) (ht _ rfl))).trans ?_
  show Except.ok (true, _) = _
  rw [hq]

/-- The state after DEINIT's first micro-step: interrupts masked, no edge latched (R248, R357). -/
def State.masked (s : State) : State :=
  { s with spi := { s.spi with intLatched := false, csActive := false, chip := { s.spi.chip with simr := 0x00 } } }

theorem spiMask_ok {s : State} (h : StillSpi s) : spiMask s = .ok ((), s.masked) := by
  have e := spiStores_of (s := s) (bsb := 0) (a := 0x0018) (vs := [0x00]) (by decide)
    (chipStores_common (s := s.selected) h.present 0x0018 [0x00])
  have h1 : StillSpi s.masked := h.of rfl rfl rfl rfl
  exact micro_ok ((bind_ok e).trans rfl) h1.calm

/-- With no edge latched the interrupt agent has no step (R271). -/
theorem spiIsr_unlatched {s : State} (h : s.spi.intLatched = false) : spiIsr s = .ok ((), s) := by
  unfold spiIsr
  rw [get_bind_apply, branch_apply, if_neg (by simp [h])]
  rfl

/-- While SIMR masks the socket no cause latches an edge (R57, R268, R269): with `spiIsr_unlatched`, R357 on the SPI build. -/
theorem latchCause_masked {s : State} (h : s.spi.chip.simr.getLsbD 0 = false) (cause : Nat) : latchCause cause s = .ok ((), s) := by
  unfold latchCause
  rw [modifySpi_apply, latches, h]
  rfl

/-- The SPI part of DEINIT (R248). -/
theorem spiShutDown_ok {s : State} (h : StillSpi s) (hn : 1 ≤ s.cfg.sockPollBound) :
    spiShutDown s = .ok ((), { s with spi := { s.spi with
      intLatched := false, csActive := false
      chip := { s.spi.chip with simr := 0x00, sSr := 0x00, sendQueue := [], sIr := w1c8 s.spi.chip.sIr 0xFF } } }) := by
  unfold spiShutDown
  refine (bind_ok (spiMask_ok h)).trans ?_
  have h1 : StillSpi s.masked := h.of rfl rfl rfl rfl
  have h2 : StillSpi (s.masked.withChip { s.masked.spi.chip with sSr := 0x00, sendQueue := [] }) := h1.withChip rfl
  refine (bind_ok (sock_close (s := s.masked) h1 hn)).trans ?_
  refine (bind_ok (awaitSocket_at (s := s.masked.withChip { s.masked.spi.chip with sSr := 0x00, sendQueue := [] }) h2 hn rfl)).trans ?_
  exact spiWrite_socket1 (s := s.masked.withChip { s.masked.spi.chip with sSr := 0x00, sendQueue := [] }) h2 (by decide) (by decide) 0xFF

/-! ## The probe (R240 to R243, R274) -/

/-- S3 (R242): both patterns come back. -/
theorem spiScratch_ok {s : State} (h : StillSpi s) (p : U16) :
    spiScratch p s = .ok (true, s.withChip { s.spi.chip with scratch := p }) := by
  unfold spiScratch
  have e : s.spi.chip.storesCommon 0x0019 (putBe16 p) = { s.spi.chip with scratch := p } := by
    show { s.spi.chip with scratch := withLo (withHi s.spi.chip.scratch (hi8 p)) (lo8 p) } = _
    rw [withLo_withHi]
  have h1 := spiWrite_common h 0x0019 (putBe16 p) (by rw [e])
  rw [e] at h1
  have h2 : StillSpi (s.withChip { s.spi.chip with scratch := p }) := h.withChip rfl
  refine (bind_ok h1).trans ((bind_ok (scratch_read h2)).trans ?_)
  show Except.ok (p.toNat == p.toNat, _) = _
  rw [beq_self_eq_true]

/-! ## Receive (R250 to R262) -/

/-- A read of the local buffer inside its size (R69, R103). -/
theorem ibufRead_ok {s : State} {a n : Nat} {bs : List Byte} (hs : a + n ≤ s.spi.ibufSize)
    (hb : Memory.readBytes s.spi.ibuf a n = some bs) : ibufRead a n s = .ok (bs, s) := by
  unfold ibufRead
  rw [get_bind_apply, if_pos hs, hb]
  rfl

/-- Pop on a buffered record (R69, R258). -/
theorem spiPop_ok {s : State} {r : List Byte} (hl : 2 ≤ r.length) (hr : be16 r 0 = r.length)
    (hz : s.spi.ibufStart + r.length ≤ s.spi.ibufSize) (hb : Memory.readBytes s.spi.ibuf s.spi.ibufStart r.length = some r) :
    spiPop s = (let a := s.draws.takeAlloc
      if a.1 then
        .ok (.frame a.2.takeTimestamp.1 (r.drop 2),
          { s with draws := a.2.takeTimestamp.2, spi := { s.spi with ibufStart := s.spi.ibufStart + r.length } })
      else .ok (.nothing,
        { s with draws := a.2, cntRxNomem := s.cntRxNomem + 1, spi := { s.spi with ibufStart := s.spi.ibufStart + r.length } })) := by
  obtain ⟨k, hk⟩ : ∃ k, r.length = 2 + k := ⟨r.length - 2, by omega⟩
  have hs := Memory.readBytes_split (n := 2) (k := k) (by rw [← hk]; exact hb)
  unfold spiPop
  rw [get_bind_apply, bind_ok (ibufRead_ok (by omega) hs.1)]
  have hbe : be16 (r.take 2) 0 = r.length := by
    rw [← hr]
    rcases r with _ | ⟨x, _ | ⟨y, r⟩⟩ <;> rfl
  rw [hbe, show r.length - 2 = k by omega, bind_ok (ibufRead_ok (by omega) hs.2), modifySpi_bind_apply]
  unfold drawAlloc drawTimestamp
  rw [drawBy_bind_apply, branch_apply]
  rfl

/-- Nothing announced (R252). -/
theorem spiRefill_empty {s : State} (h : StillSpi s) (hn : 1 ≤ s.cfg.spiStableReadBound) (h0 : s.spi.chip.sRxRsr.toNat = 0) :
    spiRefill s = .ok (none, s.deselected) := by
  unfold spiRefill
  rw [config_bind_apply]
  refine (bind_ok (rsr_stable h hn)).trans ?_
  rw [h0]
  rfl

/-- The announced bytes are fetched (R252). -/
theorem spiRefill_some {s : State} (h : StillSpi s) (hn : 1 ≤ s.cfg.spiStableReadBound) {b : List Byte} (h0 : 0 < b.length)
    (hl : s.spi.chip.sRxRsr.toNat = b.length) (hc : b.length ≤ s.cfg.rxbufKb * 1024)
    (hb : ringRead s.spi.chip.rxMem s.spi.chip.rxBytes s.spi.chip.sRxRd.toNat b.length = some b) :
    spiRefill s = .ok (some (b.length, s.spi.chip.sRxRd.toNat), { s with spi := { s.spi with
      csActive := false, ibuf := Memory.writeBytes s.spi.ibuf 0 b, ibufStart := 0, ibufSize := b.length } }) := by
  obtain ⟨k, hk⟩ : ∃ k, b.length = k + 1 := ⟨b.length - 1, by omega⟩
  unfold spiRefill
  rw [config_bind_apply]
  refine (bind_ok (rsr_stable h hn)).trans ?_
  rw [hl, hk]
  dsimp only
  rw [branch_apply, if_neg (by omega)]
  refine (bind_ok (rxRd_read h.deselected)).trans ?_
  refine (bind_ok (spiRead_rx h.deselected _ _ (bs := b) (by rw [hk] at hb; exact hb))).trans ?_
  rw [modifySpi_bind_apply]
  rfl

/-- The acknowledge (R255): S_RX_RD moves by `p`, then RECV. -/
theorem spiAck_ok {s : State} (h : StillSpi s) (hn : 1 ≤ s.cfg.sockPollBound) (ho : s.spi.chip.sSr = srMacraw) {rd p : Nat}
    (hrd : s.spi.chip.sRxRd.toNat = rd) (hcom : s.spi.chip.rxRdCommitted = s.spi.chip.sRxRd) (hp : p ≤ s.spi.chip.sRxRsr.toNat) :
    spiAck rd p s = .ok ((), s.withChip { s.spi.chip with
      sRxRd := s.spi.chip.sRxRd + BitVec.ofNat 16 p, rxRdCommitted := s.spi.chip.sRxRd + BitVec.ofNat 16 p
      sRxRsr := BitVec.ofNat 16 (ptrDiff s.spi.chip.sRxWr (s.spi.chip.sRxRd + BitVec.ofNat 16 p)) }) := by
  have hv : BitVec.ofNat 16 (rd + p) = s.spi.chip.sRxRd + BitVec.ofNat 16 p := by
    rw [← hrd, BitVec.ofNat_add, BitVec.ofNat_toNat]
    simp
  have hp16 : p < 65536 := Nat.lt_of_le_of_lt hp s.spi.chip.sRxRsr.isLt
  have e : s.spi.chip.storesSocket 0x0028 (putBe16 (s.spi.chip.sRxRd + BitVec.ofNat 16 p))
      = { s.spi.chip with sRxRd := s.spi.chip.sRxRd + BitVec.ofNat 16 p } := by
    generalize s.spi.chip.sRxRd + BitVec.ofNat 16 p = v
    show { s.spi.chip with sRxRd := withLo (withHi s.spi.chip.sRxRd (hi8 v)) (lo8 v) } = _
    rw [withLo_withHi]
  unfold spiAck
  rw [hv]
  refine (bind_ok (spiWrite_socket h 0x0028 _ ?_)).trans ?_
  · intro j hj
    have : j < 2 := hj
    unfold chipAddress
    omega
  rw [e]
  let q : Chip := { s.spi.chip with sRxRd := s.spi.chip.sRxRd + BitVec.ofNat 16 p }
  have hq : StillSpi (s.withChip q) := h.withChip rfl
  refine (bind_ok (sock_recv (s := s.withChip q) hq hn ho ?_)).trans ?_
  · show ptrDiff (s.spi.chip.sRxRd + BitVec.ofNat 16 p) s.spi.chip.rxRdCommitted ≤ s.spi.chip.sRxRsr.toNat
    rw [hcom, ptrDiff_advance _ hp16]
    exact hp
  · rfl

/-- What the scanner leaves (R253 to R257), a chip in the configuration of INIT. -/
theorem spiScan_whole {s : State} (h : StillSpi s) (hn : 1 ≤ s.cfg.sockPollBound) (ho : s.spi.chip.sSr = srMacraw)
    (hcom : s.spi.chip.rxRdCommitted = s.spi.chip.sRxRd) (hcs : s.spi.csActive = false) {b : List Byte} {p : Nat}
    (hz : b.length ≤ s.spi.ibufSize) (hb : Memory.readBytes s.spi.ibuf 0 b.length = some b)
    (hr : scanRecords s.cfg.recMinLen b = (p, false))
    (hp : p ≤ s.spi.chip.sRxRsr.toNat) (hw : s.spi.chip.sRxRsr = BitVec.ofNat 16 (ptrDiff s.spi.chip.sRxWr s.spi.chip.sRxRd)) :
    spiScan b.length s.spi.chip.sRxRd.toNat s = .ok ((), { s with spi := { s.spi with
      csActive := false, ibufSize := p
      chip := { s.spi.chip with
        sRxRd := s.spi.chip.sRxRd + BitVec.ofNat 16 p, rxRdCommitted := s.spi.chip.sRxRd + BitVec.ofNat 16 p
        sRxRsr := BitVec.ofNat 16 (ptrDiff s.spi.chip.sRxWr (s.spi.chip.sRxRd + BitVec.ofNat 16 p)) } } }) := by
  unfold spiScan
  rw [config_bind_apply, bind_ok (ibufRead_ok (by omega) hb)]
  dsimp only
  rw [hr, modifySpi_bind_apply]
  dsimp only
  rw [branch_apply, if_neg (by simp), branch_apply]
  have h1 : StillSpi (s.withSpi { s.spi with ibufSize := p }) := h.of rfl rfl rfl rfl
  by_cases h0 : 0 < p
  · rw [if_pos h0]
    exact spiAck_ok (s := s.withSpi { s.spi with ibufSize := p }) h1 hn ho rfl hcom hp
  · have hp0 : p = 0 := by omega
    subst hp0
    rw [if_neg h0]
    have : s.spi.chip.sRxRd + BitVec.ofNat 16 0 = s.spi.chip.sRxRd := by simp
    rw [this, ← hw]
    show Except.ok ((), s.withSpi { s.spi with ibufSize := 0 }) = Except.ok ((), { s with spi := { s.spi with
      csActive := false, ibufSize := 0, chip := { s.spi.chip with rxRdCommitted := s.spi.chip.sRxRd } } })
    rw [← hcs, ← hcom]

theorem spiScan_corrupt {s : State} (h : StillSpi s) (hn : 1 ≤ s.cfg.sockPollBound) (hm : s.spi.chip.sMr &&& 0x0F = 0x04)
    (hr : legalBufKb s.spi.chip.sRxbufSize.toNat = true) (ht : legalBufKb s.spi.chip.sTxbufSize.toNat = true) {b : List Byte} {p rd : Nat}
    (hz : b.length ≤ s.spi.ibufSize) (hb : Memory.readBytes s.spi.ibuf 0 b.length = some b) (hsc : scanRecords s.cfg.recMinLen b = (p, true)) :
    spiScan b.length rd s = .ok ((), { s with spi := { s.spi with
      csActive := false, ibufSize := p, chip := s.spi.chip.closed.opened } }) := by
  unfold spiScan
  rw [config_bind_apply, bind_ok (ibufRead_ok (by omega) hb)]
  dsimp only
  rw [hsc, modifySpi_bind_apply]
  dsimp only
  rw [branch_apply, if_pos rfl, raise_bind_apply]
  have h1 : StillSpi (s.withSpi { s.spi with ibufSize := p }) := h.of rfl rfl rfl rfl
  exact recover_ok (s := s.withSpi { s.spi with ibufSize := p }) h1 hn hm hr ht

/-- Lines 6 to 10 of R250 once the refill and the scan are known. -/
theorem spiFetch_ok {s t u : State} {n rd : Nat} (h : StillSpi s)
    (hf : spiRefill (s.withChip { s.spi.chip with sIr := w1c8 s.spi.chip.sIr 0x04 }) = .ok (some (n, rd), t))
    (hs : spiScan n rd t = .ok ((), u)) :
    spiFetch s = if u.spi.ibufStart < u.spi.ibufSize then spiPop u else .ok (.nothing, u) := by
  unfold spiFetch
  refine (bind_ok (spiWrite_socket1 h (a := 0x0002) (by decide) (by decide) 0x04)).trans ?_
  refine (bind_ok hf).trans ((bind_ok hs).trans ?_)
  rw [get_bind_apply, branch_apply]
  by_cases hlt : u.spi.ibufStart < u.spi.ibufSize
  · rw [if_pos hlt, if_pos (by simpa [recordWaits] using hlt)]
  · rw [if_neg hlt, if_neg (by simpa [recordWaits] using hlt)]
    rfl

theorem spiFetch_nothing {s t : State} (h : StillSpi s)
    (hf : spiRefill (s.withChip { s.spi.chip with sIr := w1c8 s.spi.chip.sIr 0x04 }) = .ok (none, t)) :
    spiFetch s = .ok (.nothing, t) := by
  unfold spiFetch
  refine (bind_ok (spiWrite_socket1 h (a := 0x0002) (by decide) (by decide) 0x04)).trans ?_
  exact (bind_ok hf).trans rfl

/-- While a record waits PROC_INPUT pops it (R250), under every schedule. -/
theorem spiProcInput_waiting {s : State} (h : s.spi.ibufStart < s.spi.ibufSize) : spiProcInput s = spiPop s := by
  unfold spiProcInput
  rw [get_bind_apply, branch_apply, if_pos (by simpa [recordWaits] using h)]

/-- With the local buffer empty and the line wired: clear, then check (R97, R250). -/
theorem spiProcInput_wired {s : State} (h : StillSpi s) (he : s.spi.ibufSize ≤ s.spi.ibufStart) (hw : s.cfg.spiIntWired = true) :
    spiProcInput s = (if s.spi.rxPending then spiFetch else pure .nothing : M Received)
      (s.withSpi { s.spi with rxPending := false, ibufStart := 0, ibufSize := 0 }) := by
  unfold spiProcInput
  rw [get_bind_apply, branch_apply, if_neg (by simpa [recordWaits] using he), modifySpi_bind_apply, branch_apply, if_pos hw]
  refine (micro_bind (t := s.withSpi { s.spi with rxPending := false, ibufStart := 0, ibufSize := 0 }) (a := s.spi.rxPending) rfl ?_).trans rfl
  exact StillSpi.calm (by exact h.of rfl rfl rfl rfl)

/-- With the local buffer empty and no line wired the chip is always asked (R251). -/
theorem spiProcInput_unwired {s : State} (he : s.spi.ibufSize ≤ s.spi.ibufStart) (hw : s.cfg.spiIntWired = false) :
    spiProcInput s = spiFetch (s.withSpi { s.spi with ibufStart := 0, ibufSize := 0 }) := by
  unfold spiProcInput
  rw [get_bind_apply, branch_apply, if_neg (by simpa [recordWaits] using he), modifySpi_bind_apply, branch_apply, if_neg (by simp [hw])]

/-! ## Transmit (R259) -/

/-- Line 3: with the line wired the flag and the cause are cleared. -/
theorem spiOutput_cleared {s : State} (h : StillSpi s) :
    (onlyIf s.cfg.spiIntWired (do clearSpiTxDone; spiWrite 1 0x0002 [0x10]) : M Unit) s = .ok ((),
      if s.cfg.spiIntWired then { s with spi := { s.spi with
        csActive := false, txDone := false, chip := { s.spi.chip with sIr := w1c8 s.spi.chip.sIr 0x10 } } } else s) := by
  cases hw : s.cfg.spiIntWired with
  | false => rfl
  | true =>
    rw [onlyIf_pos rfl, if_pos rfl]
    have h1 : StillSpi (s.withSpi { s.spi with txDone := false }) := h.of rfl rfl rfl rfl
    unfold clearSpiTxDone
    refine (bind_ok (s := s) (t := s.withSpi { s.spi with txDone := false }) (a := ()) ?_).trans ?_
    · exact (micro_bind (t := s.withSpi { s.spi with txDone := false }) (a := s.spi.txDone) rfl h1.calm).trans rfl
    · exact spiWrite_socket1 (s := s.withSpi { s.spi with txDone := false }) h1 (by decide) (by decide) 0x10

/-- The first look finds room (R259). -/
theorem spiAwaitRoom_room {s : State} (h : StillSpi s) (hn : 1 ≤ s.cfg.spiStableReadBound) {len k : Nat}
    (hr : len ≤ s.spi.chip.sTxFsr.toNat) : spiAwaitRoom len (k + 1) s = .ok (true, s.deselected) := by
  unfold spiAwaitRoom
  rw [config_bind_apply]
  refine (bind_ok (fsr_stable h hn)).trans ?_
  rw [branch_apply, if_pos (by simpa using hr)]
  rfl

/-- No look finds room. -/
theorem spiAwaitRoom_full {s : State} (h : StillSpi s) (hn : 1 ≤ s.cfg.spiStableReadBound) {len : Nat}
    (hr : s.spi.chip.sTxFsr.toNat < len) (hd : s.cfg.spiIntWired = true → s.spi.txDone = false) (k : Nat) :
    spiAwaitRoom len (k + 1) s = .ok (false, s.deselected) := by
  induction k generalizing s with
  | zero =>
    unfold spiAwaitRoom
    rw [config_bind_apply]
    refine (bind_ok (fsr_stable h hn)).trans ?_
    rw [branch_apply, if_neg (by simp; omega)]
    refine (bind_ok (t := s.deselected) (a := ()) (clear_again h.deselected hd)).trans rfl
  | succ k ih =>
    unfold spiAwaitRoom
    rw [config_bind_apply]
    refine (bind_ok (fsr_stable h hn)).trans ?_
    rw [branch_apply, if_neg (by simp; omega)]
    exact (bind_ok (t := s.deselected) (a := ()) (clear_again h.deselected hd)).trans (ih h.deselected hn hr hd)
where
  clear_again {s : State} (h : StillSpi s) (hd : s.cfg.spiIntWired = true → s.spi.txDone = false) :
      (onlyIf s.cfg.spiIntWired clearSpiTxDone : M Unit) s = .ok ((), s) := by
    cases hw : s.cfg.spiIntWired with
    | false => rfl
    | true =>
      rw [onlyIf_pos rfl]
      unfold clearSpiTxDone
      have e : testAndClearSpiTxDone s = .ok (s.spi.txDone, s) := by
        show Except.ok (s.spi.txDone, s.withSpi { s.spi with txDone := false }) = _
        rw [← hd hw]
      exact (micro_bind e h.calm).trans rfl

/-- Lines 11 to 15: the bytes, the write pointer, SEND (R259, R266). -/
theorem spiGive_ok {s : State} (h : StillSpi s) (hn : 1 ≤ s.cfg.sockPollBound) (ho : s.spi.chip.sSr = srMacraw)
    (hcom : s.spi.chip.txWrCommitted = s.spi.chip.sTxWr) {b : List Byte} (h0 : 0 < b.length) (hb : b.length ≤ s.spi.chip.sTxFsr.toNat) :
    spiGive b s = .ok ((), s.withChip
      (let wr := s.spi.chip.sTxWr + BitVec.ofNat 16 b.length;
      { s.spi.chip with
        txMem := ringWrite s.spi.chip.txMem s.spi.chip.txBytes s.spi.chip.sTxWr.toNat b, sTxWr := wr, txWrCommitted := wr
        sendQueue := s.spi.chip.sendQueue ++ [wr]
        sTxFsr := BitVec.ofNat 16 (s.spi.chip.txBytes - (wr - s.spi.chip.sTxRd).toNat) })) := by
  have hlen : b.length < 65536 := Nat.lt_of_le_of_lt hb s.spi.chip.sTxFsr.isLt
  have hv : BitVec.ofNat 16 (s.spi.chip.sTxWr.toNat + b.length) = s.spi.chip.sTxWr + BitVec.ofNat 16 b.length := by
    rw [BitVec.ofNat_add, BitVec.ofNat_toNat]
    simp
  unfold spiGive
  refine (bind_ok (txWr_read h)).trans ?_
  refine (bind_ok (spiWrite_tx h.deselected _ b)).trans ?_
  rw [hv]
  let q : Chip := { s.spi.chip with txMem := ringWrite s.spi.chip.txMem s.spi.chip.txBytes s.spi.chip.sTxWr.toNat b }
  have hq : StillSpi (s.withChip q) := h.withChip rfl
  have e : q.storesSocket 0x0024 (putBe16 (s.spi.chip.sTxWr + BitVec.ofNat 16 b.length))
      = { q with sTxWr := s.spi.chip.sTxWr + BitVec.ofNat 16 b.length } := by
    generalize s.spi.chip.sTxWr + BitVec.ofNat 16 b.length = v
    show { q with sTxWr := withLo (withHi q.sTxWr (hi8 v)) (lo8 v) } = _
    rw [withLo_withHi]
  have e1 := spiWrite_socket (s := s.withChip q) hq 0x0024 (putBe16 (s.spi.chip.sTxWr + BitVec.ofNat 16 b.length)) (by
    intro j hj
    have : j < 2 := hj
    unfold chipAddress
    omega)
  refine (bind_ok e1).trans ?_
  have e' : (s.withChip q).spi.chip.storesSocket 0x0024 (putBe16 (s.spi.chip.sTxWr + BitVec.ofNat 16 b.length))
      = { q with sTxWr := s.spi.chip.sTxWr + BitVec.ofNat 16 b.length } := e
  rw [e']
  have hadv : ptrDiff (s.spi.chip.sTxWr + BitVec.ofNat 16 b.length) s.spi.chip.txWrCommitted = b.length := by
    rw [hcom, ptrDiff_advance _ hlen]
  let q2 : Chip := { q with sTxWr := s.spi.chip.sTxWr + BitVec.ofNat 16 b.length }
  have hq2 : StillSpi (s.withChip q2) := h.withChip rfl
  refine (bind_ok (sock_send (s := s.withChip q2) hq2 hn ho ?_ ?_)).trans ?_
  · intro heq
    have : ptrDiff q2.sTxWr q2.txWrCommitted = 0 := by
      have heq' : q2.sTxWr = q2.txWrCommitted := heq
      rw [heq']
      exact ptrDiff_self _
    have h2 : ptrDiff q2.sTxWr q2.txWrCommitted = b.length := hadv
    omega
  · show ptrDiff (s.spi.chip.sTxWr + BitVec.ofNat 16 b.length) s.spi.chip.txWrCommitted ≤ s.spi.chip.sTxFsr.toNat
    rw [hadv]
    exact hb
  · rfl

/-- OUTPUT with room (R259). -/
theorem spiOutput_room {s t : State} {b : List Byte} (h : StillSpi s) (hn : 1 ≤ s.cfg.spiStableReadBound) (hw : 1 ≤ s.cfg.spiTxWaitBound)
    (hr : b.length ≤ s.spi.chip.sTxFsr.toNat)
    (hg : spiGive b { s with spi := { s.spi with
      csActive := false, txDone := if s.cfg.spiIntWired then false else s.spi.txDone
      chip := { s.spi.chip with sIr := if s.cfg.spiIntWired then w1c8 s.spi.chip.sIr 0x10 else s.spi.chip.sIr } } } = .ok ((), t)) :
    spiOutput b s = .ok (.ok, t) := by
  obtain ⟨k, hk⟩ : ∃ k, s.cfg.spiTxWaitBound = k + 1 := ⟨s.cfg.spiTxWaitBound - 1, by omega⟩
  unfold spiOutput
  rw [config_bind_apply]
  refine (bind_ok (spiOutput_cleared h)).trans ?_
  rw [hk]
  cases hi : s.cfg.spiIntWired with
  | false =>
    rw [hi] at hg
    simp only [Bool.false_eq_true, if_false] at hg ⊢
    refine (bind_ok (spiAwaitRoom_room h hn hr)).trans ?_
    rw [branch_apply, if_pos rfl]
    exact (bind_ok hg).trans rfl
  | true =>
    rw [hi] at hg
    simp only [if_true] at hg ⊢
    have h1 : StillSpi { s with spi := { s.spi with
      csActive := false, txDone := false, chip := { s.spi.chip with sIr := w1c8 s.spi.chip.sIr 0x10 } } } := h.of rfl rfl rfl rfl
    refine (bind_ok (spiAwaitRoom_room h1 hn hr)).trans ?_
    rw [branch_apply, if_pos rfl]
    exact (bind_ok hg).trans rfl

/-- OUTPUT without room: AGAIN (R259, R321). -/
theorem spiOutput_full {s : State} {b : List Byte} (h : StillSpi s) (hn : 1 ≤ s.cfg.spiStableReadBound) (hw : 1 ≤ s.cfg.spiTxWaitBound)
    (hr : s.spi.chip.sTxFsr.toNat < b.length) :
    spiOutput b s = .ok (.again, { s with
      cntTxAgain := s.cntTxAgain + 1
      spi := { s.spi with
        csActive := false, txDone := if s.cfg.spiIntWired then false else s.spi.txDone
        chip := { s.spi.chip with sIr := if s.cfg.spiIntWired then w1c8 s.spi.chip.sIr 0x10 else s.spi.chip.sIr } } }) := by
  obtain ⟨k, hk⟩ : ∃ k, s.cfg.spiTxWaitBound = k + 1 := ⟨s.cfg.spiTxWaitBound - 1, by omega⟩
  unfold spiOutput
  rw [config_bind_apply]
  refine (bind_ok (spiOutput_cleared h)).trans ?_
  rw [hk]
  cases hi : s.cfg.spiIntWired with
  | false =>
    simp only [Bool.false_eq_true, if_false]
    refine (bind_ok (spiAwaitRoom_full h hn hr (by simp [hi]) k)).trans ?_
    rw [branch_apply, if_neg (by simp)]
    rfl
  | true =>
    simp only [if_true]
    have h1 : StillSpi { s with spi := { s.spi with
      csActive := false, txDone := false, chip := { s.spi.chip with sIr := w1c8 s.spi.chip.sIr 0x10 } } } := h.of rfl rfl rfl rfl
    refine (bind_ok (spiAwaitRoom_full h1 hn hr (fun _ => rfl) k)).trans ?_
    rw [branch_apply, if_neg (by simp)]
    rfl

end Sys2Proof.Machine
end

