-- ==== Sys2Proof/Laws/CalmLink.lean ====
section
/-! SUPPORT. The link monitor and the SPI probe in calm runs: evaluation (R301), one POLL of each backend (R302, R305), the chip's reset and
the floating bus (R234, R240 to R243, R274). -/

namespace Sys2Proof.Machine

/-! ## Evaluation (R300, R301) -/

/-- Evaluate, when no agent step follows the notification. -/
theorem evaluate_ok {s : State} {up : Bool} (h : ∀ n r, Calm { s with linkReported := r, notifyLog := n }) :
    evaluate up s = .ok ((), s.evaluated up) := by
  unfold evaluate State.evaluated
  rw [get_bind_apply, branch_apply]
  by_cases h1 : s.linkManual = true ∧ up = false
  · rw [if_pos (by simp [h1]), if_pos (.inl h1)]
    rfl
  · rw [if_neg (by simpa using h1), branch_apply]
    by_cases h2 : up = s.linkReported
    · rw [if_neg (by simp [h2]), if_pos (.inr h2)]
      rfl
    · rw [if_pos (by simpa using h2), if_neg (by simp [h1, h2]), modify_bind_apply]
      unfold notify
      exact micro_ok (modify_apply _ _) (h (s.notifyLog ++ [up]) up)

theorem StillDma.notified {s : State} (h : StillDma s) (n : List Bool) (r : Bool) : Calm { s with linkReported := r, notifyLog := n } :=
  StillDma.calm (by exact h.of rfl rfl rfl (.inl rfl))

theorem StillSpi.notified {s : State} (h : StillSpi s) (n : List Bool) (r : Bool) : Calm { s with linkReported := r, notifyLog := n } :=
  StillSpi.calm (by exact h.of rfl rfl rfl rfl)

/-! ## One POLL of the DMA monitor (R302), the quiet schedule -/

theorem mdioIssue_quiet {s : State} (hq : s.Quiet) {frame : U32} (hbusy : s.dma.mdioBusy = false) (hl : mmfrLegal frame = true) :
    mdioIssue frame s = .ok (true, s.mdioIssued frame) := by
  refine mdioIssue_ok hq.calm hbusy hl ?_
  exact boundary_calm (State.Quiet.calm (s := s.mdioIssued frame) ⟨hq.1, hq.2⟩)

theorem dmaPoll_idle {s : State} (hq : s.Quiet) (hst : s.dma.lmState = .idle) :
    dmaPoll s = .ok ((), if s.dma.mdioBusy then s else
      { s.mdioIssued (mmfrRead s.cfg 0x01) with dma := { (s.mdioIssued (mmfrRead s.cfg 0x01)).dma with lmState := .waitLink } }) := by
  unfold dmaPoll
  rw [get_bind_apply, hst]
  show pollIdle s = _
  unfold pollIdle
  rw [config_bind_apply]
  cases hb : s.dma.mdioBusy with
  | true =>
    rw [bind_ok (mdioIssue_busy hb)]
    rfl
  | false =>
    rw [bind_ok (mdioIssue_quiet hq hb (mmfrRead_legal _ _))]
    rfl

/-- Nothing to collect: the state stays (R302). -/
theorem dmaPoll_waits {s : State} (hq : s.Quiet) (hst : s.dma.lmState ≠ .idle)
    (hd : (s.dma.mdioBusy && s.dma.regs.eir.getLsbD 1) = false) : dmaPoll s = .ok ((), s) := by
  have e : mdioCollect s = .ok (none, s) := by
    cases hb : s.dma.mdioBusy with
    | false => exact mdioCollect_idle hb
    | true =>
      rw [hb] at hd
      exact mdioCollect_waiting hq.calm (by simpa using hd)
  unfold dmaPoll
  rw [get_bind_apply]
  cases hs : s.dma.lmState with
  | idle => exact absurd hs hst
  | waitLink =>
    show pollWaitLink s = _
    unfold pollWaitLink
    rw [config_bind_apply, bind_ok e]
    rfl
  | waitStatus =>
    show pollWaitStatus s = _
    unfold pollWaitStatus
    rw [bind_ok e]
    rfl

/-! ## One POLL of the SPI monitor (R305, R306) -/

/-- A read of PHYCFGR: the reserved bits are drawn (R59). -/
theorem phycfgr_read {s : State} (h : StillSpi s) :
    spiReadByte 0 0x002E s = .ok (phycfgrValue s.spi.chip.link s.draws.takeChipByte.1,
      { s with draws := s.draws.takeChipByte.2, spi := { s.spi with csActive := false } }) := by
  refine spiReadByte_of (t := { s with draws := s.draws.takeChipByte.2, spi := { s.spi with csActive := true } }) (by decide) (by decide)
    ((chipByte_common (s := s.selected) h.present _).trans rfl) ?_
  exact h.of rfl rfl rfl rfl

theorem phycfgrValue_bits (l : ChipLink) (v : Byte) :
    (phycfgrValue l v).getLsbD 0 = l.up ∧ (phycfgrValue l v).getLsbD 1 = l.spd100 ∧ (phycfgrValue l v).getLsbD 2 = l.full := by
  rcases l with ⟨a, b, c⟩
  cases a <;> cases b <;> cases c <;> simp [phycfgrValue]

theorem spiPoll_ok {s : State} (h : StillSpi s) :
    spiPoll s = .ok ((), State.evaluated
      { s with
        draws := s.draws.takeChipByte.2
        linkInfo := if s.spi.chip.link.up then ⟨if s.spi.chip.link.spd100 then 100 else 10, s.spi.chip.link.full, false, false⟩ else s.linkInfo
        spi := { s.spi with csActive := false } }
      s.spi.chip.link.up) := by
  obtain ⟨b0, b1, b2⟩ := phycfgrValue_bits s.spi.chip.link s.draws.takeChipByte.1
  unfold spiPoll
  refine (bind_ok (phycfgr_read h)).trans ?_
  rw [b0]
  have h1 : StillSpi { s with draws := s.draws.takeChipByte.2, spi := { s.spi with csActive := false } } := h.of rfl rfl rfl rfl
  cases hu : s.spi.chip.link.up with
  | false => exact evaluate_ok (s := { s with draws := s.draws.takeChipByte.2, spi := { s.spi with csActive := false } }) h1.notified
  | true =>
    have e : (onlyIf (true = true) (writeLinkInfo (spiLinkInfo (phycfgrValue s.spi.chip.link s.draws.takeChipByte.1))) : M Unit)
        { s with draws := s.draws.takeChipByte.2, spi := { s.spi with csActive := false } } = .ok ((),
          { s with
            draws := s.draws.takeChipByte.2, spi := { s.spi with csActive := false }
            linkInfo := ⟨if s.spi.chip.link.spd100 then 100 else 10, s.spi.chip.link.full, false, false⟩ }) := by
      rw [onlyIf_pos rfl]
      unfold writeLinkInfo spiLinkInfo
      rw [modify_apply, b1, b2]
    refine (bind_ok e).trans (evaluate_ok ?_)
    intro n r
    exact StillSpi.calm (by exact h.of rfl rfl rfl rfl)

/-! ## The chip's reset (R241, R270, R274) -/

/-- The write that starts the reset, under the prompt completions of R247: the reset completes at the next boundary. -/
theorem spiReset_ok {s : State} (h : s.Prompted) (hb : s.cfg.backend = .spi) (hp : s.cfg.chipPresent = true)
    (hn : 1 ≤ s.cfg.spiResetPollBound) :
    spiReset s = .ok (true, s.withChip { s.spi.chip.resetStart with mr := 0x00 }) := by
  unfold spiReset
  rw [config_bind_apply]
  let t : State := s.withChip s.spi.chip.resetStart
  let u : State := s.withChip { s.spi.chip.resetStart with mr := 0x00 }
  have hu : StillSpi u := ⟨hb, hp, h.1, .inr ⟨h.2, by show (0x00#8).getLsbD 7 = false; decide⟩⟩
  have e1 : boundary t = .ok ((), u) := by
    unfold boundary
    rw [bind_ok (scriptedSteps_nil (s := t) h.1)]
    unfold promptSteps
    rw [get_bind_apply]
    have hpr : t.prompt = Prompt.completions := h.2
    rw [hpr]
    have o1 : onlyIf (Prompt.completions.mdioDone = true) (agentStep .mdioDone) = agentStep .mdioDone := onlyIf_pos rfl
    have o2 : onlyIf (Prompt.completions.chipResetDone = true) (agentStep .chipResetDone) = agentStep .chipResetDone := onlyIf_pos rfl
    have a1 : agentStep .mdioDone t = .ok ((), t) := byBackend_spi (s := t) hb
    have a2 : agentStep .chipResetDone t = .ok ((), u) := by
      refine (byBackend_spi (s := t) hb).trans ?_
      unfold chipResetDone
      rw [get_bind_apply, branch_apply, if_pos]
      · rfl
      · show (s.cfg.chipPresent && (0x80#8).getLsbD 7) = true
        rw [hp]
        rfl
    rw [o1, bind_ok a1, o2, bind_ok a2]
    rfl
  have e2 : spiWrite 0 0x0000 [0x80] s = .ok ((), u) := by
    rw [spiWrite_eq (by decide)]
    unfold micro
    have e : (do setCs true; chipStores 0 0x0000 [0x80]; setCs false : M Unit) s = .ok ((), t) := by
      unfold setCs
      rw [modifySpi_bind_apply]
      exact (bind_ok (chipStores_common (s := s.selected) hp 0x0000 [0x80])).trans rfl
    rw [bind_ok e, bind_ok e1]
    rfl
  refine (bind_ok e2).trans ?_
  exact pollByte_first hn (spiReadByte_common (s := u) hu (by decide) rfl) (by show (!(0x00#8).getLsbD 7) = true; decide)

/-! ## An absent chip (R234) -/

/-- The floating bus: every byte of a read transaction is FLOAT_BYTE. -/
theorem spiReadByte_absent {s : State} (hq : s.Quiet) (hp : s.cfg.chipPresent = false) {bsb : Nat} (hb : bsb < 32) (a : Nat) :
    spiReadByte bsb a s = .ok (s.cfg.floatByte, s.deselected) := by
  have hc : ∀ k, chipByte bsb k s.selected = .ok (s.cfg.floatByte, s.selected) := by
    intro k
    unfold chipByte
    rw [get_bind_apply, branch_apply, if_neg (by simp [hp])]
    rfl
  unfold spiReadByte
  rw [spiRead_eq hb]
  have hd : Calm s.deselected := State.Quiet.calm (s := s.deselected) ⟨hq.1, hq.2⟩
  refine (micro_bind (t := s.deselected) (a := [s.cfg.floatByte]) ?_ hd).trans rfl
  unfold setCs
  rw [modifySpi_bind_apply]
  unfold chipBytes
  have e : chipBytes bsb (a + 1) 0 s.selected = .ok ([], s.selected) := rfl
  rw [bind_apply, bind_ok (hc _), bind_ok e]
  rfl

/-- A write to an absent chip stores nothing. -/
theorem spiWrite_absent {s : State} (hq : s.Quiet) (hp : s.cfg.chipPresent = false) {bsb : Nat} (hb : bsb < 32) (a : Nat) (vs : List Byte) :
    spiWrite bsb a vs s = .ok ((), s.deselected) := by
  have hs : ∀ k vs, chipStores bsb k vs s.selected = .ok ((), s.selected) := by
    intro k vs
    induction vs generalizing k with
    | nil => rfl
    | cons v vs ih =>
      unfold chipStores
      have e : chipStore bsb (chipAddress k 0) v s.selected = .ok ((), s.selected) := by
        unfold chipStore
        rw [get_bind_apply, branch_apply, if_neg (by simp [hp])]
        rfl
      rw [bind_ok e]
      exact ih (k + 1)
  rw [spiWrite_eq hb]
  have hd : Calm s.deselected := State.Quiet.calm (s := s.deselected) ⟨hq.1, hq.2⟩
  refine micro_ok ?_ hd
  unfold setCs
  rw [modifySpi_bind_apply]
  exact (bind_ok (hs a vs)).trans rfl

end Sys2Proof.Machine
end

