-- ==== Sys2Proof/Laws/KeepsMemories.lean ====
section
/-! SUPPORT. Every change the machine is made of keeps every memory in its canonical form; what a PHY register reads after a
store (R189). -/

namespace Sys2Proof.Machine

theorem mem_storeReg {r : List (Nat × U16)} {a : Nat} {w : U16} {p : Nat × U16} (h : p ∈ storeReg r a w) :
    p = (a, w) ∨ p ∈ r := by
  induction r with
  | nil => simpa [storeReg] using h
  | cons q r ih =>
    obtain ⟨k, v⟩ := q
    simp only [storeReg] at h
    split at h
    · simpa using h
    · split at h
      · rcases List.mem_cons.mp h with h | h
        · exact .inl h
        · exact .inr (by simp [h])
      · rcases List.mem_cons.mp h with h | h
        · exact .inr (by simp [h])
        · rcases ih h with h | h
          · exact .inl h
          · exact .inr (by simp [h])

/-- Storing a register keeps the numbers rising. -/
theorem regsWf_storeReg {r : List (Nat × U16)} (h : regsWf r) (a : Nat) (w : U16) : regsWf (storeReg r a w) := by
  induction r with
  | nil => exact List.pairwise_cons.mpr ⟨by simp, List.Pairwise.nil⟩
  | cons q r ih =>
    obtain ⟨k, v⟩ := q
    have hq := List.pairwise_cons.mp h
    simp only [storeReg]
    split
    · rename_i hlt
      refine List.pairwise_cons.mpr ⟨fun p hp => ?_, h⟩
      rcases List.mem_cons.mp hp with rfl | hp
      · exact hlt
      · exact lt_trans hlt (hq.1 p hp)
    · split
      · rename_i heq
        exact List.pairwise_cons.mpr ⟨fun p hp => heq ▸ hq.1 p hp, hq.2⟩
      · rename_i h1 h2
        refine List.pairwise_cons.mpr ⟨fun p hp => ?_, ih hq.2⟩
        rcases mem_storeReg hp with rfl | hp
        · show k < a
          omega
        · exact hq.1 p hp

/-- A register reads back what was stored, and storing touches no other register. -/
theorem lookupReg_storeReg (l : List (Nat × U16)) (a k : Nat) (w : U16) :
    lookupReg (storeReg l a w) k = if k = a then some w else lookupReg l k := by
  induction l with
  | nil => simp [storeReg, lookupReg, eq_comm]
  | cons p l ih =>
    obtain ⟨j, v⟩ := p
    unfold storeReg
    by_cases h1 : a < j
    · rw [if_pos h1]
      simp [lookupReg, eq_comm]
    · rw [if_neg h1]
      by_cases h2 : a = j
      · rw [if_pos h2]
        subst h2
        by_cases h : k = a
        · simp [lookupReg, h]
        · simp [lookupReg, h, show ¬a = k from fun e => h e.symm]
      · rw [if_neg h2]
        unfold lookupReg
        rw [ih]
        by_cases h3 : j = k
        · rw [if_pos h3, if_pos h3, if_neg (fun e => h2 (e.symm.trans h3.symm))]
        · rw [if_neg h3, if_neg h3]

@[simp] theorem Phy.regValue_stored (p : Phy) (a k : Nat) (w : U16) :
    Phy.regValue { p with reg := storeReg p.reg a w } k = if k = a then w else p.regValue k := by
  unfold Phy.regValue
  rw [lookupReg_storeReg]
  split <;> rfl

@[simp] theorem Phy.extValue_stored (p : Phy) (a k : Nat) (w : U16) :
    Phy.extValue { p with ext := storeReg p.ext a w } k = if k = a then w else p.extValue k := by
  unfold Phy.extValue
  rw [lookupReg_storeReg]
  split <;> rfl

/-- A PHY register write touches the register files only by storing into them. -/
theorem regWrite_wf {p : Phy} (hr : regsWf p.reg) (he : regsWf p.ext) (ra : BitVec 5) (v : U16) :
    regsWf (p.regWrite ra v).reg ∧ regsWf (p.regWrite ra v).ext := by
  unfold Phy.regWrite
  split
  · exact ⟨hr, he⟩
  · split
    · split
      · exact ⟨hr, regsWf_storeReg he _ _⟩
      · exact ⟨hr, he⟩
    · split
      · exact ⟨hr, he⟩
      · exact ⟨regsWf_storeReg hr _ _, he⟩

/-- A write of the MAC window leaves memory, cache and PHY alone (R80). -/
theorem macWrite_keeps (d : DmaState) (r : MacReg) (v : U32) :
    (d.macWrite r v).mem = d.mem ∧ (d.macWrite r v).cache = d.cache ∧ (d.macWrite r v).phy = d.phy := by
  cases r with
  | rdar => unfold DmaState.macWrite; dsimp only; split <;> exact ⟨rfl, rfl, rfl⟩
  | tdar => unfold DmaState.macWrite; dsimp only; split <;> exact ⟨rfl, rfl, rfl⟩
  | ecr =>
    unfold DmaState.macWrite DmaState.writeEcr
    dsimp only
    split
    · split <;> exact ⟨rfl, rfl, rfl⟩
    · exact ⟨rfl, rfl, rfl⟩
  | _ => exact ⟨rfl, rfl, rfl⟩

theorem storeCommon_keeps (c : Chip) (a : Nat) (v : Byte) :
    (c.storeCommon a v).rxMem = c.rxMem ∧ (c.storeCommon a v).txMem = c.txMem := by
  unfold Chip.storeCommon
  split
  · split <;> exact ⟨rfl, rfl⟩
  all_goals exact ⟨rfl, rfl⟩

theorem storeSocket_keeps (c : Chip) (a : Nat) (v : Byte) :
    (c.storeSocket a v).rxMem = c.rxMem ∧ (c.storeSocket a v).txMem = c.txMem := by
  unfold Chip.storeSocket
  split <;> exact ⟨rfl, rfl⟩

/-- Every change keeps the canonical forms. -/
theorem Atom.memories {k : Kind} {s t : State} (h : Atom k s t) (hs : MemoriesWf s) : MemoriesWf t := by
  cases h with
  | engineMem _ a bs => exact { hs with dma := Memory.wf_writeBytes hs.dma a bs }
  | descMem _ a bs => exact { hs with dma := Memory.wf_writeBytes hs.dma a bs }
  | mdioWritten _ ra v h =>
    have := regWrite_wf hs.phyReg hs.phyExt ra v
    exact { hs with phyReg := this.1, phyExt := this.2 }
  | mac _ r v =>
    obtain ⟨h1, h2, h3⟩ := macWrite_keeps s.dma r v
    exact
      { hs with
        dma := h1 ▸ hs.dma
        cache := by show cacheWf (s.dma.macWrite r v).cache; rw [h2]; exact hs.cache
        phyReg := by show regsWf (s.dma.macWrite r v).phy.reg; rw [h3]; exact hs.phyReg
        phyExt := by show regsWf (s.dma.macWrite r v).phy.ext; rw [h3]; exact hs.phyExt }
  | cacheRead _ a n =>
    have hk := Cache.hostReadRange_keeps hs.dma hs.cache a n
    have hp : (hostReadRange s.dma a n).2.phy = s.dma.phy := by
      clear hk
      generalize s.dma = d
      induction n generalizing d a with
      | zero => rfl
      | succ n ih =>
        have h1 : (hostReadByte d a).2.phy = d.phy := rfl
        have h2 := ih (a + 1) (hostReadByte d a).2
        simp only [hostReadRange]
        split
        · rename_i he; rw [he] at h1; exact h1
        · rename_i he
          rw [he] at h1 h2
          split
          · rename_i h3; rw [h3] at h2; exact h2.trans h1
          · rename_i h3; rw [h3] at h2; exact h2.trans h1
    exact
      { hs with
        dma := by show (hostReadRange s.dma a n).2.mem.wf; rw [hk.1]; exact hs.dma
        cache := hk.2.1
        phyReg := by show regsWf (hostReadRange s.dma a n).2.phy.reg; rw [hp]; exact hs.phyReg
        phyExt := by show regsWf (hostReadRange s.dma a n).2.phy.ext; rw [hp]; exact hs.phyExt }
  | cacheWrite _ a bs =>
    have hk := Cache.hostWriteRange_keeps hs.dma hs.cache a bs
    have hp : (hostWriteRange s.dma a bs).phy = s.dma.phy := by
      clear hk
      generalize s.dma = d
      induction bs generalizing d a with
      | nil => rfl
      | cons b bs ih => exact (ih (a + 1) (hostWriteByte d a b)).trans rfl
    exact
      { hs with
        dma := by show (hostWriteRange s.dma a bs).mem.wf; rw [Cache.hostWriteRange_mem]; exact hs.dma
        cache := hk.1
        phyReg := by show regsWf (hostWriteRange s.dma a bs).phy.reg; rw [hp]; exact hs.phyReg
        phyExt := by show regsWf (hostWriteRange s.dma a bs).phy.ext; rw [hp]; exact hs.phyExt }
  | cacheFlush _ a n =>
    have hk := Cache.cacheFlush_wf hs.dma hs.cache a n
    exact { hs with dma := hk.1, cache := hk.2 }
  | cacheInvalidate _ a n => exact { hs with cache := Cache.cacheInvalidate_wf hs.cache a n }
  | collSet _ half k => cases half <;> exact { hs with }
  | phyPulse => exact { hs with phyReg := List.Pairwise.nil, phyExt := List.Pairwise.nil }
  | chipReceived _ bytes err ho h => exact { hs with chipRx := Memory.wf_ringWrite hs.chipRx _ _ _ }
  | ringFault _ a v => exact { hs with chipRx := Memory.wf_write hs.chipRx _ _ }
  | storeCommon _ a v =>
    obtain ⟨h1, h2⟩ := storeCommon_keeps s.spi.chip a v
    exact { hs with chipRx := by show (s.spi.chip.storeCommon a v).rxMem.wf; rw [h1]; exact hs.chipRx
                    chipTx := by show (s.spi.chip.storeCommon a v).txMem.wf; rw [h2]; exact hs.chipTx }
  | storeSocket _ a v =>
    obtain ⟨h1, h2⟩ := storeSocket_keeps s.spi.chip a v
    exact { hs with chipRx := by show (s.spi.chip.storeSocket a v).rxMem.wf; rw [h1]; exact hs.chipRx
                    chipTx := by show (s.spi.chip.storeSocket a v).txMem.wf; rw [h2]; exact hs.chipTx }
  | storeRing _ a v => exact { hs with chipTx := Memory.wf_write hs.chipTx _ _ }
  | ibufFilled _ bs n => exact { hs with ibuf := Memory.wf_writeBytes hs.ibuf 0 bs }
  | chipOpened _ _ _ => exact { hs with chipRx := List.Pairwise.nil, chipTx := List.Pairwise.nil }
  | _ => exact { hs with }

/-- At reset every memory is in its canonical form. -/
theorem resetWith_memories (c : Config) : MemoriesWf (State.resetWith c) :=
  ⟨List.Pairwise.nil, Cache.wf_nil, List.Pairwise.nil, List.Pairwise.nil, List.Pairwise.nil, List.Pairwise.nil,
    List.Pairwise.nil⟩

end Sys2Proof.Machine
end

