-- ==== Sys2Proof/Laws/PerInstr.lean ====
section
/-! SUPPORT. Statements made of every instruction, one lemma for each constructor: the length its format gives (R110, R129) and the opcode
space its first byte is in (R111, R129). -/

namespace Sys2Proof.Laws

/-- The bytes an instruction takes by its format: F0, FM, FMA, FC, FB, FL of R110 and the events' formats of R129. -/
def EncodedLength.expected : Instr → Nat
  | .isUnknown => 1
  | .hasHardware => 1
  | .getSystemMac => 1
  | .getMac => 1
  | .setMac _ => 7
  | .init _ => 7
  | .deinit => 1
  | .getCapabilities => 1
  | .procInput _ => 3
  | .poll => 1
  | .output bs => bs.length + 3
  | .outputFrame bs => bs.length + 3
  | .setIncomingMacAllowed _ _ => 8
  | .forceLinkUp => 1
  | .setLinkSettings _ _ _ _ => 4
  | .getLinkInfo => 1
  | .getStats => 1
  | .pipeInit _ => 7
  | .pipeProcInput => 1
  | .pipePollLink => 1
  | .pipeTxChain bs => bs.length + 3
  | .pipeTxRaw bs => bs.length + 3
  | .pipeAllowMac _ _ => 8
  | .wireRx bs _ => bs.length + 4
  | .dmaTx => 1
  | .isr => 1
  | .mdioDone => 1
  | .link _ => 2
  | .chipSendDone => 1
  | .chipResetDone => 1
  | .ringFault _ _ => 4

/-- The encoding is as long as its format says (R110, R129). -/
def EncodedLength.Statement (i : Instr) : Prop := (encode i).length = EncodedLength.expected i

theorem EncodedLength.isUnknown : EncodedLength.Statement .isUnknown := rfl
theorem EncodedLength.hasHardware : EncodedLength.Statement .hasHardware := rfl
theorem EncodedLength.getSystemMac : EncodedLength.Statement .getSystemMac := rfl
theorem EncodedLength.getMac : EncodedLength.Statement .getMac := rfl
theorem EncodedLength.setMac (mac : MacAddr) : EncodedLength.Statement (.setMac mac) := rfl
theorem EncodedLength.init (mac : MacAddr) : EncodedLength.Statement (.init mac) := rfl
theorem EncodedLength.deinit : EncodedLength.Statement .deinit := rfl
theorem EncodedLength.getCapabilities : EncodedLength.Statement .getCapabilities := rfl
theorem EncodedLength.procInput (c : U16) : EncodedLength.Statement (.procInput c) := rfl
theorem EncodedLength.poll : EncodedLength.Statement .poll := rfl
theorem EncodedLength.output (bs : List Byte) : EncodedLength.Statement (.output bs) := by
  simp [EncodedLength.Statement, EncodedLength.expected, encode, lengthPrefixed, putBe16]
theorem EncodedLength.outputFrame (bs : List Byte) : EncodedLength.Statement (.outputFrame bs) := by
  simp [EncodedLength.Statement, EncodedLength.expected, encode, lengthPrefixed, putBe16]
theorem EncodedLength.setIncomingMacAllowed (mac : MacAddr) (a : Bool) : EncodedLength.Statement (.setIncomingMacAllowed mac a) := rfl
theorem EncodedLength.forceLinkUp : EncodedLength.Statement .forceLinkUp := rfl
theorem EncodedLength.setLinkSettings (sp : U16) (d : Bool) (n : Bool) (x : Bool) : EncodedLength.Statement (.setLinkSettings sp d n x) := rfl
theorem EncodedLength.getLinkInfo : EncodedLength.Statement .getLinkInfo := rfl
theorem EncodedLength.getStats : EncodedLength.Statement .getStats := rfl
theorem EncodedLength.pipeInit (mac : MacAddr) : EncodedLength.Statement (.pipeInit mac) := rfl
theorem EncodedLength.pipeProcInput : EncodedLength.Statement .pipeProcInput := rfl
theorem EncodedLength.pipePollLink : EncodedLength.Statement .pipePollLink := rfl
theorem EncodedLength.pipeTxChain (bs : List Byte) : EncodedLength.Statement (.pipeTxChain bs) := by
  simp [EncodedLength.Statement, EncodedLength.expected, encode, lengthPrefixed, putBe16]
theorem EncodedLength.pipeTxRaw (bs : List Byte) : EncodedLength.Statement (.pipeTxRaw bs) := by
  simp [EncodedLength.Statement, EncodedLength.expected, encode, lengthPrefixed, putBe16]
theorem EncodedLength.pipeAllowMac (mac : MacAddr) (a : Bool) : EncodedLength.Statement (.pipeAllowMac mac a) := rfl
theorem EncodedLength.wireRx (bs : List Byte) (e : Byte) : EncodedLength.Statement (.wireRx bs e) := by
  simp [EncodedLength.Statement, EncodedLength.expected, encode, lengthPrefixed, putBe16]
theorem EncodedLength.dmaTx : EncodedLength.Statement .dmaTx := rfl
theorem EncodedLength.isr : EncodedLength.Statement .isr := rfl
theorem EncodedLength.mdioDone : EncodedLength.Statement .mdioDone := rfl
theorem EncodedLength.link (f : Byte) : EncodedLength.Statement (.link f) := rfl
theorem EncodedLength.chipSendDone : EncodedLength.Statement .chipSendDone := rfl
theorem EncodedLength.chipResetDone : EncodedLength.Statement .chipResetDone := rfl
theorem EncodedLength.ringFault (a : U16) (v : Byte) : EncodedLength.Statement (.ringFault a v) := rfl

/-- Bit 7 of the first byte tells an event from a command (R129, R130). -/
def OpcodeSpace.Statement (i : Instr) : Prop := ((encode i).headD 0).getLsbD 7 = i.isEvent

theorem OpcodeSpace.isUnknown : OpcodeSpace.Statement .isUnknown := by
  simp [OpcodeSpace.Statement, encode, Instr.isEvent]
theorem OpcodeSpace.hasHardware : OpcodeSpace.Statement .hasHardware := by
  simp [OpcodeSpace.Statement, encode, Instr.isEvent]
theorem OpcodeSpace.getSystemMac : OpcodeSpace.Statement .getSystemMac := by
  simp [OpcodeSpace.Statement, encode, Instr.isEvent]
theorem OpcodeSpace.getMac : OpcodeSpace.Statement .getMac := by
  simp [OpcodeSpace.Statement, encode, Instr.isEvent]
theorem OpcodeSpace.setMac (mac : MacAddr) : OpcodeSpace.Statement (.setMac mac) := by
  simp [OpcodeSpace.Statement, encode, Instr.isEvent]
theorem OpcodeSpace.init (mac : MacAddr) : OpcodeSpace.Statement (.init mac) := by
  simp [OpcodeSpace.Statement, encode, Instr.isEvent]
theorem OpcodeSpace.deinit : OpcodeSpace.Statement .deinit := by
  simp [OpcodeSpace.Statement, encode, Instr.isEvent]
theorem OpcodeSpace.getCapabilities : OpcodeSpace.Statement .getCapabilities := by
  simp [OpcodeSpace.Statement, encode, Instr.isEvent]
theorem OpcodeSpace.procInput (c : U16) : OpcodeSpace.Statement (.procInput c) := by
  simp [OpcodeSpace.Statement, encode, Instr.isEvent]
theorem OpcodeSpace.poll : OpcodeSpace.Statement .poll := by
  simp [OpcodeSpace.Statement, encode, Instr.isEvent]
theorem OpcodeSpace.output (bs : List Byte) : OpcodeSpace.Statement (.output bs) := by
  simp [OpcodeSpace.Statement, encode, Instr.isEvent]
theorem OpcodeSpace.outputFrame (bs : List Byte) : OpcodeSpace.Statement (.outputFrame bs) := by
  simp [OpcodeSpace.Statement, encode, Instr.isEvent]
theorem OpcodeSpace.setIncomingMacAllowed (mac : MacAddr) (a : Bool) : OpcodeSpace.Statement (.setIncomingMacAllowed mac a) := by
  simp [OpcodeSpace.Statement, encode, Instr.isEvent]
theorem OpcodeSpace.forceLinkUp : OpcodeSpace.Statement .forceLinkUp := by
  simp [OpcodeSpace.Statement, encode, Instr.isEvent]
theorem OpcodeSpace.setLinkSettings (sp : U16) (d : Bool) (n : Bool) (x : Bool) : OpcodeSpace.Statement (.setLinkSettings sp d n x) := by
  simp [OpcodeSpace.Statement, encode, Instr.isEvent]
theorem OpcodeSpace.getLinkInfo : OpcodeSpace.Statement .getLinkInfo := by
  simp [OpcodeSpace.Statement, encode, Instr.isEvent]
theorem OpcodeSpace.getStats : OpcodeSpace.Statement .getStats := by
  simp [OpcodeSpace.Statement, encode, Instr.isEvent]
theorem OpcodeSpace.pipeInit (mac : MacAddr) : OpcodeSpace.Statement (.pipeInit mac) := by
  simp [OpcodeSpace.Statement, encode, Instr.isEvent]
theorem OpcodeSpace.pipeProcInput : OpcodeSpace.Statement .pipeProcInput := by
  simp [OpcodeSpace.Statement, encode, Instr.isEvent]
theorem OpcodeSpace.pipePollLink : OpcodeSpace.Statement .pipePollLink := by
  simp [OpcodeSpace.Statement, encode, Instr.isEvent]
theorem OpcodeSpace.pipeTxChain (bs : List Byte) : OpcodeSpace.Statement (.pipeTxChain bs) := by
  simp [OpcodeSpace.Statement, encode, Instr.isEvent]
theorem OpcodeSpace.pipeTxRaw (bs : List Byte) : OpcodeSpace.Statement (.pipeTxRaw bs) := by
  simp [OpcodeSpace.Statement, encode, Instr.isEvent]
theorem OpcodeSpace.pipeAllowMac (mac : MacAddr) (a : Bool) : OpcodeSpace.Statement (.pipeAllowMac mac a) := by
  simp [OpcodeSpace.Statement, encode, Instr.isEvent]
theorem OpcodeSpace.wireRx (bs : List Byte) (e : Byte) : OpcodeSpace.Statement (.wireRx bs e) := by
  simp [OpcodeSpace.Statement, encode, Instr.isEvent]
theorem OpcodeSpace.dmaTx : OpcodeSpace.Statement .dmaTx := by
  simp [OpcodeSpace.Statement, encode, Instr.isEvent]
theorem OpcodeSpace.isr : OpcodeSpace.Statement .isr := by
  simp [OpcodeSpace.Statement, encode, Instr.isEvent]
theorem OpcodeSpace.mdioDone : OpcodeSpace.Statement .mdioDone := by
  simp [OpcodeSpace.Statement, encode, Instr.isEvent]
theorem OpcodeSpace.link (f : Byte) : OpcodeSpace.Statement (.link f) := by
  simp [OpcodeSpace.Statement, encode, Instr.isEvent]
theorem OpcodeSpace.chipSendDone : OpcodeSpace.Statement .chipSendDone := by
  simp [OpcodeSpace.Statement, encode, Instr.isEvent]
theorem OpcodeSpace.chipResetDone : OpcodeSpace.Statement .chipResetDone := by
  simp [OpcodeSpace.Statement, encode, Instr.isEvent]
theorem OpcodeSpace.ringFault (a : U16) (v : Byte) : OpcodeSpace.Statement (.ringFault a v) := by
  simp [OpcodeSpace.Statement, encode, Instr.isEvent]

end Sys2Proof.Laws
end

