-- ==== Sys2Proof/Laws/State.lean ====
section
/-! SUPPORT. Every field after every named update: one lemma each, so that no later proof unfolds a record update. -/

namespace Sys2Proof.Machine


/-! ## Answering (R112) -/

@[simp] theorem State.respond_cfg (s : State) (r : Result) : (s.respond r).cfg = s.cfg := rfl
@[simp] theorem State.respond_input (s : State) (r : Result) : (s.respond r).input = s.input := rfl
@[simp] theorem State.respond_script (s : State) (r : Result) : (s.respond r).script = s.script := rfl
@[simp] theorem State.respond_prompt (s : State) (r : Result) : (s.respond r).prompt = s.prompt := rfl
@[simp] theorem State.respond_draws (s : State) (r : Result) : (s.respond r).draws = s.draws := rfl
@[simp] theorem State.respond_cmdBuf (s : State) (r : Result) : (s.respond r).cmdBuf = s.cmdBuf := rfl
@[simp] theorem State.respond_resBuf (s : State) (r : Result) : (s.respond r).resBuf = r.bytes := rfl
@[simp] theorem State.respond_initState (s : State) (r : Result) : (s.respond r).initState = s.initState := rfl
@[simp] theorem State.respond_caps (s : State) (r : Result) : (s.respond r).caps = s.caps := rfl
@[simp] theorem State.respond_capsRead (s : State) (r : Result) : (s.respond r).capsRead = s.capsRead := rfl
@[simp] theorem State.respond_linkInfo (s : State) (r : Result) : (s.respond r).linkInfo = s.linkInfo := rfl
@[simp] theorem State.respond_linkSettings (s : State) (r : Result) : (s.respond r).linkSettings = s.linkSettings := rfl
@[simp] theorem State.respond_mac (s : State) (r : Result) : (s.respond r).mac = s.mac := rfl
@[simp] theorem State.respond_linkReported (s : State) (r : Result) : (s.respond r).linkReported = s.linkReported := rfl
@[simp] theorem State.respond_linkManual (s : State) (r : Result) : (s.respond r).linkManual = s.linkManual := rfl
@[simp] theorem State.respond_notifyLog (s : State) (r : Result) : (s.respond r).notifyLog = s.notifyLog := rfl
@[simp] theorem State.respond_wireTxLog (s : State) (r : Result) : (s.respond r).wireTxLog = s.wireTxLog := rfl
@[simp] theorem State.respond_stackRxLog (s : State) (r : Result) : (s.respond r).stackRxLog = s.stackRxLog := rfl
@[simp] theorem State.respond_cntRxErr (s : State) (r : Result) : (s.respond r).cntRxErr = s.cntRxErr := rfl
@[simp] theorem State.respond_cntRxNomem (s : State) (r : Result) : (s.respond r).cntRxNomem = s.cntRxNomem := rfl
@[simp] theorem State.respond_cntTxAgain (s : State) (r : Result) : (s.respond r).cntTxAgain = s.cntTxAgain := rfl
@[simp] theorem State.respond_dma (s : State) (r : Result) : (s.respond r).dma = s.dma := rfl
@[simp] theorem State.respond_spi (s : State) (r : Result) : (s.respond r).spi = s.spi := rfl

/-! ## Raising a condition (R320, R332) -/

@[simp] theorem State.raise_cfg (s : State) (c : Condition) : (s.raise c).cfg = s.cfg := by cases c <;> rfl
@[simp] theorem State.raise_input (s : State) (c : Condition) : (s.raise c).input = s.input := by cases c <;> rfl
@[simp] theorem State.raise_script (s : State) (c : Condition) : (s.raise c).script = s.script := by cases c <;> rfl
@[simp] theorem State.raise_prompt (s : State) (c : Condition) : (s.raise c).prompt = s.prompt := by cases c <;> rfl
@[simp] theorem State.raise_draws (s : State) (c : Condition) : (s.raise c).draws = s.draws := by cases c <;> rfl
@[simp] theorem State.raise_cmdBuf (s : State) (c : Condition) : (s.raise c).cmdBuf = s.cmdBuf := by cases c <;> rfl
@[simp] theorem State.raise_resBuf (s : State) (c : Condition) : (s.raise c).resBuf = s.resBuf := by cases c <;> rfl
@[simp] theorem State.raise_initState (s : State) (c : Condition) : (s.raise c).initState = if c = .hardwareAbsent then .noHardware else s.initState := by cases c <;> rfl
@[simp] theorem State.raise_caps (s : State) (c : Condition) : (s.raise c).caps = s.caps := by cases c <;> rfl
@[simp] theorem State.raise_capsRead (s : State) (c : Condition) : (s.raise c).capsRead = s.capsRead := by cases c <;> rfl
@[simp] theorem State.raise_linkInfo (s : State) (c : Condition) : (s.raise c).linkInfo = s.linkInfo := by cases c <;> rfl
@[simp] theorem State.raise_linkSettings (s : State) (c : Condition) : (s.raise c).linkSettings = s.linkSettings := by cases c <;> rfl
@[simp] theorem State.raise_mac (s : State) (c : Condition) : (s.raise c).mac = s.mac := by cases c <;> rfl
@[simp] theorem State.raise_linkReported (s : State) (c : Condition) : (s.raise c).linkReported = s.linkReported := by cases c <;> rfl
@[simp] theorem State.raise_linkManual (s : State) (c : Condition) : (s.raise c).linkManual = s.linkManual := by cases c <;> rfl
@[simp] theorem State.raise_notifyLog (s : State) (c : Condition) : (s.raise c).notifyLog = s.notifyLog := by cases c <;> rfl
@[simp] theorem State.raise_wireTxLog (s : State) (c : Condition) : (s.raise c).wireTxLog = s.wireTxLog := by cases c <;> rfl
@[simp] theorem State.raise_stackRxLog (s : State) (c : Condition) : (s.raise c).stackRxLog = s.stackRxLog := by cases c <;> rfl
@[simp] theorem State.raise_cntRxErr (s : State) (c : Condition) : (s.raise c).cntRxErr = if c = .frameIntegrity then s.cntRxErr + 1 else s.cntRxErr := by cases c <;> rfl
@[simp] theorem State.raise_cntRxNomem (s : State) (c : Condition) : (s.raise c).cntRxNomem = if c = .rxNoMemory then s.cntRxNomem + 1 else s.cntRxNomem := by cases c <;> rfl
@[simp] theorem State.raise_cntTxAgain (s : State) (c : Condition) : (s.raise c).cntTxAgain = if c = .txNoSlot then s.cntTxAgain + 1 else s.cntTxAgain := by cases c <;> rfl
@[simp] theorem State.raise_dma (s : State) (c : Condition) : (s.raise c).dma = s.dma := by cases c <;> rfl
@[simp] theorem State.raise_spi (s : State) (c : Condition) : (s.raise c).spi = if c = .socketFault then { s.spi with faultSock := true } else s.spi := by cases c <;> rfl

/-! ## DEINIT's last assignments (R156) -/

@[simp] theorem State.sessionCleared_cfg (s : State) : (s.sessionCleared).cfg = s.cfg := rfl
@[simp] theorem State.sessionCleared_input (s : State) : (s.sessionCleared).input = s.input := rfl
@[simp] theorem State.sessionCleared_script (s : State) : (s.sessionCleared).script = s.script := rfl
@[simp] theorem State.sessionCleared_prompt (s : State) : (s.sessionCleared).prompt = s.prompt := rfl
@[simp] theorem State.sessionCleared_draws (s : State) : (s.sessionCleared).draws = s.draws := rfl
@[simp] theorem State.sessionCleared_cmdBuf (s : State) : (s.sessionCleared).cmdBuf = s.cmdBuf := rfl
@[simp] theorem State.sessionCleared_resBuf (s : State) : (s.sessionCleared).resBuf = s.resBuf := rfl
@[simp] theorem State.sessionCleared_initState (s : State) : (s.sessionCleared).initState = s.initState := rfl
@[simp] theorem State.sessionCleared_caps (s : State) : (s.sessionCleared).caps = Caps.none := rfl
@[simp] theorem State.sessionCleared_capsRead (s : State) : (s.sessionCleared).capsRead = false := rfl
@[simp] theorem State.sessionCleared_linkInfo (s : State) : (s.sessionCleared).linkInfo = LinkRecord.zero := rfl
@[simp] theorem State.sessionCleared_linkSettings (s : State) : (s.sessionCleared).linkSettings = LinkRecord.zero := rfl
@[simp] theorem State.sessionCleared_mac (s : State) : (s.sessionCleared).mac = s.mac := rfl
@[simp] theorem State.sessionCleared_linkReported (s : State) : (s.sessionCleared).linkReported = false := rfl
@[simp] theorem State.sessionCleared_linkManual (s : State) : (s.sessionCleared).linkManual = false := rfl
@[simp] theorem State.sessionCleared_notifyLog (s : State) : (s.sessionCleared).notifyLog = s.notifyLog := rfl
@[simp] theorem State.sessionCleared_wireTxLog (s : State) : (s.sessionCleared).wireTxLog = s.wireTxLog := rfl
@[simp] theorem State.sessionCleared_stackRxLog (s : State) : (s.sessionCleared).stackRxLog = s.stackRxLog := rfl
@[simp] theorem State.sessionCleared_cntRxErr (s : State) : (s.sessionCleared).cntRxErr = s.cntRxErr := rfl
@[simp] theorem State.sessionCleared_cntRxNomem (s : State) : (s.sessionCleared).cntRxNomem = s.cntRxNomem := rfl
@[simp] theorem State.sessionCleared_cntTxAgain (s : State) : (s.sessionCleared).cntTxAgain = s.cntTxAgain := rfl
@[simp] theorem State.sessionCleared_dma (s : State) : (s.sessionCleared).dma = s.dma := rfl
@[simp] theorem State.sessionCleared_spi (s : State) : (s.sessionCleared).spi = s.spi := rfl

/-! ## DEINIT's step back (R156) -/

@[simp] theorem State.stepBack_cfg (s : State) : (s.stepBack).cfg = s.cfg := by unfold State.stepBack; split <;> rfl
@[simp] theorem State.stepBack_input (s : State) : (s.stepBack).input = s.input := by unfold State.stepBack; split <;> rfl
@[simp] theorem State.stepBack_script (s : State) : (s.stepBack).script = s.script := by unfold State.stepBack; split <;> rfl
@[simp] theorem State.stepBack_prompt (s : State) : (s.stepBack).prompt = s.prompt := by unfold State.stepBack; split <;> rfl
@[simp] theorem State.stepBack_draws (s : State) : (s.stepBack).draws = s.draws := by unfold State.stepBack; split <;> rfl
@[simp] theorem State.stepBack_cmdBuf (s : State) : (s.stepBack).cmdBuf = s.cmdBuf := by unfold State.stepBack; split <;> rfl
@[simp] theorem State.stepBack_resBuf (s : State) : (s.stepBack).resBuf = s.resBuf := by unfold State.stepBack; split <;> rfl
@[simp] theorem State.stepBack_initState (s : State) : (s.stepBack).initState = if s.initState = .phyInitialized then .hasHardware else s.initState := by unfold State.stepBack; split <;> rfl
@[simp] theorem State.stepBack_caps (s : State) : (s.stepBack).caps = s.caps := by unfold State.stepBack; split <;> rfl
@[simp] theorem State.stepBack_capsRead (s : State) : (s.stepBack).capsRead = s.capsRead := by unfold State.stepBack; split <;> rfl
@[simp] theorem State.stepBack_linkInfo (s : State) : (s.stepBack).linkInfo = s.linkInfo := by unfold State.stepBack; split <;> rfl
@[simp] theorem State.stepBack_linkSettings (s : State) : (s.stepBack).linkSettings = s.linkSettings := by unfold State.stepBack; split <;> rfl
@[simp] theorem State.stepBack_mac (s : State) : (s.stepBack).mac = s.mac := by unfold State.stepBack; split <;> rfl
@[simp] theorem State.stepBack_linkReported (s : State) : (s.stepBack).linkReported = s.linkReported := by unfold State.stepBack; split <;> rfl
@[simp] theorem State.stepBack_linkManual (s : State) : (s.stepBack).linkManual = s.linkManual := by unfold State.stepBack; split <;> rfl
@[simp] theorem State.stepBack_notifyLog (s : State) : (s.stepBack).notifyLog = s.notifyLog := by unfold State.stepBack; split <;> rfl
@[simp] theorem State.stepBack_wireTxLog (s : State) : (s.stepBack).wireTxLog = s.wireTxLog := by unfold State.stepBack; split <;> rfl
@[simp] theorem State.stepBack_stackRxLog (s : State) : (s.stepBack).stackRxLog = s.stackRxLog := by unfold State.stepBack; split <;> rfl
@[simp] theorem State.stepBack_cntRxErr (s : State) : (s.stepBack).cntRxErr = s.cntRxErr := by unfold State.stepBack; split <;> rfl
@[simp] theorem State.stepBack_cntRxNomem (s : State) : (s.stepBack).cntRxNomem = s.cntRxNomem := by unfold State.stepBack; split <;> rfl
@[simp] theorem State.stepBack_cntTxAgain (s : State) : (s.stepBack).cntTxAgain = s.cntTxAgain := by unfold State.stepBack; split <;> rfl
@[simp] theorem State.stepBack_dma (s : State) : (s.stepBack).dma = s.dma := by unfold State.stepBack; split <;> rfl
@[simp] theorem State.stepBack_spi (s : State) : (s.stepBack).spi = s.spi := by unfold State.stepBack; split <;> rfl

/-! ## The DMA build's variables after DEINIT (R156) -/

@[simp] theorem DmaState.sessionCleared_rxPending (d : DmaState) : (d.sessionCleared).rxPending = false := rfl
@[simp] theorem DmaState.sessionCleared_clocksOn (d : DmaState) : (d.sessionCleared).clocksOn = d.clocksOn := rfl
@[simp] theorem DmaState.sessionCleared_pinsConfigured (d : DmaState) : (d.sessionCleared).pinsConfigured = d.pinsConfigured := rfl
@[simp] theorem DmaState.sessionCleared_phyResetDone (d : DmaState) : (d.sessionCleared).phyResetDone = d.phyResetDone := rfl
@[simp] theorem DmaState.sessionCleared_regs (d : DmaState) : (d.sessionCleared).regs = d.regs := rfl
@[simp] theorem DmaState.sessionCleared_fltColl0 (d : DmaState) : (d.sessionCleared).fltColl0 = 0 := rfl
@[simp] theorem DmaState.sessionCleared_fltColl1 (d : DmaState) : (d.sessionCleared).fltColl1 = 0 := rfl
@[simp] theorem DmaState.sessionCleared_rxCursor (d : DmaState) : (d.sessionCleared).rxCursor = 0 := rfl
@[simp] theorem DmaState.sessionCleared_txCursor (d : DmaState) : (d.sessionCleared).txCursor = 0 := rfl
@[simp] theorem DmaState.sessionCleared_hwRxIdx (d : DmaState) : (d.sessionCleared).hwRxIdx = d.hwRxIdx := rfl
@[simp] theorem DmaState.sessionCleared_hwTxIdx (d : DmaState) : (d.sessionCleared).hwTxIdx = d.hwTxIdx := rfl
@[simp] theorem DmaState.sessionCleared_rxActive (d : DmaState) : (d.sessionCleared).rxActive = d.rxActive := rfl
@[simp] theorem DmaState.sessionCleared_txActive (d : DmaState) : (d.sessionCleared).txActive = d.txActive := rfl
@[simp] theorem DmaState.sessionCleared_mdioBusy (d : DmaState) : (d.sessionCleared).mdioBusy = d.mdioBusy := rfl
@[simp] theorem DmaState.sessionCleared_phy (d : DmaState) : (d.sessionCleared).phy = d.phy := rfl
@[simp] theorem DmaState.sessionCleared_lmState (d : DmaState) : (d.sessionCleared).lmState = .idle := rfl
@[simp] theorem DmaState.sessionCleared_lmLink (d : DmaState) : (d.sessionCleared).lmLink = false := rfl
@[simp] theorem DmaState.sessionCleared_mem (d : DmaState) : (d.sessionCleared).mem = d.mem := rfl
@[simp] theorem DmaState.sessionCleared_cache (d : DmaState) : (d.sessionCleared).cache = d.cache := rfl

/-! ## The SPI build's variables after DEINIT (R156) -/

@[simp] theorem SpiState.sessionCleared_rxPending (p : SpiState) : (p.sessionCleared).rxPending = false := rfl
@[simp] theorem SpiState.sessionCleared_txDone (p : SpiState) : (p.sessionCleared).txDone = false := rfl
@[simp] theorem SpiState.sessionCleared_intLatched (p : SpiState) : (p.sessionCleared).intLatched = false := rfl
@[simp] theorem SpiState.sessionCleared_csActive (p : SpiState) : (p.sessionCleared).csActive = p.csActive := rfl
@[simp] theorem SpiState.sessionCleared_faultSock (p : SpiState) : (p.sessionCleared).faultSock = false := rfl
@[simp] theorem SpiState.sessionCleared_chip (p : SpiState) : (p.sessionCleared).chip = p.chip := rfl
@[simp] theorem SpiState.sessionCleared_ibuf (p : SpiState) : (p.sessionCleared).ibuf = p.ibuf := rfl
@[simp] theorem SpiState.sessionCleared_ibufStart (p : SpiState) : (p.sessionCleared).ibufStart = 0 := rfl
@[simp] theorem SpiState.sessionCleared_ibufSize (p : SpiState) : (p.sessionCleared).ibufSize = 0 := rfl

/-! ## A write of ECR (R37) -/

@[simp] theorem DmaState.writeEcr_rxPending (d : DmaState) (v : U32) : (d.writeEcr v).rxPending = d.rxPending := by unfold DmaState.writeEcr; split <;> (try split) <;> rfl
@[simp] theorem DmaState.writeEcr_clocksOn (d : DmaState) (v : U32) : (d.writeEcr v).clocksOn = d.clocksOn := by unfold DmaState.writeEcr; split <;> (try split) <;> rfl
@[simp] theorem DmaState.writeEcr_pinsConfigured (d : DmaState) (v : U32) : (d.writeEcr v).pinsConfigured = d.pinsConfigured := by unfold DmaState.writeEcr; split <;> (try split) <;> rfl
@[simp] theorem DmaState.writeEcr_phyResetDone (d : DmaState) (v : U32) : (d.writeEcr v).phyResetDone = d.phyResetDone := by unfold DmaState.writeEcr; split <;> (try split) <;> rfl
@[simp] theorem DmaState.writeEcr_fltColl0 (d : DmaState) (v : U32) : (d.writeEcr v).fltColl0 = d.fltColl0 := by unfold DmaState.writeEcr; split <;> (try split) <;> rfl
@[simp] theorem DmaState.writeEcr_fltColl1 (d : DmaState) (v : U32) : (d.writeEcr v).fltColl1 = d.fltColl1 := by unfold DmaState.writeEcr; split <;> (try split) <;> rfl
@[simp] theorem DmaState.writeEcr_rxCursor (d : DmaState) (v : U32) : (d.writeEcr v).rxCursor = d.rxCursor := by unfold DmaState.writeEcr; split <;> (try split) <;> rfl
@[simp] theorem DmaState.writeEcr_txCursor (d : DmaState) (v : U32) : (d.writeEcr v).txCursor = d.txCursor := by unfold DmaState.writeEcr; split <;> (try split) <;> rfl
@[simp] theorem DmaState.writeEcr_mdioBusy (d : DmaState) (v : U32) : (d.writeEcr v).mdioBusy = d.mdioBusy := by unfold DmaState.writeEcr; split <;> (try split) <;> rfl
@[simp] theorem DmaState.writeEcr_phy (d : DmaState) (v : U32) : (d.writeEcr v).phy = d.phy := by unfold DmaState.writeEcr; split <;> (try split) <;> rfl
@[simp] theorem DmaState.writeEcr_lmState (d : DmaState) (v : U32) : (d.writeEcr v).lmState = d.lmState := by unfold DmaState.writeEcr; split <;> (try split) <;> rfl
@[simp] theorem DmaState.writeEcr_lmLink (d : DmaState) (v : U32) : (d.writeEcr v).lmLink = d.lmLink := by unfold DmaState.writeEcr; split <;> (try split) <;> rfl
@[simp] theorem DmaState.writeEcr_mem (d : DmaState) (v : U32) : (d.writeEcr v).mem = d.mem := by unfold DmaState.writeEcr; split <;> (try split) <;> rfl
@[simp] theorem DmaState.writeEcr_cache (d : DmaState) (v : U32) : (d.writeEcr v).cache = d.cache := by unfold DmaState.writeEcr; split <;> (try split) <;> rfl

/-! ## A write of the MAC window (R32) -/

@[simp] theorem DmaState.macWrite_rxPending (d : DmaState) (r : MacReg) (v : U32) : (d.macWrite r v).rxPending = d.rxPending := by cases r <;> simp [DmaState.macWrite] <;> split <;> rfl
@[simp] theorem DmaState.macWrite_clocksOn (d : DmaState) (r : MacReg) (v : U32) : (d.macWrite r v).clocksOn = d.clocksOn := by cases r <;> simp [DmaState.macWrite] <;> split <;> rfl
@[simp] theorem DmaState.macWrite_pinsConfigured (d : DmaState) (r : MacReg) (v : U32) : (d.macWrite r v).pinsConfigured = d.pinsConfigured := by cases r <;> simp [DmaState.macWrite] <;> split <;> rfl
@[simp] theorem DmaState.macWrite_phyResetDone (d : DmaState) (r : MacReg) (v : U32) : (d.macWrite r v).phyResetDone = d.phyResetDone := by cases r <;> simp [DmaState.macWrite] <;> split <;> rfl
@[simp] theorem DmaState.macWrite_fltColl0 (d : DmaState) (r : MacReg) (v : U32) : (d.macWrite r v).fltColl0 = d.fltColl0 := by cases r <;> simp [DmaState.macWrite] <;> split <;> rfl
@[simp] theorem DmaState.macWrite_fltColl1 (d : DmaState) (r : MacReg) (v : U32) : (d.macWrite r v).fltColl1 = d.fltColl1 := by cases r <;> simp [DmaState.macWrite] <;> split <;> rfl
@[simp] theorem DmaState.macWrite_rxCursor (d : DmaState) (r : MacReg) (v : U32) : (d.macWrite r v).rxCursor = d.rxCursor := by cases r <;> simp [DmaState.macWrite] <;> split <;> rfl
@[simp] theorem DmaState.macWrite_txCursor (d : DmaState) (r : MacReg) (v : U32) : (d.macWrite r v).txCursor = d.txCursor := by cases r <;> simp [DmaState.macWrite] <;> split <;> rfl
@[simp] theorem DmaState.macWrite_mdioBusy (d : DmaState) (r : MacReg) (v : U32) : (d.macWrite r v).mdioBusy = d.mdioBusy := by cases r <;> simp [DmaState.macWrite] <;> split <;> rfl
@[simp] theorem DmaState.macWrite_phy (d : DmaState) (r : MacReg) (v : U32) : (d.macWrite r v).phy = d.phy := by cases r <;> simp [DmaState.macWrite] <;> split <;> rfl
@[simp] theorem DmaState.macWrite_lmState (d : DmaState) (r : MacReg) (v : U32) : (d.macWrite r v).lmState = d.lmState := by cases r <;> simp [DmaState.macWrite] <;> split <;> rfl
@[simp] theorem DmaState.macWrite_lmLink (d : DmaState) (r : MacReg) (v : U32) : (d.macWrite r v).lmLink = d.lmLink := by cases r <;> simp [DmaState.macWrite] <;> split <;> rfl
@[simp] theorem DmaState.macWrite_mem (d : DmaState) (r : MacReg) (v : U32) : (d.macWrite r v).mem = d.mem := by cases r <;> simp [DmaState.macWrite] <;> split <;> rfl
@[simp] theorem DmaState.macWrite_cache (d : DmaState) (r : MacReg) (v : U32) : (d.macWrite r v).cache = d.cache := by cases r <;> simp [DmaState.macWrite] <;> split <;> rfl

/-! ## CacheFlush (R88) -/

@[simp] theorem cacheFlush_rxPending (a n : Nat) (d : DmaState) : (cacheFlush a n d).rxPending = d.rxPending := rfl
@[simp] theorem cacheFlush_clocksOn (a n : Nat) (d : DmaState) : (cacheFlush a n d).clocksOn = d.clocksOn := rfl
@[simp] theorem cacheFlush_pinsConfigured (a n : Nat) (d : DmaState) : (cacheFlush a n d).pinsConfigured = d.pinsConfigured := rfl
@[simp] theorem cacheFlush_phyResetDone (a n : Nat) (d : DmaState) : (cacheFlush a n d).phyResetDone = d.phyResetDone := rfl
@[simp] theorem cacheFlush_regs (a n : Nat) (d : DmaState) : (cacheFlush a n d).regs = d.regs := rfl
@[simp] theorem cacheFlush_fltColl0 (a n : Nat) (d : DmaState) : (cacheFlush a n d).fltColl0 = d.fltColl0 := rfl
@[simp] theorem cacheFlush_fltColl1 (a n : Nat) (d : DmaState) : (cacheFlush a n d).fltColl1 = d.fltColl1 := rfl
@[simp] theorem cacheFlush_rxCursor (a n : Nat) (d : DmaState) : (cacheFlush a n d).rxCursor = d.rxCursor := rfl
@[simp] theorem cacheFlush_txCursor (a n : Nat) (d : DmaState) : (cacheFlush a n d).txCursor = d.txCursor := rfl
@[simp] theorem cacheFlush_hwRxIdx (a n : Nat) (d : DmaState) : (cacheFlush a n d).hwRxIdx = d.hwRxIdx := rfl
@[simp] theorem cacheFlush_hwTxIdx (a n : Nat) (d : DmaState) : (cacheFlush a n d).hwTxIdx = d.hwTxIdx := rfl
@[simp] theorem cacheFlush_rxActive (a n : Nat) (d : DmaState) : (cacheFlush a n d).rxActive = d.rxActive := rfl
@[simp] theorem cacheFlush_txActive (a n : Nat) (d : DmaState) : (cacheFlush a n d).txActive = d.txActive := rfl
@[simp] theorem cacheFlush_mdioBusy (a n : Nat) (d : DmaState) : (cacheFlush a n d).mdioBusy = d.mdioBusy := rfl
@[simp] theorem cacheFlush_phy (a n : Nat) (d : DmaState) : (cacheFlush a n d).phy = d.phy := rfl
@[simp] theorem cacheFlush_lmState (a n : Nat) (d : DmaState) : (cacheFlush a n d).lmState = d.lmState := rfl
@[simp] theorem cacheFlush_lmLink (a n : Nat) (d : DmaState) : (cacheFlush a n d).lmLink = d.lmLink := rfl

/-! ## CacheInvalidate (R89) -/

@[simp] theorem cacheInvalidate_rxPending (a n : Nat) (d : DmaState) : (cacheInvalidate a n d).rxPending = d.rxPending := rfl
@[simp] theorem cacheInvalidate_clocksOn (a n : Nat) (d : DmaState) : (cacheInvalidate a n d).clocksOn = d.clocksOn := rfl
@[simp] theorem cacheInvalidate_pinsConfigured (a n : Nat) (d : DmaState) : (cacheInvalidate a n d).pinsConfigured = d.pinsConfigured := rfl
@[simp] theorem cacheInvalidate_phyResetDone (a n : Nat) (d : DmaState) : (cacheInvalidate a n d).phyResetDone = d.phyResetDone := rfl
@[simp] theorem cacheInvalidate_regs (a n : Nat) (d : DmaState) : (cacheInvalidate a n d).regs = d.regs := rfl
@[simp] theorem cacheInvalidate_fltColl0 (a n : Nat) (d : DmaState) : (cacheInvalidate a n d).fltColl0 = d.fltColl0 := rfl
@[simp] theorem cacheInvalidate_fltColl1 (a n : Nat) (d : DmaState) : (cacheInvalidate a n d).fltColl1 = d.fltColl1 := rfl
@[simp] theorem cacheInvalidate_rxCursor (a n : Nat) (d : DmaState) : (cacheInvalidate a n d).rxCursor = d.rxCursor := rfl
@[simp] theorem cacheInvalidate_txCursor (a n : Nat) (d : DmaState) : (cacheInvalidate a n d).txCursor = d.txCursor := rfl
@[simp] theorem cacheInvalidate_hwRxIdx (a n : Nat) (d : DmaState) : (cacheInvalidate a n d).hwRxIdx = d.hwRxIdx := rfl
@[simp] theorem cacheInvalidate_hwTxIdx (a n : Nat) (d : DmaState) : (cacheInvalidate a n d).hwTxIdx = d.hwTxIdx := rfl
@[simp] theorem cacheInvalidate_rxActive (a n : Nat) (d : DmaState) : (cacheInvalidate a n d).rxActive = d.rxActive := rfl
@[simp] theorem cacheInvalidate_txActive (a n : Nat) (d : DmaState) : (cacheInvalidate a n d).txActive = d.txActive := rfl
@[simp] theorem cacheInvalidate_mdioBusy (a n : Nat) (d : DmaState) : (cacheInvalidate a n d).mdioBusy = d.mdioBusy := rfl
@[simp] theorem cacheInvalidate_phy (a n : Nat) (d : DmaState) : (cacheInvalidate a n d).phy = d.phy := rfl
@[simp] theorem cacheInvalidate_lmState (a n : Nat) (d : DmaState) : (cacheInvalidate a n d).lmState = d.lmState := rfl
@[simp] theorem cacheInvalidate_lmLink (a n : Nat) (d : DmaState) : (cacheInvalidate a n d).lmLink = d.lmLink := rfl
@[simp] theorem cacheInvalidate_mem (a n : Nat) (d : DmaState) : (cacheInvalidate a n d).mem = d.mem := rfl

/-! ## OPEN (R264) -/

@[simp] theorem Chip.opened_mr (c : Chip) : (c.opened).mr = c.mr := rfl
@[simp] theorem Chip.opened_shar (c : Chip) : (c.opened).shar = c.shar := rfl
@[simp] theorem Chip.opened_simr (c : Chip) : (c.opened).simr = c.simr := rfl
@[simp] theorem Chip.opened_scratch (c : Chip) : (c.opened).scratch = c.scratch := rfl
@[simp] theorem Chip.opened_link (c : Chip) : (c.opened).link = c.link := rfl
@[simp] theorem Chip.opened_sMr (c : Chip) : (c.opened).sMr = c.sMr := rfl
@[simp] theorem Chip.opened_sIr (c : Chip) : (c.opened).sIr = c.sIr := rfl
@[simp] theorem Chip.opened_sSr (c : Chip) : (c.opened).sSr = srMacraw := rfl
@[simp] theorem Chip.opened_sRxbufSize (c : Chip) : (c.opened).sRxbufSize = c.sRxbufSize := rfl
@[simp] theorem Chip.opened_sTxbufSize (c : Chip) : (c.opened).sTxbufSize = c.sTxbufSize := rfl
@[simp] theorem Chip.opened_sTxFsr (c : Chip) : (c.opened).sTxFsr = BitVec.ofNat 16 (c.sTxbufSize.toNat * 1024) := rfl
@[simp] theorem Chip.opened_sTxRd (c : Chip) : (c.opened).sTxRd = 0 := rfl
@[simp] theorem Chip.opened_sTxWr (c : Chip) : (c.opened).sTxWr = 0 := rfl
@[simp] theorem Chip.opened_sRxRsr (c : Chip) : (c.opened).sRxRsr = 0 := rfl
@[simp] theorem Chip.opened_sRxRd (c : Chip) : (c.opened).sRxRd = 0 := rfl
@[simp] theorem Chip.opened_sRxWr (c : Chip) : (c.opened).sRxWr = 0 := rfl
@[simp] theorem Chip.opened_sImr (c : Chip) : (c.opened).sImr = c.sImr := rfl
@[simp] theorem Chip.opened_rxRdCommitted (c : Chip) : (c.opened).rxRdCommitted = 0 := rfl
@[simp] theorem Chip.opened_txWrCommitted (c : Chip) : (c.opened).txWrCommitted = 0 := rfl
@[simp] theorem Chip.opened_sendQueue (c : Chip) : (c.opened).sendQueue = [] := rfl
@[simp] theorem Chip.opened_rxBytes (c : Chip) : (c.opened).rxBytes = c.sRxbufSize.toNat * 1024 := rfl
@[simp] theorem Chip.opened_txBytes (c : Chip) : (c.opened).txBytes = c.sTxbufSize.toNat * 1024 := rfl
@[simp] theorem Chip.opened_rxMem (c : Chip) : (c.opened).rxMem = [] := rfl
@[simp] theorem Chip.opened_txMem (c : Chip) : (c.opened).txMem = [] := rfl

/-! ## CLOSE (R265) -/

@[simp] theorem Chip.closed_mr (c : Chip) : (c.closed).mr = c.mr := rfl
@[simp] theorem Chip.closed_shar (c : Chip) : (c.closed).shar = c.shar := rfl
@[simp] theorem Chip.closed_simr (c : Chip) : (c.closed).simr = c.simr := rfl
@[simp] theorem Chip.closed_scratch (c : Chip) : (c.closed).scratch = c.scratch := rfl
@[simp] theorem Chip.closed_link (c : Chip) : (c.closed).link = c.link := rfl
@[simp] theorem Chip.closed_sMr (c : Chip) : (c.closed).sMr = c.sMr := rfl
@[simp] theorem Chip.closed_sIr (c : Chip) : (c.closed).sIr = c.sIr := rfl
@[simp] theorem Chip.closed_sSr (c : Chip) : (c.closed).sSr = srClosed := rfl
@[simp] theorem Chip.closed_sRxbufSize (c : Chip) : (c.closed).sRxbufSize = c.sRxbufSize := rfl
@[simp] theorem Chip.closed_sTxbufSize (c : Chip) : (c.closed).sTxbufSize = c.sTxbufSize := rfl
@[simp] theorem Chip.closed_sTxFsr (c : Chip) : (c.closed).sTxFsr = c.sTxFsr := rfl
@[simp] theorem Chip.closed_sTxRd (c : Chip) : (c.closed).sTxRd = c.sTxRd := rfl
@[simp] theorem Chip.closed_sTxWr (c : Chip) : (c.closed).sTxWr = c.sTxWr := rfl
@[simp] theorem Chip.closed_sRxRsr (c : Chip) : (c.closed).sRxRsr = c.sRxRsr := rfl
@[simp] theorem Chip.closed_sRxRd (c : Chip) : (c.closed).sRxRd = c.sRxRd := rfl
@[simp] theorem Chip.closed_sRxWr (c : Chip) : (c.closed).sRxWr = c.sRxWr := rfl
@[simp] theorem Chip.closed_sImr (c : Chip) : (c.closed).sImr = c.sImr := rfl
@[simp] theorem Chip.closed_rxRdCommitted (c : Chip) : (c.closed).rxRdCommitted = c.rxRdCommitted := rfl
@[simp] theorem Chip.closed_txWrCommitted (c : Chip) : (c.closed).txWrCommitted = c.txWrCommitted := rfl
@[simp] theorem Chip.closed_sendQueue (c : Chip) : (c.closed).sendQueue = [] := rfl
@[simp] theorem Chip.closed_rxBytes (c : Chip) : (c.closed).rxBytes = c.rxBytes := rfl
@[simp] theorem Chip.closed_txBytes (c : Chip) : (c.closed).txBytes = c.txBytes := rfl
@[simp] theorem Chip.closed_rxMem (c : Chip) : (c.closed).rxMem = c.rxMem := rfl
@[simp] theorem Chip.closed_txMem (c : Chip) : (c.closed).txMem = c.txMem := rfl

/-! ## SEND (R266) -/

@[simp] theorem Chip.queued_mr (c : Chip) : (c.queued).mr = c.mr := rfl
@[simp] theorem Chip.queued_shar (c : Chip) : (c.queued).shar = c.shar := rfl
@[simp] theorem Chip.queued_simr (c : Chip) : (c.queued).simr = c.simr := rfl
@[simp] theorem Chip.queued_scratch (c : Chip) : (c.queued).scratch = c.scratch := rfl
@[simp] theorem Chip.queued_link (c : Chip) : (c.queued).link = c.link := rfl
@[simp] theorem Chip.queued_sMr (c : Chip) : (c.queued).sMr = c.sMr := rfl
@[simp] theorem Chip.queued_sIr (c : Chip) : (c.queued).sIr = c.sIr := rfl
@[simp] theorem Chip.queued_sSr (c : Chip) : (c.queued).sSr = c.sSr := rfl
@[simp] theorem Chip.queued_sRxbufSize (c : Chip) : (c.queued).sRxbufSize = c.sRxbufSize := rfl
@[simp] theorem Chip.queued_sTxbufSize (c : Chip) : (c.queued).sTxbufSize = c.sTxbufSize := rfl
@[simp] theorem Chip.queued_sTxRd (c : Chip) : (c.queued).sTxRd = c.sTxRd := rfl
@[simp] theorem Chip.queued_sTxWr (c : Chip) : (c.queued).sTxWr = c.sTxWr := rfl
@[simp] theorem Chip.queued_sRxRsr (c : Chip) : (c.queued).sRxRsr = c.sRxRsr := rfl
@[simp] theorem Chip.queued_sRxRd (c : Chip) : (c.queued).sRxRd = c.sRxRd := rfl
@[simp] theorem Chip.queued_sRxWr (c : Chip) : (c.queued).sRxWr = c.sRxWr := rfl
@[simp] theorem Chip.queued_sImr (c : Chip) : (c.queued).sImr = c.sImr := rfl
@[simp] theorem Chip.queued_rxRdCommitted (c : Chip) : (c.queued).rxRdCommitted = c.rxRdCommitted := rfl
@[simp] theorem Chip.queued_txWrCommitted (c : Chip) : (c.queued).txWrCommitted = c.sTxWr := rfl
@[simp] theorem Chip.queued_sendQueue (c : Chip) : (c.queued).sendQueue = c.sendQueue ++ [c.sTxWr] := rfl
@[simp] theorem Chip.queued_rxBytes (c : Chip) : (c.queued).rxBytes = c.rxBytes := rfl
@[simp] theorem Chip.queued_txBytes (c : Chip) : (c.queued).txBytes = c.txBytes := rfl
@[simp] theorem Chip.queued_rxMem (c : Chip) : (c.queued).rxMem = c.rxMem := rfl
@[simp] theorem Chip.queued_txMem (c : Chip) : (c.queued).txMem = c.txMem := rfl

/-! ## RECV (R267) -/

@[simp] theorem Chip.acknowledged_mr (c : Chip) : (c.acknowledged).mr = c.mr := rfl
@[simp] theorem Chip.acknowledged_shar (c : Chip) : (c.acknowledged).shar = c.shar := rfl
@[simp] theorem Chip.acknowledged_simr (c : Chip) : (c.acknowledged).simr = c.simr := rfl
@[simp] theorem Chip.acknowledged_scratch (c : Chip) : (c.acknowledged).scratch = c.scratch := rfl
@[simp] theorem Chip.acknowledged_link (c : Chip) : (c.acknowledged).link = c.link := rfl
@[simp] theorem Chip.acknowledged_sMr (c : Chip) : (c.acknowledged).sMr = c.sMr := rfl
@[simp] theorem Chip.acknowledged_sIr (c : Chip) : (c.acknowledged).sIr = c.sIr := rfl
@[simp] theorem Chip.acknowledged_sSr (c : Chip) : (c.acknowledged).sSr = c.sSr := rfl
@[simp] theorem Chip.acknowledged_sRxbufSize (c : Chip) : (c.acknowledged).sRxbufSize = c.sRxbufSize := rfl
@[simp] theorem Chip.acknowledged_sTxbufSize (c : Chip) : (c.acknowledged).sTxbufSize = c.sTxbufSize := rfl
@[simp] theorem Chip.acknowledged_sTxFsr (c : Chip) : (c.acknowledged).sTxFsr = c.sTxFsr := rfl
@[simp] theorem Chip.acknowledged_sTxRd (c : Chip) : (c.acknowledged).sTxRd = c.sTxRd := rfl
@[simp] theorem Chip.acknowledged_sTxWr (c : Chip) : (c.acknowledged).sTxWr = c.sTxWr := rfl
@[simp] theorem Chip.acknowledged_sRxRd (c : Chip) : (c.acknowledged).sRxRd = c.sRxRd := rfl
@[simp] theorem Chip.acknowledged_sRxWr (c : Chip) : (c.acknowledged).sRxWr = c.sRxWr := rfl
@[simp] theorem Chip.acknowledged_sImr (c : Chip) : (c.acknowledged).sImr = c.sImr := rfl
@[simp] theorem Chip.acknowledged_rxRdCommitted (c : Chip) : (c.acknowledged).rxRdCommitted = c.sRxRd := rfl
@[simp] theorem Chip.acknowledged_txWrCommitted (c : Chip) : (c.acknowledged).txWrCommitted = c.txWrCommitted := rfl
@[simp] theorem Chip.acknowledged_sendQueue (c : Chip) : (c.acknowledged).sendQueue = c.sendQueue := rfl
@[simp] theorem Chip.acknowledged_rxBytes (c : Chip) : (c.acknowledged).rxBytes = c.rxBytes := rfl
@[simp] theorem Chip.acknowledged_txBytes (c : Chip) : (c.acknowledged).txBytes = c.txBytes := rfl
@[simp] theorem Chip.acknowledged_rxMem (c : Chip) : (c.acknowledged).rxMem = c.rxMem := rfl
@[simp] theorem Chip.acknowledged_txMem (c : Chip) : (c.acknowledged).txMem = c.txMem := rfl

/-! ## The chip sends (R268) -/

@[simp] theorem Chip.sent_mr (c : Chip) (e : U16) (q : List U16) : (c.sent e q).mr = c.mr := rfl
@[simp] theorem Chip.sent_shar (c : Chip) (e : U16) (q : List U16) : (c.sent e q).shar = c.shar := rfl
@[simp] theorem Chip.sent_simr (c : Chip) (e : U16) (q : List U16) : (c.sent e q).simr = c.simr := rfl
@[simp] theorem Chip.sent_scratch (c : Chip) (e : U16) (q : List U16) : (c.sent e q).scratch = c.scratch := rfl
@[simp] theorem Chip.sent_link (c : Chip) (e : U16) (q : List U16) : (c.sent e q).link = c.link := rfl
@[simp] theorem Chip.sent_sMr (c : Chip) (e : U16) (q : List U16) : (c.sent e q).sMr = c.sMr := rfl
@[simp] theorem Chip.sent_sIr (c : Chip) (e : U16) (q : List U16) : (c.sent e q).sIr = c.sIr ||| 0x10 := rfl
@[simp] theorem Chip.sent_sSr (c : Chip) (e : U16) (q : List U16) : (c.sent e q).sSr = c.sSr := rfl
@[simp] theorem Chip.sent_sRxbufSize (c : Chip) (e : U16) (q : List U16) : (c.sent e q).sRxbufSize = c.sRxbufSize := rfl
@[simp] theorem Chip.sent_sTxbufSize (c : Chip) (e : U16) (q : List U16) : (c.sent e q).sTxbufSize = c.sTxbufSize := rfl
@[simp] theorem Chip.sent_sTxRd (c : Chip) (e : U16) (q : List U16) : (c.sent e q).sTxRd = e := rfl
@[simp] theorem Chip.sent_sTxWr (c : Chip) (e : U16) (q : List U16) : (c.sent e q).sTxWr = c.sTxWr := rfl
@[simp] theorem Chip.sent_sRxRsr (c : Chip) (e : U16) (q : List U16) : (c.sent e q).sRxRsr = c.sRxRsr := rfl
@[simp] theorem Chip.sent_sRxRd (c : Chip) (e : U16) (q : List U16) : (c.sent e q).sRxRd = c.sRxRd := rfl
@[simp] theorem Chip.sent_sRxWr (c : Chip) (e : U16) (q : List U16) : (c.sent e q).sRxWr = c.sRxWr := rfl
@[simp] theorem Chip.sent_sImr (c : Chip) (e : U16) (q : List U16) : (c.sent e q).sImr = c.sImr := rfl
@[simp] theorem Chip.sent_rxRdCommitted (c : Chip) (e : U16) (q : List U16) : (c.sent e q).rxRdCommitted = c.rxRdCommitted := rfl
@[simp] theorem Chip.sent_txWrCommitted (c : Chip) (e : U16) (q : List U16) : (c.sent e q).txWrCommitted = c.txWrCommitted := rfl
@[simp] theorem Chip.sent_sendQueue (c : Chip) (e : U16) (q : List U16) : (c.sent e q).sendQueue = q := rfl
@[simp] theorem Chip.sent_rxBytes (c : Chip) (e : U16) (q : List U16) : (c.sent e q).rxBytes = c.rxBytes := rfl
@[simp] theorem Chip.sent_txBytes (c : Chip) (e : U16) (q : List U16) : (c.sent e q).txBytes = c.txBytes := rfl
@[simp] theorem Chip.sent_rxMem (c : Chip) (e : U16) (q : List U16) : (c.sent e q).rxMem = c.rxMem := rfl
@[simp] theorem Chip.sent_txMem (c : Chip) (e : U16) (q : List U16) : (c.sent e q).txMem = c.txMem := rfl

/-! ## The chip receives (R269) -/

@[simp] theorem Chip.received_mr (c : Chip) (b : List Byte) : (c.received b).mr = c.mr := rfl
@[simp] theorem Chip.received_shar (c : Chip) (b : List Byte) : (c.received b).shar = c.shar := rfl
@[simp] theorem Chip.received_simr (c : Chip) (b : List Byte) : (c.received b).simr = c.simr := rfl
@[simp] theorem Chip.received_scratch (c : Chip) (b : List Byte) : (c.received b).scratch = c.scratch := rfl
@[simp] theorem Chip.received_link (c : Chip) (b : List Byte) : (c.received b).link = c.link := rfl
@[simp] theorem Chip.received_sMr (c : Chip) (b : List Byte) : (c.received b).sMr = c.sMr := rfl
@[simp] theorem Chip.received_sIr (c : Chip) (b : List Byte) : (c.received b).sIr = c.sIr ||| 0x04 := rfl
@[simp] theorem Chip.received_sSr (c : Chip) (b : List Byte) : (c.received b).sSr = c.sSr := rfl
@[simp] theorem Chip.received_sRxbufSize (c : Chip) (b : List Byte) : (c.received b).sRxbufSize = c.sRxbufSize := rfl
@[simp] theorem Chip.received_sTxbufSize (c : Chip) (b : List Byte) : (c.received b).sTxbufSize = c.sTxbufSize := rfl
@[simp] theorem Chip.received_sTxFsr (c : Chip) (b : List Byte) : (c.received b).sTxFsr = c.sTxFsr := rfl
@[simp] theorem Chip.received_sTxRd (c : Chip) (b : List Byte) : (c.received b).sTxRd = c.sTxRd := rfl
@[simp] theorem Chip.received_sTxWr (c : Chip) (b : List Byte) : (c.received b).sTxWr = c.sTxWr := rfl
@[simp] theorem Chip.received_sRxRd (c : Chip) (b : List Byte) : (c.received b).sRxRd = c.sRxRd := rfl
@[simp] theorem Chip.received_sImr (c : Chip) (b : List Byte) : (c.received b).sImr = c.sImr := rfl
@[simp] theorem Chip.received_rxRdCommitted (c : Chip) (b : List Byte) : (c.received b).rxRdCommitted = c.rxRdCommitted := rfl
@[simp] theorem Chip.received_txWrCommitted (c : Chip) (b : List Byte) : (c.received b).txWrCommitted = c.txWrCommitted := rfl
@[simp] theorem Chip.received_sendQueue (c : Chip) (b : List Byte) : (c.received b).sendQueue = c.sendQueue := rfl
@[simp] theorem Chip.received_rxBytes (c : Chip) (b : List Byte) : (c.received b).rxBytes = c.rxBytes := rfl
@[simp] theorem Chip.received_txBytes (c : Chip) (b : List Byte) : (c.received b).txBytes = c.txBytes := rfl
@[simp] theorem Chip.received_txMem (c : Chip) (b : List Byte) : (c.received b).txMem = c.txMem := rfl

end Sys2Proof.Machine
end

