-- ==== Sys2Proof/Tests/Slice0.lean ====
section
/-! SUPPORT. The model's own tests: ill-formed terms, words written out from the opcode map, one step per instruction with the numbers of
spec/95_test_vectors.md, and for every statement a concrete state that meets its hypotheses. -/

namespace Sys2Proof.Machine

set_option Elab.async false

/-! ## Well-formedness: each check refuses an ill-formed term -/

theorem tooLong {b : List Byte} {n : Nat} (h : b.length = n) (hn : 65535 < n) : lengthFits b = false := by
  simp [lengthFits, h]; omega
theorem lengthFits_of {b : List Byte} {n : Nat} (h : b.length = n) (hn : n ≤ 65535) : lengthFits b = true := by
  simp [lengthFits, h]; omega
theorem test_wf_length : (Instr.output (List.replicate 65536 0x00)).wellFormed = false :=
  tooLong List.length_replicate (by decide)
theorem test_wf_raw_length : (Instr.pipeTxRaw (List.replicate 65536 0x00)).wellFormed = false :=
  tooLong List.length_replicate (by decide)
theorem test_wf_wire_length : (Instr.wireRx (List.replicate 65536 0x00) 0x00).wellFormed = false :=
  tooLong List.length_replicate (by decide)
theorem test_wf_link_flags : (Instr.link 0xFF).wellFormed = true ∧ decode [0x84, 0xF1] = .ok (.link 0xF1) := by decide
theorem test_wf_good : (Instr.output [0x01]).wellFormed = true := by decide
theorem test_config_ref : Config.ref.wf = true ∧ Config.refSpi.wf = true := by decide +kernel
theorem test_config_bad_buffer : Config.wf { Config.ref with bufSize := 1537 } = false := by decide +kernel
theorem test_config_bad_mask : Config.wf { Config.ref with phyIdExpect := 0xFFFFFFF0 } = false := by decide +kernel
theorem test_config_bad_patterns : Config.wf { Config.ref with patternB := 0xA55A } = false := by decide +kernel
theorem test_config_overlap : Config.wf { Config.ref with txRingBase := 0x20000018 } = false := by decide +kernel

/-! ## Decoding: words of 95_test_vectors.md section 2 -/

def stationMac : MacAddr := ⟨0x04, 0xE9, 0xE5, 0x00, 0x00, 0x01⟩
def groupMac : MacAddr := ⟨0x01, 0x00, 0x5E, 0x00, 0x00, 0xFB⟩

theorem test_decode_contract : decode [0x01] = .ok .isUnknown ∧ decode [0x02] = .ok .hasHardware ∧ decode [0x03] = .ok .getSystemMac
    ∧ decode [0x04] = .ok .getMac ∧ decode [0x05, 0x02, 0x00, 0x00, 0x00, 0x00, 0x01] = .ok (.setMac ⟨0x02, 0x00, 0x00, 0x00, 0x00, 0x01⟩)
    ∧ decode [0x06, 0x04, 0xE9, 0xE5, 0x00, 0x00, 0x01] = .ok (.init stationMac) ∧ decode [0x07] = .ok .deinit
    ∧ decode [0x08] = .ok .getCapabilities ∧ decode [0x09, 0x01, 0x02] = .ok (.procInput 258) ∧ decode [0x0A] = .ok .poll := by decide +kernel
theorem test_decode_frames : decode [0x0B, 0x00, 0x02, 0xAA, 0x55] = .ok (.output [0xAA, 0x55])
    ∧ decode [0x0C, 0x00, 0x01, 0x7E] = .ok (.outputFrame [0x7E]) ∧ decode [0x23, 0x00, 0x03, 0x00, 0x00, 0x01] = .ok (.pipeTxChain [0x00, 0x00, 0x01])
    ∧ decode [0x24, 0x00, 0x00] = .ok (.pipeTxRaw []) := by decide +kernel
theorem test_decode_filter : decode [0x0D, 0x01, 0x00, 0x5E, 0x00, 0x00, 0xFB, 0x01] = .ok (.setIncomingMacAllowed groupMac true)
    ∧ decode [0x25, 0x01, 0x00, 0x5E, 0x00, 0x00, 0xFB, 0x00] = .ok (.pipeAllowMac groupMac false) := by decide +kernel
theorem test_decode_link : decode [0x0E] = .ok .forceLinkUp ∧ decode [0x0F, 0x00, 0x64, 0x03] = .ok (.setLinkSettings 100 true true false)
    ∧ decode [0x0F, 0x03, 0xE8, 0x04] = .ok (.setLinkSettings 1000 false false true) ∧ decode [0x10] = .ok .getLinkInfo
    ∧ decode [0x11] = .ok .getStats := by decide +kernel
theorem test_decode_pipe : decode [0x20, 0x04, 0xE9, 0xE5, 0x00, 0x00, 0x01] = .ok (.pipeInit stationMac) ∧ decode [0x21] = .ok .pipeProcInput
    ∧ decode [0x22] = .ok .pipePollLink := by decide +kernel
theorem test_decode_events : decode [0x80, 0x00, 0x01, 0x7E, 0x04] = .ok (.wireRx [0x7E] 0x04) ∧ decode [0x81] = .ok .dmaTx
    ∧ decode [0x82] = .ok .isr ∧ decode [0x83] = .ok .mdioDone ∧ decode [0x84, 0x11] = .ok (.link 0x11) ∧ decode [0x85] = .ok .chipSendDone
    ∧ decode [0x86] = .ok .chipResetDone ∧ decode [0x87, 0x00, 0xBB, 0x05] = .ok (.ringFault 0x00BB 0x05) := by decide +kernel
theorem test_decode_refused : decodeCommand [] = .error .empty ∧ decodeCommand [0x12] = .error (.reservedOpcode 0x12)
    ∧ decodeCommand [0x81] = .error (.eventInCommand 0x81) ∧ decodeCommand [0x01, 0x00] = .error (.wrongLength 0x01)
    ∧ decodeCommand [0x0F, 0x00, 0x64, 0x08] = .error (.badLinkFlags 0x08)
    ∧ decodeCommand [0x0D, 0x01, 0x00, 0x5E, 0x00, 0x00, 0xFB, 0x02] = .error (.badAllow 0x02) := by decide +kernel
theorem test_text : (Instr.setIncomingMacAllowed groupMac true).text = "SET_INCOMING_MAC_ALLOWED 01:00:5E:00:00:FB 1" := by decide +kernel

/-! ## Data formats: 30_encoding.md's worked examples -/

theorem test_header_rsr : headerOf 1 0x0026 false = [0x00, 0x26, 0x08] := by decide
theorem test_header_open : headerOf 1 0x0001 true = [0x00, 0x01, 0x0C] := by decide
theorem test_header_send : headerOf 2 0x0100 true = [0x01, 0x00, 0x14] := by decide
theorem test_header_reserved_mode : headerFields false [0x00, 0x26, 0x09] = some (1, 0x0026, 1) := by decide
theorem test_mmfr_read : mmfrRead Config.ref 0x02 = 0x600A0000 := by decide
theorem test_mmfr_write : mmfrWrite Config.ref 0x0D 0x001F = 0x5036001F := by decide
theorem test_record : (recordOf (List.replicate 60 0xAA)).take 2 = [0x00, 0x3E] := by decide
theorem test_crc_check : crc32 [0x31, 0x32, 0x33, 0x34, 0x35, 0x36, 0x37, 0x38, 0x39] = 0xCBF43926 := by decide +kernel
theorem test_hash_buckets : filterHash Config.ref groupMac = 30 ∧ filterHash Config.ref stationMac = 38
    ∧ filterHash Config.ref ⟨0x33, 0x33, 0x00, 0x00, 0x00, 0xFB⟩ = 63 := by decide +kernel
theorem test_caps : capsWord Caps.refDma = 0x0057 ∧ capsWord Caps.refSpi = 0x0017 := by decide

/-! ## Small states -/

/-- The MAC registers as INIT leaves them in RefCfg (vector I3). -/
def upRegs : MacRegs :=
  { MacRegs.reset with
    eimr := 1, ecr := 1, rcr := 0x05F20000, palr := 0x04E9E500, paur := 0x00010000, rdsr := 0x20000000, tdsr := 0x20000020, mrbr := 0x600 }

/-- Descriptor 0 of each ring, seeded (vector E70). -/
def seeded : Memory :=
  Memory.writeBytes (Memory.writeBytes [] 0x20000000 [0x00, 0x00, 0x00, 0x80, 0x00, 0x10, 0x00, 0x20]) 0x20000020
    [0x00, 0x00, 0x00, 0x00, 0x00, 0x30, 0x00, 0x20]

/-- A quiet DMA session (S_DMA with one descriptor of each ring). -/
def sDma : State :=
  { State.reset with
    prompt := Prompt.quiet, initState := .initialized, caps := Caps.refDma
    dma := { DmaState.reset with
      clocksOn := true, pinsConfigured := true, phyResetDone := true, regs := upRegs, rxActive := true, mem := seeded } }

/-- The same with another DMA state. -/
def sDmaWith (f : DmaState → DmaState) : State := { sDma with dma := f sDma.dma }

/-- The same with bytes stored in memory. -/
def sDmaMem (a : Nat) (bs : List Byte) : State := sDmaWith fun d => { d with mem := Memory.writeBytes d.mem a bs }

/-- A quiet SPI session (S_SPI). -/
def sSpi : State :=
  { State.resetWith Config.refSpi with
    prompt := Prompt.quiet, initState := .initialized, caps := Caps.refSpi
    spi := { SpiState.reset with chip := Chip.reset.afterInit Config.refSpi stationMac } }

/-- The same with another chip. -/
def sSpiWith (f : Chip → Chip) : State := { sSpi with spi := { sSpi.spi with chip := f sSpi.spi.chip } }

/-- The quiet state after reset. -/
def sReset : State := { State.reset with prompt := Prompt.quiet }

/-- A frame to the station address. -/
def g60 : List Byte := [0x04, 0xE9, 0xE5, 0x00, 0x00, 0x01, 0x02, 0x00, 0x00, 0x00, 0x00, 0x02, 0x08, 0x00] ++ List.replicate 46 0xAA

/-- A 14-byte frame to everybody and its 16-byte record. -/
def f14 : List Byte := [0xFF, 0xFF, 0xFF, 0xFF, 0xFF, 0xFF, 0x04, 0xE9, 0xE5, 0x00, 0x00, 0x01, 0x08, 0x06]
def r16 : List Byte := [0x00, 0x10] ++ f14

/-- One record in the chip's ring, announced. -/
def sSpiRecord : State :=
  { sSpiWith fun c => { c with rxMem := Memory.writeBytes [] 0 r16, sRxWr := 16, sRxRsr := 16, sIr := 0x04 } with
    spi := { (sSpiWith fun c => { c with rxMem := Memory.writeBytes [] 0 r16, sRxWr := 16, sRxRsr := 16, sIr := 0x04 }).spi with rxPending := true } }

/-- A test of the state an instruction ends in. -/
def ends (i : Instr) (s : State) (p : State → Bool) : Bool :=
  match exec i s with
  | .next t => p t
  | .fault _ => false
  | .refused _ => false

/-- An edge latched before DEINIT is not taken inside it (R357), although the schedule offers !ISR at its first boundary. -/
def masksFirst : Bool :=
  match spiShutDown { sSpi with script := [[.isr]], spi := { sSpi.spi with intLatched := true } } with
  | .ok (_, t) => !t.spi.rxPending && !t.spi.txDone && t.script.isEmpty
  | .error _ => false
theorem test_deinit_masks_first : masksFirst = true := by decide +kernel
/-- A byte of ibuf past ibuf_size has no value, although an earlier refill stored it (R103, U4). -/
theorem test_ibuf_past_size :
    ibufRead 2 2 { sSpi with spi := { sSpi.spi with ibuf := [(2, 0xAA), (3, 0x55)], ibufSize := 3 } }
      = .error (.fault (.unspecifiedRead .ibuf 2)) := by rfl

theorem exists_of_ends {i : Instr} {s : State} (h : ends i s (fun _ => true) = true) : ∃ t, exec i s = .next t := by
  unfold ends at h
  cases he : exec i s with
  | next t => exact ⟨t, rfl⟩
  | fault f => simp [he] at h
  | refused r => simp [he] at h

/-- The same of a step. -/
def goesOn (s : State) : Bool :=
  match step s with
  | .next _ => true
  | .fault _ => false
  | .refused _ => false

theorem safe_of_goesOn {s : State} (h : goesOn s = true) : s.Safe := by
  unfold goesOn at h
  unfold State.Safe
  cases he : step s with
  | next t => exact ⟨t, rfl⟩
  | fault f => simp [he] at h
  | refused r => simp [he] at h

/-! ## One step per instruction -/

theorem test_isUnknown : ends .isUnknown State.reset (fun t => t.resBuf == [0x00]) = true := by decide +kernel
theorem test_isUnknown_after : ends .isUnknown sDma (fun t => t.resBuf == [0x01]) = true := by decide +kernel
theorem test_hasHardware_dma : ends .hasHardware State.reset (fun t => t.initState == .hasHardware && t.resBuf == [0x00] && t.dma.regs.mmfr == 0x600EA140) = true := by decide +kernel
theorem test_hasHardware_no_chip : ends .hasHardware (State.resetWith { Config.refSpi with chipPresent := false }) (fun t => t.initState == .noHardware && t.resBuf == [0x01]) = true := by decide +kernel
theorem test_getSystemMac : ends .getSystemMac State.reset (fun t => t.resBuf == [0x00, 0x04, 0xE9, 0xE5, 0x00, 0x00, 0x01]) = true := by decide +kernel
theorem test_getMac : ends .getMac { State.reset with mac := ⟨0x02, 0x00, 0x00, 0x00, 0x00, 0x01⟩ } (fun t => t.resBuf == [0x00, 0x02, 0x00, 0x00, 0x00, 0x00, 0x01]) = true := by decide +kernel
theorem test_setMac_dma : ends (.setMac ⟨0x02, 0x00, 0x00, 0x00, 0x00, 0x01⟩) sDma (fun t => t.dma.regs.palr == 0x02000000 && t.dma.regs.paur == 0x00010000) = true := by decide +kernel
theorem test_setMac_spi : ends (.setMac groupMac) sSpi (fun t => t.spi.chip.shar == groupMac && t.mac == groupMac) = true := by decide +kernel
theorem test_init_dma : ends (.init stationMac) { State.reset with initState := .phyInitialized } (fun t => t.dma.regs == upRegs && t.dma.rxActive && t.initState == .initialized && Memory.readBytes t.dma.mem 0x20000018 8 == some [0x00, 0x00, 0x00, 0xA0, 0x00, 0x22, 0x00, 0x20]) = true := by decide +kernel
theorem test_init_spi : ends (.init stationMac) (State.resetWith Config.refSpi) (fun t => t.spi.chip.sMr == 0x84 && t.spi.chip.sSr == 0x42 && t.spi.chip.sImr == 0x14 && t.spi.chip.simr == 0x01 && t.spi.chip.sTxFsr == 0x4000) = true := by decide +kernel
theorem test_deinit_dma : ends .deinit { sDma with linkReported := true, notifyLog := [true] } (fun t => t.initState == .hasHardware && t.notifyLog == [true, false] && t.dma.regs.ecr == 0 && t.dma.regs.eimr == 0 && !t.dma.rxActive) = true := by decide +kernel
theorem test_deinit_spi : ends .deinit sSpi (fun t => t.initState == .hasHardware && t.spi.chip.sSr == 0x00 && t.spi.chip.simr == 0x00) = true := by decide +kernel
theorem test_getCapabilities : ends .getCapabilities sDma (fun t => t.resBuf == [0x00, 0x00, 0x57] && t.capsRead) = true := by decide +kernel
theorem test_getCapabilities_twice : ends .getCapabilities { sDma with capsRead := true } (fun t => t.resBuf == [0x04]) = true := by decide +kernel
theorem test_procInput_dma : ends (.procInput 0) { sDmaMem 0x20000000 [0x02, 0x00, 0x00, 0x08] with draws := ⟨[true], [], [7], [], [], 0⟩, dma := { (sDmaMem 0x20001000 [0xAB, 0xCD]).dma with rxPending := true, mem := Memory.writeBytes (sDmaMem 0x20000000 [0x02, 0x00, 0x00, 0x08]).dma.mem 0x20001000 [0xAB, 0xCD] } } (fun t => t.resBuf == [0x00, 0x00, 0x00, 0x00, 0x07, 0x00, 0x02, 0xAB, 0xCD] && t.dma.rxCursor == 1 && t.dma.rxPending) = true := by decide +kernel
theorem test_procInput_spi : ends (.procInput 0) { sSpiRecord with draws := ⟨[true], [], [9], [], [], 0⟩ } (fun t => t.resBuf == [0x00, 0x00, 0x00, 0x00, 0x09, 0x00, 0x0E] ++ f14 && t.spi.chip.sRxRsr == 0 && t.spi.ibufStart == 16 && t.spi.ibufSize == 16) = true := by decide +kernel
theorem test_poll_dma : ends .poll sDma (fun t => t.dma.lmState == .waitLink && t.dma.regs.mmfr == 0x60060000 && t.dma.mdioBusy) = true := by decide +kernel
theorem test_poll_spi : ends .poll { (sSpiWith fun c => { c with link := ⟨true, true, true⟩ }) with draws := ⟨[], [], [], [], [0xF8], 0⟩ } (fun t => t.notifyLog == [true] && t.linkInfo == ⟨100, true, false, false⟩) = true := by decide +kernel
theorem test_output_dma : ends (.output g60) sDma (fun t => t.dma.txCursor == 1 && t.dma.txActive && Memory.readBytes t.dma.mem 0x20000020 4 == some [0x3C, 0x00, 0x00, 0x8C] && Memory.readBytes t.dma.mem 0x20003000 60 == some g60) = true := by decide +kernel
theorem test_output_spi : ends (.output g60) sSpi (fun t => t.spi.chip.sendQueue == [0x003C] && t.spi.chip.sTxFsr == 0x3FC4 && t.resBuf == [0x00]) = true := by decide +kernel
theorem test_outputFrame_busy : ends (.outputFrame g60) (sDmaMem 0x20000020 [0x3C, 0x00, 0x00, 0x8C]) (fun t => t.resBuf == [0x02] && t.cntTxAgain == 1 && t.dma.txCursor == 0) = true := by decide +kernel
theorem test_outputFrame_too_long : ends (.outputFrame (List.replicate 1519 0x00)) sSpi (fun t => t.resBuf == [0x03]) = true := by decide +kernel
theorem test_setIncomingMacAllowed : ends (.setIncomingMacAllowed groupMac true) sDma (fun t => t.dma.regs.fltPres0 == 0x40000000 && t.resBuf == [0x00]) = true := by decide +kernel
theorem test_setIncomingMacAllowed_collision : ends (.setIncomingMacAllowed groupMac false) (sDmaWith fun d => { d with regs := { d.regs with fltPres0 := 0x40000000 }, fltColl0 := 0x40000000 }) (fun t => t.dma.regs.fltPres0 == 0x40000000 && t.resBuf == [0x01]) = true := by decide +kernel
theorem test_forceLinkUp : ends .forceLinkUp sDma (fun t => t.notifyLog == [true] && t.linkManual && t.linkReported) = true := by decide +kernel
theorem test_setLinkSettings : ends (.setLinkSettings 100 true true false) sSpi (fun t => t.linkSettings == ⟨100, true, true, false⟩) = true := by decide +kernel
theorem test_getLinkInfo : ends .getLinkInfo { sDma with linkInfo := ⟨100, true, true, false⟩, linkReported := true } (fun t => t.resBuf == [0x00, 0x00, 0x64, 0x83]) = true := by decide +kernel
theorem test_getStats : ends .getStats { sDma with cntRxErr := 1, cntRxNomem := 2, cntTxAgain := 0x01020304 } (fun t => t.resBuf == [0x00, 0x00, 0x00, 0x00, 0x01, 0x00, 0x00, 0x00, 0x02, 0x01, 0x02, 0x03, 0x04]) = true := by decide +kernel
theorem test_pipeInit : ends (.pipeInit stationMac) (State.resetWith Config.refSpi) (fun t => t.initState == .initialized && t.resBuf == [0x00]) = true := by decide +kernel
theorem test_pipeProcInput : ends .pipeProcInput { sSpiRecord with draws := ⟨[true], [true], [1], [], [], 0⟩ } (fun t => t.resBuf == [0x00, 0x00, 0x01] && t.stackRxLog == [(f14, 1)]) = true := by decide +kernel
theorem test_pipePollLink : ends .pipePollLink { sSpi with draws := ⟨[], [], [], [], [0x00], 0⟩ } (fun t => t.resBuf == [0x00] && t.notifyLog == []) = true := by decide +kernel
theorem test_pipeTxChain : ends (.pipeTxChain ([0x00, 0x00] ++ g60)) sDma (fun t => Memory.readBytes t.dma.mem 0x20003000 60 == some g60 && t.resBuf == [0x00]) = true := by decide +kernel
theorem test_pipeTxRaw_short : ends (.pipeTxRaw (List.replicate 59 0x00)) sDma (fun t => t.resBuf == [0x01] && t.dma.txCursor == 0 && t.cntTxAgain == 0) = true := by decide +kernel
theorem test_pipeTxRaw_minimum : ends (.pipeTxRaw (List.replicate 60 0x00)) sDma (fun t => t.resBuf == [0x00] && t.dma.txCursor == 1) = true := by decide +kernel
theorem test_pipeAllowMac_promiscuous : ends (.pipeAllowMac groupMac true) { sDma with cfg := { Config.ref with promiscuous := true } } (fun t => t.resBuf == [0x04]) = true := by decide +kernel
theorem test_wireRx_dma : ends (.wireRx g60 0x00) sDma (fun t => Memory.readBytes t.dma.mem 0x20000000 8 == some [0x3C, 0x00, 0x00, 0x08, 0x00, 0x10, 0x00, 0x20] && t.dma.regs.eir == 1 && t.dma.hwRxIdx == 1) = true := by decide +kernel
theorem test_wireRx_spi : ends (.wireRx g60 0x00) sSpi (fun t => t.spi.chip.sRxWr == 62 && t.spi.chip.sRxRsr == 62 && t.spi.chip.sIr == 0x04 && t.spi.intLatched) = true := by decide +kernel
theorem test_dmaTx : ends .dmaTx { sDmaMem 0x20000020 [0x01, 0x00, 0x00, 0x8C] with dma := { sDma.dma with txActive := true, mem := Memory.writeBytes (sDmaMem 0x20000020 [0x01, 0x00, 0x00, 0x8C]).dma.mem 0x20003000 [0x5A] } } (fun t => t.wireTxLog == [[0x5A]] && t.dma.regs.eir == 4 && t.dma.hwTxIdx == 1) = true := by decide +kernel
theorem test_isr_dma : ends .isr (sDmaWith fun d => { d with regs := { d.regs with eir := 7 } }) (fun t => t.dma.regs.eir == 6 && t.dma.rxPending) = true := by decide +kernel
theorem test_isr_spi : ends .isr { sSpi with spi := { sSpi.spi with intLatched := true } } (fun t => t.spi.rxPending && t.spi.txDone && !t.spi.intLatched) = true := by decide +kernel
theorem test_mdioDone : ends .mdioDone (sDmaWith fun d => { d with mdioBusy := true, regs := { d.regs with mmfr := 0x600A0000 } }) (fun t => t.dma.regs.mmfr == 0x600A2000 && t.dma.regs.eir == 2) = true := by decide +kernel
theorem test_link_dma : ends (.link 0x11) sDma (fun t => t.dma.phy.link == ⟨true, true, false, false, true⟩) = true := by decide +kernel
theorem test_chipSendDone : ends .chipSendDone (sSpiWith fun c => { c with txMem := [(0, 0x5A)], sTxWr := 1, txWrCommitted := 1, sTxFsr := 0x3FFF, sendQueue := [1] }) (fun t => t.wireTxLog == [[0x5A]] && t.spi.chip.sTxFsr == 0x4000 && t.spi.chip.sIr == 0x10 && t.spi.intLatched) = true := by decide +kernel
theorem test_chipResetDone : ends .chipResetDone (sSpiWith fun c => { c with mr := 0x80 }) (fun t => t.spi.chip.mr == 0x00) = true := by decide +kernel
theorem test_ringFault : ends (.ringFault 0x00BB 0x05) sSpi (fun t => Memory.read? t.spi.chip.rxMem 0xBB == some 0x05) = true := by decide +kernel
theorem test_mid_command : ends (.procInput 0) { sDma with script := [[], [.wireRx g60 0x00, .isr]], dma := { sDma.dma with rxPending := true } } (fun t => t.resBuf == [0x01] && t.dma.rxPending && t.dma.hwRxIdx == 1) = true := by decide +kernel
theorem test_mid_command_before_look : ends (.procInput 0) { sDma with script := [[.wireRx g60 0x00]], draws := ⟨[true], [], [2], [], [], 0⟩, dma := { sDma.dma with rxPending := true } } (fun t => t.resBuf == [0x00, 0x00, 0x00, 0x00, 0x02, 0x00, 0x3C] ++ g60) = true := by decide +kernel

/-! ## The hypotheses of the statements are met

For every statement that has hypotheses, concrete states and operands that meet all of them, clause by clause. -/

/-- An item in front of a state. -/
def sWith (s : State) (i : Item) : State := { s with input := [i] }

theorem not_encoded_of_head {b : Byte} (hb : b = 0x12) (i : Instr) : encode i ≠ [b] := by
  subst hb
  cases i <;> simp [encode]

theorem step_of_goesOn {s : State} (h : goesOn s = true) : ∃ t, step s = .next t := safe_of_goesOn h

/-! ### Encoding and fetching -/

theorem witness_DecodeOfEncode : (Instr.output (List.replicate 65535 0x00)).wellFormed = true
    ∧ (Instr.link 0x1F).wellFormed = true ∧ (Instr.pipeTxRaw []).wellFormed = true :=
  ⟨lengthFits_of List.length_replicate (by decide), by decide, by decide⟩
theorem witness_EncodeOfDecode : decode [0x0B, 0x00, 0x02, 0xAA, 0x55] = .ok (.output [0xAA, 0x55]) := by decide +kernel
theorem witness_IllFormedCommandRefused : (sWith sDma (.command [0x12])).input = .command [0x12] :: []
    ∧ ∀ i : Instr, i.isEvent = false → i.wellFormed = true → encode i ≠ [0x12] :=
  ⟨rfl, fun i _ _ => not_encoded_of_head rfl i⟩
theorem witness_SpecVectorsHold : Config.ref.filterHash = .reference := rfl
theorem witness_StepRunsDecoded_command : (Instr.poll).wellFormed = true ∧ (Instr.poll).isEvent = false
    ∧ (sWith sDma (.command [0x0A])).input = .command (encode .poll) :: [] := by decide +kernel
theorem witness_StepRunsDecoded_event : (Instr.isr).wellFormed = true ∧ (Instr.isr).isEvent = true
    ∧ (sWith sDma (.event [0x82])).input = .event (encode .isr) :: [] := by decide +kernel
theorem witness_StepRunsDecoded_word : decodeTableWord 8 0x01 = some .isUnknown
    ∧ decodeTableWord 8 0x82 = some .isr := by decide +kernel
theorem witness_StepOtherwise_idle : sDma.Quiet ∧ sDma.input = [] := ⟨⟨rfl, rfl⟩, rfl⟩
theorem witness_StepOtherwise_malformed : (sWith sDma (.event [0x12])).input = .event [0x12] :: []
    ∧ ∀ i : Instr, i.isEvent = true → i.wellFormed = true → encode i ≠ [0x12] :=
  ⟨rfl, fun i _ _ => not_encoded_of_head rfl i⟩

/-! ### Invariants -/

/-- A DMA session with a step to take. -/
def sDmaPoll : State := sWith sDma (.command [0x0A])

/-- An SPI session with one announced record and the command that takes it. -/
def sSpiInput : State := sWith { sSpiRecord with draws := ⟨[true], [], [9], [], [], 0⟩ } (.command [0x09, 0x00, 0x00])

theorem steps_sDmaPoll : ∃ t, step sDmaPoll = .next t := step_of_goesOn (by decide +kernel)
theorem steps_sSpiInput : ∃ t, step sSpiInput = .next t := step_of_goesOn (by decide +kernel)

theorem linkInv_sDmaPoll : LinkInv sDmaPoll := ⟨by decide, by decide, by decide, by decide⟩
theorem probeInv_sDmaPoll : ProbeInv sDmaPoll := ⟨by decide, by decide⟩
theorem filterInv_sDmaPoll : FilterInv sDmaPoll := by
  intro half k h
  cases half <;> simp [sDmaPoll, sWith, sDma, DmaState.coll, DmaState.reset] at h
theorem cacheWf_nil : cacheWf [] := ⟨List.Pairwise.nil, by simp⟩
theorem regsWf_nil : regsWf [] := List.Pairwise.nil
theorem memoriesWf_of {s : State} (h1 : s.dma.mem.wf) (h2 : s.dma.cache = []) (h3 : s.dma.phy.reg = []) (h4 : s.dma.phy.ext = [])
    (h5 : s.spi.chip.rxMem.wf) (h6 : s.spi.chip.txMem.wf) (h7 : s.spi.ibuf.wf) : MemoriesWf s :=
  ⟨h1, h2 ▸ cacheWf_nil, h3 ▸ regsWf_nil, h4 ▸ regsWf_nil, h5, h6, h7⟩
theorem memoriesWf_sDma : MemoriesWf sDma :=
  memoriesWf_of (by decide +kernel) rfl rfl rfl List.Pairwise.nil List.Pairwise.nil List.Pairwise.nil
theorem memoriesWf_sSpiInput : MemoriesWf sSpiInput :=
  memoriesWf_of List.Pairwise.nil rfl rfl rfl (by decide +kernel) List.Pairwise.nil List.Pairwise.nil
theorem macInv_sDmaPoll : MacInv sDmaPoll := ⟨by decide +kernel, by decide +kernel⟩
theorem ringInv_of {c : Chip} (h1 : legalRing c.rxBytes) (h2 : legalRing c.txBytes) (h3 : c.sRxRsr.toNat = ptrDiff c.sRxWr c.rxRdCommitted)
    (h4 : c.sRxRsr.toNat ≤ c.rxBytes) (h5 : c.sTxFsr.toNat + ptrDiff c.txWrCommitted c.sTxRd = c.txBytes) (h6 : c.sendQueue = [])
    (h7 : c.sTxRd = c.txWrCommitted) : c.RingInv :=
  ⟨h1, h2, h3, h4, h5, h6 ▸ List.Pairwise.nil, by simp [h6], by simp [h6], fun _ _ => h7⟩
theorem ringInv_sSpiInput : sSpiInput.spi.chip.RingInv :=
  ringInv_of (by unfold legalRing; decide) (by unfold legalRing; decide) (by decide) (by decide) (by decide) rfl (by decide)
theorem ibufInv_sSpiInput : IbufInv sSpiInput := ⟨by decide, by decide, [], by simp, by decide⟩
theorem socketInv_sSpiInput : SocketInv sSpiInput := ⟨by decide +kernel, by decide +kernel⟩

theorem witness_LinkReportsKept : ∃ s t, LinkInv s ∧ step s = .next t := ⟨_, _, linkInv_sDmaPoll, steps_sDmaPoll.choose_spec⟩
theorem witness_ProbeMilestonesKept : ∃ s t, ProbeInv s ∧ step s = .next t := ⟨_, _, probeInv_sDmaPoll, steps_sDmaPoll.choose_spec⟩
theorem witness_CollisionsWithinPresence : ∃ s t, FilterInv s ∧ step s = .next t := ⟨_, _, filterInv_sDmaPoll, steps_sDmaPoll.choose_spec⟩
theorem witness_MemoriesStayCanonical : ∃ s t, MemoriesWf s ∧ step s = .next t := ⟨_, _, memoriesWf_sSpiInput, steps_sSpiInput.choose_spec⟩
theorem witness_ChipRingsConsistent : ∃ s t : State, s.spi.chip.RingInv ∧ step s = .next t := ⟨_, _, ringInv_sSpiInput, steps_sSpiInput.choose_spec⟩
theorem witness_InputBufferHoldsRecords : ∃ s t, s.cfg.wf = true ∧ IbufInv s ∧ step s = .next t :=
  ⟨sSpiInput, _, by decide +kernel, ibufInv_sSpiInput, steps_sSpiInput.choose_spec⟩
theorem witness_MacEnabledOnlyInSession : ∃ s t, MacInv s ∧ step s = .next t := ⟨_, _, macInv_sDmaPoll, steps_sDmaPoll.choose_spec⟩
theorem witness_SocketOpenInSession : ∃ s t, s.cfg.wf = true ∧ SocketInv s ∧ step s = .next t :=
  ⟨sSpiInput, _, by decide +kernel, socketInv_sSpiInput, steps_sSpiInput.choose_spec⟩
theorem witness_OneBackend_dma : ∃ s t : State, step s = .next t ∧ s.cfg.backend = .dma := ⟨sDmaPoll, _, steps_sDmaPoll.choose_spec, rfl⟩
theorem witness_OneBackend_spi : ∃ s t : State, step s = .next t ∧ s.cfg.backend = .spi := ⟨sSpiInput, _, steps_sSpiInput.choose_spec, rfl⟩
theorem witness_InitStateMoves_step : ∃ s t, step s = .next t ∧ s.initState = .noHardware :=
  ⟨{ sDmaPoll with initState := .noHardware }, _, (step_of_goesOn (by decide +kernel)).choose_spec, rfl⟩
theorem witness_InitStateMoves_exec : ∃ t, exec .poll sDma = .next t ∧ Instr.poll ≠ .deinit :=
  ⟨_, (exists_of_ends (i := .poll) (s := sDma) (by decide +kernel)).choose_spec, by decide⟩
theorem witness_HistoriesOnlyGrow : ∃ t, step (sWith sDma (.command [0x0E])) = .next t := step_of_goesOn (by decide +kernel)
theorem witness_CountersWrittenBy : ∃ t, exec .poll sDma = .next t := exists_of_ends (by decide +kernel)
theorem witness_EventsLeaveHostVariables : Instr.isr.isEvent = true ∧ ∃ t, exec .isr sDma = .next t :=
  ⟨rfl, exists_of_ends (by decide +kernel)⟩

/-! ### The Driver Contract -/

/-- A quiet SPI machine after reset. -/
def sResetSpi : State := { State.resetWith Config.refSpi with prompt := Prompt.quiet }

theorem witness_GateOutsideSession : State.reset.initState ≠ .initialized ∧ State.reset.cfg.promiscuous = false := by decide
theorem witness_DataPlaneRefusals_fault : ({ sSpi with spi := { sSpi.spi with faultSock := true } } : State).SpiSession := ⟨rfl, rfl⟩
theorem witness_DataPlaneRefusals_length : ([] : List Byte).length = 0 ∧ sSpi.cfg.maxLenTagged < (List.replicate 1519 (0x00 : Byte)).length
    ∧ ([0x00, 0x00] : List Byte).length ≤ sSpi.cfg.stackPad ∧ sSpi.cfg.stackPad + sSpi.cfg.maxLenTagged < (List.replicate 1521 (0x00 : Byte)).length
    ∧ lengthValid sSpi.cfg (List.replicate 59 0x00) = false := by decide +kernel
theorem witness_ProbeResultMemoized : sDma.initState = .initialized
    ∧ ({ sReset with initState := .noHardware } : State).initState = .noHardware
    ∧ ({ sReset with initState := .hasHardware } : State).initState ≠ .start := by decide
theorem witness_DmaProbeReadsIdentity_prompt : State.reset.Prompted ∧ State.reset.cfg.backend = .dma ∧ State.reset.initState = .start
    ∧ State.reset.dma.mdioBusy = false ∧ 1 ≤ State.reset.cfg.mdioPollBound := by decide
theorem witness_DmaProbeReadsIdentity_quiet : sReset.Quiet ∧ sReset.cfg.backend = .dma ∧ sReset.initState = .start
    ∧ sReset.dma.mdioBusy = false := by decide
theorem witness_SpiProbeResetsChip_present : (State.resetWith Config.refSpi).Prompted ∧ (State.resetWith Config.refSpi).cfg.backend = .spi
    ∧ (State.resetWith Config.refSpi).initState = .start ∧ (State.resetWith Config.refSpi).cfg.chipPresent = true
    ∧ 1 ≤ (State.resetWith Config.refSpi).cfg.spiResetPollBound := by decide
theorem witness_SpiProbeResetsChip_absent :
    let s := { sResetSpi with cfg := { Config.refSpi with chipPresent := false } }
    s.Quiet ∧ s.cfg.backend = .spi ∧ s.initState = .start ∧ s.cfg.chipPresent = false ∧ s.cfg.patternA ≠ s.cfg.patternB := by decide
theorem witness_InitProbesFirst_start : ∃ t, State.reset.initState = .start ∧ exec .hasHardware State.reset = .next t :=
  ⟨_, rfl, (exists_of_ends (i := .hasHardware) (s := State.reset) (by decide +kernel)).choose_spec⟩
theorem witness_InitProbesFirst_again : ∃ s t : State, s.cfg.backend = .spi ∧ s.initState = .hasHardware
    ∧ exec .hasHardware { s with initState := .start } = .next t :=
  ⟨{ State.resetWith Config.refSpi with initState := .hasHardware }, _, rfl, rfl,
    (exists_of_ends (i := .hasHardware) (s := { State.resetWith Config.refSpi with initState := .start }) (by decide +kernel)).choose_spec⟩

theorem macInv_reset (x : InitState) (hx : x ≠ .initialized) (p : Prompt) : MacInv { State.reset with initState := x, prompt := p } :=
  ⟨fun h => absurd h.2 hx, fun _ _ => ⟨rfl, rfl, rfl, rfl, rfl, rfl⟩⟩
theorem memoriesWf_reset (x : InitState) (p : Prompt) : MemoriesWf { State.reset with initState := x, prompt := p } :=
  memoriesWf_of List.Pairwise.nil rfl rfl rfl List.Pairwise.nil List.Pairwise.nil List.Pairwise.nil

theorem witness_DmaInitBringsUp :
    let s := { State.reset with initState := .phyInitialized, prompt := Prompt.quiet }
    s.Quiet ∧ s.cfg.wf = true ∧ s.cfg.backend = .dma ∧ s.initState = .phyInitialized ∧ MacInv s ∧ MemoriesWf s :=
  ⟨by decide, by decide +kernel, rfl, rfl, macInv_reset _ (by decide) _, memoriesWf_reset _ _⟩
theorem witness_DmaInitTunesPhy :
    let s : State := { State.reset with initState := .hasHardware, dma := { DmaState.reset with clocksOn := true } }
    s.Prompted ∧ s.cfg.wf = true ∧ s.cfg.backend = .dma ∧ s.initState = .hasHardware ∧ s.dma.clocksOn = true ∧ MacInv s ∧ MemoriesWf s :=
  ⟨by decide, by decide +kernel, rfl, rfl, rfl, ⟨by decide, by decide⟩,
    memoriesWf_of List.Pairwise.nil rfl rfl rfl List.Pairwise.nil List.Pairwise.nil List.Pairwise.nil⟩
theorem witness_TuningFailureStaysBelow :
    let s : State := { State.reset with initState := .hasHardware, prompt := Prompt.quiet }
    s.Quiet ∧ s.cfg.backend = .dma ∧ s.initState = .hasHardware ∧ s.dma.mdioBusy = false
      ∧ allTuningWrites s.cfg = (0x18, 0x0280) :: (allTuningWrites s.cfg).tail := by decide
/-- INIT from HasHardware with two tuning writes, of which the schedule completes the first only. -/
def sTuneTwo : State :=
  { State.reset with
    initState := .hasHardware, prompt := Prompt.quiet, script := [[], [], [.mdioDone]]
    cfg := { Config.ref with phyTuning := [(0x18, 0x0280), (0x19, 0x0001)] }
    dma := { DmaState.reset with clocksOn := true } }

/-- The first entry completes and the second does not. -/
def failsAtSecond : Bool :=
  match tune [(0x18, 0x0280)] sTuneTwo with
  | .ok (true, t) =>
    match phyWrite 0x19 0x0001 t with
    | .ok (ok, _) => !ok
    | .error _ => false
  | _ => false

theorem witness_TuningFailureStaysBelow_later : ∃ t u, sTuneTwo.cfg.backend = .dma ∧ sTuneTwo.initState = .hasHardware
    ∧ sTuneTwo.cfg.phyTuning = [(0x18, 0x0280)] ++ (0x19, 0x0001) :: [] ∧ tune [(0x18, 0x0280)] sTuneTwo = .ok (true, t)
    ∧ phyWrite 0x19 0x0001 t = .ok (false, u) := by
  have h : failsAtSecond = true := by decide +kernel
  unfold failsAtSecond at h
  split at h
  · rename_i t ht
    split at h
    · rename_i ok u hu
      exact ⟨t, u, rfl, rfl, rfl, ht, by simpa [show ok = false by simpa using h] using hu⟩
    · cases h
  · cases h
theorem witness_SpiInitOpensSocket :
    let s := { sResetSpi with initState := .phyInitialized }
    s.Quiet ∧ s.cfg.wf = true ∧ s.cfg.backend = .spi ∧ s.initState = .phyInitialized ∧ s.cfg.chipPresent = true := by decide +kernel
theorem witness_DmaDeinitEndsSession : sDma.Quiet ∧ sDma.DmaSession := by decide
theorem witness_SpiDeinitClosesSocket : sSpi.Quiet ∧ sSpi.SpiSession ∧ sSpi.cfg.chipPresent = true ∧ 1 ≤ sSpi.cfg.sockPollBound := by decide
theorem witness_DeinitIdempotent : sReset.initState ≠ .initialized ∧ ∃ t, exec .deinit sDma = .next t :=
  ⟨by decide, exists_of_ends (by decide +kernel)⟩
theorem witness_SetMacStoresAddress : sReset.initState ≠ .initialized ∧ (sDma.Quiet ∧ sDma.DmaSession)
    ∧ (sSpi.Quiet ∧ sSpi.SpiSession ∧ sSpi.cfg.chipPresent = true) := by decide

/-! ### The DMA data plane -/

theorem witness_InputWithNothingWaiting_cap : sDma.DataOpen ∧ sDma.cfg.rxLoopCap ≤ (8 : U16).toNat := by decide
theorem witness_InputWithNothingWaiting_dma_clear : sDma.Quiet ∧ sDma.cfg.wf = true ∧ sDma.DmaSession ∧ (7 : U16).toNat < sDma.cfg.rxLoopCap
    ∧ sDma.dma.rxPending = false := by decide +kernel
theorem witness_InputWithNothingWaiting_dma_owned :
    let s := sDmaWith fun d => { d with rxPending := true }
    s.Quiet ∧ s.cfg.wf = true ∧ s.DmaSession ∧ (0 : U16).toNat < s.cfg.rxLoopCap ∧ s.dma.rxCursor < s.cfg.nRx
      ∧ (0x8000 : U16).getLsbD 15 = true ∧ Memory.half? s.dma.mem (descAddr s.cfg.rxRingBase s.dma.rxCursor + 2) = some 0x8000 := by
  decide +kernel
theorem witness_InputWithNothingWaiting_spi : sSpi.Quiet ∧ sSpi.cfg.wf = true ∧ sSpi.SpiSession ∧ sSpi.spi.faultSock = false
    ∧ (7 : U16).toNat < sSpi.cfg.rxLoopCap ∧ sSpi.cfg.spiIntWired = true ∧ sSpi.spi.rxPending = false
    ∧ sSpi.spi.ibufSize ≤ sSpi.spi.ibufStart := by decide +kernel

/-- The last receive slot holds a two-byte frame with the given status word's bytes; the allocation's draw is given. -/
def sTake (lo hi : Byte) (alloc : Bool) : State :=
  { sDmaWith fun d => { d with
      rxPending := true, rxCursor := 3
      mem := Memory.writeBytes (Memory.writeBytes [] 0x20000018 [0x02, 0x00, lo, hi]) 0x20002200 [0xAB, 0xCD] } with
    draws := ⟨[alloc], [], [], [], [], 0⟩ }

/-- What DmaInputTakesFrame asks for on such a state. -/
def Takes (s : State) (st : U16) : Prop :=
  s.Quiet ∧ s.cfg.wf = true ∧ s.DmaSession ∧ (0 : U16).toNat < s.cfg.rxLoopCap ∧ s.dma.rxPending = true ∧ s.dma.rxCursor < s.cfg.nRx
    ∧ Memory.half? s.dma.mem (descAddr s.cfg.rxRingBase s.dma.rxCursor + 2) = some st ∧ st.getLsbD 15 = false
    ∧ Memory.half? s.dma.mem (descAddr s.cfg.rxRingBase s.dma.rxCursor) = some 2 ∧ (2 : U16).toNat ≤ s.cfg.bufSize

theorem witness_DmaInputTakesFrame_error : Takes (sTake 0x01 0x28 true) 0x2801 ∧ (0x2801 : U16) &&& 0x0037 ≠ 0 := by
  unfold Takes; decide +kernel
theorem witness_DmaInputTakesFrame_no_memory : Takes (sTake 0x00 0x28 false) 0x2800 ∧ (0x2800 : U16) &&& 0x0037 = 0
    ∧ (sTake 0x00 0x28 false).draws.takeAlloc.1 = false := by unfold Takes; decide +kernel
theorem witness_DmaInputTakesFrame_frame : Takes (sTake 0x00 0x28 true) 0x2800 ∧ (0x2800 : U16) &&& 0x0037 = 0
    ∧ (sTake 0x00 0x28 true).draws.takeAlloc.1 = true
    ∧ Memory.readBytes (sTake 0x00 0x28 true).dma.mem (rxBufAddr (sTake 0x00 0x28 true).cfg 3) 2 = some [0xAB, 0xCD] := by
  unfold Takes; decide +kernel

theorem sends_each (b : List Byte) : Sends Config.ref (.output b) b ∧ Sends Config.ref (.outputFrame b) b
    ∧ Sends Config.ref (.pipeTxChain ([0x00, 0x00] ++ b)) b :=
  ⟨.inl rfl, .inr (.inl rfl), .inr (.inr (.inl ⟨[0x00, 0x00], rfl, rfl⟩))⟩
theorem sends_raw : Sends Config.ref (.pipeTxRaw g60) g60 := .inr (.inr (.inr ⟨rfl, by decide +kernel⟩))
theorem witness_DmaOutputGivesFrame_free : sDma.Quiet ∧ sDma.cfg.wf = true ∧ sDma.DmaSession ∧ MemoriesWf sDma
    ∧ Sends sDma.cfg (.output [0x00]) [0x00] ∧ 0 < ([0x00] : List Byte).length ∧ ([0x00] : List Byte).length ≤ sDma.cfg.maxLenTagged
    ∧ sDma.dma.txCursor < sDma.cfg.nTx
    ∧ Memory.half? sDma.dma.mem (descAddr sDma.cfg.txRingBase sDma.dma.txCursor + 2) = some 0 ∧ (0 : U16).getLsbD 15 = false :=
  ⟨by decide, by decide +kernel, by decide, memoriesWf_sDma, (sends_each _).1, by decide, by decide, by decide, by decide +kernel, by decide⟩
theorem witness_DmaOutputGivesFrame_busy :
    let s := sDmaMem 0x20000020 [0x3C, 0x00, 0x00, 0x8C]
    s.Quiet ∧ s.cfg.wf = true ∧ s.DmaSession ∧ MemoriesWf s ∧ Sends s.cfg (.pipeTxRaw g60) g60 ∧ 0 < g60.length
      ∧ g60.length ≤ s.cfg.maxLenTagged ∧ s.dma.txCursor < s.cfg.nTx
      ∧ Memory.half? s.dma.mem (descAddr s.cfg.txRingBase s.dma.txCursor + 2) = some 0x8C00 ∧ (0x8C00 : U16).getLsbD 15 = true :=
  ⟨by decide, by decide +kernel, by decide,
    memoriesWf_of (by decide +kernel) rfl rfl rfl List.Pairwise.nil List.Pairwise.nil List.Pairwise.nil,
    sends_raw, by decide, by decide, by decide, by decide +kernel, by decide⟩
theorem witness_FilterOperations : ({ sDma with cfg := { Config.ref with promiscuous := true } } : State).cfg.promiscuous = true
    ∧ (sSpi.cfg.promiscuous = false ∧ sSpi.SpiSession) ∧ (sDma.Quiet ∧ sDma.cfg.promiscuous = false ∧ sDma.DmaSession) := by decide

/-! ### The SPI data plane -/

/-- One record in the local buffer. -/
def sBuffered : State :=
  { sSpi with
    draws := ⟨[true], [true], [9], [], [], 0⟩
    spi := { sSpi.spi with ibuf := Memory.writeBytes [] 0 r16, ibufStart := 0, ibufSize := 16 } }

theorem validRecord_r16 : validRecord Config.refSpi.recMinLen r16 := ⟨by decide, by decide, by decide⟩
theorem witness_SpiInputPopsRecord : sBuffered.Quiet ∧ sBuffered.SpiSession ∧ sBuffered.spi.faultSock = false
    ∧ (7 : U16).toNat < sBuffered.cfg.rxLoopCap ∧ sBuffered.spi.ibufStart + r16.length ≤ sBuffered.spi.ibufSize
    ∧ validRecord sBuffered.cfg.recMinLen r16 ∧ Memory.readBytes sBuffered.spi.ibuf sBuffered.spi.ibufStart r16.length = some r16
    ∧ 2 ≤ sBuffered.cfg.rxLoopCap ∧ sBuffered.cfg.rxLoopCap ≤ 65535 ∧ sBuffered.cfg.spiIntWired = true
    ∧ sBuffered.spi.rxPending = false ∧ 0 < r16.length ∧ sBuffered.spi.ibufStart + r16.length = sBuffered.spi.ibufSize
    ∧ sBuffered.draws.takeAlloc.1 = true :=
  ⟨by decide, by decide, rfl, by decide, by decide, validRecord_r16, by decide +kernel, by decide, by decide, rfl, rfl, by decide,
    by decide, rfl⟩

/-- The chip announces the bytes `b`, none of them fetched. -/
def sAnnounced (b : List Byte) : State :=
  let s := sSpiWith fun c => { c with
    rxMem := Memory.writeBytes [] 0 b, sRxWr := BitVec.ofNat 16 b.length, sRxRsr := BitVec.ofNat 16 b.length, sIr := 0x04 }
  { s with spi := { s.spi with rxPending := true } }

/-- What SpiInputFetchesRecords and SpiInputRecoversFromCorruption ask for on such a state. -/
def Announces (s : State) (b : List Byte) : Prop :=
  s.Quiet ∧ s.cfg.wf = true ∧ s.SpiSession ∧ (0 : U16).toNat < s.cfg.rxLoopCap ∧ s.spi.ibufSize ≤ s.spi.ibufStart
    ∧ (s.cfg.spiIntWired = true → s.spi.rxPending = true) ∧ s.spi.chip.sRxRsr.toNat = b.length
    ∧ ringRead s.spi.chip.rxMem s.spi.chip.rxBytes s.spi.chip.sRxRd.toNat b.length = some b

theorem socketInv_sAnnounced (b : List Byte) : SocketInv (sAnnounced b) :=
  ⟨fun _ _ => rfl, fun _ => ⟨rfl, rfl, show (0x84 : Byte) = sMrValue Config.refSpi by decide, show (BitVec.ofNat 8 16).toNat = 16 by decide,
    show (BitVec.ofNat 8 16).toNat = 16 by decide, rfl, rfl, rfl, rfl⟩⟩
theorem ringInv_sAnnounced {b : List Byte} (h : b.length ≤ 16384) : (sAnnounced b).spi.chip.RingInv := by
  have hn : (BitVec.ofNat 16 b.length).toNat = b.length := by simp; omega
  refine ringInv_of (show legalRing 16384 from by unfold legalRing; decide) (show legalRing 16384 from by unfold legalRing; decide) ?_ ?_
    (show (BitVec.ofNat 16 16384).toNat + ptrDiff 0 0 = 16384 by decide) rfl rfl
  · show (BitVec.ofNat 16 b.length).toNat = (BitVec.ofNat 16 b.length - 0#16).toNat
    simp
  · show (BitVec.ofNat 16 b.length).toNat ≤ 16384
    omega

theorem witness_SpiInputFetchesRecords : Announces (sAnnounced (r16 ++ [0x00, 0x11])) ([r16].flatten ++ [0x00, 0x11])
    ∧ SocketInv (sAnnounced (r16 ++ [0x00, 0x11])) ∧ (sAnnounced (r16 ++ [0x00, 0x11])).spi.chip.RingInv
    ∧ (∀ r ∈ [r16], validRecord Config.refSpi.recMinLen r) ∧ partialRecord Config.refSpi.recMinLen [0x00, 0x11] :=
  ⟨by unfold Announces; decide +kernel, socketInv_sAnnounced _, ringInv_sAnnounced (by decide), by simpa using validRecord_r16,
    .inr (by decide)⟩
theorem witness_SpiInputFetchesRecords_none : Announces (sAnnounced [0x00]) (([] : List (List Byte)).flatten ++ [0x00])
    ∧ SocketInv (sAnnounced [0x00]) ∧ (sAnnounced [0x00]).spi.chip.RingInv ∧ partialRecord Config.refSpi.recMinLen [0x00] :=
  ⟨by unfold Announces; decide +kernel, socketInv_sAnnounced _, ringInv_sAnnounced (by decide), .inl (by decide)⟩
theorem witness_SpiInputRecoversFromCorruption : Announces (sAnnounced (r16 ++ [0x00, 0x0F])) ([r16].flatten ++ [0x00, 0x0F])
    ∧ SocketInv (sAnnounced (r16 ++ [0x00, 0x0F])) ∧ (sAnnounced (r16 ++ [0x00, 0x0F])).spi.chip.RingInv
    ∧ (∀ r ∈ [r16], validRecord Config.refSpi.recMinLen r) ∧ corruptRecord Config.refSpi.recMinLen [0x00, 0x0F] :=
  ⟨by unfold Announces; decide +kernel, socketInv_sAnnounced _, ringInv_sAnnounced (by decide), by simpa using validRecord_r16, by decide, by decide⟩
theorem witness_SpiInputRecoversFromCorruption_none :
    Announces (sAnnounced [0x00, 0x00]) (([] : List (List Byte)).flatten ++ [0x00, 0x00])
    ∧ SocketInv (sAnnounced [0x00, 0x00]) ∧ (sAnnounced [0x00, 0x00]).spi.chip.RingInv
    ∧ corruptRecord Config.refSpi.recMinLen [0x00, 0x00] :=
  ⟨by unfold Announces; decide +kernel, socketInv_sAnnounced _, ringInv_sAnnounced (by decide), by decide, by decide⟩
theorem witness_ScannerFindsWholeRecords : 2 ≤ 16 ∧ (∀ r ∈ [r16, r16], validRecord 16 r) ∧ partialRecord 16 [0x00, 0x10, 0xFF]
    ∧ corruptRecord 16 [0x00, 0x0F] :=
  ⟨by decide, fun r hr => by
    rcases List.mem_pair.mp hr with rfl | rfl <;> exact validRecord_r16, .inr (by decide), by decide, by decide⟩

theorem socketInv_sSpi : SocketInv sSpi := ⟨by decide +kernel, by decide +kernel⟩
theorem ringInv_sSpi : sSpi.spi.chip.RingInv :=
  ringInv_of (by unfold legalRing; decide) (by unfold legalRing; decide) (by decide) (by decide) (by decide) rfl (by decide)
theorem memoriesWf_sSpi : MemoriesWf sSpi :=
  memoriesWf_of List.Pairwise.nil rfl rfl rfl List.Pairwise.nil List.Pairwise.nil List.Pairwise.nil

/-- A transmit ring with `free` bytes left. -/
def sFull : State := sSpiWith fun c => { c with sTxWr := 0x4000, txWrCommitted := 0x4000, sTxFsr := 0, sendQueue := [0x4000] }

theorem witness_SpiOutputQueuesFrame_room : sSpi.Quiet ∧ sSpi.cfg.wf = true ∧ sSpi.SpiSession ∧ SocketInv sSpi ∧ sSpi.spi.chip.RingInv
    ∧ MemoriesWf sSpi ∧ Sends sSpi.cfg (.pipeTxChain ([0x00, 0x00] ++ g60)) g60 ∧ 0 < g60.length ∧ g60.length ≤ sSpi.cfg.maxLenTagged
    ∧ g60.length ≤ sSpi.spi.chip.sTxFsr.toNat :=
  ⟨by decide, by decide +kernel, by decide, socketInv_sSpi, ringInv_sSpi, memoriesWf_sSpi,
    .inr (.inr (.inl ⟨[0x00, 0x00], rfl, rfl⟩)), by decide, by decide, by decide⟩
theorem witness_SpiOutputQueuesFrame_full : sFull.Quiet ∧ sFull.cfg.wf = true ∧ sFull.SpiSession ∧ SocketInv sFull
    ∧ sFull.spi.chip.RingInv ∧ MemoriesWf sFull ∧ Sends sFull.cfg (.output [0x00]) [0x00] ∧ 0 < ([0x00] : List Byte).length
    ∧ ([0x00] : List Byte).length ≤ sFull.cfg.maxLenTagged ∧ sFull.spi.chip.sTxFsr.toNat < ([0x00] : List Byte).length := by
  refine ⟨by decide +kernel, by decide +kernel, by decide +kernel, ⟨by decide +kernel, by decide +kernel⟩, ?_,
    memoriesWf_of List.Pairwise.nil rfl rfl rfl List.Pairwise.nil List.Pairwise.nil List.Pairwise.nil, .inl rfl, by decide +kernel, by decide +kernel,
    by decide +kernel⟩
  exact ⟨by unfold legalRing; decide, by unfold legalRing; decide, by decide +kernel, by decide +kernel, by decide +kernel,
    List.pairwise_singleton _ _, fun q h => by rw [show q = sFull.spi.chip.txWrCommitted by simpa [sFull, sSpiWith, sSpi] using h],
    by intro q h; simp [sFull, sSpiWith, sSpi] at h ⊢; exact h.symm, by decide +kernel⟩

/-! ### The link monitor -/

theorem witness_DmaPollMakesOneTransition_idle : sDma.Quiet ∧ sDma.DmaSession ∧ sDma.dma.lmState = .idle := by decide
theorem witness_DmaPollMakesOneTransition_waiting :
    let s := sDmaWith fun d => { d with lmState := .waitLink, mdioBusy := true, regs := { d.regs with eir := 2 } }
    s.Quiet ∧ s.DmaSession ∧ s.dma.lmState = .waitLink := by decide
theorem witness_DmaPollMakesOneTransition_status :
    let s := sDmaWith fun d => { d with lmState := .waitStatus, mdioBusy := true, regs := { d.regs with eir := 2 } }
    s.Quiet ∧ s.DmaSession ∧ s.dma.lmState = .waitStatus := by decide
theorem witness_SpiPollReadsLink : sSpi.Quiet ∧ sSpi.SpiSession ∧ sSpi.cfg.chipPresent = true := by decide
theorem witness_ForceLinkUpReportsOnce : sDma.Quiet ∧ sDma.initState = .initialized := by decide

/-! ### The other agents -/

theorem witness_DmaWireRxFillsDescriptor_refused : sDma.Quiet ∧ sDma.cfg.backend = .dma ∧ ¬ 14 ≤ (List.replicate 13 (0x00 : Byte)).length := by decide
theorem witness_DmaWireRxFillsDescriptor_admitted : sDma.Quiet ∧ sDma.cfg.backend = .dma ∧ sDma.dma.regs.ecr.getLsbD 0 = true
    ∧ 14 ≤ f14.length ∧ broadcast (destination f14) = true ∧ sDma.dma.rxActive = true
    ∧ descAddr sDma.dma.regs.rdsr sDma.dma.hwRxIdx % 8 = 0 ∧ descAddr sDma.dma.regs.rdsr sDma.dma.hwRxIdx + 8 ≤ 2 ^ 32
    ∧ Memory.half? sDma.dma.mem (descAddr sDma.dma.regs.rdsr sDma.dma.hwRxIdx + 2) = some 0x8000 ∧ (0x8000 : U16).getLsbD 15 = true
    ∧ Memory.word? sDma.dma.mem (descAddr sDma.dma.regs.rdsr sDma.dma.hwRxIdx + 4) = some 0x20001000
    ∧ (0x20001000 : U32).toNat + sDma.cfg.bufSize ≤ 2 ^ 32 := by decide +kernel
theorem witness_DmaWireRxFillsDescriptor_overrun :
    let s := sDmaMem 0x20000002 [0x00, 0x00]
    s.Quiet ∧ s.dma.rxActive = true ∧ Memory.half? s.dma.mem (descAddr s.dma.regs.rdsr s.dma.hwRxIdx + 2) = some 0 := by decide +kernel
theorem witness_ChipWireRxAppendsRecord : sSpi.Quiet ∧ sSpi.cfg.backend = .spi ∧ sSpi.spi.chip.RingInv ∧ MemoriesWf sSpi
    ∧ sSpi.spi.chip.sSr = 0x42 ∧ 14 ≤ f14.length ∧ f14.length + 2 ≤ sSpi.spi.chip.rxBytes - sSpi.spi.chip.sRxRsr.toNat
    ∧ broadcast (destination f14) = true :=
  ⟨by decide, by decide, ringInv_sSpi, memoriesWf_sSpi, by decide, by decide, by decide, by decide⟩
theorem witness_ChipWireRxAppendsRecord_refused : sResetSpi.Quiet ∧ sResetSpi.cfg.backend = .spi ∧ sResetSpi.spi.chip.RingInv
    ∧ MemoriesWf sResetSpi ∧ sResetSpi.spi.chip.sSr ≠ 0x42 :=
  ⟨by decide, rfl,
    ringInv_of (by unfold legalRing; decide) (by unfold legalRing; decide) (by decide) (by decide) (by decide) rfl (by decide),
    memoriesWf_of List.Pairwise.nil rfl rfl rfl List.Pairwise.nil List.Pairwise.nil List.Pairwise.nil, by decide⟩

/-- A transmit descriptor with the given LEN and STATUS bytes before the engine, its buffer holding one byte. -/
def sReady (n lo hi : Byte) : State :=
  sDmaWith fun d => { d with
    txActive := true, mem := Memory.writeBytes (Memory.writeBytes [] 0x20000020 [n, 0x00, lo, hi, 0x00, 0x30, 0x00, 0x20]) 0x20003000 [0x5A] }

/-- What TransmitEnginesSend asks for before it looks at the status. -/
def Ready (s : State) (st n : U16) : Prop :=
  s.Quiet ∧ s.cfg.backend = .dma ∧ s.dma.regs.ecr.getLsbD 0 = true ∧ s.dma.txActive = true
    ∧ descAddr s.dma.regs.tdsr s.dma.hwTxIdx % 8 = 0 ∧ descAddr s.dma.regs.tdsr s.dma.hwTxIdx + 8 ≤ 2 ^ 32
    ∧ Memory.half? s.dma.mem (descAddr s.dma.regs.tdsr s.dma.hwTxIdx + 2) = some st
    ∧ Memory.half? s.dma.mem (descAddr s.dma.regs.tdsr s.dma.hwTxIdx) = some n

theorem witness_TransmitEnginesSend_idle : sDma.Quiet ∧ sDma.cfg.backend = .dma ∧ sDma.dma.txActive = false := by decide
theorem witness_TransmitEnginesSend_underrun : Ready (sReady 1 0x00 0x0C) 0x0C00 1 ∧ (0x0C00 : U16).getLsbD 15 = false := by
  unfold Ready; decide +kernel
theorem witness_TransmitEnginesSend_bad : Ready (sReady 0 0x00 0x8C) 0x8C00 0 ∧ (0x8C00 : U16).getLsbD 15 = true := by
  unfold Ready; decide +kernel
theorem witness_TransmitEnginesSend_frame : Ready (sReady 1 0x00 0x8C) 0x8C00 1 ∧ (0x8C00 : U16).getLsbD 15 = true
    ∧ (0x8C00 : U16).getLsbD 10 = true ∧ (0x8C00 : U16).getLsbD 11 = true ∧ (1 : U16).toNat ≤ (sReady 1 0x00 0x8C).cfg.bufSize
    ∧ Memory.word? (sReady 1 0x00 0x8C).dma.mem 0x20000024 = some 0x20003000
    ∧ Memory.readBytes (sReady 1 0x00 0x8C).dma.mem 0x20003000 1 = some [0x5A] := by unfold Ready; decide +kernel
theorem witness_TransmitEnginesSend_chip :
    let s := sSpiWith fun c => { c with txMem := [(0, 0x5A)], sTxWr := 1, txWrCommitted := 1, sTxFsr := 0x3FFF, sendQueue := [1] }
    s.Quiet ∧ s.cfg.backend = .spi ∧ s.spi.chip.sSr = 0x42 ∧ s.spi.chip.sendQueue = 1 :: []
      ∧ ringRead s.spi.chip.txMem s.spi.chip.txBytes s.spi.chip.sTxRd.toNat (1 - s.spi.chip.sTxRd).toNat = some [0x5A] := by decide +kernel
theorem witness_TransmitEnginesSend_chip_idle : sSpi.Quiet ∧ sSpi.cfg.backend = .spi ∧ sSpi.spi.chip.sendQueue = [] := by decide

/-- A management frame in flight. -/
def sInFlight (f : U32) : State := sDmaWith fun d => { d with mdioBusy := true, regs := { d.regs with eir := 0, mmfr := f } }

/-- What MdioDoneCompletesFrame asks for when the engine is enabled and the PHY answers. -/
def InFlight (s : State) (op : BitVec 2) (ra : BitVec 5) : Prop :=
  s.Quiet ∧ s.cfg.backend = .dma ∧ s.dma.clocksOn = true ∧ s.dma.mdioBusy = true ∧ s.dma.regs.eir.getLsbD 1 = false
    ∧ s.dma.regs.mmfr.extractLsb' 28 2 = op ∧ s.cfg.phyPresent = true ∧ s.dma.regs.mmfr.extractLsb' 23 5 = s.cfg.phyAddr
    ∧ s.dma.regs.mmfr.extractLsb' 18 5 = ra

theorem witness_MdioDoneCompletesFrame_disabled : sDma.Quiet ∧ sDma.cfg.backend = .dma ∧ sDma.dma.mdioBusy = false := by decide
theorem witness_MdioDoneCompletesFrame_reads : InFlight (sInFlight 0x60060000) 0b10 0x01 ∧ InFlight (sInFlight 0x600A0000) 0b10 0x02
    ∧ InFlight (sInFlight 0x600E0000) 0b10 0x03 ∧ InFlight (sInFlight 0x60420000) 0b10 0x10 ∧ InFlight (sInFlight 0x603A0000) 0b10 0x0E
    ∧ InFlight (sInFlight 0x60020000) 0b10 0x00 := by unfold InFlight; decide +kernel
/-- The same with the PHY's function field at data. -/
def sExtended (f : U32) : State :=
  { sInFlight f with dma := { (sInFlight f).dma with phy := { (sInFlight f).dma.phy with regcr := 0x401F, extAddr := 0x0462 } } }

theorem witness_MdioDoneCompletesFrame_write : InFlight (sInFlight 0x5036001F) 0b01 0x0D
    ∧ (InFlight (sInFlight 0x503A0462) 0b01 0x0E ∧ (sInFlight 0x503A0462).dma.phy.regcr.extractLsb' 14 2 ≠ 1#2)
    ∧ (InFlight (sExtended 0x503A0462) 0b01 0x0E ∧ (sExtended 0x503A0462).dma.phy.regcr.extractLsb' 14 2 = 1#2)
    ∧ InFlight (sInFlight 0x50060000) 0b01 0x01 ∧ InFlight (sInFlight 0x50420000) 0b01 0x10 ∧ InFlight (sInFlight 0x50620280) 0b01 0x18 := by
  unfold InFlight; decide +kernel
theorem witness_MdioDoneCompletesFrame_absent :
    let s := { sInFlight 0x600A0000 with cfg := { Config.ref with phyPresent := false } }
    s.Quiet ∧ s.cfg.backend = .dma ∧ s.dma.clocksOn = true ∧ s.dma.mdioBusy = true ∧ s.dma.regs.eir.getLsbD 1 = false
      ∧ s.dma.regs.mmfr.extractLsb' 28 2 = 0b10#2 ∧ s.cfg.phyPresent = false := by decide +kernel
theorem witness_InterruptLinkResetAndFaultEvents_dma :
    let s := sDmaWith fun d => { d with regs := { d.regs with eir := 1 } }
    s.Quiet ∧ s.cfg.backend = .dma ∧ s.dma.regs.eir &&& s.dma.regs.eimr ≠ 0 := by decide
theorem witness_InterruptLinkResetAndFaultEvents_spi :
    let s := { sSpiWith (fun c => { c with mr := 0x80 }) with spi := { (sSpiWith fun c => { c with mr := 0x80 }).spi with intLatched := true } }
    s.Quiet ∧ s.cfg.backend = .spi ∧ s.cfg.spiIntWired = true ∧ s.spi.intLatched = true ∧ s.spi.csActive = false
      ∧ s.cfg.chipPresent = true ∧ s.spi.chip.mr.getLsbD 7 = true ∧ s.spi.chip.sSr = 0x42 := by decide
theorem witness_DisabledEventsDoNothing : (sDma.Quiet ∧ sDma.cfg.backend = .dma ∧ sDma.dma.regs.eir &&& sDma.dma.regs.eimr = 0)
    ∧ sResetSpi.Quiet ∧ sResetSpi.cfg.backend = .spi ∧ sResetSpi.spi.intLatched = false ∧ sResetSpi.spi.chip.mr.getLsbD 7 = false
    ∧ sResetSpi.spi.chip.sSr ≠ 0x42 := by decide

/-! ### Headlines -/

theorem witness_PipeInputIsItsCommands : sDma.cfg.rxLoopCap ≤ 65535 := by decide
theorem witness_CacheKeepsBytes : (sDmaMem 0x20003000 [0x5A]).dma.mem.wf ∧ cacheWf (sDmaMem 0x20003000 [0x5A]).dma.cache
    ∧ 1 ≤ 64 ∧ Memory.readBytes (sDmaMem 0x20003000 [0x5A]).dma.mem 0x20003000 1 = some [0x5A] :=
  ⟨by decide +kernel, cacheWf_nil, by decide, by decide +kernel⟩
theorem witness_DmaFramesPassUnchanged_receive :
    let s : State := { sDma with draws := ⟨[true], [], [], [], [], 0⟩ }
    s.Quiet ∧ s.cfg.wf = true ∧ s.DmaSession ∧ MacInv s ∧ MemoriesWf s ∧ s.dma.rxActive = true ∧ s.dma.regs.rdsr = s.cfg.rxRingBase
      ∧ s.dma.hwRxIdx = s.dma.rxCursor ∧ s.dma.rxCursor < s.cfg.nRx
      ∧ DescAt s.dma.mem (descAddr s.cfg.rxRingBase s.dma.rxCursor) 0 0x8000 (BitVec.ofNat 32 (rxBufAddr s.cfg s.dma.rxCursor))
      ∧ (0x8000 : U16).getLsbD 15 = true ∧ 14 ≤ g60.length ∧ g60.length ≤ s.cfg.bufSize
      ∧ g60.length + 4 ≤ (s.dma.regs.rcr.extractLsb' 16 14).toNat ∧ (0x08 : Byte) &&& 0x37 = 0
      ∧ destination g60 = stationAddress s.dma.regs ∧ s.draws.takeAlloc.1 = true :=
  ⟨by decide, by decide +kernel, by decide, ⟨by decide +kernel, by decide +kernel⟩, memoriesWf_of (s := { sDma with draws := ⟨[true], [], [], [], [], 0⟩ }) memoriesWf_sDma.dma rfl rfl rfl
      List.Pairwise.nil List.Pairwise.nil List.Pairwise.nil, rfl, by decide, rfl, by decide,
    ⟨by decide +kernel, by decide +kernel, by decide +kernel⟩, by decide, by decide, by decide, by decide, by decide, by decide, rfl⟩
theorem witness_DmaFramesPassUnchanged_transmit : sDma.Quiet ∧ sDma.cfg.wf = true ∧ sDma.DmaSession ∧ MacInv sDma ∧ MemoriesWf sDma
    ∧ sDma.dma.regs.tdsr = sDma.cfg.txRingBase ∧ sDma.dma.hwTxIdx = sDma.dma.txCursor ∧ sDma.dma.txCursor < sDma.cfg.nTx
    ∧ DescAt sDma.dma.mem (descAddr sDma.cfg.txRingBase sDma.dma.txCursor) 0 0 (BitVec.ofNat 32 (txBufAddr sDma.cfg sDma.dma.txCursor))
    ∧ (0 : U16).getLsbD 15 = false ∧ 0 < g60.length ∧ g60.length ≤ sDma.cfg.maxLenTagged :=
  ⟨by decide, by decide +kernel, by decide, ⟨by decide +kernel, by decide +kernel⟩, memoriesWf_sDma, by decide, rfl, by decide,
    ⟨by decide +kernel, by decide +kernel, by decide +kernel⟩, by decide, by decide, by decide⟩
theorem witness_SpiFramesPassUnchanged :
    let s : State := { sSpi with draws := ⟨[true], [], [], [], [], 0⟩ }
    s.Quiet ∧ s.cfg.wf = true ∧ s.SpiSession ∧ SocketInv s ∧ s.spi.chip.RingInv ∧ MemoriesWf s ∧ s.cfg.spiIntWired = true
      ∧ s.spi.chip.simr.getLsbD 0 = true ∧ s.spi.chip.sImr.getLsbD 2 = true ∧ s.spi.csActive = false ∧ s.spi.chip.sRxRsr = 0
      ∧ s.spi.ibufSize ≤ s.spi.ibufStart ∧ 14 ≤ f14.length ∧ s.cfg.recMinLen ≤ f14.length + 2 ∧ f14.length + 2 ≤ s.spi.chip.rxBytes
      ∧ broadcast (destination f14) = true ∧ s.draws.takeAlloc.1 = true ∧ s.spi.chip.sendQueue = [] ∧ 0 < f14.length
      ∧ f14.length ≤ s.cfg.maxLenTagged :=
  ⟨by decide, by decide +kernel, by decide, ⟨by decide +kernel, by decide +kernel⟩, ringInv_sSpi,
    memoriesWf_of List.Pairwise.nil rfl rfl rfl List.Pairwise.nil List.Pairwise.nil List.Pairwise.nil, rfl, by decide,
    by decide, rfl, by decide, by decide, by decide, by decide, by decide, by decide, rfl, rfl, by decide, by decide⟩

end Sys2Proof.Machine
end

section
/-! SUPPORT. Decoder and encoder, format by format (R110, R129): what a format's decoder reads from the bytes its encoder writes, that
every well-formed instruction is read back, and that the decoder keeps the two opcode spaces apart. -/

namespace Sys2Proof.Machine

/-! ## Bytes the encoder wrote -/

theorem linkFlagBits_reserved (d n x : Bool) : linkFlagBits d n x &&& 0xF8 = 0 := by
  revert d n x
  decide

theorem linkFlagBits_bits (d n x : Bool) :
    (linkFlagBits d n x).getLsbD 0 = d ∧ (linkFlagBits d n x).getLsbD 1 = n ∧ (linkFlagBits d n x).getLsbD 2 = x := by
  revert d n x
  decide

/-- A length that fits its operand is read back (R110). -/
theorem join16_length {bytes : List Byte} (h : lengthFits bytes = true) :
    (join16 (hi8 (BitVec.ofNat 16 bytes.length)) (lo8 (BitVec.ofNat 16 bytes.length))).toNat = bytes.length := by
  have hn : bytes.length ≤ 65535 := of_decide_eq_true h
  rw [join_hi_lo, BitVec.toNat_ofNat, Nat.mod_eq_of_lt (by omega)]

theorem decodeFMA_encoded (op : Byte) (mk : MacAddr → Bool → Instr) (m : MacAddr) (a : Bool) :
    decodeFMA op mk (macBytes m ++ [allowByte a]) = .ok (mk m a) := by
  cases a <;> rfl

theorem decodeFC_encoded (op : Byte) (mk : U16 → Instr) (c : U16) : decodeFC op mk (putBe16 c) = .ok (mk c) := by
  simp [decodeFC, putBe16, join_hi_lo]

theorem decodeFB_encoded (op : Byte) (mk : List Byte → Instr) {bytes : List Byte} (h : lengthFits bytes = true) :
    decodeFB op mk (lengthPrefixed bytes) = .ok (mk bytes) := by
  simp [decodeFB, lengthPrefixed, putBe16, join16_length h]

theorem decodeFL_encoded (op : Byte) (sp : U16) (d n x : Bool) :
    decodeFL op (putBe16 sp ++ [linkFlagBits d n x]) = .ok (.setLinkSettings sp d n x) := by
  obtain ⟨hd, hn, hx⟩ := linkFlagBits_bits d n x
  refine (if_pos (linkFlagBits_reserved d n x)).trans ?_
  rw [join_hi_lo, hd, hn, hx]

theorem decodeWireRx_encoded (op : Byte) {bytes : List Byte} (h : lengthFits bytes = true) (e : Byte) :
    decodeWireRx op (lengthPrefixed bytes ++ [e]) = .ok (.wireRx bytes e) := by
  simp [decodeWireRx, lengthPrefixed, putBe16, join16_length h]

theorem decodeRingFault_encoded (op : Byte) (a : U16) (v : Byte) : decodeRingFault op (putBe16 a ++ [v]) = .ok (.ringFault a v) := by
  simp [decodeRingFault, putBe16, join_hi_lo]

/-- The decoder reads back every well-formed instruction (R110, R111, R129). -/
theorem decode_encode (i : Instr) (h : i.wellFormed = true) : decode (encode i) = .ok i := by
  cases i with
  | isUnknown => rfl
  | hasHardware => rfl
  | getSystemMac => rfl
  | getMac => rfl
  | setMac m => rfl
  | init m => rfl
  | deinit => rfl
  | getCapabilities => rfl
  | procInput c => exact decodeFC_encoded 0x09 .procInput c
  | poll => rfl
  | output bytes => exact decodeFB_encoded 0x0B .output h
  | outputFrame bytes => exact decodeFB_encoded 0x0C .outputFrame h
  | setIncomingMacAllowed m a => exact decodeFMA_encoded 0x0D .setIncomingMacAllowed m a
  | forceLinkUp => rfl
  | setLinkSettings sp d n x => exact decodeFL_encoded 0x0F sp d n x
  | getLinkInfo => rfl
  | getStats => rfl
  | pipeInit m => rfl
  | pipeProcInput => rfl
  | pipePollLink => rfl
  | pipeTxChain bytes => exact decodeFB_encoded 0x23 .pipeTxChain h
  | pipeTxRaw bytes => exact decodeFB_encoded 0x24 .pipeTxRaw h
  | pipeAllowMac m a => exact decodeFMA_encoded 0x25 .pipeAllowMac m a
  | wireRx bytes e => exact decodeWireRx_encoded 0x80 h e
  | dmaTx => rfl
  | isr => rfl
  | mdioDone => rfl
  | link f => rfl
  | chipSendDone => rfl
  | chipResetDone => rfl
  | ringFault a v => exact decodeRingFault_encoded 0x87 a v

/-! ## What a format's decoder can answer -/

section Answers

variable {P : Instr → Prop} {op : Byte} {rest : List Byte} {i j : Instr}

theorem decodeF0_answers (h : decodeF0 op i rest = .ok j) (hP : P i) : P j := by
  unfold decodeF0 at h
  split at h <;> cases h
  exact hP

theorem decodeFM_answers {mk : MacAddr → Instr} (h : decodeFM op mk rest = .ok j) (hP : ∀ m, P (mk m)) : P j := by
  unfold decodeFM at h
  split at h <;> cases h
  exact hP _

theorem decodeFMA_answers {mk : MacAddr → Bool → Instr} (h : decodeFMA op mk rest = .ok j) (hP : ∀ m a, P (mk m a)) :
    P j := by
  unfold decodeFMA at h
  split at h
  · split at h
    · cases h; exact hP _ _
    · split at h <;> cases h
      exact hP _ _
  · cases h

theorem decodeFC_answers {mk : U16 → Instr} (h : decodeFC op mk rest = .ok j) (hP : ∀ c, P (mk c)) : P j := by
  unfold decodeFC at h
  split at h <;> cases h
  exact hP _

theorem decodeFB_answers {mk : List Byte → Instr} (h : decodeFB op mk rest = .ok j) (hP : ∀ d, P (mk d)) : P j := by
  unfold decodeFB at h
  split at h
  · split at h <;> cases h
    exact hP _
  · cases h

theorem decodeFL_answers (h : decodeFL op rest = .ok j) (hP : ∀ sp d n x, P (.setLinkSettings sp d n x)) : P j := by
  unfold decodeFL at h
  split at h
  · split at h <;> cases h
    exact hP _ _ _ _
  · cases h

theorem decodeWireRx_answers (h : decodeWireRx op rest = .ok j) (hP : ∀ d e, P (.wireRx d e)) : P j := by
  unfold decodeWireRx at h
  split at h
  · split at h <;> cases h
    exact hP _ _
  · cases h

theorem decodeLink_answers (h : decodeLink op rest = .ok j) (hP : ∀ f, P (.link f)) : P j := by
  unfold decodeLink at h
  split at h <;> cases h
  exact hP _

theorem decodeRingFault_answers (h : decodeRingFault op rest = .ok j) (hP : ∀ a v, P (.ringFault a v)) : P j := by
  unfold decodeRingFault at h
  split at h <;> cases h
  exact hP _ _

end Answers

/-- The instruction is of the opcode space that bit 7 of the byte names (R129, R130). -/
def InSpace (op : Byte) (i : Instr) : Prop := i.isEvent = op.getLsbD 7

/-- What is decoded is an event exactly when bit 7 of the first byte is set (R129, R130). -/
theorem decode_opcodeSpace {bs : List Byte} {i : Instr} (h : decode bs = .ok i) : i.isEvent = (bs.headD 0).getLsbD 7 := by
  cases bs with
  | nil => cases h
  | cons op rest =>
    have hbit : ∀ {n : Nat}, op.toNat = n → n.testBit 7 = op.getLsbD 7 := fun hn => hn ▸ rfl
    show InSpace op i
    simp only [decode] at h
    split at h
    next hop => exact decodeF0_answers h (hbit hop)
    next hop => exact decodeF0_answers h (hbit hop)
    next hop => exact decodeF0_answers h (hbit hop)
    next hop => exact decodeF0_answers h (hbit hop)
    next hop => exact decodeFM_answers h (fun _ => hbit hop)
    next hop => exact decodeFM_answers h (fun _ => hbit hop)
    next hop => exact decodeF0_answers h (hbit hop)
    next hop => exact decodeF0_answers h (hbit hop)
    next hop => exact decodeFC_answers h (fun _ => hbit hop)
    next hop => exact decodeF0_answers h (hbit hop)
    next hop => exact decodeFB_answers h (fun _ => hbit hop)
    next hop => exact decodeFB_answers h (fun _ => hbit hop)
    next hop => exact decodeFMA_answers h (fun _ _ => hbit hop)
    next hop => exact decodeF0_answers h (hbit hop)
    next hop => exact decodeFL_answers h (fun _ _ _ _ => hbit hop)
    next hop => exact decodeF0_answers h (hbit hop)
    next hop => exact decodeF0_answers h (hbit hop)
    next hop => exact decodeFM_answers h (fun _ => hbit hop)
    next hop => exact decodeF0_answers h (hbit hop)
    next hop => exact decodeF0_answers h (hbit hop)
    next hop => exact decodeFB_answers h (fun _ => hbit hop)
    next hop => exact decodeFB_answers h (fun _ => hbit hop)
    next hop => exact decodeFMA_answers h (fun _ _ => hbit hop)
    next hop => exact decodeWireRx_answers h (fun _ _ => hbit hop)
    next hop => exact decodeF0_answers h (hbit hop)
    next hop => exact decodeF0_answers h (hbit hop)
    next hop => exact decodeF0_answers h (hbit hop)
    next hop => exact decodeLink_answers h (fun _ => hbit hop)
    next hop => exact decodeF0_answers h (hbit hop)
    next hop => exact decodeF0_answers h (hbit hop)
    next hop => exact decodeRingFault_answers h (fun _ _ => hbit hop)
    next => cases h

end Sys2Proof.Machine
end

section
/-! SUPPORT. A step whose next item encodes an instruction (R3, R110, R129). -/

namespace Sys2Proof.Machine

/-- An item's bytes are an instruction in its own opcode space: it is what the item stands for (R129, R130). -/
theorem decodeCommand_of_decode {bs : List Byte} {i : Instr} (h : decode bs = .ok i) (he : i.isEvent = false) :
    decodeCommand bs = .ok i := by
  simp [decodeCommand, h, he]

theorem decodeEvent_of_decode {bs : List Byte} {i : Instr} (h : decode bs = .ok i) (he : i.isEvent = true) :
    decodeEvent bs = .ok i := by
  simp [decodeEvent, h, he]

/-- A command that decodes is run with its bytes in CMD_BUF (R20, R110). -/
theorem step_command {s : State} {bs : List Byte} {items : List Item} {i : Instr} (hin : s.input = .command bs :: items)
    (hd : decode bs = .ok i) (he : i.isEvent = false) : step s = exec i { s with input := items, cmdBuf := bs } := by
  simp [step, fetch, hin, Item.decode, decodeCommand_of_decode hd he]

/-- An event that decodes is run, CMD_BUF staying as it is (R129). -/
theorem step_event {s : State} {bs : List Byte} {items : List Item} {i : Instr} (hin : s.input = .event bs :: items)
    (hd : decode bs = .ok i) (he : i.isEvent = true) : step s = exec i { s with input := items } := by
  simp [step, fetch, hin, Item.decode, decodeEvent_of_decode hd he]

/-- Placed bytes that decode are the item of their instruction's own opcode space (R129). -/
theorem itemOf_of_decode {bs : List Byte} {i : Instr} (h : decode bs = .ok i) :
    itemOf bs = if i.isEvent then .event bs else .command bs := by
  rw [decode_opcodeSpace h, itemOf]

theorem step_placeItem {s : State} {bs : List Byte} {i : Instr} (h : decode bs = .ok i) :
    step (placeItem bs s) = exec i (if i.isEvent then s else { s with cmdBuf := bs }) := by
  have hin : (placeItem bs s).input = (if i.isEvent then .event bs else .command bs) :: s.input := by
    rw [← itemOf_of_decode h, placeItem]
  cases he : i.isEvent with
  | true => exact step_event (by simpa [he] using hin) h he
  | false => exact step_command (by simpa [he] using hin) h he

theorem decode_of_decodeTableWord {nbits w : Nat} {i : Instr} (h : decodeTableWord nbits w = some i) :
    decode (tableBytes nbits w) = .ok i := by
  unfold decodeTableWord at h
  split at h
  · rename_i j hj
    rw [hj, Option.some.inj h]
  · cases h

/-- Settles O5: the decoder reads back what the encoder wrote, and keeps commands and events apart by bit 7 of the first byte. -/
theorem stepRunsDecoded : Obligations.StepRunsDecoded := by
  refine ⟨fun s i items hwf he hin => ?_, fun s i items hwf he hin => ?_, fun s nbits w i h => ?_⟩
  · exact step_command hin (decode_encode i hwf) he
  · exact step_event hin (decode_encode i hwf) he
  · exact step_placeItem (decode_of_decodeTableWord h)

end Sys2Proof.Machine
end

section
/-! SUPPORT. The backend that is not built (R1): a change touches the other backend's state only if it is of that backend's kind. -/

namespace Sys2Proof.Machine

theorem Atom.spi {k : Kind} {s t : State} (h : Atom k s t) (hk : k.backend ≠ some .spi) : t.spi = s.spi := by
  cases h <;> simp [Kind.backend] at hk ⊢

theorem Atom.dma {k : Kind} {s t : State} (h : Atom k s t) (hk : k.backend ≠ some .dma) : t.dma = s.dma := by
  cases h <;> simp [Kind.backend] at hk ⊢

/-- The parameters, and the state of the backend that is not built, are as they were (R1). -/
structure KeepsBuild (s t : State) : Prop where
  cfg : t.cfg = s.cfg
  spi : s.cfg.backend = .dma → t.spi = s.spi
  dma : s.cfg.backend = .spi → t.dma = s.dma

theorem KeepsBuild.chains : Chains KeepsBuild where
  refl _ := ⟨rfl, fun _ => rfl, fun _ => rfl⟩
  trans _ _ _ h k :=
    ⟨k.cfg.trans h.cfg, fun hb => (k.spi (h.cfg ▸ hb)).trans (h.spi hb), fun hb => (k.dma (h.cfg ▸ hb)).trans (h.dma hb)⟩

/-- A change of a kind the build has. -/
theorem Atom.keepsBuild {k : Kind} {s t : State} (hb : ∀ b, k.backend = some b → s.cfg.backend = b) (h : Atom k s t) :
    KeepsBuild s t where
  cfg := h.cfg
  spi hd := h.spi fun hk => by simp [hb _ hk] at hd
  dma hs := h.dma fun hk => by simp [hb _ hk] at hs

/-- Settles O17: every change a step is made of is of a kind its build has, and taking an item or answering touches neither
the parameters nor a backend. -/
theorem oneBackend : Obligations.OneBackend := by
  intro s t h
  have hk : KeepsBuild s t :=
    step_lift_atoms KeepsBuild.chains (fun _ _ _ => ⟨rfl, fun _ => rfl, fun _ => rfl⟩)
      (fun _ _ => ⟨rfl, fun _ => rfl, fun _ => rfl⟩) (fun _ _ _ hb ha => ha.keepsBuild hb) h
  exact ⟨hk.cfg, hk.spi, hk.dma⟩

end Sys2Proof.Machine
end

section
/-! SUPPORT. Events (R129): each is one agent step, which leaves the host's part of the state as it is and, under the quiet schedule,
is the whole of the step. -/

namespace Sys2Proof.Machine

theorem exec_of_isEvent {i : Instr} (hi : i.isEvent = true) : ∃ a, exec i = runEvent a := by
  cases i with
  | wireRx bytes err => exact ⟨.wireRx bytes err, rfl⟩
  | dmaTx => exact ⟨.dmaTx, rfl⟩
  | isr => exact ⟨.isr, rfl⟩
  | mdioDone => exact ⟨.mdioDone, rfl⟩
  | link f => exact ⟨.link f, rfl⟩
  | chipSendDone => exact ⟨.chipSendDone, rfl⟩
  | chipResetDone => exact ⟨.chipResetDone, rfl⟩
  | ringFault a v => exact ⟨.ringFault a v, rfl⟩
  | _ => cases hi

/-- The state with everything another agent can change blanked out: the environment's schedule and draws, the wire, the engines, the
interrupt flags, the PHY, the memory the engines write, EIR and MMFR, and the chip (R2). -/
def State.hostPart (s : State) : State :=
  { s with
    draws := ⟨[], [], [], [], [], 0⟩
    script := []
    wireTxLog := []
    dma := { s.dma with
      rxPending := false, hwRxIdx := 0, hwTxIdx := 0, rxActive := false, txActive := false, phy := Phy.reset, mem := []
      regs := { s.dma.regs with eir := 0, mmfr := 0 } }
    spi := { s.spi with rxPending := false, txDone := false, intLatched := false, chip := Chip.reset } }

/-- No change an agent makes shows in the host's part (R2). -/
theorem Atom.hostPart {k : Kind} {s t : State} (hk : k ∈ agentKinds) (h : Atom k s t) : t.hostPart = s.hostPart := by
  simp only [agentKinds, List.mem_cons, List.not_mem_nil, or_false] at hk
  rcases hk with rfl | rfl | rfl | rfl | rfl | rfl | rfl | rfl | rfl | rfl | rfl | rfl | rfl | rfl | rfl | rfl | rfl <;>
    cases h <;> rfl

theorem Chain.hostPart {s t : State} (h : Chain agentKinds s t) : t.hostPart = s.hostPart :=
  Chain.lift (R := fun s t => t.hostPart = s.hostPart) (Chains.same State.hostPart)
    (fun _ _ _ hk _ ha => Atom.hostPart hk ha) h

/-- Of the MAC window the host's part shows every register but EIR, MMFR and the two doorbells (R32, R35, R36). -/
theorem hostPart_macRead (s : State) {r : MacReg} (h1 : r ≠ .eir) (h2 : r ≠ .mmfr) (h3 : r ≠ .rdar) (h4 : r ≠ .tdar) :
    s.hostPart.dma.macRead r = s.dma.macRead r := by
  cases r with
  | eir => exact absurd rfl h1
  | mmfr => exact absurd rfl h2
  | rdar => exact absurd rfl h3
  | tdar => exact absurd rfl h4
  | _ => rfl

/-- Settles O21: an event is a chain of agents' changes, and none of them shows in the host's part of the state. -/
theorem eventsLeaveHostVariables : Obligations.EventsLeaveHostVariables := by
  intro i s t hi h
  obtain ⟨a, ha⟩ := exec_of_isEvent hi
  have hp : t.hostPart = s.hostPart := (event_chain (a := a) (ha ▸ h)).hostPart
  have hr : ∀ r : MacReg, r ≠ .eir → r ≠ .mmfr → r ≠ .rdar → r ≠ .tdar → t.dma.macRead r = s.dma.macRead r := by
    intro r h1 h2 h3 h4
    rw [← hostPart_macRead t h1 h2 h3 h4, hp, hostPart_macRead s h1 h2 h3 h4]
  simp only [State.hostPart, State.mk.injEq, DmaState.mk.injEq, SpiState.mk.injEq, true_and] at hp
  simpa [hp] using hr

/-! ## Events that are not enabled -/

/-- Under the quiet schedule an agent step that does nothing is an event that does nothing. -/
theorem runEvent_noop {a : AgentStep} {s : State} (hq : s.Quiet) (h : agentStep a s = .ok ((), s)) :
    runEvent a s = .next s :=
  runSilent_ok (micro_ok h hq.calm)

theorem dmaIsr_disabled {s : State} (h : s.dma.regs.eir &&& s.dma.regs.eimr = 0) : dmaIsr s = .ok ((), s) := by
  unfold dmaIsr
  rw [get_bind_apply, branch_apply, if_neg (by simp [dmaLine, h])]
  rfl

theorem spiIsr_disabled {s : State} (h : s.cfg.spiIntWired = false ∨ s.spi.intLatched = false ∨ s.spi.csActive = true) :
    spiIsr s = .ok ((), s) := by
  unfold spiIsr
  rw [get_bind_apply, branch_apply, if_neg (by rcases h with h | h | h <;> simp [h])]
  rfl

theorem chipResetDone_disabled {s : State} (h : s.cfg.chipPresent = false ∨ s.spi.chip.mr.getLsbD 7 = false) :
    chipResetDone s = .ok ((), s) := by
  unfold chipResetDone
  rw [get_bind_apply, branch_apply, if_neg (by rcases h with h | h <;> rw [h] <;> simp)]
  rfl

theorem ringFault_closed {s : State} (h : s.spi.chip.sSr ≠ srMacraw) (a : U16) (v : Byte) : ringFault a v s = .ok ((), s) := by
  unfold ringFault
  rw [get_bind_apply, branch_apply, if_neg h]
  rfl

/-- Settles O56: the side of the build that is not there is empty, and the side that is there does nothing while its enabling
condition fails. -/
theorem disabledEventsDoNothing : Obligations.DisabledEventsDoNothing := by
  refine ⟨fun s i hq hb h => ?_, fun s i hq hb h => ?_⟩
  · rcases h with rfl | rfl | ⟨a, v, rfl⟩ | ⟨rfl, hl⟩
    · exact runEvent_noop (a := .chipSendDone) hq (byBackend_dma hb)
    · exact runEvent_noop (a := .chipResetDone) hq (byBackend_dma hb)
    · exact runEvent_noop (a := .ringFault a v) hq (byBackend_dma hb)
    · exact runEvent_noop (a := .isr) hq ((byBackend_dma hb).trans (dmaIsr_disabled hl))
  · rcases h with rfl | rfl | ⟨rfl, hl⟩ | ⟨rfl, hl⟩ | ⟨⟨a, v, rfl⟩, hl⟩
    · exact runEvent_noop (a := .dmaTx) hq (byBackend_spi hb)
    · exact runEvent_noop (a := .mdioDone) hq (byBackend_spi hb)
    · exact runEvent_noop (a := .isr) hq ((byBackend_spi hb).trans (spiIsr_disabled hl))
    · exact runEvent_noop (a := .chipResetDone) hq ((byBackend_spi hb).trans (chipResetDone_disabled hl))
    · exact runEvent_noop (a := .ringFault a v) hq ((byBackend_spi hb).trans (ringFault_closed hl a v))

end Sys2Proof.Machine
end

section
/-! SUPPORT. Properties that every single change keeps, and so every step (R27, R68, R275 (d)). -/

namespace Sys2Proof.Machine

/-- The property does not look at what is handed in, at CMD_BUF or at RES_BUF (R20). -/
structure PortFree (I : State → Prop) : Prop where
  taken : ∀ s rest bs, I s → I { s with input := rest, cmdBuf := bs }
  answered : ∀ s r, I s → I (State.respond s r)

section

variable {I : State → Prop} (hp : PortFree I) {s t : State}

include hp

/-- A command keeps what its operation keeps. -/
theorem PortFree.command {m : M Result} (hm : Steps (fun s t => I s → I t) m) (h : runCommand m s = .next t) (hs : I s) : I t :=
  Steps.runCommand hm (Chains.keeps I) hp.answered h hs

/-- An instruction keeps what every change of its kinds keeps. -/
theorem PortFree.exec_of_kinds {i : Instr} (ha : ∀ k ∈ instrKinds i, ∀ s t, Atom k s t → I s → I t) (h : exec i s = .next t)
    (hs : I s) : I t := by
  obtain ⟨u, hc, ht⟩ := exec_chain h
  have hu : I u := Chain.lift (Chains.keeps I) (fun k s t hk _ => ha k hk s t) hc hs
  rcases ht with rfl | ⟨r, rfl⟩
  · exact hu
  · exact hp.answered u r hu

/-- An invariant that the agents and every instruction keep is kept by every step. -/
theorem PortFree.step (ha : ∀ k ∈ agentKinds, ∀ s t, Atom k s t → I s → I t) (he : ∀ i s t, exec i s = .next t → I s → I t)
    (h : step s = .next t) (hs : I s) : I t :=
  step_lift (Chains.keeps I) hp.taken hp.answered
    (fun _ _ hc => Chain.lift (Chains.keeps I) (fun k s t hk _ => ha k hk s t) hc) he h hs

/-- An invariant that every change keeps is kept by every step. -/
theorem PortFree.step_of_atoms (ha : ∀ k s t, Atom k s t → I s → I t) (h : Machine.step s = .next t) (hs : I s) : I t :=
  hp.step (fun k _ => ha k) (fun _ _ _ => hp.exec_of_kinds fun k _ => ha k) h hs

end

theorem memoriesWf_portFree : PortFree MemoriesWf := ⟨fun _ _ _ h => { h with }, fun _ _ h => { h with }⟩

/-- Settles O12: every change keeps the canonical forms, and the port holds no memory. -/
theorem memoriesStayCanonical : Obligations.MemoriesStayCanonical := fun _ _ hs h =>
  memoriesWf_portFree.step_of_atoms (fun _ _ _ => Atom.memories) h hs

theorem ringInv_portFree : PortFree fun s => s.spi.chip.RingInv := ⟨fun _ _ _ h => h, fun _ _ h => h⟩

/-- Settles O13: every change keeps the chip's ring invariants, and the port is no part of the chip. -/
theorem chipRingsConsistent : Obligations.ChipRingsConsistent := fun _ _ hs h =>
  ringInv_portFree.step_of_atoms (fun _ _ _ => Atom.rings) h hs

/-! ## The output histories (R27) -/

/-- Each history of `s` is an initial part of `t`'s. -/
structure HistoriesGrow (s t : State) : Prop where
  notify : Grows s.notifyLog t.notifyLog
  wire : Grows s.wireTxLog t.wireTxLog
  stack : Grows s.stackRxLog t.stackRxLog

theorem HistoriesGrow.of_eq {s t : State} (hn : t.notifyLog = s.notifyLog) (hw : t.wireTxLog = s.wireTxLog)
    (hs : t.stackRxLog = s.stackRxLog) : HistoriesGrow s t := by
  constructor <;> simp [Grows, *]

theorem HistoriesGrow.chains : Chains HistoriesGrow where
  refl _ := .of_eq rfl rfl rfl
  trans _ _ _ h k := ⟨h.notify.trans k.notify, h.wire.trans k.wire, h.stack.trans k.stack⟩

/-- A change that touches a history appends to it. -/
theorem Atom.histories {k : Kind} {s t : State} (h : Atom k s t) : HistoriesGrow s t := by
  have same : HistoriesGrow s s := HistoriesGrow.chains.refl s
  cases h with
  | notify b => exact { same with notify := List.prefix_append _ _ }
  | wire f => exact { same with wire := List.prefix_append _ _ }
  | stack f ts => exact { same with stack := List.prefix_append _ _ }
  | _ => exact .of_eq rfl rfl rfl

/-- Settles O19: a change that touches a history appends to it. -/
theorem historiesOnlyGrow : Obligations.HistoriesOnlyGrow := by
  intro s t h
  obtain ⟨hn, hw, hs⟩ := step_lift_atoms HistoriesGrow.chains (fun _ _ _ => .of_eq rfl rfl rfl) (fun _ _ => .of_eq rfl rfl rfl)
    (fun _ _ _ _ ha => ha.histories) h
  exact ⟨hn, hw, hs⟩

end Sys2Proof.Machine
end

section
/-! SUPPORT. The state after reset (10_state.md section 5, R350), and GET_CAPABILITIES (R22, R157). -/

namespace Sys2Proof.Machine

/-- Settles O7: each value is the one written in the reset state. -/
theorem resetValues : Obligations.ResetValues := by
  intro c
  have hw : ∀ r : MacReg, (State.resetWith c).dma.macRead r = 0 := fun r => by cases r <;> rfl
  refine ⟨_, rfl, ?_⟩
  simp only [hw, implies_true, true_and]
  simp only [State.resetWith, DmaState.reset, SpiState.reset, Chip.reset, and_self]

theorem resetWith_link (c : Config) : LinkInv (State.resetWith c) where
  alternates := rfl
  last := rfl
  manual := nofun
  outside _ := ⟨rfl, rfl⟩

theorem resetWith_probe (c : Config) : ProbeInv (State.resetWith c) where
  past _ h := absurd h (by show ¬2 ≤ 0; decide)
  absent _ := nofun

theorem resetWith_filter (c : Config) : FilterInv (State.resetWith c) := by
  intro half k h
  cases half <;> simp [State.resetWith, DmaState.reset, DmaState.coll] at h

theorem resetWith_ibuf (c : Config) : IbufInv (State.resetWith c) := ⟨le_rfl, Nat.zero_le _, [], by simp, rfl⟩

theorem resetWith_mac (c : Config) : MacInv (State.resetWith c) where
  inside h := nomatch h.2
  outside _ _ := ⟨rfl, rfl, rfl, rfl, rfl, rfl⟩

theorem resetWith_socket (c : Config) : SocketInv (State.resetWith c) where
  present _ h := absurd h (by show ¬2 ≤ 0; decide)
  session h := nomatch h.2

/-- Settles O8: each invariant at the reset values. -/
theorem resetMeetsInvariants : Obligations.ResetMeetsInvariants := fun c =>
  ⟨resetWith_link c, resetWith_probe c, resetWith_filter c, resetWith_memories c, Chip.RingInv.reset, resetWith_ibuf c, resetWith_mac c,
    resetWith_socket c⟩

/-! ## GET_CAPABILITIES -/

/-- Every capability at its own bit, and nothing above them (R22). -/
theorem capsWord_bits (c : Caps) :
    (capsWord c).getLsbD 0 = c.macSettable ∧ (capsWord c).getLsbD 1 = c.linkStateDetectable
      ∧ (capsWord c).getLsbD 2 = c.linkSpeedDetectable ∧ (capsWord c).getLsbD 3 = c.linkSpeedSettable
      ∧ (capsWord c).getLsbD 4 = c.duplexDetectable ∧ (capsWord c).getLsbD 5 = c.duplexSettable
      ∧ (capsWord c).getLsbD 6 = c.crossoverDetectable ∧ (capsWord c).getLsbD 7 = c.autonegRestartable
      ∧ (capsWord c).getLsbD 8 = c.phyResettable ∧ (capsWord c).toNat < 512 := by
  obtain ⟨b0, b1, b2, b3, b4, b5, b6, b7, b8⟩ := c
  revert b0 b1 b2 b3 b4 b5 b6 b7 b8
  decide +kernel

theorem capabilities_first {s : State} (h : s.capsRead = false) :
    capabilities s = .ok (⟨.ok, putBe16 (capsWord s.caps)⟩, { s with capsRead := true }) := by
  unfold capabilities
  rw [get_bind_apply, branch_apply, if_neg (by simp [h])]
  rfl

theorem capabilities_again {s : State} (h : s.capsRead = true) : capabilities s = .ok (.plain .refused, s) := by
  unfold capabilities
  rw [get_bind_apply, branch_apply, if_pos h]
  rfl

/-- Settles O23: the gate, then the first call of a session or a later one. -/
theorem capabilitiesOncePerSession : Obligations.CapabilitiesOncePerSession := by
  refine fun s => ⟨capsWord s.caps, capsWord_bits s.caps, ?_⟩
  by_cases hs : s.initState = .initialized
  · rw [if_neg (not_not.mpr hs)]
    by_cases hr : s.capsRead = true
    · rw [if_pos hr]
      exact runCommand_ok ((gated_inside hs).trans (capabilities_again hr))
    · rw [if_neg hr]
      exact runCommand_ok ((gated_inside hs).trans (capabilities_first (by simpa using hr)))
  · rw [if_pos hs]
    exact runCommand_ok (gated_outside hs)

end Sys2Proof.Machine
end

section
/-! SUPPORT. What an operation ensures: triples over the operations' own runs, for properties that a single change may break and the whole
operation restores. -/

namespace Sys2Proof.Machine

variable {α β : Type} {P Q : State → Prop}

/-- From a state with `P` the operation, if it ends well, ends with an answer and a state that `Q` holds of. -/
def Ensures (P : State → Prop) (m : M α) (Q : α → State → Prop) : Prop := ∀ s a t, m s = .ok (a, t) → P s → Q a t

/-- The operation keeps `P`. -/
abbrev Kept (P : State → Prop) (m : M α) : Prop := Steps (fun s t => P s → P t) m

/-- `P` in the build with backend `b`. -/
def In (b : Backend) (P : State → Prop) (s : State) : Prop := s.cfg.backend = b ∧ P s

theorem Kept.ensures {m : M α} (h : Kept P m) : Ensures P m fun _ => P := h

namespace Ensures

theorem mono {P' : State → Prop} {Q Q' : α → State → Prop} {m : M α} (h : Ensures P m Q) (hp : ∀ s, P' s → P s)
    (hq : ∀ a s, Q a s → Q' a s) : Ensures P' m Q' := fun s a t hm hs => hq a t (h s a t hm (hp s hs))

theorem pre {P' : State → Prop} {Q : α → State → Prop} {m : M α} (h : Ensures P m Q) (hp : ∀ s, P' s → P s) : Ensures P' m Q :=
  h.mono hp fun _ _ hq => hq

theorem pure {Q : α → State → Prop} {a : α} (h : ∀ s, P s → Q a s) : Ensures P (Pure.pure a : M α) Q := by
  intro s b t hm hs
  cases hm
  exact h s hs

theorem bind {R : α → State → Prop} {Q : β → State → Prop} {m : M α} {f : α → M β} (hm : Ensures P m R)
    (hf : ∀ a, Ensures (R a) (f a) Q) : Ensures P (m >>= f) Q := by
  intro s b t h hs
  obtain ⟨a, u, h1, h2⟩ := bind_ok_inv h
  exact hf a u b t h2 (hm s a u h1 hs)

/-- Reading the state first: the rest runs in the state that was read. -/
theorem get_bind {Q : β → State → Prop} {f : State → M β} (h : ∀ u, P u → Ensures (fun s => s = u) (f u) Q) :
    Ensures P ((get : M State) >>= f) Q := fun s b t hm hs => h s hs s b t hm rfl

theorem get_keep {Q : β → State → Prop} {f : State → M β} (h : ∀ u, P u → Ensures P (f u) Q) : Ensures P ((get : M State) >>= f) Q :=
  get_bind fun u hu => (h u hu).pre fun _ hs => hs ▸ hu

theorem config_bind {Q : β → State → Prop} {f : Config → M β} (h : ∀ c, Ensures (fun s => s.cfg = c ∧ P s) (f c) Q) :
    Ensures P (config >>= f) Q := fun s b t hm hs => h s.cfg s b t hm ⟨rfl, hs⟩

theorem ite {p : Prop} [Decidable p] {Q : α → State → Prop} {x y : M α} (hx : p → Ensures P x Q) (hy : ¬p → Ensures P y Q) :
    Ensures P (if p then x else y) Q := by
  split
  · exact hx ‹_›
  · exact hy ‹_›

theorem modifies {Q : Unit → State → Prop} {f : State → State} (h : ∀ s, P s → Q () (f s)) : Ensures P (modify f : M Unit) Q := by
  intro s b t hm hs
  cases hm
  exact h s hs

/-- A micro-step ensures what its own change does and the agents keep. -/
theorem micro {Q : α → State → Prop} {m : M α} (hm : Ensures P m Q) (hb : ∀ a, Kept (Q a) boundary) : Ensures P (micro m) Q :=
  bind hm fun a => bind (hb a).ensures fun _ => pure fun _ h => h

/-- What the last part ensures of any state, the whole does. -/
theorem last {Q : β → State → Prop} {m : M α} {f : α → M β} (hf : ∀ a, Ensures (fun _ => True) (f a) Q) :
    Ensures (fun _ => True) (m >>= f) Q := bind (R := fun _ _ => True) (fun _ _ _ _ _ => trivial) hf

theorem byBackend {Q : α → State → Prop} {x y : M α} (hx : Ensures (In .dma P) x Q) (hy : Ensures (In .spi P) y Q) :
    Ensures P (Machine.byBackend x y) Q := by
  intro s a t h hs
  cases hb : s.cfg.backend with
  | dma => exact hx s a t ((byBackend_dma hb).symm.trans h) ⟨hb, hs⟩
  | spi => exact hy s a t ((byBackend_spi hb).symm.trans h) ⟨hb, hs⟩

end Ensures

namespace Kept

theorem chains : Chains fun s t : State => P s → P t := Chains.keeps P

/-- What every change of the listed kinds keeps, an operation made of them does. -/
theorem of_chain {l : List Kind} (ha : ∀ k ∈ l, ∀ s t, Atom k s t → P s → P t) {m : M α} (h : Steps (Chain l) m) : Kept P m :=
  h.mono fun _ _ hc => Chain.lift chains (fun k s t hk _ => ha k hk s t) hc

/-- The same of an operation of one build. -/
theorem of_on {b : Backend} {l : List Kind} (ha : ∀ k ∈ l, ∀ s t, Atom k s t → P s → P t) {m : M α} (h : Steps (On b l) m) :
    Kept (In b P) m := by
  intro s a t hm hs
  have hc := h s a t hm hs.1
  exact ⟨hc.cfg ▸ hs.1, Chain.lift chains (fun k s t hk _ => ha k hk s t) hc hs.2⟩

theorem byBackend {x y : M α} (hx : Kept (In .dma P) x) (hy : Kept (In .spi P) y) : Kept P (Machine.byBackend x y) :=
  Ensures.byBackend (Q := fun _ => P) (fun s a t h hs => (hx s a t h hs).2) fun s a t h hs => (hy s a t h hs).2

end Kept
/-! ## The input operations (R205, R250, R281) -/

theorem procInput_kept (hr : ∀ s, P s → P (State.raise s .invalidState)) (hd : Kept (In .dma P) dmaProcInput)
    (hs : Kept (In .spi P) spiProcInput) (c : Nat) : Kept P (procInput c) := by
  refine Steps.get_bind' fun u => Steps.ite (fun _ => ?_) fun _ => Steps.ite (fun _ => ?_) fun _ => Kept.byBackend hd hs
  · exact Steps.bind Kept.chains (Steps.modifies hr) fun _ => Steps.pure Kept.chains _
  · exact Steps.pure Kept.chains _

section

variable (hin : ∀ c, Kept P (procInput c)) (hd : ∀ s d, P s → P { s with draws := d })
  (hk : ∀ (s : State) f ts, P s → P { s with stackRxLog := s.stackRxLog ++ [(f, ts)] })

include hin hd hk

theorem inputLoop_kept (fuel c k : Nat) : Kept P (inputLoop fuel c k) := by
  induction fuel generalizing c k with
  | zero => exact Steps.pure Kept.chains _
  | succ fuel ih =>
    refine Steps.bind Kept.chains (hin c) fun r => ?_
    cases r with
    | invalid => exact Steps.ite (fun _ => Steps.pure Kept.chains _) fun _ => Steps.pure Kept.chains _
    | nothing => exact Steps.pure Kept.chains _
    | frame ts f =>
      refine Steps.bind Kept.chains (Steps.bind Kept.chains (Steps.drawBy fun s => hd s _) fun a => Steps.ite (fun _ => ?_) fun _ =>
        Steps.pure Kept.chains _) fun _ => ih _ _
      exact Steps.bind Kept.chains (Steps.modifies fun s => hk s _ _) fun _ => Steps.pure Kept.chains _

theorem pipeProcInput_kept : Kept P pipeProcInput :=
  Steps.config_bind fun _ => Steps.bind Kept.chains (inputLoop_kept hin hd hk _ _ _) fun r => by cases r <;> exact Steps.pure Kept.chains _

end


end Sys2Proof.Machine
end

section
/-! SUPPORT. The scanner (R253) against whole records (R120), and the local input buffer (R69, R250). -/

namespace Sys2Proof.Machine

/-! ## Records -/

theorem be16_drop (b : List Byte) (p : Nat) : be16 (b.drop p) 0 = be16 b p := by
  simp [be16, List.getD_eq_getElem?_getD]

theorem be16_take {b : List Byte} {n : Nat} (h : 2 ≤ n) : be16 (b.take n) 0 = be16 b 0 := by
  simp [be16, List.getD_eq_getElem?_getD, show 0 < n by omega, show 1 < n by omega]

theorem be16_append {r : List Byte} (h : 2 ≤ r.length) (b : List Byte) : be16 (r ++ b) 0 = be16 r 0 := by
  simp [be16, List.getD_eq_getElem?_getD, List.getElem?_append_left (show 0 < r.length by omega),
    List.getElem?_append_left (show 1 < r.length by omega)]

/-- The record at position `p` of `b`, when its length word is legal and all of it is there. -/
theorem validRecord_at {minLen p : Nat} {b : List Byte} (hm : 2 ≤ minLen) (hlow : minLen ≤ be16 b p)
    (hin : p + be16 b p ≤ b.length) : validRecord minLen ((b.drop p).take (be16 b p)) := by
  have hl : ((b.drop p).take (be16 b p)).length = be16 b p := by simp; omega
  refine ⟨by omega, ?_, by omega⟩
  rw [hl, be16_take (by omega), be16_drop]

/-- Wherever the scanner stops, it has passed whole valid records. -/
theorem scanFrom_records {minLen : Nat} (hm : 2 ≤ minLen) (b : List Byte) (fuel : Nat) {p : Nat} (hp : p ≤ b.length) :
    ∃ rs : List (List Byte), (∀ r ∈ rs, validRecord minLen r) ∧ (scanFrom minLen b fuel p).1 ≤ b.length
      ∧ b.take (scanFrom minLen b fuel p).1 = b.take p ++ rs.flatten := by
  induction fuel generalizing p with
  | zero => exact ⟨[], by simp, hp, by simp [scanFrom]⟩
  | succ fuel ih =>
    have stop : ∀ f : Bool, ∃ rs : List (List Byte), (∀ r ∈ rs, validRecord minLen r) ∧ (p, f).1 ≤ b.length
        ∧ b.take (p, f).1 = b.take p ++ rs.flatten := fun f => ⟨[], by simp, hp, by simp⟩
    unfold scanFrom
    split
    · exact stop false
    · split
      · exact stop true
      · split
        · exact stop false
        · obtain ⟨rs, hrs, hle, htake⟩ := ih (p := p + be16 b p) (by omega)
          refine ⟨(b.drop p).take (be16 b p) :: rs, ?_, hle, ?_⟩
          · rintro r (_ | ⟨_, hr⟩)
            · exact validRecord_at hm (by omega) (by omega)
            · exact hrs r hr
          · rw [htake, List.take_add, List.flatten_cons, List.append_assoc]

/-- What the scanner accepts is a whole number of valid records. -/
theorem scanRecords_records {minLen : Nat} (hm : 2 ≤ minLen) (b : List Byte) :
    ∃ rs : List (List Byte), (∀ r ∈ rs, validRecord minLen r) ∧ (scanRecords minLen b).1 ≤ b.length
      ∧ b.take (scanRecords minLen b).1 = rs.flatten := by
  unfold scanRecords
  simpa using scanFrom_records hm b (b.length + 1) (Nat.zero_le _)

/-! ## The local buffer's invariant -/

/-- An empty local buffer holds no record. -/
theorem ibufInv_empty {s : State} (h0 : s.spi.ibufStart = 0) (h1 : s.spi.ibufSize = 0) : IbufInv s :=
  ⟨by omega, by omega, [], by simp, by simp [h1, Memory.readBytes]⟩

/-- Only a refill, the scan and Pop touch the local buffer without emptying it. -/
theorem Atom.ibufInv {k : Kind} {s t : State} (hk : k ≠ .ibuf) (h : Atom k s t) (hs : IbufInv s) : IbufInv t := by
  cases h with
  | ibufFilled => exact absurd rfl hk
  | ibufMoved => exact absurd rfl hk
  | spiSession => exact ibufInv_empty rfl rfl
  | spiCleared => exact ibufInv_empty rfl rfl
  | _ => exact hs

/-- In a run with parameters `c` the local buffer holds whole records. -/
def Buffered (c : Config) (s : State) : Prop := s.cfg = c ∧ IbufInv s

/-- A refill has put `n` bytes into the local buffer, and they have not been scanned. -/
structure Refilled (c : Config) (n : Nat) (s : State) : Prop where
  cfg : s.cfg = c
  start : s.spi.ibufStart = 0
  size : s.spi.ibufSize = n
  fits : n ≤ c.ibufCap

/-- What a refill leaves, by its answer. -/
def AfterRefill (c : Config) : Option (Nat × Nat) → State → Prop
  | none => Buffered c
  | some (n, _) => Refilled c n

variable {c : Config}

theorem buffered_portFree : PortFree (Buffered c) := ⟨fun _ _ _ h => h, fun _ _ h => h⟩

theorem Atom.buffered {k : Kind} {s t : State} (hk : k ≠ .ibuf) (h : Atom k s t) (hs : Buffered c s) : Buffered c t :=
  ⟨h.cfg.trans hs.1, h.ibufInv hk hs.2⟩

theorem buffered_of_on {α : Type} {b : Backend} {l : List Kind} (hl : Kind.ibuf ∉ l) {m : M α} (h : Steps (On b l) m) :
    Kept (In b (Buffered c)) m :=
  Kept.of_on (fun _ hk _ _ ha => ha.buffered fun e => hl (e ▸ hk)) h

/-- A read of the local buffer that ends well. -/
theorem ibufRead_inv {a n : Nat} {bs : List Byte} {s t : State} (h : ibufRead a n s = .ok (bs, t)) :
    s = t ∧ a + n ≤ s.spi.ibufSize ∧ Memory.readBytes s.spi.ibuf a n = some bs := by
  unfold ibufRead at h
  rw [get_bind_apply] at h
  by_cases hr : a + n ≤ s.spi.ibufSize
  · rw [if_pos hr] at h
    cases hb : Memory.readBytes s.spi.ibuf a n with
    | none => rw [hb] at h; cases h
    | some x => rw [hb] at h; cases h; exact ⟨rfl, hr, rfl⟩
  · rw [if_neg hr] at h; cases h

/-- Popping the first record leaves the others (R69, R258). -/
theorem IbufInv.popped {s : State} (hs : IbufInv s) {p : List Byte} (hr : s.spi.ibufStart + 2 ≤ s.spi.ibufSize)
    (hp : Memory.readBytes s.spi.ibuf s.spi.ibufStart 2 = some p) :
    IbufInv { s with spi := { s.spi with ibufStart := s.spi.ibufStart + be16 p 0 } } := by
  obtain ⟨hle, hcap, rs, hrs, hb⟩ := hs
  have hlen := Memory.readBytes_length hb
  cases rs with
  | nil => simp at hlen; omega
  | cons r rest =>
    obtain ⟨h2, hword, -⟩ := hrs r (by simp)
    rw [List.flatten_cons, List.length_append] at hlen
    have hfirst : p = (r ++ rest.flatten).take 2 := by
      have := (Memory.readBytes_split (n := 2) (k := s.spi.ibufSize - s.spi.ibufStart - 2) (by
        rw [show 2 + (s.spi.ibufSize - s.spi.ibufStart - 2) = s.spi.ibufSize - s.spi.ibufStart by omega]; exact hb)).1
      rw [hp] at this
      exact Option.some.inj this
    have hl : be16 p 0 = r.length := by rw [hfirst, be16_take (le_refl 2), be16_append h2, hword]
    have hrest := (Memory.readBytes_split (n := r.length) (k := s.spi.ibufSize - (s.spi.ibufStart + r.length)) (by
      rw [show r.length + (s.spi.ibufSize - (s.spi.ibufStart + r.length)) = s.spi.ibufSize - s.spi.ibufStart by omega]
      exact hb)).2
    rw [hl]
    refine ⟨by show s.spi.ibufStart + r.length ≤ s.spi.ibufSize; omega, hcap, rest, fun x hx => hrs x (by simp [hx]), ?_⟩
    rw [List.flatten_cons, List.drop_left] at hrest
    exact hrest

theorem spiPop_buffered : Kept (In .spi (Buffered c)) spiPop := by
  have hdraw : ∀ {β : Type} (take : Draws → β × Draws), Kept (In .spi (Buffered c)) (drawBy take) := fun take =>
    Steps.drawBy fun _ h => h
  intro s a t h hs
  unfold spiPop at h
  rw [get_bind_apply] at h
  obtain ⟨p, _, h1, h2⟩ := bind_ok_inv h
  obtain ⟨rfl, hr, hp⟩ := ibufRead_inv h1
  obtain ⟨f, _, h3, h4⟩ := bind_ok_inv h2
  obtain ⟨rfl, -, -⟩ := ibufRead_inv h3
  rw [modifySpi_bind_apply] at h4
  refine Steps.bind Kept.chains (hdraw _) (fun ok => Steps.ite (fun _ => ?_) fun _ => ?_) _ _ _ h4 ⟨hs.1, hs.2.1, hs.2.2.popped hr hp⟩
  · exact Steps.bind Kept.chains (hdraw _) fun _ => Steps.pure Kept.chains _
  · exact Steps.bind Kept.chains (Steps.modifies fun _ h => h) fun _ => Steps.pure Kept.chains _

/-- A refill that announces more than the buffer holds leaves it as it was (R252, R324); any other fits (R69). -/
theorem spiRefill_ensures (hc : c.wf = true) :
    Ensures (In .spi (Buffered c)) spiRefill fun r => In .spi (AfterRefill c r) := by
  intro s r t h hs
  have hcfg : s.cfg = c := hs.2.1
  unfold spiRefill at h
  rw [config_bind_apply] at h
  obtain ⟨o, u, h1, h2⟩ := bind_ok_inv h
  have hu := buffered_of_on (by decide) (spiRead16Stable_steps _ _) _ _ _ h1 hs
  split at h2
  · cases h2; exact hu
  · cases h2; exact hu
  · rename_i n
    rw [branch_apply] at h2
    split at h2
    · rw [raise_bind_apply] at h2
      obtain ⟨_, v, h3, h4⟩ := bind_ok_inv h2
      cases h4
      exact buffered_of_on (by decide) recover_steps _ _ _ h3 hu
    · obtain ⟨rd, v, h3, h4⟩ := bind_ok_inv h2
      have hv := buffered_of_on (by decide) (spiRead16_steps _ _) _ _ _ h3 hu
      obtain ⟨bs, w, h5, h6⟩ := bind_ok_inv h4
      have hw := buffered_of_on (by decide) (spiRead_steps _ _ _) _ _ _ h5 hv
      rw [modifySpi_bind_apply] at h6
      cases h6
      have := (spiBounds_of_wf hc).ibuf
      exact ⟨hw.1, hw.2.1, rfl, rfl, by rw [← hcfg] at this ⊢; omega⟩

/-- Cut back to what the scanner accepts, the refilled buffer holds whole records (R253). -/
theorem IbufInv.scanned {s : State} {b : List Byte} (hm : 2 ≤ s.cfg.recMinLen) (hstart : s.spi.ibufStart = 0)
    (hread : Memory.readBytes s.spi.ibuf 0 b.length = some b) (hfits : b.length ≤ s.cfg.ibufCap) :
    IbufInv { s with spi := { s.spi with ibufSize := (scanRecords s.cfg.recMinLen b).1 } } := by
  obtain ⟨rs, hrs, hle, htake⟩ := scanRecords_records hm b
  have hsplit := (Memory.readBytes_split (n := (scanRecords s.cfg.recMinLen b).1) (k := b.length - (scanRecords s.cfg.recMinLen b).1)
    (by rw [Nat.add_sub_cancel' hle]; exact hread)).1
  refine ⟨hstart ▸ Nat.zero_le _, le_trans hle hfits, rs, hrs, ?_⟩
  show Memory.readBytes _ s.spi.ibufStart (_ - s.spi.ibufStart) = _
  rw [hstart, ← htake]
  exact hsplit

/-- The scan leaves whole records, whether it acknowledges them or recovers the socket (R253 to R257). -/
theorem spiScan_ensures (hc : c.wf = true) (n rd : Nat) :
    Ensures (In .spi (Refilled c n)) (spiScan n rd) fun _ => In .spi (Buffered c) := by
  rintro s a t h ⟨hb, rfl, hstart, hsize, hfits⟩
  unfold spiScan at h
  rw [config_bind_apply] at h
  obtain ⟨b, _, h1, h2⟩ := bind_ok_inv h
  obtain ⟨rfl, -, hread⟩ := ibufRead_inv h1
  have hlen := Memory.readBytes_length hread
  rw [modifySpi_bind_apply] at h2
  have hscan := IbufInv.scanned (spiBounds_of_wf hc).record hstart (hlen ▸ hread) (hlen ▸ hfits)
  refine (?_ : Kept (In .spi (Buffered s.cfg)) _) _ _ _ h2 ⟨hb, rfl, hscan⟩
  refine Steps.ite (fun _ => ?_) fun _ => Steps.ite (fun _ => ?_) fun _ => Steps.pure Kept.chains _
  · exact Steps.bind Kept.chains (Steps.modifies fun _ h => h) fun _ => buffered_of_on (by decide) recover_steps
  · refine Steps.bind Kept.chains (buffered_of_on (by decide) (spiWrite_steps _ _ _)) fun _ => ?_
    exact Steps.bind Kept.chains (buffered_of_on (by decide) (sockCommand_steps _)) fun _ => Steps.pure Kept.chains _

theorem spiFetch_buffered (hc : c.wf = true) : Kept (In .spi (Buffered c)) spiFetch := by
  refine Ensures.bind (buffered_of_on (by decide) (spiWrite_steps _ _ _)).ensures fun _ =>
    Ensures.bind (spiRefill_ensures hc) fun r => ?_
  cases r with
  | none => exact Ensures.pure fun _ h => h
  | some r =>
    refine Ensures.bind (spiScan_ensures hc r.1 r.2) fun _ => Kept.ensures ?_
    exact Steps.get_bind' fun _ => Steps.ite (fun _ => spiPop_buffered) fun _ => Steps.pure Kept.chains _

theorem spiProcInput_buffered (hc : c.wf = true) : Kept (In .spi (Buffered c)) spiProcInput := by
  refine Steps.get_bind' fun u => Steps.ite (fun _ => spiPop_buffered) fun _ => ?_
  refine Steps.bind Kept.chains (Steps.modifies fun s hs => ⟨hs.1, hs.2.1, ibufInv_empty rfl rfl⟩) fun _ => ?_
  refine Steps.ite (fun _ => ?_) fun _ => spiFetch_buffered hc
  refine Steps.bind Kept.chains (micro_steps Kept.chains ?_ (boundary_buffered)) fun p => ?_
  · intro s a t h hs
    cases h
    exact hs
  · exact Steps.ite (fun _ => spiFetch_buffered hc) fun _ => Steps.pure Kept.chains _
where
  boundary_buffered : Kept (In .spi (Buffered c)) boundary := buffered_of_on (l := agentKinds) (by decide) (boundary_steps.on fun _ h => h)

theorem procInput_buffered (hc : c.wf = true) (k : Nat) : Kept (Buffered c) (procInput k) :=
  procInput_kept (fun _ h => h) (buffered_of_on (by decide) dmaProcInput_steps) (spiProcInput_buffered hc) k

/-- Only the two input instructions touch the local buffer in parts. -/
theorem ibuf_mem_instrKinds {i : Instr} (h : Kind.ibuf ∈ instrKinds i) : (∃ n, i = .procInput n) ∨ i = .pipeProcInput := by
  cases i with
  | procInput n => exact .inl ⟨n, rfl⟩
  | pipeProcInput => exact .inr rfl
  | _ => exact absurd h (of_decide_eq_false rfl)

theorem exec_buffered (hc : c.wf = true) {i : Instr} {s t : State} (h : exec i s = .next t) (hs : Buffered c s) : Buffered c t := by
  by_cases hk : Kind.ibuf ∈ instrKinds i
  · rcases ibuf_mem_instrKinds hk with ⟨n, rfl⟩ | rfl
    · exact buffered_portFree.command (Steps.bind Kept.chains (procInput_buffered hc _) fun _ => Steps.pure Kept.chains _) h hs
    · exact buffered_portFree.command (pipeProcInput_kept (procInput_buffered hc) (fun _ _ h => h) fun _ _ _ h => h) h hs
  · exact buffered_portFree.exec_of_kinds (fun k hk' _ _ ha => ha.buffered fun e => hk (e ▸ hk')) h hs

/-- Settles O14: PROC_INPUT's refill is followed by the scan, which cuts back to whole records, and Pop takes one of them; every other
change leaves the buffer alone or empties it. -/
theorem inputBufferHoldsRecords : Obligations.InputBufferHoldsRecords := fun s _ hc hs h =>
  (buffered_portFree.step (fun _ hk _ _ ha => ha.buffered fun e => absurd (e ▸ hk) (by decide)) (fun _ _ _ => exec_buffered hc) h
    (⟨rfl, hs⟩ : Buffered s.cfg s)).2

end Sys2Proof.Machine
end

section
/-! SUPPORT. What one micro-step did, and the build that an instruction runs in. -/

namespace Sys2Proof.Machine

variable {α : Type}

/-- A micro-step that ends well: its own change, then agents' changes (R3). -/
theorem micro_inv {m : M α} {s t : State} {a : α} (h : micro m s = .ok (a, t)) : ∃ u, m s = .ok (a, u) ∧ Chain agentKinds u t := by
  obtain ⟨b, u, h1, h2⟩ := bind_ok_inv h
  obtain ⟨_, v, h3, h4⟩ := bind_ok_inv h2
  cases h4
  exact ⟨u, h1, boundary_steps _ _ _ h3⟩

theorem macWrite_inv {r : MacReg} {v : U32} {s t : State} (h : macWrite r v s = .ok ((), t)) :
    t = { s with dma := s.dma.macWrite r v } := by
  unfold macWrite at h
  rw [branch_apply] at h
  split at h
  · cases h
  · cases h; rfl

theorem Ensures.onDma {P : State → Prop} {Q : α → State → Prop} {x y : M α} (hx : Ensures (In .dma P) x Q) :
    Ensures (In .dma P) (Machine.byBackend x y) Q := fun s a t h hs => hx s a t ((byBackend_dma hs.1).symm.trans h) hs

/-- DEINIT on the DMA build: the end of a session, one step back, then everything of a session cleared (R156). -/
theorem deinitialise_inv {s t : State} (hb : s.cfg.backend = .dma) (h : deinitialise s = .ok ((), t)) :
    ∃ u, onlyIf (s.initState = .initialized) endSession s = .ok ((), u) ∧ u.cfg = s.cfg
      ∧ t = { u.stepBack.sessionCleared with dma := u.stepBack.sessionCleared.dma.sessionCleared } := by
  unfold deinitialise at h
  rw [get_bind_apply] at h
  obtain ⟨_, u, h1, h2⟩ := bind_ok_inv h
  have hc : u.cfg = s.cfg := (Steps.onlyIf (Chain.chains _) (fun _ => endSession_steps) s _ u h1).cfg
  rw [modify_bind_apply, modify_bind_apply, byBackend_dma (by simpa [hc] using hb)] at h2
  cases h2
  exact ⟨u, h1, hc, rfl⟩

/-- An operation keeps the build it runs in. -/
theorem kept_build {b : Backend} {l : List Kind} {m : M α} (h : Steps (On b l) m) : Kept (In b fun _ => True) m :=
  Kept.of_on (fun _ _ _ _ _ _ => trivial) h

end Sys2Proof.Machine
end

section
/-! SUPPORT. The MAC filter's tables (R42, R44, R218 to R220). -/

namespace Sys2Proof.Machine

/-- The presence and collision tables are as they were. -/
structure SameFilter (s t : State) : Prop where
  pres : ∀ half, t.dma.macRead (presReg half) = s.dma.macRead (presReg half)
  coll : ∀ half, t.dma.coll half = s.dma.coll half

theorem SameFilter.chains : Chains SameFilter where
  refl _ := ⟨fun _ => rfl, fun _ => rfl⟩
  trans _ _ _ h k := ⟨fun x => (k.pres x).trans (h.pres x), fun x => (k.coll x).trans (h.coll x)⟩

theorem SameFilter.of_eq {s t : State} (p0 : t.dma.regs.fltPres0 = s.dma.regs.fltPres0)
    (p1 : t.dma.regs.fltPres1 = s.dma.regs.fltPres1) (c0 : t.dma.fltColl0 = s.dma.fltColl0) (c1 : t.dma.fltColl1 = s.dma.fltColl1) :
    SameFilter s t where
  pres half := by cases half with
    | false => exact p0
    | true => exact p1
  coll half := by cases half with
    | false => exact c0
    | true => exact c1

theorem SameFilter.filterInv {s t : State} (h : SameFilter s t) (hs : FilterInv s) : FilterInv t := by
  intro half k hk
  rw [h.pres]
  exact hs half k (h.coll half ▸ hk)

/-- No collision is recorded. -/
def NoCollision (s : State) : Prop := ∀ half, s.dma.coll half = 0

theorem NoCollision.filterInv {s : State} (h : NoCollision s) : FilterInv s := fun half k hk => by
  rw [h half] at hk
  simp at hk

theorem SameFilter.noCollision {s t : State} (h : SameFilter s t) (hs : NoCollision s) : NoCollision t := fun half =>
  (h.coll half).trans (hs half)

/-- The kinds of change that touch the tables. -/
def filterTables : List Kind := [.mac .fltPres0, .mac .fltPres1, .coll, .dmaCleared]

theorem macWrite_coll (d : DmaState) (r : MacReg) (v : U32) (half : Bool) : (d.macWrite r v).coll half = d.coll half := by
  cases half <;> simp [DmaState.coll]

/-- A write of another register leaves the presence table as it is (R32, R42). -/
theorem macWrite_presence (d : DmaState) {r : MacReg} (h0 : r ≠ .fltPres0) (h1 : r ≠ .fltPres1) (v : U32) (half : Bool) :
    (d.macWrite r v).macRead (presReg half) = d.macRead (presReg half) := by
  have key : (d.macWrite r v).regs.fltPres0 = d.regs.fltPres0 ∧ (d.macWrite r v).regs.fltPres1 = d.regs.fltPres1 := by
    cases r with
    | fltPres0 => exact absurd rfl h0
    | fltPres1 => exact absurd rfl h1
    | rdar => simp only [DmaState.macWrite]; split <;> exact ⟨rfl, rfl⟩
    | tdar => simp only [DmaState.macWrite]; split <;> exact ⟨rfl, rfl⟩
    | ecr =>
      simp only [DmaState.macWrite, DmaState.writeEcr]
      split
      · split <;> exact ⟨rfl, rfl⟩
      · exact ⟨rfl, rfl⟩
    | _ => exact ⟨rfl, rfl⟩
  cases half with
  | false => exact key.1
  | true => exact key.2

/-- Any other change leaves the tables as they are. -/
theorem Atom.sameFilter {k : Kind} {s t : State} (hk : k ∉ filterTables) (h : Atom k s t) : SameFilter s t := by
  have same : ∀ u : State, u.dma.regs.fltPres0 = s.dma.regs.fltPres0 → u.dma.regs.fltPres1 = s.dma.regs.fltPres1 →
      u.dma.fltColl0 = s.dma.fltColl0 → u.dma.fltColl1 = s.dma.fltColl1 → SameFilter s u := fun _ => SameFilter.of_eq
  cases h with
  | mac _ r v =>
    exact ⟨macWrite_presence _ (by rintro rfl; exact hk (by decide)) (by rintro rfl; exact hk (by decide)) v, macWrite_coll _ r v⟩
  | collSet => exact absurd (by decide) hk
  | collZero => exact absurd (by decide) hk
  | dmaCleared => exact absurd (by decide) hk
  | cacheRead _ a n =>
    obtain ⟨c, hc⟩ := hostReadRange_rest s.dma a n
    simp only [hc]
    exact same _ rfl rfl rfl rfl
  | cacheWrite _ a bs =>
    obtain ⟨c, hc⟩ := hostWriteRange_rest s.dma a bs
    simp only [hc]
    exact same _ rfl rfl rfl rfl
  | _ => exact same _ rfl rfl rfl rfl

theorem Chain.sameFilter {l : List Kind} (hl : ∀ k ∈ l, k ∉ filterTables) {s t : State} (h : Chain l s t) : SameFilter s t :=
  Chain.lift SameFilter.chains (fun k _ _ hk _ ha => ha.sameFilter (hl k hk)) h

theorem filterInv_of_on {α : Type} {b : Backend} {l : List Kind} (hl : ∀ k ∈ l, k ∉ filterTables) {m : M α} (h : Steps (On b l) m) :
    Kept (In b FilterInv) m :=
  Kept.of_on (fun k hk _ _ ha => (ha.sameFilter (hl k hk)).filterInv) h

theorem filterInv_of_chain {α : Type} {b : Backend} {l : List Kind} (hl : ∀ k ∈ l, k ∉ filterTables) {m : M α}
    (h : Steps (Chain l) m) : Kept (In b FilterInv) m := filterInv_of_on hl (h.mono fun _ _ hc _ => hc)

theorem filterInv_portFree : PortFree (In .dma FilterInv) := ⟨fun _ _ _ h => h, fun _ _ h => h⟩

/-! ## The two filter operations -/

theorem bitMask_getLsbD (k j : Nat) : (bitMask k).getLsbD j = (decide (j < 32) && decide (j = k)) := by
  unfold bitMask
  rw [BitVec.getLsbD_shiftLeft]
  by_cases h : j = k
  · subst h; simp
  · by_cases hlt : j < k
    · simp [hlt, h]
    · simp [h, show j - k ≠ 0 by omega]

theorem coll_setColl (d : DmaState) (half x : Bool) (k : Nat) :
    (d.setColl half k).coll x = if x = half then d.coll half ||| bitMask k else d.coll x := by
  cases half <;> cases x <;> rfl

theorem presence_setColl (d : DmaState) (half x : Bool) (k : Nat) : (d.setColl half k).macRead (presReg x) = d.macRead (presReg x) := by
  cases half <;> cases x <;> rfl

theorem presence_written (d : DmaState) (half x : Bool) (v : U32) :
    (d.macWrite (presReg half) v).macRead (presReg x) = if x = half then v else d.macRead (presReg x) := by
  cases half <;> cases x <;> rfl

/-- A collision is recorded where the presence bit is set (R218). -/
theorem FilterInv.setColl {s : State} (hs : FilterInv s) {half : Bool} {k : Nat} (hk : (s.dma.macRead (presReg half)).getLsbD k = true) :
    FilterInv { s with dma := s.dma.setColl half k } := by
  intro x j hj
  rw [presence_setColl]
  rw [coll_setColl] at hj
  split at hj
  · rename_i he
    subst he
    rw [BitVec.getLsbD_or, bitMask_getLsbD, Bool.or_eq_true] at hj
    rcases hj with hj | hj
    · exact hs x j hj
    · simp only [Bool.and_eq_true, decide_eq_true_eq] at hj
      rw [hj.2]
      exact hk
  · exact hs x j hj

/-- A presence half may be written if no recorded collision loses its bit (R218, R219). -/
theorem FilterInv.presence {s : State} (hs : FilterInv s) {half : Bool} {v : U32}
    (hv : ∀ j, (s.dma.coll half).getLsbD j = true → (s.dma.macRead (presReg half)).getLsbD j = true → v.getLsbD j = true) :
    FilterInv { s with dma := s.dma.macWrite (presReg half) v } := by
  intro x j hj
  rw [macWrite_coll] at hj
  rw [presence_written]
  split
  · rename_i he
    subst he
    exact hv j hj (hs x j hj)
  · exact hs x j hj

theorem filterAllow_filterInv (half : Bool) (k : Nat) : Kept (In .dma FilterInv) (filterAllow half k) := by
  intro s a t h hs
  unfold filterAllow at h
  obtain ⟨p, u, h1, h2⟩ := bind_ok_inv h
  have hu := filterInv_of_on (by decide) (microMacRead (l := agentKinds) (List.Subset.refl _) _) _ _ _ h1 hs
  obtain ⟨_, h3, hc⟩ := micro_inv h1
  cases h3
  have hsame : SameFilter s u := hc.sameFilter (by decide)
  rw [branch_apply, ← hsame.pres] at h2
  split at h2
  · rename_i hk
    cases h2
    exact ⟨hu.1, hu.2.setColl hk⟩
  · obtain ⟨_, v, h4, h5⟩ := bind_ok_inv h2
    cases h5
    obtain ⟨w, h6, hc2⟩ := micro_inv h4
    cases macWrite_inv h6
    have hw : FilterInv { u with dma := u.dma.macWrite (presReg half) (u.dma.macRead (presReg half) ||| bitMask k) } :=
      hu.2.presence fun j _ hj => by rw [BitVec.getLsbD_or, hj, Bool.true_or]
    exact ⟨hc2.cfg ▸ hu.1, (hc2.sameFilter (by decide)).filterInv hw⟩

theorem filterDisallow_filterInv (half : Bool) (k : Nat) : Kept (In .dma FilterInv) (filterDisallow half k) := by
  intro s a t h hs
  unfold filterDisallow at h
  rw [get_bind_apply, branch_apply] at h
  split at h
  · cases h
    exact hs
  · rename_i hk
    obtain ⟨p, u, h1, h2⟩ := bind_ok_inv h
    have hu := filterInv_of_on (by decide) (microMacRead (l := agentKinds) (List.Subset.refl _) _) _ _ _ h1 hs
    obtain ⟨_, h3, hc⟩ := micro_inv h1
    cases h3
    have hsame : SameFilter s u := hc.sameFilter (by decide)
    rw [← hsame.pres] at h2
    obtain ⟨_, v, h4, h5⟩ := bind_ok_inv h2
    cases h5
    obtain ⟨w, h6, hc2⟩ := micro_inv h4
    cases macWrite_inv h6
    have hw : FilterInv { u with dma := u.dma.macWrite (presReg half) (u.dma.macRead (presReg half) &&& ~~~bitMask k) } := by
      refine hu.2.presence fun j hj hp => ?_
      have hne : j ≠ k := fun e => hk (by rw [← hsame.coll, ← e]; exact hj)
      rw [BitVec.getLsbD_and, BitVec.getLsbD_not, bitMask_getLsbD, hp]
      simp [hne, BitVec.lt_of_getLsbD hp]
    exact ⟨hc2.cfg ▸ hu.1, (hc2.sameFilter (by decide)).filterInv hw⟩

theorem filterOp_filterInv (m : MacAddr) (allow : Bool) : Kept (In .dma FilterInv) (filterOp m allow) := by
  refine Steps.config_bind fun c => Steps.ite (fun _ => ?_) fun _ => gated_steps Kept.chains ?_
  · exact Steps.bind Kept.chains (Steps.modifies fun _ h => h) fun _ => Steps.pure Kept.chains _
  · refine Steps.bind Kept.chains (Ensures.onDma (Q := fun _ => In .dma FilterInv) (Steps.config_bind fun c => ?_)) fun _ =>
      Steps.pure Kept.chains _
    exact Steps.ite (fun _ => filterAllow_filterInv _ _) fun _ => filterDisallow_filterInv _ _

/-! ## INIT and DEINIT -/

/-- P7 ends with the collision masks cleared (R194). -/
theorem dmaProgram_noCollision (m : MacAddr) : Ensures (fun _ => True) (dmaProgram m) fun _ => NoCollision := by
  refine Ensures.last (m := config) fun c => ?_
  iterate 5 refine Ensures.last fun _ => ?_
  refine Ensures.last fun _ => Ensures.last fun _ => ?_
  refine Ensures.last fun _ => Ensures.last fun _ => Ensures.modifies fun s _ half => ?_
  cases half <;> rfl

theorem dmaBringUp_noCollision (m : MacAddr) : Ensures (In .dma fun _ => True) (dmaBringUp m) fun _ => In .dma NoCollision := by
  have keep : ∀ {l : List Kind} {x : M Unit}, (∀ k ∈ l, k ∉ filterTables) → Steps (On .dma l) x →
      Kept (In .dma NoCollision) x := fun hl h =>
    Kept.of_on (fun k hk _ _ ha => (ha.sameFilter (hl k hk)).noCollision) h
  refine Ensures.bind (kept_build dmaRings_steps).ensures fun _ => Ensures.bind (R := fun _ => In .dma NoCollision) ?_ fun _ => ?_
  · exact fun s a t h hs => ⟨(kept_build (dmaProgram_steps m) s a t h hs).1, dmaProgram_noCollision m s a t h trivial⟩
  · exact Ensures.bind (keep (by decide) dmaUnmask_steps).ensures fun _ => (keep (by decide) dmaEnable_steps).ensures

theorem dmaInit_filterInv (m : MacAddr) : Kept (In .dma FilterInv) (dmaInit m) := by
  have up : Kept (In .dma FilterInv) (do dmaBringUp m; pure true : M Bool) :=
    Steps.bind Kept.chains (fun s a t h hs =>
      have ht := dmaBringUp_noCollision m s a t h ⟨hs.1, trivial⟩
      ⟨ht.1, ht.2.filterInv⟩) fun _ => Steps.pure Kept.chains _
  refine Steps.get_bind' fun u => Steps.ite (fun _ => ?_) fun _ => up
  refine Steps.bind Kept.chains (filterInv_of_on (by decide) (tune_steps _)) fun ok => Steps.ite (fun _ => ?_) fun _ =>
    Steps.pure Kept.chains _
  exact Steps.bind Kept.chains (Steps.modifies fun _ h => h) fun _ => up

theorem initialise_filterInv (m : MacAddr) : Kept (In .dma FilterInv) (initialise m) := by
  refine Steps.get_bind' fun u => Steps.ite (fun _ => Steps.pure Kept.chains _) fun _ => ?_
  refine Steps.bind Kept.chains (Steps.onlyIf Kept.chains fun _ => filterInv_of_chain (by decide) probe_steps) fun _ => ?_
  refine Steps.get_bind' fun u => Steps.ite (fun _ => Steps.pure Kept.chains _) fun _ => ?_
  refine Steps.bind Kept.chains (Ensures.onDma (Q := fun _ => In .dma FilterInv) (dmaInit_filterInv m)) fun ok => ?_
  refine Steps.ite (fun _ => ?_) fun _ => Steps.pure Kept.chains _
  exact Steps.bind Kept.chains (Steps.modifies fun _ h => h) fun _ => Steps.pure Kept.chains _

/-- DEINIT ends with the collision masks cleared (R156). -/
theorem deinitialise_filterInv : Kept (In .dma FilterInv) deinitialise := by
  intro s a t h hs
  obtain ⟨u, -, hc, rfl⟩ := deinitialise_inv hs.1 h
  refine ⟨?_, NoCollision.filterInv fun half => ?_⟩
  · simpa [hc] using hs.1
  · cases half <;> rfl

/-- The instructions that touch the filter's tables. -/
theorem exec_filterInv {i : Instr} {s t : State} (h : exec i s = .next t) (hs : In .dma FilterInv s) : In .dma FilterInv t := by
  have hp := filterInv_portFree
  have kinds : ∀ l, instrKinds i = l → (∀ k ∈ l, k ∉ filterTables) → In .dma FilterInv t := fun l hl hk =>
    hp.exec_of_kinds (fun k hk' _ _ ha hs => ⟨ha.cfg ▸ hs.1, (ha.sameFilter (hk k (hl ▸ hk'))).filterInv hs.2⟩) h hs
  cases i with
  | setIncomingMacAllowed m a => exact hp.command (filterOp_filterInv m a) h hs
  | pipeAllowMac m a => exact hp.command (filterOp_filterInv m a) h hs
  | init m => exact hp.command (Steps.bind Kept.chains (initialise_filterInv m) fun _ => Steps.pure Kept.chains _) h hs
  | pipeInit m =>
    refine hp.command (Steps.bind Kept.chains (Steps.bind Kept.chains (filterInv_of_chain (by decide) hasHardware_steps) fun ok => ?_)
      fun _ => Steps.pure Kept.chains _) h hs
    exact Steps.ite (fun _ => initialise_filterInv m) fun _ => Steps.pure Kept.chains _
  | deinit => exact hp.command (thenOk_steps Kept.chains deinitialise_filterInv) h hs
  | _ => exact kinds _ rfl (of_decide_eq_true rfl)

/-- On the SPI build no step touches the MAC filter. -/
theorem step_sameDma {s t : State} (hb : s.cfg.backend = .spi) (h : step s = .next t) : t.dma = s.dma := (oneBackend s t h).2.2 hb

/-- Settles O11: only the filter operations, INIT and DEINIT touch the tables, and each of them keeps the rule. -/
theorem collisionsWithinPresence : Obligations.CollisionsWithinPresence := by
  intro s t hs h
  cases hb : s.cfg.backend with
  | dma =>
    have agents : ∀ k ∈ agentKinds, k ∉ filterTables := of_decide_eq_true rfl
    exact (filterInv_portFree.step (fun k hk _ _ ha hu => ⟨ha.cfg ▸ hu.1, (ha.sameFilter (agents k hk)).filterInv hu.2⟩)
      (fun _ _ _ => exec_filterInv) h ⟨hb, hs⟩).2
  | spi =>
    intro half k
    rw [step_sameDma hb h]
    exact hs half k

end Sys2Proof.Machine
end

section
/-! SUPPORT. The MAC's enable, its mask and the management bus, change by change (R37, R48, R182 to R187). -/

namespace Sys2Proof.Machine

variable {α : Type}

/-- What a change of kind `k` leaves unchanged of what MacInv speaks of. -/
structure MacChange (k : Kind) (s t : State) : Prop where
  ecr : k ≠ .mac .ecr → t.dma.regs.ecr = s.dma.regs.ecr
  eimr : k ≠ .mac .eimr → t.dma.regs.eimr = s.dma.regs.eimr
  rx : k ≠ .mac .ecr → k ≠ .mac .rdar → s.dma.rxActive = false → t.dma.rxActive = false
  tx : k ≠ .mac .tdar → s.dma.txActive = false → t.dma.txActive = false
  busy : k ≠ .mdioBusy → t.dma.mdioBusy = s.dma.mdioBusy
  monitor : k ≠ .monitor → k ≠ .dmaCleared → t.dma.lmState = s.dma.lmState
  phase : k ≠ .initState → k ≠ .sessionStart → t.initState = s.initState

theorem MacChange.of_eq {k : Kind} {s t : State} (hr : t.dma.regs.ecr = s.dma.regs.ecr) (he : t.dma.regs.eimr = s.dma.regs.eimr)
    (hx : t.dma.rxActive = s.dma.rxActive) (ht : t.dma.txActive = s.dma.txActive) (hb : t.dma.mdioBusy = s.dma.mdioBusy)
    (hm : t.dma.lmState = s.dma.lmState) (hi : t.initState = s.initState) : MacChange k s t :=
  ⟨fun _ => hr, fun _ => he, fun _ _ h => hx.trans h, fun _ h => ht.trans h, fun _ => hb, fun _ _ => hm, fun _ _ => hi⟩

/-- A write of the window: only ECR and the two doorbells reach past their own register (R34, R35, R37). -/
theorem MacChange.written (s : State) (r : MacReg) (v : U32) : MacChange (.mac r) s { s with dma := s.dma.macWrite r v } where
  busy _ := s.dma.macWrite_mdioBusy r v
  monitor _ _ := s.dma.macWrite_lmState r v
  phase _ _ := rfl
  ecr h := by
    cases r with
    | ecr => exact absurd rfl h
    | rdar => simp only [DmaState.macWrite]; split <;> rfl
    | tdar => simp only [DmaState.macWrite]; split <;> rfl
    | _ => rfl
  eimr h := by
    cases r with
    | eimr => exact absurd rfl h
    | ecr =>
      simp only [DmaState.macWrite, DmaState.writeEcr]
      split
      · split <;> rfl
      · rfl
    | rdar => simp only [DmaState.macWrite]; split <;> rfl
    | tdar => simp only [DmaState.macWrite]; split <;> rfl
    | _ => rfl
  rx he hr h := by
    cases r with
    | ecr => exact absurd rfl he
    | rdar => exact absurd rfl hr
    | tdar => simp only [DmaState.macWrite]; split <;> exact h
    | _ => exact h
  tx ht h := by
    cases r with
    | tdar => exact absurd rfl ht
    | ecr =>
      simp only [DmaState.macWrite, DmaState.writeEcr]
      split
      · split <;> exact h
      · rfl
    | rdar => simp only [DmaState.macWrite]; split <;> exact h
    | _ => exact h

theorem Atom.macChange {k : Kind} {s t : State} (h : Atom k s t) : MacChange k s t := by
  have rest : ∀ u : State, u.dma.regs = s.dma.regs → u.dma.rxActive = s.dma.rxActive → u.dma.txActive = s.dma.txActive →
      u.dma.mdioBusy = s.dma.mdioBusy → u.dma.lmState = s.dma.lmState → u.initState = s.initState → MacChange k s u :=
    fun u hr => .of_eq (hr ▸ rfl) (hr ▸ rfl)
  cases h with
  | mac _ r v => exact .written s r v
  | rxIdle => exact { rest s rfl rfl rfl rfl rfl rfl with rx := fun _ _ _ => rfl }
  | txIdle => exact { rest s rfl rfl rfl rfl rfl rfl with tx := fun _ _ => rfl }
  | mdioBusy _ b => exact { rest s rfl rfl rfl rfl rfl rfl with busy := fun hk => absurd rfl hk }
  | monitor _ x b => exact { rest s rfl rfl rfl rfl rfl rfl with monitor := fun hk => absurd rfl hk }
  | dmaCleared => exact { rest s rfl rfl rfl rfl rfl rfl with monitor := fun _ hk => absurd rfl hk }
  | initState _ x => exact { rest s rfl rfl rfl rfl rfl rfl with phase := fun hk => absurd rfl hk }
  | sessionStart => exact { rest s rfl rfl rfl rfl rfl rfl with phase := fun _ hk => absurd rfl hk }
  | rxReleased => exact .of_eq rfl rfl rfl rfl rfl rfl rfl
  | txFinished => exact .of_eq rfl rfl rfl rfl rfl rfl rfl
  | mdioFinished => exact .of_eq rfl rfl rfl rfl rfl rfl rfl
  | mdioWritten => exact .of_eq rfl rfl rfl rfl rfl rfl rfl
  | collSet _ half k => cases half <;> exact rest _ rfl rfl rfl rfl rfl rfl
  | cacheRead _ a n =>
    obtain ⟨c, hc⟩ := hostReadRange_rest s.dma a n
    simp only [hc]
    exact rest _ rfl rfl rfl rfl rfl rfl
  | cacheWrite _ a bs =>
    obtain ⟨c, hc⟩ := hostWriteRange_rest s.dma a bs
    simp only [hc]
    exact rest _ rfl rfl rfl rfl rfl rfl
  | _ => exact rest _ rfl rfl rfl rfl rfl rfl

/-! ## The management bus (R181 to R187) -/

/-- Whether a transaction is in flight, and where the monitor stands. -/
def Bus (b : Bool) (x : LmState) (s : State) : Prop := s.dma.mdioBusy = b ∧ s.dma.lmState = x

theorem Atom.bus {k : Kind} (hk : k ∉ [.mdioBusy, .monitor, .dmaCleared]) {s t : State} (h : Atom k s t) {b : Bool} {x : LmState}
    (hs : Bus b x s) : Bus b x t := by
  simp only [List.mem_cons, List.not_mem_nil, or_false, not_or] at hk
  obtain ⟨h1, h2, h3⟩ := hk
  exact ⟨(h.macChange.busy h1).trans hs.1, (h.macChange.monitor h2 h3).trans hs.2⟩

section

variable {b : Bool} {x : LmState}

theorem bus_of_chain {l : List Kind} (hl : ∀ k ∈ l, k ∉ [.mdioBusy, .monitor, .dmaCleared]) {m : M α} (h : Steps (Chain l) m) :
    Kept (Bus b x) m := Kept.of_chain (fun k hk _ _ ha => ha.bus (hl k hk)) h

theorem boundary_bus : Kept (Bus b x) boundary := bus_of_chain (by decide) boundary_steps

/-- A micro-step that touches neither the bus nor the monitor. -/
theorem micro_bus {m : M α} (h : Kept (Bus b x) m) : Kept (Bus b x) (micro m) :=
  Ensures.micro (Q := fun _ => Bus b x) h fun _ => boundary_bus

theorem macWrite_bus (r : MacReg) (v : U32) : Kept (Bus b x) (macWrite r v) := by
  intro s a t h hs
  cases macWrite_inv h
  exact (Atom.mac s r v).bus (by simp) hs

theorem macRead_bus (r : MacReg) : Kept (Bus b x) (macRead r) := Steps.get_bind' fun _ => Steps.pure Kept.chains _

theorem setMdioBusy_bus (c : Bool) : Ensures (Bus b x) (setMdioBusy c) fun _ => Bus c x := Ensures.modifies fun _ hs => ⟨rfl, hs.2⟩

theorem micro_setMdioBusy (c : Bool) : Ensures (Bus b x) (micro (setMdioBusy c)) fun _ => Bus c x :=
  Ensures.micro (setMdioBusy_bus c) fun _ => boundary_bus

/-- After an issue the bus is busy, and the frame went out if it was free (R181). -/
theorem mdioIssue_bus (f : U32) : Ensures (Bus b x) (mdioIssue f) fun r s => r = !b ∧ Bus true x s := by
  refine Ensures.get_bind fun u hu => Ensures.ite (fun hb => Ensures.pure fun s hs => ?_) fun hb => ?_
  · subst hs
    exact ⟨by rw [← hu.1, hb]; rfl, hb, hu.2⟩
  · have hf : b = false := by rw [← hu.1]; simpa using hb
    subst hf
    refine Ensures.pre (Q := fun r s => r = !false ∧ Bus true x s) (P := Bus false x) ?_ fun s hs => hs ▸ hu
    refine Ensures.bind (micro_bus (macWrite_bus _ _)).ensures fun _ => Ensures.bind (micro_bus (macWrite_bus _ _)).ensures fun _ => ?_
    exact Ensures.bind (micro_setMdioBusy true) fun _ => Ensures.pure fun _ h => ⟨rfl, h⟩

/-- A collect that returns a value frees the bus, any other leaves it as it is (R183). -/
theorem mdioCollect_bus : Ensures (Bus b x) mdioCollect fun r => Bus (b && r.isNone) x := by
  have same : Ensures (Bus b x) (pure none : M (Option U16)) fun r => Bus (b && r.isNone) x :=
    Ensures.pure fun _ h => by simpa using h
  refine Ensures.get_keep fun u hu => Ensures.ite (fun _ => ?_) fun _ => same
  refine Ensures.bind (micro_bus (macRead_bus _)).ensures fun e => Ensures.ite (fun _ => ?_) fun _ => same
  refine Ensures.bind (micro_bus (macRead_bus _)).ensures fun f => ?_
  refine Ensures.bind (Ensures.micro (Ensures.bind (macWrite_bus _ _).ensures fun _ => setMdioBusy_bus false) fun _ => boundary_bus)
    fun _ => Ensures.pure fun _ h => ?_
  simpa using h

/-- The blocking wrapper leaves the bus free, whether the value came or not (R184). -/
theorem mdioAwait_bus (n : Nat) : Ensures (Bus b x) (mdioAwait n) fun _ => Bus false x := by
  induction n generalizing b with
  | zero => exact Ensures.bind (micro_setMdioBusy false) fun _ => Ensures.pure fun _ h => h
  | succ n ih =>
    refine Ensures.bind mdioCollect_bus fun r => ?_
    cases r with
    | none => exact ih
    | some v => exact Ensures.pure fun _ h => by simpa using h

/-! Blocking PHY access starts and ends with a free bus (R184 to R187). -/

theorem mdioTransact_bus (f : U32) : Kept (Bus false x) (mdioTransact f) := by
  refine Steps.config_bind fun c => ?_
  refine Ensures.bind (mdioIssue_bus f) fun r => Ensures.ite (fun _ => ?_) fun hr => ?_
  · exact (mdioAwait_bus _).pre (fun _ h => h.2)
  · exact fun s a t _ hs => absurd hs.1 hr

theorem mdioRead_bus (ra : BitVec 5) : Kept (Bus false x) (mdioRead ra) := Steps.config_bind fun _ => mdioTransact_bus _

theorem mdioWrite_bus (ra : BitVec 5) (v : U16) : Kept (Bus false x) (mdioWrite ra v) :=
  Steps.config_bind fun _ => Steps.bind Kept.chains (mdioTransact_bus _) fun _ => Steps.pure Kept.chains _

theorem phySelect_bus (a : U16) : Kept (Bus false x) (phySelect a) := by
  refine Steps.bind Kept.chains (mdioWrite_bus _ _) fun _ => Steps.ite (fun _ => ?_) fun _ => Steps.pure Kept.chains _
  exact Steps.bind Kept.chains (mdioWrite_bus _ _) fun _ => Steps.ite (fun _ => mdioWrite_bus _ _) fun _ => Steps.pure Kept.chains _

theorem phyWrite_bus (a v : U16) : Kept (Bus false x) (phyWrite a v) := by
  refine Steps.ite (fun _ => mdioWrite_bus _ _) fun _ => ?_
  exact Steps.bind Kept.chains (phySelect_bus a) fun _ => Steps.ite (fun _ => mdioWrite_bus _ _) fun _ => Steps.pure Kept.chains _

theorem tune_bus (l : List (U16 × U16)) : Kept (Bus false x) (tune l) := by
  induction l with
  | nil => exact Steps.pure Kept.chains _
  | cons p rest ih => exact Steps.bind Kept.chains (phyWrite_bus _ _) fun _ => Steps.ite (fun _ => ih) fun _ => Steps.pure Kept.chains _

theorem dmaProbe_bus : Kept (Bus false x) dmaProbe := by
  have keep : ∀ {f : DmaState → DmaState}, (∀ d, (f d).mdioBusy = d.mdioBusy ∧ (f d).lmState = d.lmState) →
      Kept (Bus false x) (micro (modifyDma f)) := fun hf =>
    micro_bus (Steps.modifies fun s hs => ⟨(hf s.dma).1.trans hs.1, (hf s.dma).2.trans hs.2⟩)
  refine Steps.config_bind fun c => ?_
  refine Steps.bind Kept.chains (keep fun _ => ⟨rfl, rfl⟩) fun _ => Steps.bind Kept.chains (keep fun _ => ⟨rfl, rfl⟩) fun _ => ?_
  refine Steps.bind Kept.chains (keep fun _ => ⟨rfl, rfl⟩) fun _ => Steps.bind Kept.chains (mdioRead_bus _) fun hi => ?_
  refine Steps.bind Kept.chains (mdioRead_bus _) fun lo => Steps.ite (fun _ => Steps.modifies fun _ h => h) fun _ => ?_
  refine Steps.bind Kept.chains (keep fun _ => ⟨rfl, rfl⟩) fun _ => Steps.bind Kept.chains (keep fun _ => ⟨rfl, rfl⟩) fun _ => ?_
  exact Steps.bind Kept.chains (keep fun _ => ⟨rfl, rfl⟩) fun _ => Steps.modifies fun _ h => h

end

end Sys2Proof.Machine
end

section
/-! SUPPORT. The MAC follows the session (R37, R195, R196, R198, R302). -/

namespace Sys2Proof.Machine

variable {α : Type}

/-- Both engines off, the MAC disabled and its interrupts masked (R198). -/
structure MacOff (s : State) : Prop where
  ecr : s.dma.regs.ecr = 0
  eimr : s.dma.regs.eimr = 0
  rx : s.dma.rxActive = false
  tx : s.dma.txActive = false

/-- The MAC enabled and its receive interrupt unmasked (R195, R196). -/
structure MacOn (s : State) : Prop where
  ecr : s.dma.regs.ecr = 1
  eimr : s.dma.regs.eimr = 1

/-- A transaction is in flight exactly while the monitor waits for it (R302). -/
def BusRule (s : State) : Prop := s.dma.mdioBusy = true ↔ s.dma.lmState ≠ .idle

/-- MacInv in a session of the DMA build. -/
structure MacInside (s : State) : Prop where
  phase : s.initState = .initialized
  on : MacOn s
  bus : BusRule s

/-- MacInv outside a session of the DMA build. -/
structure MacOutside (s : State) : Prop where
  phase : s.initState ≠ .initialized
  off : MacOff s
  bus : Bus false .idle s

theorem macInv_iff {s : State} (hb : s.cfg.backend = .dma) : MacInv s ↔ MacInside s ∨ MacOutside s := by
  constructor
  · intro h
    by_cases hi : s.initState = .initialized
    · obtain ⟨h1, h2, h3⟩ := h.inside ⟨hb, hi⟩
      exact .inl ⟨hi, ⟨h1, h2⟩, h3⟩
    · obtain ⟨h1, h2, h3, h4, h5, h6⟩ := h.outside hb hi
      exact .inr ⟨hi, ⟨h1, h2, h3, h4⟩, h5, h6⟩
  · rintro (h | h)
    · exact ⟨fun _ => ⟨h.on.ecr, h.on.eimr, h.bus⟩, fun _ hi => absurd h.phase hi⟩
    · exact ⟨fun hd => absurd hd.2 h.phase, fun _ _ => ⟨h.off.ecr, h.off.eimr, h.off.rx, h.off.tx, h.bus.1, h.bus.2⟩⟩

theorem macOutside_of {s : State} (h : In .dma MacInv s) (hi : s.initState ≠ .initialized) : MacOutside s :=
  ((macInv_iff h.1).mp h.2).resolve_left fun hs => hi hs.phase

theorem macInside_of {s : State} (h : In .dma MacInv s) (hi : s.initState = .initialized) : MacInside s :=
  ((macInv_iff h.1).mp h.2).resolve_right fun hs => hs.phase hi

theorem MacOutside.inv {s : State} (hb : s.cfg.backend = .dma) (h : MacOutside s) : In .dma MacInv s :=
  ⟨hb, (macInv_iff hb).mpr (.inr h)⟩

theorem MacInside.inv {s : State} (hb : s.cfg.backend = .dma) (h : MacInside s) : In .dma MacInv s :=
  ⟨hb, (macInv_iff hb).mpr (.inl h)⟩

/-! ## The changes that each part survives -/

/-- The kinds that can end `MacOn`. -/
def onKinds : List Kind := [.mac .ecr, .mac .eimr]

/-- The kinds that can end `MacOff`: the doorbells start an engine. -/
def offKinds : List Kind := onKinds ++ [.mac .rdar, .mac .tdar]

/-- The kinds that move the bus or the monitor. -/
def monitorKinds : List Kind := [.mdioBusy, .monitor, .dmaCleared]

/-- The kinds that start or end a session. -/
def phaseKinds : List Kind := [.initState, .sessionStart]

section

variable {k : Kind} {s t : State}

theorem Atom.macOff (hk : k ∉ offKinds) (h : Atom k s t) (hs : MacOff s) : MacOff t := by
  simp only [offKinds, onKinds, List.mem_append, List.mem_cons, List.not_mem_nil, or_false, not_or] at hk
  obtain ⟨⟨h1, h2⟩, h3, h4⟩ := hk
  have hm := h.macChange
  exact ⟨(hm.ecr h1).trans hs.ecr, (hm.eimr h2).trans hs.eimr, hm.rx h1 h3 hs.rx, hm.tx h4 hs.tx⟩

theorem Atom.macOn (hk : k ∉ onKinds) (h : Atom k s t) (hs : MacOn s) : MacOn t := by
  simp only [onKinds, List.mem_cons, List.not_mem_nil, or_false, not_or] at hk
  exact ⟨(h.macChange.ecr hk.1).trans hs.ecr, (h.macChange.eimr hk.2).trans hs.eimr⟩

theorem Atom.busRule (hk : k ∉ monitorKinds) (h : Atom k s t) (hs : BusRule s) : BusRule t := by
  have hb : Bus s.dma.mdioBusy s.dma.lmState t := h.bus hk ⟨rfl, rfl⟩
  unfold BusRule
  rw [hb.1, hb.2]
  exact hs

theorem Atom.phase (hk : k ∉ phaseKinds) (h : Atom k s t) : t.initState = s.initState := by
  simp only [phaseKinds, List.mem_cons, List.not_mem_nil, or_false, not_or] at hk
  exact h.macChange.phase hk.1 hk.2

theorem Atom.macOutside (hk : k ∉ offKinds ++ monitorKinds ++ phaseKinds) (h : Atom k s t) (hs : MacOutside s) : MacOutside t := by
  simp only [List.mem_append, not_or] at hk
  obtain ⟨⟨h1, h2⟩, h3⟩ := hk
  exact ⟨h.phase h3 ▸ hs.phase, h.macOff h1 hs.off, h.bus h2 hs.bus⟩

theorem Atom.macInside (hk : k ∉ onKinds ++ monitorKinds ++ phaseKinds) (h : Atom k s t) (hs : MacInside s) : MacInside t := by
  simp only [List.mem_append, not_or] at hk
  obtain ⟨⟨h1, h2⟩, h3⟩ := hk
  exact ⟨(h.phase h3).trans hs.phase, h.macOn h1 hs.on, h.busRule h2 hs.bus⟩

theorem Atom.macInv (hk : k ∉ offKinds ++ monitorKinds ++ phaseKinds) (h : Atom k s t) (hs : In .dma MacInv s) : In .dma MacInv t := by
  have hb : t.cfg.backend = .dma := h.cfg ▸ hs.1
  rcases (macInv_iff hs.1).mp hs.2 with hi | ho
  · refine (h.macInside (fun hm => hk ?_) hi).inv hb
    simp only [offKinds, List.mem_append] at hm ⊢
    exact hm.imp_left (Or.imp_left Or.inl)
  · exact (h.macOutside hk ho).inv hb

end

theorem macInv_portFree : PortFree (In .dma MacInv) :=
  ⟨fun _ _ _ h => ⟨h.1, { h.2 with }⟩, fun _ _ h => ⟨h.1, { h.2 with }⟩⟩

theorem macOff_of_on {l : List Kind} (hl : ∀ k ∈ l, k ∉ offKinds) {m : M α} (h : Steps (On .dma l) m) : Kept (In .dma MacOff) m :=
  Kept.of_on (fun k hk _ _ ha => ha.macOff (hl k hk)) h

theorem macOff_of_chain {l : List Kind} (hl : ∀ k ∈ l, k ∉ offKinds) {m : M α} (h : Steps (Chain l) m) : Kept MacOff m :=
  Kept.of_chain (fun k hk _ _ ha => ha.macOff (hl k hk)) h

theorem bus_of_on {b : Bool} {x : LmState} {l : List Kind} (hl : ∀ k ∈ l, k ∉ monitorKinds) {m : M α} (h : Steps (On .dma l) m) :
    Kept (In .dma (Bus b x)) m := Kept.of_on (fun k hk _ _ ha => ha.bus (hl k hk)) h

theorem eimr_boundary {v : U32} : Kept (fun s => s.dma.regs.eimr = v) boundary :=
  Kept.of_chain (l := agentKinds) (fun k hk _ _ ha hs => (ha.macChange.eimr (by rintro rfl; exact absurd hk (by decide))).trans hs)
    boundary_steps

theorem macOff_boundary : Kept MacOff boundary := macOff_of_chain (by decide) boundary_steps

theorem macOn_boundary : Kept MacOn boundary := Kept.of_chain (fun k hk _ _ ha => ha.macOn
  (of_decide_eq_true (p := ∀ k ∈ agentKinds, k ∉ onKinds) rfl k hk)) boundary_steps

/-! ## The host's writes that enable and disable the MAC (R195, R196, R198) -/

theorem macWrite_eimr (v : U32) : Ensures (fun _ => True) (micro (macWrite .eimr v)) fun _ s => s.dma.regs.eimr = v &&& 7 := by
  refine Ensures.micro (fun s a t h _ => ?_) fun _ => eimr_boundary
  cases macWrite_inv h
  rfl

theorem macWrite_eimr_kept {r : MacReg} (hr : r ≠ .eimr) (v : U32) {w : U32} : Kept (fun s => s.dma.regs.eimr = w) (macWrite r v) := by
  intro s a t h hs
  cases macWrite_inv h
  exact ((Atom.mac s r v).macChange.eimr (by simpa using hr)).trans hs

theorem macWrite_ecr_on : Ensures (fun s => s.dma.regs.eimr = 1) (micro (macWrite .ecr 1)) fun _ => MacOn := by
  refine Ensures.micro (fun s a t h hs => ⟨?_, macWrite_eimr_kept (by simp) _ _ _ _ h hs⟩) fun _ => macOn_boundary
  cases macWrite_inv h
  show (s.dma.writeEcr 1).regs.ecr = 1
  unfold DmaState.writeEcr
  rw [if_pos (by decide)]
  split <;> rfl

theorem macWrite_ecr_off : Ensures (fun s => s.dma.regs.eimr = 0) (micro (macWrite .ecr 0)) fun _ => MacOff := by
  refine Ensures.micro (fun s a t h hs => ?_) fun _ => macOff_boundary
  cases macWrite_inv h
  exact ⟨rfl, hs, rfl, rfl⟩

/-! ## HAS_HARDWARE and INIT -/

theorem dmaProbe_outcome : Ensures (fun _ => True) dmaProbe fun _ s => s.initState ≠ .initialized := by
  refine Ensures.last (m := config) fun c => ?_
  iterate 5 refine Ensures.last fun _ => ?_
  refine Ensures.ite (fun _ => Ensures.modifies fun _ _ => by simp) fun _ => ?_
  iterate 3 refine Ensures.last fun _ => ?_
  exact Ensures.modifies fun _ _ => by simp [State.raise]

theorem dmaProbe_outside : Kept (In .dma MacOutside) dmaProbe := fun s a t h hs =>
  have hoff := macOff_of_on (by decide) dmaProbe_steps s a t h ⟨hs.1, hs.2.off⟩
  ⟨hoff.1, dmaProbe_outcome s a t h trivial, hoff.2, dmaProbe_bus s a t h hs.2.bus⟩

/-- The probe runs outside a session and stays there (R151). -/
theorem startProbe_outside {u : State} (h : In .dma MacInv u) :
    Ensures (fun s => s = u) (onlyIf (u.initState = .start) probe) fun _ s => In .dma MacInv s ∧
      (u.initState ≠ .initialized → In .dma MacOutside s) := by
  refine Ensures.ite (fun hp => ?_) fun hp => Ensures.pure fun s hs => by
    subst hs
    exact ⟨h, fun hi => ⟨h.1, macOutside_of h hi⟩⟩
  refine Ensures.mono (Ensures.onDma (Q := fun _ => In .dma MacOutside) dmaProbe_outside) ?_ fun _ s hs => ⟨hs.2.inv hs.1, fun _ => hs⟩
  exact fun s hs => hs ▸ ⟨h.1, macOutside_of h (by simp [hp])⟩

theorem hasHardware_macInv : Kept (In .dma MacInv) hasHardware :=
  Ensures.get_bind fun _ hu => Ensures.bind (startProbe_outside hu) fun _ => Ensures.get_bind fun _ hv => Ensures.pure fun _ hs =>
    hs ▸ hv.1

theorem dmaUnmask_on : Ensures (fun _ => True) dmaUnmask fun _ s => s.dma.regs.eimr = 1 := Ensures.last fun _ => macWrite_eimr 1

theorem dmaEnable_on : Ensures (fun s => s.dma.regs.eimr = 1) dmaEnable fun _ => MacOn := by
  refine Ensures.bind (R := fun _ s => s.dma.regs.eimr = 1) (Ensures.modifies fun _ h => h) fun _ => ?_
  exact Ensures.bind (Ensures.micro (Ensures.modifies fun _ h => h) fun _ => eimr_boundary) fun _ => macWrite_ecr_on

theorem dmaBringUp_on (m : MacAddr) : Ensures (fun _ => True) (dmaBringUp m) fun _ => MacOn :=
  Ensures.last fun _ => Ensures.last fun _ => Ensures.bind dmaUnmask_on fun _ => dmaEnable_on

theorem dmaUnmask_bus {b : Bool} {x : LmState} : Kept (Bus b x) dmaUnmask :=
  Steps.bind Kept.chains (micro_bus (macWrite_bus _ _)) fun _ => micro_bus (macWrite_bus _ _)

theorem dmaEnable_bus {b : Bool} {x : LmState} : Ensures (Bus b x) dmaEnable fun _ => Bus b .idle := by
  refine Ensures.bind (R := fun _ => Bus b .idle) (Ensures.modifies fun _ h => ⟨h.1, rfl⟩) fun _ => ?_
  exact Ensures.bind (Ensures.micro (Ensures.modifies fun _ h => h) fun _ => boundary_bus) fun _ => (micro_bus (macWrite_bus _ _)).ensures

/-- INIT's part of the DMA build touches no transaction and starts the monitor afresh (R192 to R196). -/
theorem dmaBringUp_bus {b : Bool} {x : LmState} (m : MacAddr) :
    Ensures (In .dma (Bus b x)) (dmaBringUp m) fun _ => Bus b .idle := by
  refine Ensures.bind (bus_of_on (by decide) dmaRings_steps).ensures fun _ => ?_
  refine Ensures.bind (bus_of_on (by decide) (dmaProgram_steps m)).ensures fun _ => ?_
  exact (Ensures.bind dmaUnmask_bus.ensures fun _ => dmaEnable_bus).pre (fun _ h => h.2)

/-- What a session of the DMA build starts with. -/
structure Brought (s : State) : Prop where
  on : MacOn s
  bus : Bus false .idle s

theorem dmaBringUp_brought (m : MacAddr) : Ensures (In .dma MacOutside) (dmaBringUp m) fun _ => In .dma Brought := fun s a t h hs =>
  ⟨(kept_build (dmaBringUp_steps m) s a t h ⟨hs.1, trivial⟩).1, dmaBringUp_on m s a t h trivial,
    dmaBringUp_bus m s a t h ⟨hs.1, hs.2.bus⟩⟩

theorem tune_outside (l : List (U16 × U16)) : Kept (In .dma MacOutside) (tune l) := fun s a t h hs =>
  have hoff := macOff_of_on (by decide) (tune_steps l) s a t h ⟨hs.1, hs.2.off⟩
  have hp := (tune_steps l s a t h hs.1).lift (R := fun s t => t.initState = s.initState) ⟨fun _ => rfl, fun _ _ _ h k => k.trans h⟩
    fun k _ _ hk _ ha => ha.phase (of_decide_eq_true (p := ∀ k ∈ mdioKinds, k ∉ phaseKinds) rfl k hk)
  ⟨hoff.1, hp ▸ hs.2.phase, hoff.2, tune_bus l s a t h hs.2.bus⟩

theorem dmaInit_brought (m : MacAddr) :
    Ensures (In .dma MacOutside) (dmaInit m) fun ok s => if ok then In .dma Brought s else In .dma MacOutside s := by
  have up : Ensures (In .dma MacOutside) (do dmaBringUp m; pure true : M Bool)
      fun ok s => if ok then In .dma Brought s else In .dma MacOutside s :=
    Ensures.bind (dmaBringUp_brought m) fun _ => Ensures.pure fun _ h => h
  refine Ensures.get_keep fun u hu => Ensures.ite (fun _ => ?_) fun _ => up
  refine Ensures.bind (tune_outside _).ensures fun ok => Ensures.ite (fun _ => ?_) fun _ => Ensures.pure fun _ h => h
  have reached : Ensures (In .dma MacOutside) (modify fun s => { s with initState := .phyInitialized }) fun _ => In .dma MacOutside :=
    Ensures.modifies fun _ h => ⟨h.1, by simp, { h.2.off with }, h.2.bus⟩
  exact Ensures.bind reached fun _ => up

/-- INIT past the probe: a session with the MAC enabled, or none (R153, R154). -/
theorem initialiseProbed_macInv (m : MacAddr) : Ensures (In .dma MacOutside) (initialiseProbed m) fun _ => In .dma MacInv := by
  refine Ensures.get_keep fun u hu => Ensures.ite (fun _ => Ensures.pure fun _ h => h.2.inv h.1) fun _ => ?_
  refine Ensures.bind (Ensures.onDma (dmaInit_brought m)) fun ok => Ensures.ite (fun hok => ?_) fun hok => ?_
  · refine Ensures.bind (R := fun _ => In .dma MacInv) (Ensures.modifies fun s hs => ?_) fun _ => Ensures.pure fun _ h => h
    obtain ⟨hb, ho⟩ : In .dma Brought s := by simpa [hok] using hs
    refine MacInside.inv hb ⟨rfl, { ho.on with }, ?_⟩
    simp [BusRule, ho.bus.1, ho.bus.2]
  · refine Ensures.pure fun s hs => ?_
    have ho : In .dma MacOutside s := by simpa [hok] using hs
    exact ho.2.inv ho.1

theorem initialise_macInv (m : MacAddr) : Kept (In .dma MacInv) (initialise m) := by
  refine Ensures.get_bind (Q := fun _ => In .dma MacInv) fun u hu => Ensures.ite (fun _ => Ensures.pure fun s hs => hs ▸ hu) fun hi => ?_
  exact Ensures.bind ((startProbe_outside hu).mono (fun _ h => h) fun _ s hs => hs.2 hi) fun _ => initialiseProbed_macInv m

/-! ## DEINIT -/

theorem dmaShutDown_off : Ensures (fun _ => True) dmaShutDown fun _ => MacOff := by
  have keep : ∀ {r : MacReg} {v : U32}, Kind.mac r ∉ offKinds → Kept MacOff (micro (macWrite r v)) := fun {r v} hr =>
    Ensures.micro (Q := fun _ => MacOff) (fun s a t h hs => by cases macWrite_inv h; exact (Atom.mac s r v).macOff hr hs)
      fun _ => macOff_boundary
  refine Ensures.bind (macWrite_eimr 0) fun _ => Ensures.bind macWrite_ecr_off fun _ => ?_
  refine Ensures.bind (keep (by decide)).ensures fun _ => Ensures.bind (keep (by decide)).ensures fun _ => ?_
  refine Ensures.bind (keep (by decide)).ensures fun _ => ?_
  exact Ensures.micro (Ensures.modifies fun _ h => { h with }) fun _ => macOff_boundary

theorem dmaShutDown_bus {b : Bool} {x : LmState} : Ensures (Bus b x) dmaShutDown fun _ => Bus false x := by
  have keep : ∀ {r : MacReg} {v : U32}, Ensures (Bus b x) (micro (macWrite r v)) fun _ => Bus b x :=
    (micro_bus (macWrite_bus _ _)).ensures
  refine Ensures.bind keep fun _ => Ensures.bind keep fun _ => Ensures.bind keep fun _ => Ensures.bind keep fun _ => ?_
  exact Ensures.bind keep fun _ => micro_setMdioBusy false

/-- What the end of a session leaves (R156, R198). -/
structure Ended (s : State) : Prop where
  phase : s.initState ≠ .initialized
  off : MacOff s
  free : s.dma.mdioBusy = false

theorem endSession_ended : Ensures (In .dma fun _ => True) endSession fun _ => Ended := by
  have down : Ensures (In .dma fun _ => True) (byBackend dmaShutDown spiShutDown) fun _ s => MacOff s ∧ Bus false s.dma.lmState s :=
    Ensures.onDma fun s a t h _ => ⟨dmaShutDown_off s a t h trivial, (dmaShutDown_bus s a t h ⟨rfl, rfl⟩).1, rfl⟩
  refine Ensures.bind down fun _ => Ensures.bind (R := fun _ s => MacOff s ∧ s.dma.mdioBusy = false) (fun s a t h hs => ?_) fun _ => ?_
  · exact ⟨macOff_of_chain (by decide) reportDown_steps s a t h hs.1, (bus_of_chain (by decide) reportDown_steps s a t h hs.2).1⟩
  · exact Ensures.modifies fun _ h => ⟨by simp, { h.1 with }, h.2⟩

theorem Ended.cleared {u : State} (h : Ended u) :
    MacOutside { u.stepBack.sessionCleared with dma := u.stepBack.sessionCleared.dma.sessionCleared } where
  phase := by
    show u.stepBack.initState ≠ _
    unfold State.stepBack
    split
    · simp
    · exact h.phase
  off := by
    have hd : u.stepBack.sessionCleared.dma = u.dma := by simp
    rw [hd]
    exact { h.off with }
  bus := by
    have hd : u.stepBack.sessionCleared.dma = u.dma := by simp
    rw [hd]
    exact ⟨h.free, rfl⟩

theorem deinitialise_macInv : Kept (In .dma MacInv) deinitialise := by
  intro s a t h hs
  obtain ⟨u, h1, hc, rfl⟩ := deinitialise_inv hs.1 h
  refine Ended.cleared ?_ |>.inv (by simpa [hc] using hs.1)
  by_cases hi : s.initState = .initialized
  · rw [onlyIf, if_pos hi] at h1
    exact endSession_ended s _ u h1 ⟨hs.1, trivial⟩
  · rw [onlyIf, if_neg hi] at h1
    cases h1
    have ho := macOutside_of hs hi
    exact ⟨hi, ho.off, ho.bus.1⟩

/-! ## POLL (R302) -/

theorem pollIdle_busRule : Ensures (Bus false .idle) pollIdle fun _ => BusRule := by
  refine Ensures.config_bind fun c => Ensures.bind ((mdioIssue_bus _).pre (fun _ h => h.2)) fun r => ?_
  refine Ensures.ite (fun _ => Ensures.modifies fun s hs => ?_) fun hr s a t _ hs => absurd hs.1 hr
  simp [BusRule, hs.2.1]

theorem pollWaitLink_busRule : Ensures (Bus true .waitLink) pollWaitLink fun _ => BusRule := by
  refine Ensures.config_bind fun c => Ensures.bind (mdioCollect_bus.pre (fun _ h => h.2)) fun r => ?_
  cases r with
  | none => exact Ensures.pure fun s hs => by simp [BusRule, hs.1, hs.2]
  | some v =>
    refine Ensures.bind (R := fun _ => Bus false .waitLink) (Ensures.modifies fun s hs => ⟨hs.1, hs.2⟩) fun _ => ?_
    refine Ensures.bind (mdioIssue_bus _) fun r => Ensures.ite (fun _ => Ensures.modifies fun s hs => ?_) fun hr s a t _ hs => absurd hs.1 hr
    simp [BusRule, hs.2.1]

theorem pollWaitStatus_busRule : Ensures (Bus true .waitStatus) pollWaitStatus fun _ => BusRule := by
  refine Ensures.bind mdioCollect_bus fun r => ?_
  cases r with
  | none => exact Ensures.pure fun s hs => by simp [BusRule, hs.1, hs.2]
  | some v =>
    refine Ensures.get_keep (P := Bus false .waitStatus) fun u hu => ?_
    refine Ensures.bind (R := fun _ => Bus false .waitStatus) (Steps.onlyIf Kept.chains fun _ => Steps.modifies fun _ h => h) fun _ => ?_
    refine Ensures.bind (bus_of_chain (by decide) (evaluate_steps _)).ensures fun _ => Ensures.modifies fun s hs => ?_
    simp [BusRule, hs.1]

theorem dmaPoll_busRule : Kept BusRule dmaPoll := by
  refine Ensures.get_bind (Q := fun _ => BusRule) fun u hu => ?_
  have bus : ∀ s, s = u → Bus (decide (u.dma.lmState ≠ .idle)) u.dma.lmState s := fun s hs => by
    subst hs
    exact ⟨Bool.eq_iff_iff.mpr (by simpa [BusRule] using hu), rfl⟩
  cases hx : u.dma.lmState with
  | idle => exact pollIdle_busRule.pre (fun s hs => by simpa [hx] using bus s hs)
  | waitLink => exact pollWaitLink_busRule.pre (fun s hs => by simpa [hx] using bus s hs)
  | waitStatus => exact pollWaitStatus_busRule.pre (fun s hs => by simpa [hx] using bus s hs)

theorem dmaPoll_inside : Kept (In .dma MacInside) dmaPoll := fun s a t h hs =>
  have hc := dmaPoll_steps s a t h hs.1
  have hk : ∀ k ∈ dmaPollKinds, k ∉ onKinds ∧ k ∉ phaseKinds := of_decide_eq_true rfl
  have hon := Chain.lift (R := fun s t => MacOn s → MacOn t) (Chains.keeps _) (fun k _ _ hm _ ha => ha.macOn (hk k hm).1) hc
  have hp := Chain.lift (R := fun s t => t.initState = s.initState) ⟨fun _ => rfl, fun _ _ _ h k => k.trans h⟩
    (fun k _ _ hm _ ha => ha.phase (hk k hm).2) hc
  ⟨hc.cfg ▸ hs.1, hp.trans hs.2.phase, hon hs.2.on, dmaPoll_busRule s a t h hs.2.bus⟩

theorem pollOp_macInv : Kept (In .dma MacInv) pollOp := by
  refine Ensures.get_bind (Q := fun _ => In .dma MacInv) fun u hu => Ensures.ite (fun hi => ?_) fun _ => ?_
  · have poll : Ensures (In .dma MacInside) (byBackend dmaPoll spiPoll) fun _ => In .dma MacInside := Ensures.onDma dmaPoll_inside
    exact Ensures.bind (poll.pre (fun s hs => hs ▸ ⟨hu.1, macInside_of hu hi⟩)) fun _ => Ensures.pure fun _ h => h.2.inv h.1
  · exact Ensures.bind (R := fun _ => In .dma MacInv) (Ensures.modifies fun s hs => hs ▸ hu) fun _ => Ensures.pure fun _ h => h

/-! ## Every instruction -/

/-- The operations that move frames: the data plane (R162). -/
def movesFrames : Instr → Bool
  | .procInput _ | .pipeProcInput | .output _ | .outputFrame _ | .pipeTxChain _ | .pipeTxRaw _ => true
  | _ => false

/-- While the data plane is closed they only answer (R162). -/
theorem exec_closed {i : Instr} {s : State} (hi : movesFrames i = true) (hc : dataPlaneClosed s = true) :
    ∃ r, exec i s = .next (s.respond r) := by
  cases i with
  | procInput c => exact ⟨_, runCommand_ok (bind_ok (procInput_closed hc c.toNat))⟩
  | pipeProcInput => exact ⟨_, runCommand_ok (pipeProcInput_closed hc)⟩
  | output b => exact ⟨_, runCommand_ok (bind_ok (outputOp_closed hc b))⟩
  | outputFrame b => exact ⟨_, runCommand_ok (bind_ok (outputOp_closed hc b))⟩
  | pipeTxChain b => exact ⟨_, runCommand_ok (bind_ok (pipeTxChain_closed hc b))⟩
  | pipeTxRaw b => exact ⟨_, runCommand_ok (bind_ok (pipeTxRaw_closed hc b))⟩
  | _ => cases hi

theorem movesFrames_kinds {i : Instr} (hi : movesFrames i = true) : ∀ k ∈ instrKinds i, k ∉ onKinds ++ monitorKinds ++ phaseKinds := by
  cases i with
  | procInput | pipeProcInput | output | outputFrame | pipeTxChain | pipeTxRaw => exact of_decide_eq_true rfl
  | _ => cases hi

theorem movesFrames_macInv {i : Instr} (hi : movesFrames i = true) {s t : State} (h : exec i s = .next t) (hs : In .dma MacInv s) :
    In .dma MacInv t := by
  by_cases hp : s.initState = .initialized
  · obtain ⟨u, hc, ht⟩ := exec_chain h
    have hu : MacInside u := Chain.lift (Chains.keeps MacInside) (fun k _ _ hk _ ha => ha.macInside (movesFrames_kinds hi k hk)) hc
      (macInside_of hs hp)
    have hu' := hu.inv (hc.cfg ▸ hs.1)
    rcases ht with rfl | ⟨r, rfl⟩
    · exact hu'
    · exact macInv_portFree.answered u r hu'
  · obtain ⟨r, hr⟩ := exec_closed hi (by simp [dataPlaneClosed, hp] : dataPlaneClosed s = true)
    cases hr.symm.trans h
    exact macInv_portFree.answered s r hs

theorem exec_macInv {i : Instr} {s t : State} (h : exec i s = .next t) (hs : In .dma MacInv s) : In .dma MacInv t := by
  have hp := macInv_portFree
  have kinds : (∀ k ∈ instrKinds i, k ∉ offKinds ++ monitorKinds ++ phaseKinds) → In .dma MacInv t := fun hk =>
    hp.exec_of_kinds (fun k hk' _ _ ha hu => ha.macInv (hk k hk') hu) h hs
  cases i with
  | procInput | pipeProcInput | output | outputFrame | pipeTxChain | pipeTxRaw => exact movesFrames_macInv rfl h hs
  | hasHardware =>
    exact hp.command (Steps.bind Kept.chains hasHardware_macInv fun _ => Steps.pure Kept.chains _) h hs
  | init m => exact hp.command (Steps.bind Kept.chains (initialise_macInv m) fun _ => Steps.pure Kept.chains _) h hs
  | pipeInit m =>
    refine hp.command (Steps.bind Kept.chains (Steps.bind Kept.chains hasHardware_macInv fun ok => ?_) fun _ => Steps.pure Kept.chains _) h hs
    exact Steps.ite (fun _ => initialise_macInv m) fun _ => Steps.pure Kept.chains _
  | deinit => exact hp.command (thenOk_steps Kept.chains deinitialise_macInv) h hs
  | poll => exact hp.command pollOp_macInv h hs
  | pipePollLink => exact hp.command pollOp_macInv h hs
  | _ => exact kinds (of_decide_eq_true rfl)

/-- Settles O15: outside a session nothing but INIT's bring-up starts the MAC, in a session nothing but DEINIT's shut-down stops it. -/
theorem macEnabledOnlyInSession : Obligations.MacEnabledOnlyInSession := by
  intro s t hs h
  cases hb : s.cfg.backend with
  | dma =>
    have agents : ∀ k ∈ agentKinds, k ∉ offKinds ++ monitorKinds ++ phaseKinds := of_decide_eq_true rfl
    exact (macInv_portFree.step (fun k hk _ _ ha hu => ha.macInv (agents k hk) hu) (fun _ _ _ => exec_macInv) h ⟨hb, hs⟩).2
  | spi =>
    have hc : t.cfg.backend ≠ .dma := by simp [(oneBackend s t h).1, hb]
    exact ⟨fun hd => absurd hd.1 hc, fun hd _ => absurd hd hc⟩

end Sys2Proof.Machine
end

section
/-! SUPPORT. Who counts what (R28, R321 to R323, R344). -/

namespace Sys2Proof.Machine

variable {α : Type}

/-- The property looks at the three counters only. -/
def CountsOnly (P : State → Prop) : Prop :=
  ∀ s t : State, P s → t.cntRxErr = s.cntRxErr → t.cntRxNomem = s.cntRxNomem → t.cntTxAgain = s.cntTxAgain → P t

/-- The two receive error counters stand at `p`. -/
def ErrorsAt (p : U32 × U32) (s : State) : Prop := (s.cntRxErr, s.cntRxNomem) = p

/-- The AGAIN counter stands at `n`. -/
def AgainAt (n : U32) (s : State) : Prop := s.cntTxAgain = n

theorem errorsAt_countsOnly (p : U32 × U32) : CountsOnly (ErrorsAt p) := fun _ _ h he hn _ => by
  unfold ErrorsAt
  rw [he, hn]
  exact h

theorem againAt_countsOnly (n : U32) : CountsOnly (AgainAt n) := fun _ _ h _ _ ha => ha.trans h

theorem CountsOnly.portFree {P : State → Prop} (hP : CountsOnly P) : PortFree P :=
  ⟨fun _ _ _ h => hP _ _ h rfl rfl rfl, fun _ _ h => hP _ _ h rfl rfl rfl⟩

/-- A change of another kind leaves the counters as they are. -/
theorem CountsOnly.atom {P : State → Prop} (hP : CountsOnly P) {k : Kind} (hk : k ≠ .counter) {s t : State} (h : Atom k s t) (hs : P s) :
    P t := by
  cases h with
  | rxErr => exact absurd rfl hk
  | rxNomem => exact absurd rfl hk
  | txAgain => exact absurd rfl hk
  | _ => exact hP _ _ hs rfl rfl rfl

section

variable {P : State → Prop} (hP : CountsOnly P)

include hP

theorem CountsOnly.on {b : Backend} {l : List Kind} (hl : Kind.counter ∉ l) {m : M α} (h : Steps (On b l) m) : Kept (In b P) m :=
  Kept.of_on (fun _ hk _ _ ha => hP.atom (fun e => hl (e ▸ hk)) ha) h

theorem CountsOnly.micro {b : Backend} {m : M α} (h : Kept (In b P) m) : Kept (In b P) (micro m) :=
  micro_steps Kept.chains h (hP.on (l := agentKinds) (by decide) (boundary_steps.on fun _ hk => hk))

theorem CountsOnly.modifies {b : Backend} {f : State → State} (hc : ∀ s, (f s).cfg = s.cfg)
    (h : ∀ s, (f s).cntRxErr = s.cntRxErr ∧ (f s).cntRxNomem = s.cntRxNomem ∧ (f s).cntTxAgain = s.cntTxAgain) :
    Kept (In b P) (modify f : M Unit) :=
  Steps.modifies fun s hs => ⟨hc s ▸ hs.1, hP _ _ hs.2 (h s).1 (h s).2.1 (h s).2.2⟩

theorem CountsOnly.draw {b : Backend} (take : Draws → α × Draws) : Kept (In b P) (drawBy take) :=
  Steps.drawBy fun _ h => ⟨h.1, hP _ _ h.2 rfl rfl rfl⟩

/-! The parts of the data plane that count nothing. -/

theorem CountsOnly.hostRead (a n : Nat) : Kept (In .dma P) (Machine.micro (hostReadBytes a n)) := by
  refine hP.micro (Steps.bind Kept.chains (checkDmaRange_steps Kept.chains _ _) fun _ s b t h hs => ?_)
  rw [get_bind_apply, set_bind_apply] at h
  rw [eq_of_reads (Steps.orFault Chains.eq _ _) h]
  exact ⟨hs.1, hP _ _ hs.2 rfl rfl rfl⟩

theorem CountsOnly.dmaRearm (i : Nat) (st : U16) : Kept (In .dma P) (dmaRearm i st) := by
  have hR := Kept.chains (P := In .dma P)
  have store : ∀ a v, Kept (In .dma P) (Machine.micro (dmaWrite16 a v)) := fun a v =>
    hP.on (l := agentKinds ++ [.descMem]) (by decide) (microStore16 (by decide) (by decide) a v)
  refine Steps.config_bind fun c => Steps.bind hR (store _ _) fun _ => Steps.bind hR (store _ _) fun _ => ?_
  refine Steps.bind hR (hP.on (l := agentKinds ++ [.mac .rdar]) (by decide) (microMac (by decide) (by decide) _)) fun _ => ?_
  refine Steps.bind hR (hP.modifies (fun _ => rfl) fun _ => ⟨rfl, rfl, rfl⟩) fun _ => hP.micro ?_
  exact hP.modifies (fun _ => rfl) fun _ => ⟨rfl, rfl, rfl⟩

theorem CountsOnly.dmaGive (i : Nat) (st : U16) (bytes : List Byte) : Kept (In .dma P) (dmaGive i st bytes) := by
  have hR := Kept.chains (P := In .dma P)
  have store : ∀ a v, Kept (In .dma P) (Machine.micro (dmaWrite16 a v)) := fun a v =>
    hP.on (l := agentKinds ++ [.descMem]) (by decide) (microStore16 (by decide) (by decide) a v)
  refine Steps.config_bind fun c => Steps.bind hR (hP.micro ?_) fun _ => Steps.bind hR (store _ _) fun _ => ?_
  · refine Steps.bind hR (Steps.bind hR (checkDmaRange_steps hR _ _) fun _ => ?_) fun _ => ?_
    · exact hP.modifies (fun _ => rfl) fun _ => ⟨rfl, rfl, rfl⟩
    · exact hP.modifies (fun _ => rfl) fun _ => ⟨rfl, rfl, rfl⟩
  refine Steps.bind hR (store _ _) fun _ => ?_
  refine Steps.bind hR (hP.on (l := agentKinds ++ [.mac .tdar]) (by decide) (microMac (by decide) (by decide) _)) fun _ => ?_
  exact hP.modifies (fun _ => rfl) fun _ => ⟨rfl, rfl, rfl⟩

theorem CountsOnly.clearTxDone : Kept (In .spi P) clearSpiTxDone := by
  refine Steps.bind Kept.chains (hP.micro fun s a t h hs => ?_) fun _ => Steps.pure Kept.chains _
  cases h
  exact ⟨hs.1, hP _ _ hs.2 rfl rfl rfl⟩

theorem CountsOnly.awaitRoom (len n : Nat) : Kept (In .spi P) (spiAwaitRoom len n) := by
  have hR := Kept.chains (P := In .spi P)
  induction n with
  | zero => exact Steps.pure hR _
  | succ n ih =>
    refine Steps.config_bind fun c => Steps.bind hR (hP.on (by decide) (spiRead16Stable_steps _ _)) fun v => ?_
    refine Steps.ite (fun _ => Steps.pure hR _) fun _ => ?_
    exact Steps.bind hR (Steps.onlyIf hR fun _ => hP.clearTxDone) fun _ => ih

theorem CountsOnly.spiGive (bytes : List Byte) : Kept (In .spi P) (spiGive bytes) := by
  have hR := Kept.chains (P := In .spi P)
  refine Steps.bind hR (hP.on (by decide) (spiRead16_steps _ _)) fun wr => ?_
  refine Steps.bind hR (hP.on (by decide) (spiWrite_steps _ _ _)) fun _ => ?_
  refine Steps.bind hR (hP.on (by decide) (spiWrite_steps _ _ _)) fun _ => ?_
  exact Steps.bind hR (hP.on (by decide) (sockCommand_steps _)) fun _ => Steps.pure hR _

theorem CountsOnly.spiAck (rd p : Nat) : Kept (In .spi P) (spiAck rd p) := by
  refine Steps.bind Kept.chains (hP.on (by decide) (spiWrite_steps _ _ _)) fun _ => ?_
  exact Steps.bind Kept.chains (hP.on (by decide) (sockCommand_steps _)) fun _ => Steps.pure Kept.chains _

end

theorem ibufRead_kept {P : State → Prop} (a n : Nat) : Kept (In .spi P) (ibufRead a n) :=
  Steps.get_bind' fun _ => Steps.orFault Kept.chains _ _

/-! ## OUTPUT counts no receive error (R321) -/

section

variable (p : U32 × U32)

theorem dmaOutput_errors (bytes : List Byte) : Kept (In .dma (ErrorsAt p)) (dmaOutput bytes) := by
  have hP := errorsAt_countsOnly p
  have hR := Kept.chains (P := In .dma (ErrorsAt p))
  refine Steps.get_bind' fun u => Steps.bind hR (hP.micro (dmaRead16_steps hR _)) fun st => Steps.ite (fun _ => ?_) fun _ => ?_
  · exact Steps.bind hR (Steps.modifies fun _ h => h) fun _ => Steps.pure hR _
  · exact Steps.bind hR (hP.dmaGive _ _ _) fun _ => Steps.pure hR _

theorem spiOutput_errors (bytes : List Byte) : Kept (In .spi (ErrorsAt p)) (spiOutput bytes) := by
  have hP := errorsAt_countsOnly p
  have hR := Kept.chains (P := In .spi (ErrorsAt p))
  refine Steps.config_bind fun c => Steps.bind hR (Steps.onlyIf hR fun _ => ?_) fun _ => ?_
  · exact Steps.bind hR hP.clearTxDone fun _ => hP.on (by decide) (spiWrite_steps _ _ _)
  refine Steps.bind hR (hP.awaitRoom _ _) fun room => Steps.ite (fun _ => ?_) fun _ => ?_
  · exact Steps.bind hR (hP.spiGive _) fun _ => Steps.pure hR _
  · exact Steps.bind hR (Steps.modifies fun _ h => h) fun _ => Steps.pure hR _

theorem outputOp_errors (bytes : List Byte) : Kept (ErrorsAt p) (outputOp bytes) := by
  refine Steps.get_bind' fun u => Steps.ite (fun _ => ?_) fun _ => Kept.byBackend (dmaOutput_errors p bytes) (spiOutput_errors p bytes)
  exact Steps.bind Kept.chains (Steps.modifies fun _ h => h) fun _ => Steps.pure Kept.chains _

/-- Only the receive operations count receive errors (R322, R323). -/
theorem exec_errors {i : Instr} (hi : ∀ c, i ≠ .procInput c) (hp : i ≠ .pipeProcInput) {s t : State} (h : exec i s = .next t)
    (hs : ErrorsAt p s) : ErrorsAt p t := by
  have hP := errorsAt_countsOnly p
  have hR := Kept.chains (P := ErrorsAt p)
  have output : ∀ {β : Type} (b : List Byte) (f : Status → β), Kept (ErrorsAt p) (do return f (← outputOp b)) := fun b _ =>
    Steps.bind hR (outputOp_errors p b) fun _ => Steps.pure hR _
  cases i with
  | procInput c => exact absurd rfl (hi c)
  | pipeProcInput => exact absurd rfl hp
  | output b => exact hP.portFree.command (output b _) h hs
  | outputFrame b => exact hP.portFree.command (output b _) h hs
  | pipeTxChain b =>
    refine hP.portFree.command (Steps.bind hR (Steps.config_bind fun c => Steps.ite (fun _ => ?_) fun _ => outputOp_errors p _) fun _ =>
      Steps.pure hR _) h hs
    exact Steps.bind hR (Steps.modifies fun _ h => h) fun _ => Steps.pure hR _
  | pipeTxRaw b =>
    refine hP.portFree.command (Steps.bind hR (Steps.config_bind fun c => Steps.ite (fun _ => output b _) fun _ => Steps.pure hR _) fun _ =>
      Steps.pure hR _) h hs
  | _ => exact hP.portFree.exec_of_kinds (fun k hk _ _ ha => hP.atom (by rintro rfl; exact absurd hk (of_decide_eq_false rfl)) ha) h hs

end

/-! ## PROC_INPUT counts no AGAIN (R322, R323) -/

section

variable (n : U32)

theorem dmaTakeFrame_again (i : Nat) (st : U16) (len : Nat) : Kept (In .dma (AgainAt n)) (dmaTakeFrame i st len) := by
  have hP := againAt_countsOnly n
  have hR := Kept.chains (P := In .dma (AgainAt n))
  have count : ∀ f : State → State, (∀ s, In .dma (AgainAt n) s → In .dma (AgainAt n) (f s)) →
      Kept (In .dma (AgainAt n)) (do modify f; pure .nothing : M Received) := fun f hf =>
    Steps.bind hR (Steps.modifies hf) fun _ => Steps.pure hR _
  refine Steps.config_bind fun c => Steps.ite (fun _ => count _ fun _ h => h) fun _ => ?_
  refine Steps.bind hR (hP.draw _) fun ok => Steps.ite (fun _ => ?_) fun _ => count _ fun _ h => h
  exact Steps.bind hR (hP.hostRead _ _) fun b => Steps.bind hR (hP.draw _) fun ts => Steps.pure hR _

theorem dmaProcInput_again : Kept (In .dma (AgainAt n)) dmaProcInput := by
  have hP := againAt_countsOnly n
  have hR := Kept.chains (P := In .dma (AgainAt n))
  refine Steps.bind hR (hP.micro fun s a t h hs => ?_) fun p => Steps.ite (fun _ => ?_) fun _ => Steps.pure hR _
  · cases h
    exact hs
  refine Steps.get_bind' fun u => Steps.bind hR (hP.micro (dmaRead16_steps hR _)) fun st => ?_
  refine Steps.ite (fun _ => Steps.pure hR _) fun _ => Steps.bind hR (hP.micro (Steps.modifies fun _ h => h)) fun _ => ?_
  refine Steps.bind hR (hP.micro (dmaRead16_steps hR _)) fun len => Steps.bind hR (dmaTakeFrame_again n _ _ _) fun r => ?_
  exact Steps.bind hR (hP.dmaRearm _ _) fun _ => Steps.pure hR _

theorem spiPop_again : Kept (In .spi (AgainAt n)) spiPop := by
  have hP := againAt_countsOnly n
  have hR := Kept.chains (P := In .spi (AgainAt n))
  refine Steps.get_bind' fun u => Steps.bind hR (ibufRead_kept _ _) fun b => Steps.bind hR (ibufRead_kept _ _) fun f => ?_
  refine Steps.bind hR (Steps.modifies fun _ h => h) fun _ => Steps.bind hR (hP.draw _) fun ok => Steps.ite (fun _ => ?_) fun _ => ?_
  · exact Steps.bind hR (hP.draw _) fun _ => Steps.pure hR _
  · exact Steps.bind hR (Steps.modifies fun _ h => h) fun _ => Steps.pure hR _

theorem spiRefill_again : Kept (In .spi (AgainAt n)) spiRefill := by
  have hP := againAt_countsOnly n
  have hR := Kept.chains (P := In .spi (AgainAt n))
  refine Steps.config_bind fun c => Steps.bind hR (hP.on (by decide) (spiRead16Stable_steps _ _)) fun r => ?_
  split
  · exact Steps.pure hR _
  · exact Steps.pure hR _
  refine Steps.ite (fun _ => ?_) fun _ => ?_
  · refine Steps.bind hR (Steps.modifies fun _ h => h) fun _ => ?_
    exact Steps.bind hR (hP.on (by decide) recover_steps) fun _ => Steps.pure hR _
  · refine Steps.bind hR (hP.on (by decide) (spiRead16_steps _ _)) fun rd => ?_
    exact Steps.bind hR (hP.on (by decide) (spiRead_steps _ _ _)) fun bs => Steps.bind hR (Steps.modifies fun _ h => h) fun _ =>
      Steps.pure hR _

theorem spiScan_again (r rd : Nat) : Kept (In .spi (AgainAt n)) (spiScan r rd) := by
  have hP := againAt_countsOnly n
  have hR := Kept.chains (P := In .spi (AgainAt n))
  refine Steps.config_bind fun c => Steps.bind hR (ibufRead_kept _ _) fun b => Steps.bind hR (Steps.modifies fun _ h => h) fun _ => ?_
  refine Steps.ite (fun _ => ?_) fun _ => Steps.ite (fun _ => hP.spiAck _ _) fun _ => Steps.pure hR _
  exact Steps.bind hR (Steps.modifies fun _ h => h) fun _ => hP.on (by decide) recover_steps

theorem spiFetch_again : Kept (In .spi (AgainAt n)) spiFetch := by
  have hR := Kept.chains (P := In .spi (AgainAt n))
  refine Steps.bind hR ((againAt_countsOnly n).on (by decide) (spiWrite_steps _ _ _)) fun _ => Steps.bind hR (spiRefill_again n) fun r => ?_
  cases r with
  | none => exact Steps.pure hR _
  | some r =>
    refine Steps.bind hR (spiScan_again n _ _) fun _ => Steps.get_bind' fun u => ?_
    exact Steps.ite (fun _ => spiPop_again n) fun _ => Steps.pure hR _

theorem spiProcInput_again : Kept (In .spi (AgainAt n)) spiProcInput := by
  have hP := againAt_countsOnly n
  have hR := Kept.chains (P := In .spi (AgainAt n))
  refine Steps.get_bind' fun u => Steps.ite (fun _ => spiPop_again n) fun _ => Steps.bind hR (Steps.modifies fun _ h => h) fun _ => ?_
  refine Steps.ite (fun _ => ?_) fun _ => spiFetch_again n
  refine Steps.bind hR (hP.micro fun s a t h hs => ?_) fun p => Steps.ite (fun _ => spiFetch_again n) fun _ => Steps.pure hR _
  cases h
  exact hs

theorem procInput_again (c : Nat) : Kept (AgainAt n) (procInput c) :=
  procInput_kept (fun _ h => h) (dmaProcInput_again n) (spiProcInput_again n) c

/-- Only the transmit operations count AGAIN (R321). -/
theorem exec_again {i : Instr} (hi : ∀ b, i ≠ .output b ∧ i ≠ .outputFrame b ∧ i ≠ .pipeTxChain b ∧ i ≠ .pipeTxRaw b) {s t : State}
    (h : exec i s = .next t) (hs : AgainAt n s) : AgainAt n t := by
  have hP := againAt_countsOnly n
  cases i with
  | procInput c => exact hP.portFree.command (Steps.bind Kept.chains (procInput_again n _) fun _ => Steps.pure Kept.chains _) h hs
  | pipeProcInput =>
    exact hP.portFree.command (pipeProcInput_kept (procInput_again n) (fun _ _ h => h) fun _ _ _ h => h) h hs
  | output b => exact absurd rfl (hi b).1
  | outputFrame b => exact absurd rfl (hi b).2.1
  | pipeTxChain b => exact absurd rfl (hi b).2.2.1
  | pipeTxRaw b => exact absurd rfl (hi b).2.2.2
  | _ => exact hP.portFree.exec_of_kinds (fun k hk _ _ ha => hP.atom (by rintro rfl; exact absurd hk (of_decide_eq_false rfl)) ha) h hs

end

/-- Settles O20: the transmit operations raise no receive condition, the receive operations never answer AGAIN, and no other instruction
counts. -/
theorem countersWrittenBy : Obligations.CountersWrittenBy := by
  refine fun i s t h => ⟨fun hi hp => ?_, fun hi => exec_again _ hi h rfl⟩
  have he := exec_errors (s.cntRxErr, s.cntRxNomem) hi hp h rfl
  exact ⟨congrArg Prod.fst he, congrArg Prod.snd he⟩

end Sys2Proof.Machine
end

section
/-! SUPPORT. SET_MAC (R161), and INIT past the probe on the SPI build (R153, R244 to R246). -/

namespace Sys2Proof.Machine

theorem setMac_outside {s : State} (h : s.initState ≠ .initialized) (m : MacAddr) : setMac m s = .ok ((), { s with mac := m }) := by
  unfold setMac
  rw [modify_bind_apply, get_bind_apply, branch_apply, if_neg h]
  rfl

theorem setMac_inside {s : State} (h : s.initState = .initialized) (m : MacAddr) :
    setMac m s = byBackend (dmaWriteStation m) (spiWriteStation m) { s with mac := m } := by
  unfold setMac
  rw [modify_bind_apply, get_bind_apply, branch_apply, if_pos h]

/-- Settles O38: the variable always, in a session the two station registers or SHAR. -/
theorem setMacStoresAddress : Obligations.SetMacStoresAddress := by
  refine fun s m => ⟨fun h => runCommand_ok (thenOk_ok (setMac_outside h m)), fun hq hd => ?_, fun hq hd hp => ?_⟩
  · have hb : ({ s with mac := m } : State).cfg.backend = .dma := hd.1
    have hs : StillDma { s with mac := m } := State.Quiet.stillDma hq hb
    exact runCommand_ok (thenOk_ok ((setMac_inside hd.2 m).trans ((byBackend_dma hb).trans (dmaWriteStation_ok hs m))))
  · have hb : ({ s with mac := m } : State).cfg.backend = .spi := hd.1
    have hs : StillSpi { s with mac := m } := State.Quiet.stillSpi hq hb hp
    exact runCommand_ok (thenOk_ok ((setMac_inside hd.2 m).trans ((byBackend_spi hb).trans (spiWrite_common hs 0x0009 (macBytes m) rfl))))

/-- From state 3 INIT on the SPI build configures and opens the socket at once (R153). -/
theorem spiInit_probed {s : State} (h : s.initState ≠ .hasHardware) (m : MacAddr) : spiInit m s = spiBringUp m s := by
  unfold spiInit
  rw [get_bind_apply, branch_apply, if_neg h]

theorem capsOf_eq (c : Config) : capsOf c = if c.backend = .dma then c.capsDma else c.capsSpi := by
  unfold capsOf
  cases c.backend <;> rfl

/-- Settles O34: the socket is configured and opened, then the session starts. -/
theorem spiInitOpensSocket : Obligations.SpiInitOpensSocket := by
  intro s m hq hwf hb hi hp
  have up : byBackend (dmaInit m) (spiInit m) s = .ok (true, _) :=
    (byBackend_spi hb).trans ((spiInit_probed (by simp [hi]) m).trans (spiBringUp_ok (hq.stillSpi hb hp) (spiBounds_of_wf hwf) m))
  have init := (initialise_past (by simp [hi]) (by simp [hi]) (by simp [hi]) up).trans (if_pos rfl)
  have answer := runCommand_bind (f := boolResult) init
  refine ⟨answer.trans ?_, (runCommand_bind ((pipeInit_past (by simp [hi]) m).trans init)).trans answer.symm⟩
  simp only [State.afterInit, ← capsOf_eq]
  rfl

end Sys2Proof.Machine
end

section
/-! SUPPORT. PROC_INPUT on the DMA build with a frame at the cursor (R205). -/

namespace Sys2Proof.Machine

/-- PROC_INPUT finds a frame of `n` bytes with status `st` at the cursor (R205 lines 3 to 9). -/
structure FrameAtCursor (s : State) (c st n : U16) : Prop where
  quiet : s.Quiet
  wf : s.cfg.wf = true
  session : s.DmaSession
  counter : c.toNat < s.cfg.rxLoopCap
  pending : s.dma.rxPending = true
  cursor : s.dma.rxCursor < s.cfg.nRx
  status : Memory.half? s.dma.mem (descAddr s.cfg.rxRingBase s.dma.rxCursor + 2) = some st
  released : st.getLsbD 15 = false
  len : Memory.half? s.dma.mem (descAddr s.cfg.rxRingBase s.dma.rxCursor) = some n
  fits : n.toNat ≤ s.cfg.bufSize

/-- The state in which lines 10 to 19 run: the flag is clear, the slot's lines are invalidated (R92, R97). -/
def State.taking (s : State) : State :=
  s.withDma { cacheInvalidate (rxBufAddr s.cfg s.dma.rxCursor) s.cfg.bufSize s.dma with rxPending := false }

namespace FrameAtCursor

variable {s : State} {c st n : U16} (h : FrameAtCursor s c st n)

include h

theorem still : StillDma s := h.quiet.stillDma h.session.1

theorem still_taking : StillDma s.taking := h.still.of rfl rfl rfl (.inl rfl)

/-- Whatever lines 10 to 19 answer, the descriptor is re-armed (R93). -/
theorem procInput_next {r : Received} {draws : Draws} {err nomem : U32} {d : DmaState} (hm : d.mem = s.dma.mem)
    (hb : d.mdioBusy = s.dma.mdioBusy)
    (ht : dmaTakeFrame s.dma.rxCursor st n.toNat s.taking =
      .ok (r, { s with draws := draws, cntRxErr := err, cntRxNomem := nomem, dma := d })) :
    exec (.procInput c) s = .next
      { s.rearmed st d with draws := draws, cntRxErr := err, cntRxNomem := nomem, resBuf := r.result.bytes } := by
  have hs0 : StillDma (s.withDma { s.dma with rxPending := false }) := h.still.withDma (.inl rfl)
  have hp : Placed (descAddr s.cfg.rxRingBase s.dma.rxCursor) := (layout_of_wf h.wf).rx.desc h.cursor
  have receive := dmaReceive_taken hs0 hp h.status h.released h.len ht rfl (h.still.of rfl rfl rfl (.inl hb))
  have input : procInput c.toNat s = _ :=
    (procInput_open (DataOpen_dma h.session) h.counter).trans ((byBackend_dma h.session.1).trans
      ((dmaProcInput_pending h.still h.pending).trans receive))
  refine (runCommand_bind input).trans ?_
  simp only [hm]
  rfl

/-- The frame's bytes are memory's, whatever was cached (R92). -/
theorem takeFrame_bytes (he : st &&& 0x0037 = 0) (ha : s.draws.takeAlloc.1 = true) {b : List Byte}
    (hb : Memory.readBytes s.dma.mem (rxBufAddr s.cfg s.dma.rxCursor) n.toNat = some b) :
    dmaTakeFrame s.dma.rxCursor st n.toNat s.taking = .ok (.frame s.draws.takeAlloc.2.takeTimestamp.1 b,
      { s with
        draws := s.draws.takeAlloc.2.takeTimestamp.2
        dma := { (hostReadRange (cacheInvalidate (rxBufAddr s.cfg s.dma.rxCursor) s.cfg.bufSize s.dma)
          (rxBufAddr s.cfg s.dma.rxCursor) n.toNat).2 with rxPending := false } }) := by
  have read := hostReadRange_rxPending (cacheInvalidate (rxBufAddr s.cfg s.dma.rxCursor) s.cfg.bufSize s.dma) false
    (rxBufAddr s.cfg s.dma.rxCursor) n.toNat
  rw [Cache.invalidated_read hb h.fits] at read
  refine (dmaTakeFrame_frame h.still_taking he ha ((layout_of_wf h.wf).rxSlot h.cursor h.fits) (congrArg Prod.fst read)).trans ?_
  exact congrArg (fun d : DmaState => Except.ok (Received.frame s.draws.takeAlloc.2.takeTimestamp.1 b,
    ({ s with draws := s.draws.takeAlloc.2.takeTimestamp.2, dma := d } : State))) (congrArg Prod.snd read)

end FrameAtCursor

/-- Settles O40: an error bit, a failed allocation, or the bytes that memory holds. -/
theorem dmaInputTakesFrame : Obligations.DmaInputTakesFrame := by
  intro s c st n hq hwf hd hc hp hcur hst ho hn hfit a d
  have h : FrameAtCursor s c st n := ⟨hq, hwf, hd, hc, hp, hcur, hst, ho, hn, hfit⟩
  refine ⟨fun he => ?_, fun he ha => ?_, fun he ha b hb => ?_⟩
  · exact h.procInput_next (d := s.taking.dma) rfl rfl (dmaTakeFrame_error (s := s.taking) he)
  · exact h.procInput_next (d := s.taking.dma) rfl rfl (dmaTakeFrame_noMemory (s := s.taking) he ha)
  · have hlen : BitVec.ofNat 16 b.length = n := by rw [Memory.readBytes_length hb]; simp
    obtain ⟨lines, hl⟩ := hostReadRange_rest d a n.toNat
    have hmem : (hostReadRange d a n.toNat).2.mem = s.dma.mem := by rw [hl]; rfl
    have hbusy : (hostReadRange d a n.toNat).2.mdioBusy = s.dma.mdioBusy := by rw [hl]; rfl
    refine (h.procInput_next (d := { (hostReadRange d a n.toNat).2 with rxPending := false }) hmem hbusy
      (h.takeFrame_bytes he ha hb)).trans ?_
    simp only [Received.result, Result.bytes, frameValue, hlen, List.append_assoc]
    rfl

end Sys2Proof.Machine
end

section
/-! SUPPORT. The four transmit operations on the DMA build (R94, R207). -/

namespace Sys2Proof.Machine

/-! ## A descriptor's two fields in memory (R93, R94) -/

section

variable {m : Memory} (hm : m.wf) (a : Nat) (len st : U16)

include hm

theorem withDescriptor_len : Memory.half? (withDescriptor m a len st) a = some len :=
  (Memory.half?_write_apart (Memory.wf_writeBytes hm a _) (.inl (by omega))).trans (Memory.half?_write hm a len)

theorem withDescriptor_status : Memory.half? (withDescriptor m a len st) (a + 2) = some st :=
  Memory.half?_write (Memory.wf_writeBytes hm a _) _ st

theorem withDescriptor_apart {x : Nat} (hx : x < a ∨ a + 4 ≤ x) : Memory.read? (withDescriptor m a len st) x = Memory.read? m x := by
  have h2 : (putLe16 st).length = 2 := rfl
  have h1 : (putLe16 len).length = 2 := rfl
  unfold withDescriptor
  rw [Memory.read?_writeBytes (Memory.wf_writeBytes hm a _), if_neg (by omega), Memory.read?_writeBytes hm, if_neg (by omega)]

end

/-! ## The slots of the transmit ring (R46, R50) -/

namespace Layout

variable {c : Config} (hl : Layout c) {i : Nat} (hi : i < c.nTx)

include hl

theorem txSlot_lines (i : Nat) : txBufAddr c i % 64 = 0 := by
  have hmul : i * c.bufSize % 64 = 0 := by rw [Nat.mul_mod, hl.lines]; simp
  have hbase := hl.txLines
  unfold txBufAddr
  omega

/-- A slot's buffer is whole cache lines: a flush of it touches no byte outside it (R88). -/
theorem txSlot_overlaps {n x : Nat} (hn : n ≤ c.bufSize) (hx : x < txBufAddr c i ∨ txBufAddr c i + c.bufSize ≤ x) :
    overlaps (txBufAddr c i) n (lineOf x) = false := by
  have ha := hl.txSlot_lines i
  have hb := hl.lines
  unfold overlaps lineOf
  simp only [decide_eq_false_iff_not]
  omega

include hi

/-- The buffers lie apart from the ring. -/
theorem txSlot_desc {x : Nat} (h1 : txBufAddr c i ≤ x) (h2 : x < txBufAddr c i + c.bufSize) {j : Nat} (hj : j < c.nTx) :
    x < descAddr c.txRingBase j ∨ descAddr c.txRingBase j + 8 ≤ x := by
  have hmul : (i + 1) * c.bufSize ≤ c.nTx * c.bufSize := Nat.mul_le_mul_right _ hi
  rw [Nat.add_mul] at hmul
  have := hl.txTxBuf
  unfold txBufAddr at h1 h2
  unfold descAddr
  omega

end Layout

/-! ## The answers -/

/-- No room: AGAIN, or FALSE from PIPE_TX_RAW (R286). -/
theorem exec_sends_noRoom {s t : State} {i : Instr} {b : List Byte} (hs : Sends s.cfg i b) (h : outputOp b s = .ok (.again, t)) :
    exec i s = .next { t with resBuf := [noRoomCode i] } := by
  refine (exec_of_sends hs h).trans ?_
  rcases hs with rfl | rfl | ⟨_, -, rfl⟩ | ⟨rfl, -⟩ <;> rfl

theorem exec_sends_sent {s t : State} {i : Instr} {b : List Byte} (hs : Sends s.cfg i b) (h : outputOp b s = .ok (.ok, t)) :
    exec i s = .next { t with resBuf := [0x00] } := by
  refine (exec_of_sends hs h).trans ?_
  rcases hs with rfl | rfl | ⟨_, -, rfl⟩ | ⟨rfl, -⟩ <;> rfl

/-- Settles O41: the cursor's descriptor is busy, or its slot takes the frame. -/
theorem dmaOutputGivesFrame : Obligations.DmaOutputGivesFrame := by
  intro s i b st hq hwf hd hmem hs h0 h1 hcur hst a desc
  have hl := layout_of_wf hwf
  have still : StillDma s := hq.stillDma hd.1
  have hp : Placed desc := hl.tx.desc hcur
  have hfit : b.length ≤ s.cfg.bufSize := h1.trans hl.fits
  have out : ∀ {r t}, dmaOutput b s = .ok (r, t) → outputOp b s = .ok (r, t) := fun h =>
    (outputOp_open (DataOpen_dma hd) h0 h1).trans ((byBackend_dma hd.1).trans h)
  refine ⟨fun ho => ?_, fun ho => ?_⟩
  · exact exec_sends_noRoom hs (out (dmaOutput_busy still hp hst ho))
  · let d := cacheFlush a b.length (hostWriteRange s.dma a b)
    have hdm : d.mem.wf := (Cache.cacheFlush_wf (by rw [Cache.hostWriteRange_mem]; exact hmem.dma)
      (Cache.hostWriteRange_keeps hmem.dma hmem.cache a b).1 a b.length).1
    refine ⟨withDescriptor d.mem desc (BitVec.ofNat 16 b.length) (0x8C00 ||| (st &&& 0x2000)), ?_, ?_, ?_, ?_, ?_⟩
    · exact exec_sends_sent hs (out (dmaOutput_free still hp hst ho (dmaGive_ok still hp (hl.txSlot hcur hfit))))
    · refine (Memory.readBytes_congr fun x hx1 hx2 => withDescriptor_apart hdm _ _ _ ?_).trans
        (Cache.flushed_bytes hmem.dma hmem.cache a b)
      exact (hl.txSlot_desc hcur hx1 (by omega) hcur).imp_right fun h => by omega
    · exact withDescriptor_len hdm _ _ _
    · exact withDescriptor_status hdm _ _ _
    · intro x hx hxd
      exact (withDescriptor_apart hdm _ _ _ hxd).trans (Cache.flushed_apart hmem.dma hmem.cache a b (hl.txSlot_overlaps hfit hx))

end Sys2Proof.Machine
end

section
/-! SUPPORT. The scanner on whole records followed by a corrupt length word (R253, R256), and the pass of PROC_INPUT that meets one
(R262). -/

namespace Sys2Proof.Machine

/-! ## The scanner -/

/-- The scanner passes whole records, one by one. -/
theorem scanFrom_through {minLen : Nat} {rs : List (List Byte)} (hrs : ∀ r ∈ rs, validRecord minLen r) (done tail : List Byte) (fuel : Nat) :
    scanFrom minLen (done ++ (rs.flatten ++ tail)) (rs.length + fuel) done.length
      = scanFrom minLen (done ++ (rs.flatten ++ tail)) fuel (done.length + rs.flatten.length) := by
  induction rs generalizing done with
  | nil => simp
  | cons r rs ih =>
    obtain ⟨h2, hword, hmin⟩ := hrs r (by simp)
    have hlen : be16 (done ++ ((r :: rs).flatten ++ tail)) done.length = r.length := by
      rw [← be16_drop, List.drop_left, List.flatten_cons, List.append_assoc, be16_append h2, hword]
    have hsize : (done ++ ((r :: rs).flatten ++ tail)).length = done.length + (r.length + rs.flatten.length + tail.length) := by simp [add_assoc]
    rw [List.length_cons, show rs.length + 1 + fuel = (rs.length + fuel) + 1 by omega, scanFrom, hlen, if_neg (by omega), if_neg (by omega),
      if_neg (by omega)]
    have next := ih (fun x hx => hrs x (by simp [hx])) (done ++ r)
    simpa [add_assoc] using next

/-- The scanner stops at a corrupt length word (R256). -/
theorem scanFrom_corrupt {minLen : Nat} {tail : List Byte} (h : corruptRecord minLen tail) (done : List Byte) (fuel : Nat) :
    scanFrom minLen (done ++ tail) (fuel + 1) done.length = (done.length, true) := by
  obtain ⟨h2, hlow⟩ := h
  have hlen : be16 (done ++ tail) done.length = be16 tail 0 := by rw [← be16_drop, List.drop_left]
  rw [scanFrom, hlen, if_neg (by simp; omega), if_pos hlow]

theorem records_length {minLen : Nat} {rs : List (List Byte)} (hrs : ∀ r ∈ rs, validRecord minLen r) : rs.length ≤ rs.flatten.length := by
  induction rs with
  | nil => simp
  | cons r rs ih =>
    obtain ⟨h2, -, -⟩ := hrs r (by simp)
    have := ih fun x hx => hrs x (by simp [hx])
    rw [List.flatten_cons, List.length_append, List.length_cons]
    omega

theorem scanRecords_corrupt {minLen : Nat} {rs : List (List Byte)} {tail : List Byte} (hrs : ∀ r ∈ rs, validRecord minLen r)
    (h : corruptRecord minLen tail) : scanRecords minLen (rs.flatten ++ tail) = (rs.flatten.length, true) := by
  obtain ⟨k, hk⟩ : ∃ k, (rs.flatten ++ tail).length + 1 = rs.length + (k + 1) := by
    have := records_length hrs
    exact ⟨(rs.flatten ++ tail).length - rs.length, by rw [List.length_append]; omega⟩
  have pass := scanFrom_through hrs [] tail (k + 1)
  rw [List.nil_append, List.length_nil, Nat.zero_add] at pass
  unfold scanRecords
  rw [hk]
  exact pass.trans (scanFrom_corrupt h rs.flatten k)

/-! ## The pass -/

/-- Pop's answer goes to RES_BUF (R258). -/
theorem exec_procInput_pop {s u : State} {c : U16} {r : List Byte} (h : procInput c.toNat s = spiPop u) (h2 : 2 ≤ r.length)
    (hword : be16 r 0 = r.length) (hz : u.spi.ibufStart + r.length ≤ u.spi.ibufSize)
    (hb : Memory.readBytes u.spi.ibuf u.spi.ibufStart r.length = some r) :
    exec (.procInput c) s =
      .next (State.delivers { u with spi := { u.spi with ibufStart := u.spi.ibufStart + r.length } } (r.drop 2)) := by
  have pop := h.trans (spiPop_ok h2 hword hz hb)
  unfold State.delivers
  dsimp only at pop ⊢
  cases ha : u.draws.takeAlloc.1 with
  | true =>
    rw [ha, if_pos rfl] at pop
    exact runCommand_bind pop
  | false =>
    rw [ha, if_neg (by simp)] at pop
    exact runCommand_bind pop

/-- With INIT's sizes CLOSE and OPEN leave the socket as the statements say (R264, R265). -/
theorem closed_opened {q : Chip} {c : Config} (hr : q.sRxbufSize.toNat = c.rxbufKb) (ht : q.sTxbufSize.toNat = c.txbufKb) :
    q.closed.opened = q.reopened c := by
  simp only [Chip.opened, Chip.closed, Chip.reopened, hr, ht]
  rfl

/-- The local buffer empty and the flag clear, the chip is asked (R250, R251). -/
def State.asking (s : State) : State :=
  s.withSpi { s.spi with rxPending := if s.cfg.spiIntWired then false else s.spi.rxPending, ibufStart := 0, ibufSize := 0 }

theorem spiProcInput_asking {s : State} (h : StillSpi s) (he : s.spi.ibufSize ≤ s.spi.ibufStart)
    (hp : s.cfg.spiIntWired = true → s.spi.rxPending = true) : spiProcInput s = spiFetch s.asking := by
  unfold State.asking
  cases hw : s.cfg.spiIntWired with
  | true => exact (spiProcInput_wired h he hw).trans (by rw [hp hw]; rfl)
  | false => exact spiProcInput_unwired he hw

/-- After the refill the bytes `b` are in the local buffer, not yet scanned (R252). -/
def State.refilled (s : State) (b : List Byte) : State :=
  s.withSpi { s.asking.spi with
    csActive := false, ibuf := Memory.writeBytes s.spi.ibuf 0 b, ibufSize := b.length
    chip := { s.spi.chip with sIr := s.spi.chip.sIr &&& ~~~0x04 } }

section

variable {s : State} {b : List Byte} {p : Nat} (h : StillSpi s) (hbd : SpiBounds s.cfg)

include h hbd

theorem spiRefill_refilled (h0 : 0 < b.length) (hrsr : s.spi.chip.sRxRsr.toNat = b.length) (hfit : b.length ≤ s.cfg.rxbufKb * 1024)
    (hring : ringRead s.spi.chip.rxMem s.spi.chip.rxBytes s.spi.chip.sRxRd.toNat b.length = some b) :
    spiRefill (s.asking.withChip { s.spi.chip with sIr := w1c8 s.spi.chip.sIr 0x04 })
      = .ok (some (b.length, s.spi.chip.sRxRd.toNat), s.refilled b) := by
  have still : StillSpi (s.asking.withChip { s.spi.chip with sIr := w1c8 s.spi.chip.sIr 0x04 }) := h.of rfl rfl rfl rfl
  exact spiRefill_some still hbd.stable h0 hrsr hfit hring

/-- A corrupt record in the refill: the socket is closed and reopened (R256, R262). -/
theorem spiScan_recovered (hd : s.SpiSession) (hinv : SocketInv s) (hscan : scanRecords s.cfg.recMinLen b = (p, true)) (rd : Nat) :
    spiScan b.length rd (s.refilled b) = .ok ((), s.withSpi (s.spi.recovered s.cfg b p)) := by
  obtain ⟨-, -, hmode, hrx, htx, -⟩ := hinv.session hd
  have still : StillSpi (s.refilled b) := h.of rfl rfl rfl rfl
  have hmr : (s.refilled b).spi.chip.sMr &&& 0x0F = 0x04 := (congrArg (· &&& 0x0F) hmode).trans (sMrValue_raw s.cfg)
  have rxLegal : legalBufKb (s.refilled b).spi.chip.sRxbufSize.toNat = true := (congrArg legalBufKb hrx).trans hbd.rxKb
  have txLegal : legalBufKb (s.refilled b).spi.chip.sTxbufSize.toNat = true := (congrArg legalBufKb htx).trans hbd.txKb
  have bytes : Memory.readBytes (s.refilled b).spi.ibuf 0 b.length = some b := Memory.readBytes_writeBytes_any _ 0 b
  refine (spiScan_corrupt still hbd.sock hmr rxLegal txLegal le_rfl bytes hscan).trans ?_
  rw [closed_opened (q := (s.refilled b).spi.chip) (c := s.cfg) hrx htx]
  rfl

end

/-- Settles O45: the pass recovers the socket, then the first of the whole records, if there is one, is popped. -/
theorem spiInputRecoversFromCorruption : Obligations.SpiInputRecoversFromCorruption := by
  intro s c rs tail hq hwf hd hinv hringInv hc he hpend hrsr hring hrs hcor
  have hbd := spiBounds_of_wf hwf
  obtain ⟨-, hfault, -, -, -, -, -, hbytes, -⟩ := hinv.session hd
  have still : StillSpi s := hq.stillSpi hd.1 (hinv.present hd.1 (by rw [hd.2]; decide))
  have hfit : (rs.flatten ++ tail).length ≤ s.cfg.rxbufKb * 1024 := by
    rw [← hrsr, ← hbytes]
    exact hringInv.rsrFits
  have h0 : 0 < (rs.flatten ++ tail).length := by
    have := hcor.1
    rw [List.length_append]
    omega
  let u := s.withSpi (s.spi.recovered s.cfg (rs.flatten ++ tail) rs.flatten.length)
  have fetch : spiFetch s.asking = if 0 < rs.flatten.length then spiPop u else .ok (.nothing, u) :=
    spiFetch_ok (s := s.asking) (still.of rfl rfl rfl rfl) (spiRefill_refilled still hbd h0 hrsr hfit hring)
      (spiScan_recovered still hbd hd hinv (scanRecords_corrupt hrs hcor) _)
  have pass : procInput c.toNat s = if 0 < rs.flatten.length then spiPop u else .ok (.nothing, u) :=
    (procInput_open (DataOpen_spi hd hfault) hc).trans ((byBackend_spi hd.1).trans ((spiProcInput_asking still he hpend).trans fetch))
  cases rs with
  | nil => exact runCommand_bind (pass.trans (if_neg (by simp)))
  | cons r rs =>
    obtain ⟨h2, hword, -⟩ := hrs r (by simp)
    have hlen : r.length ≤ (r :: rs).flatten.length := by rw [List.flatten_cons, List.length_append]; omega
    have hb : Memory.readBytes u.spi.ibuf 0 r.length = some r := by
      have all := Memory.readBytes_writeBytes_any s.spi.ibuf 0 ((r :: rs).flatten ++ tail)
      rw [List.flatten_cons, List.append_assoc, List.length_append] at all
      have first := (Memory.readBytes_split all).1
      rw [List.take_left] at first
      simpa [u, SpiState.recovered] using first
    refine (exec_procInput_pop (u := u) (pass.trans (if_pos (by omega))) h2 hword ?_ hb).trans ?_
    · show 0 + r.length ≤ _
      rw [Nat.zero_add]
      exact hlen
    · show Host.Outcome.next (State.delivers { u with spi := { u.spi with ibufStart := 0 + r.length } } (r.drop 2)) = _
      rw [Nat.zero_add]

end Sys2Proof.Machine
end

section
/-! SUPPORT. The input operations when nothing waits (R97, R165, R205, R250, R281), and byte transparency of the cache (R86 to R90). -/

namespace Sys2Proof.Machine

/-! ## Nothing waits -/

/-- When the backend has nothing to give, PROC_INPUT answers NONE and PIPE_PROC_INPUT answers OK with zero frames (R281). -/
theorem exec_input_nothing {s t : State} {c : U16} (ho : s.DataOpen) (hc : c.toNat < s.cfg.rxLoopCap)
    (h : byBackend dmaProcInput spiProcInput s = .ok (.nothing, t)) :
    exec (.procInput c) s = .next { t with resBuf := [0x01] }
      ∧ exec .pipeProcInput s = .next { t with resBuf := [0x00, 0x00, 0x00] } :=
  ⟨runCommand_bind ((procInput_open ho hc).trans h),
    runCommand_ok (pipeProcInput_none ((procInput_open ho (Nat.zero_lt_of_lt hc)).trans h))⟩

/-- A clear flag, or a set one whose cursor descriptor is hardware's: nothing, and the flag is clear (R97, R205). -/
theorem dmaProcInput_nothing {s : State} (h : StillDma s) (hl : Layout s.cfg)
    (hp : s.dma.rxPending = true → s.dma.rxCursor < s.cfg.nRx ∧ ∃ st : U16, st.getLsbD 15 = true
      ∧ Memory.half? s.dma.mem (descAddr s.cfg.rxRingBase s.dma.rxCursor + 2) = some st) :
    dmaProcInput s = .ok (.nothing, s.withDma { s.dma with rxPending := false }) := by
  cases hf : s.dma.rxPending with
  | false => exact dmaProcInput_clear h hf
  | true =>
    obtain ⟨hcur, st, ho, hst⟩ := hp hf
    have still : StillDma (s.withDma { s.dma with rxPending := false }) := h.withDma (.inl rfl)
    exact (dmaProcInput_pending h hf).trans (dmaReceive_owned still (hl.rx.desc hcur) hst ho)

/-- An empty local buffer and a clear flag: nothing, without a transaction, so without a chip (R250). -/
theorem spiProcInput_clear {s : State} (hq : s.Quiet) (hw : s.cfg.spiIntWired = true) (hp : s.spi.rxPending = false)
    (he : s.spi.ibufSize ≤ s.spi.ibufStart) :
    spiProcInput s = .ok (.nothing, s.withSpi { s.spi with ibufStart := 0, ibufSize := 0 }) := by
  let t : State := s.withSpi { s.spi with ibufStart := 0, ibufSize := 0 }
  have flag : testAndClearSpiRxPending t = .ok (false, t) := by
    show Except.ok (s.spi.rxPending, s.withSpi { s.spi with rxPending := false, ibufStart := 0, ibufSize := 0 }) = _
    simp only [t, ← hp]
  unfold spiProcInput
  rw [get_bind_apply, branch_apply, if_neg (by simpa [recordWaits] using he), modifySpi_bind_apply, branch_apply, if_pos hw]
  exact (micro_bind flag (State.Quiet.calm hq)).trans rfl

/-- Settles O39: the cap is a gate; below it the backend finds its flag clear or its descriptor hardware's. -/
theorem inputWithNothingWaiting : Obligations.InputWithNothingWaiting := by
  refine ⟨fun s c ho hc => ?_, fun s c hq hwf hd hc hp => ?_, fun s c hq _ hd hf hc hw hp he => ?_⟩
  · exact runCommand_bind (procInput_capped ho hc)
  · exact exec_input_nothing (DataOpen_dma hd) hc
      ((byBackend_dma hd.1).trans (dmaProcInput_nothing (hq.stillDma hd.1) (layout_of_wf hwf) hp))
  · exact exec_input_nothing (DataOpen_spi hd hf) hc ((byBackend_spi hd.1).trans (spiProcInput_clear hq hw hp he))

/-! ## Byte transparency of the cache -/

namespace Cache

/-- A line that overlaps a range holds one of its addresses (R88, R89). -/
theorem exists_of_overlaps {a n l : Nat} (h : overlaps a n l = true) : ∃ k, k < n ∧ lineOf (a + k) = l := by
  unfold overlaps at h
  simp only [decide_eq_true_eq] at h
  refine ⟨max a (l * 64) - a, by omega, ?_⟩
  unfold lineOf
  omega

/-- The host reads back what it wrote and flushed (R86, R87, R88). -/
theorem flushed_read {d : DmaState} (hm : d.mem.wf) (hc : cacheWf d.cache) (a : Nat) (bs : List Byte) :
    (hostReadRange (cacheFlush a bs.length (hostWriteRange d a bs)) a bs.length).1 = some bs := by
  obtain ⟨hcache, hview⟩ := hostWriteRange_keeps hm hc a bs
  have hmem : (hostWriteRange d a bs).mem.wf := (hostWriteRange_mem d a bs).symm ▸ hm
  refine hostReadRange_value a bs fun k hk => ?_
  rw [cacheFlush_view hmem hcache, hview, if_pos (by omega), Nat.add_sub_cancel_left]

end Cache

/-- Settles O58: a flush writes the dirty lines of the range back and no other, an invalidate drops the range's lines. -/
theorem cacheKeepsBytes : Obligations.CacheKeepsBytes := by
  refine fun d a b hm hc => ⟨⟨Cache.flushed_bytes hm hc a b, fun x hx => ?_, Cache.flushed_read hm hc a b⟩,
    fun n k hk hb => Cache.invalidated_read hb hk⟩
  refine Cache.flushed_apart hm hc a b (Bool.eq_false_iff.mpr fun ho => ?_)
  obtain ⟨k, hk, hline⟩ := Cache.exists_of_overlaps ho
  exact hx k hk hline.symm

end Sys2Proof.Machine
end

section
/-! SUPPORT. The two ring engines and the interrupt agent of the DMA build on a descriptor they own (R209 to R213), and byte transparency
of the DMA build (R215 (d)). -/

namespace Sys2Proof.Machine

/-! ## Descriptor fields, read and written in place (R84, R115, R116) -/

section

variable {s : State} {desc : Nat} (hp : Placed desc)

include hp

theorem readLen_ok {n : U16} (h : Memory.half? s.dma.mem desc = some n) : readLen desc s = .ok (n, s) := by
  obtain ⟨h8, hin⟩ := hp
  exact dmaRead16_ok (by omega) (by omega) h

theorem readStatus_ok {st : U16} (h : Memory.half? s.dma.mem (desc + 2) = some st) : readStatus desc s = .ok (st, s) := by
  obtain ⟨h8, hin⟩ := hp
  exact dmaRead16_ok (by omega) (by omega) h

theorem readBuf_ok {buf : U32} (h : Memory.word? s.dma.mem (desc + 4) = some buf) : readBuf desc s = .ok (buf, s) := by
  obtain ⟨h8, hin⟩ := hp
  exact dmaRead32_ok (by omega) (by omega) h

theorem writeLen_ok (v : U16) : writeLen desc v s = .ok ((), s.withMem (Memory.writeBytes s.dma.mem desc (putLe16 v))) := by
  obtain ⟨h8, hin⟩ := hp
  exact dmaWrite16_ok (by omega) (by omega)

theorem writeStatus_ok (v : U16) :
    writeStatus desc v s = .ok ((), s.withMem (Memory.writeBytes s.dma.mem (desc + 2) (putLe16 v))) := by
  obtain ⟨h8, hin⟩ := hp
  exact dmaWrite16_ok (by omega) (by omega)

end

theorem Memory.word?_congr_bytes {m m' : Memory} {a : Nat} (h : ∀ x, a ≤ x → x < a + 4 → Memory.read? m' x = Memory.read? m x) :
    Memory.word? m' a = Memory.word? m a :=
  Memory.word?_congr (Memory.half?_congr (h _ (by omega) (by omega)) (h _ (by omega) (by omega)))
    (Memory.half?_congr (h _ (by omega) (by omega)) (h _ (by omega) (by omega)))

/-! ## The engines (R210, R211, R213) -/

/-- The state in which the receive engine leaves a frame of which it stored `bs` (R210). -/
def State.rxStored (s : State) (buf : U32) (bs : List Byte) (st new : U16) : State :=
  s.withDma { s.dma with
    mem := withDescriptor (Memory.writeBytes s.dma.mem buf.toNat bs) (descAddr s.dma.regs.rdsr s.dma.hwRxIdx) (BitVec.ofNat 16 bs.length) new
    regs := { s.dma.regs with eir := setEvent s.dma.regs.eir 0 }
    hwRxIdx := advance st s.dma.hwRxIdx }

/-- The receive engine runs at a descriptor it owns (R210). -/
structure RxReady (s : State) (len st : U16) (buf : U32) : Prop where
  active : s.dma.rxActive = true
  placed : Placed (descAddr s.dma.regs.rdsr s.dma.hwRxIdx)
  desc : DescAt s.dma.mem (descAddr s.dma.regs.rdsr s.dma.hwRxIdx) len st buf
  owned : st.getLsbD 15 = true
  inside : buf.toNat + s.cfg.bufSize ≤ dmaSpaceEnd

/-- The frame's first bytes go to the buffer, then LEN and STATUS are written (R210). -/
theorem rxEngine_ok {s : State} {len st : U16} {buf : U32} (h : RxReady s len st buf) (b : List Byte) (err : Byte) :
    rxEngine b err s = .ok ((), s.rxStored buf (b.take (min b.length s.cfg.bufSize)) st
      ((st &&& bitWrap) ||| bitLast ||| rxErrorBits s.cfg s.dma.regs b.length err)) := by
  have hlen : (b.take (min b.length s.cfg.bufSize)).length = min b.length s.cfg.bufSize := by simp
  have hin := h.inside
  unfold rxEngine State.rxStored
  rw [get_bind_apply, branch_apply, if_pos h.active, hlen]
  refine (bind_ok (readStatus_ok h.placed h.desc.status)).trans ?_
  rw [branch_apply, if_pos (show owned st = true from h.owned)]
  refine (bind_ok (readBuf_ok h.placed h.desc.buf)).trans ?_
  refine (bind_ok (dmaWriteBytes_ok (by omega))).trans ?_
  refine (bind_ok (writeLen_ok h.placed _)).trans ?_
  exact (bind_ok (writeStatus_ok h.placed _)).trans rfl

/-- !WIRE_RX of an admitted frame is the receive engine (R209). -/
theorem dmaWireRx_admitted {s : State} {b : List Byte} {err : Byte} (h : dmaAdmits s.cfg s.dma.regs b = true) :
    dmaWireRx b err s = rxEngine b err s := by
  unfold dmaWireRx
  rw [get_bind_apply, branch_apply, if_pos h]

/-- A frame for the station or for all is admitted while the MAC is enabled (R209). -/
theorem dmaAdmits_addressed {c : Config} {r : MacRegs} {b : List Byte} (he : r.ecr.getLsbD 0 = true) (h14 : 14 ≤ b.length)
    (hd : destination b = stationAddress r ∨ broadcast (destination b) = true) : dmaAdmits c r b = true := by
  unfold dmaAdmits
  rcases hd with hd | hd <;> simp [he, h14, hd]

/-- A frame that fits and came without error gets no error bit (R210). -/
theorem rxErrorBits_good {c : Config} {r : MacRegs} {n : Nat} {err : Byte} (hfl : n + 4 ≤ rcrMaxFl r) (hfit : n ≤ c.bufSize)
    (he : err &&& 0x37 = 0) : rxErrorBits c r n err = 0#16 := by
  have bits : (err.zeroExtend 16 &&& rxErrMask : U16) = (err &&& 0x37).zeroExtend 16 := by
    show (err.zeroExtend 16 &&& (0x37 : Byte).zeroExtend 16 : U16) = _
    simp
  unfold rxErrorBits
  rw [bits, he, if_neg (by omega), if_neg (by omega)]
  rfl

/-- The state in which the interrupt agent leaves an enabled interrupt (R211). -/
def State.interrupted (s : State) : State :=
  s.withDma { s.dma with rxPending := true, regs := { s.dma.regs with eir := w1c32 s.dma.regs.eir 0x00000001 } }

/-- The interrupt agent with the line asserted (R211, R330). -/
theorem dmaIsr_ok {s : State} (h : dmaLine s.dma.regs = true) : dmaIsr s = .ok ((), s.interrupted) := by
  unfold dmaIsr
  rw [get_bind_apply, branch_apply, if_pos h]
  rfl

/-- RXF asserts the line while it is not masked (R34). -/
theorem dmaLine_setEvent {r : MacRegs} (h : r.eimr = 1) : dmaLine { r with eir := setEvent r.eir 0 } = true := by
  have bit : (setEvent r.eir 0 &&& 1).getLsbD 0 = true := by simp [setEvent, bitMask]
  unfold dmaLine
  rw [h]
  exact bne_iff_ne.mpr fun h0 => by rw [h0] at bit; simp at bit

/-- The state in which the transmit engine leaves a frame it sent (R213). -/
def State.txSent (s : State) (f : List Byte) (st : U16) : State :=
  { s with
    wireTxLog := s.wireTxLog ++ [f]
    dma := { s.dma with
      mem := Memory.writeBytes s.dma.mem (descAddr s.dma.regs.tdsr s.dma.hwTxIdx + 2) (putLe16 (st &&& bitWrap))
      regs := { s.dma.regs with eir := setEvent s.dma.regs.eir 2 }
      hwTxIdx := advance st s.dma.hwTxIdx } }

/-- The transmit engine runs at a legal descriptor it owns, whose buffer holds the frame `f` (R213). -/
structure TxReady (s : State) (st n : U16) (buf : U32) (f : List Byte) : Prop where
  enabled : s.dma.regs.ecr.getLsbD 0 = true
  active : s.dma.txActive = true
  placed : Placed (descAddr s.dma.regs.tdsr s.dma.hwTxIdx)
  desc : DescAt s.dma.mem (descAddr s.dma.regs.tdsr s.dma.hwTxIdx) n st buf
  owned : st.getLsbD 15 = true
  legal : txDescriptorLegal s.cfg st n.toNat = true
  inside : buf.toNat + n.toNat ≤ dmaSpaceEnd
  bytes : Memory.readBytes s.dma.mem buf.toNat n.toNat = some f

/-- The frame goes on the wire, the descriptor back to the host (R213). -/
theorem txEngine_ok {s : State} {st n : U16} {buf : U32} {f : List Byte} (h : TxReady s st n buf f) :
    txEngine s = .ok ((), s.txSent f st) := by
  unfold txEngine
  rw [get_bind_apply, branch_apply, if_pos (by simp [h.enabled, h.active])]
  refine (bind_ok (readStatus_ok h.placed h.desc.status)).trans ?_
  rw [branch_apply, if_pos (show owned st = true from h.owned)]
  refine (bind_ok (readLen_ok h.placed h.desc.len)).trans ?_
  rw [branch_apply, if_pos h.legal]
  refine (bind_ok (readBuf_ok h.placed h.desc.buf)).trans ?_
  refine (bind_ok (dmaReadBytes_ok h.inside h.bytes)).trans ?_
  rw [modify_bind_apply]
  exact (bind_ok (writeStatus_ok (s := { s with wireTxLog := s.wireTxLog ++ [f] }) h.placed _)).trans rfl

/-- Under the quiet schedule an event is its agent's step. -/
theorem runEvent_quiet {a : AgentStep} {s t : State} (h : agentStep a s = .ok ((), t)) (hq : t.Quiet) : runEvent a s = .next t :=
  runSilent_ok (micro_ok h hq.calm)

/-! ## From the wire to the host (R215 (d)) -/

/-- An address inside the DMA space is what a buffer field of it holds (R80, R115). -/
theorem bufField_toNat {a n : Nat} (h : a + n ≤ dmaSpaceEnd) (h0 : 0 < n) : (BitVec.ofNat 32 a).toNat = a := by
  rw [BitVec.toNat_ofNat]
  unfold dmaSpaceEnd at h
  exact Nat.mod_eq_of_lt (by omega)

/-- The length of a frame that fits a slot is what a LEN field of it holds (R115). -/
theorem Layout.lenField_toNat {c : Config} (hl : Layout c) {n : Nat} (hn : n ≤ c.bufSize) : (BitVec.ofNat 16 n).toNat = n := by
  have hsmall := hl.small
  rw [BitVec.toNat_ofNat]
  exact Nat.mod_eq_of_lt (by omega)

/-- A receive slot's buffer lies apart from the ring (R81). -/
theorem Layout.rxSlot_desc {c : Config} (hl : Layout c) {i j x : Nat} (hi : i < c.nRx) (hj : j < c.nRx) (h1 : rxBufAddr c i ≤ x)
    (h2 : x < rxBufAddr c i + c.bufSize) : x < descAddr c.rxRingBase j ∨ descAddr c.rxRingBase j + 8 ≤ x := by
  have hmul : (i + 1) * c.bufSize ≤ c.nRx * c.bufSize := Nat.mul_le_mul_right _ hi
  rw [Nat.add_mul] at hmul
  have := hl.rxRxBuf
  unfold rxBufAddr at h1 h2
  unfold descAddr
  omega

/-- The wire offers a frame the MAC takes without error, the engine being active at the cursor's descriptor, which it owns (R209, R210). -/
structure GoodFrame (s : State) (b : List Byte) (err : Byte) (st : U16) : Prop where
  quiet : s.Quiet
  wf : s.cfg.wf = true
  session : s.DmaSession
  mac : MacInv s
  mem : s.dma.mem.wf
  active : s.dma.rxActive = true
  ring : s.dma.regs.rdsr = s.cfg.rxRingBase
  index : s.dma.hwRxIdx = s.dma.rxCursor
  cursor : s.dma.rxCursor < s.cfg.nRx
  desc : ∃ len, DescAt s.dma.mem (descAddr s.cfg.rxRingBase s.dma.rxCursor) len st (BitVec.ofNat 32 (rxBufAddr s.cfg s.dma.rxCursor))
  owned : st.getLsbD 15 = true
  long : 14 ≤ b.length
  fits : b.length ≤ s.cfg.bufSize
  maxFl : b.length + 4 ≤ (s.dma.regs.rcr.extractLsb' 16 14).toNat
  noError : err &&& 0x37 = 0
  addressed : destination b = stationAddress s.dma.regs ∨ broadcast (destination b) = true

/-- The status word of a frame received without error (R115, R210). -/
def goodStatus (st : U16) : U16 := (st &&& bitWrap) ||| bitLast

/-- The descriptor is the host's (R91). -/
theorem goodStatus_released (st : U16) : (goodStatus st).getLsbD 15 = false := by simp [goodStatus, bitWrap, bitLast]

theorem goodStatus_noError (st : U16) : goodStatus st &&& 0x0037 = 0 := by
  have wrap : bitWrap &&& 0x0037 = 0#16 := rfl
  have last : bitLast &&& 0x0037 = 0#16 := rfl
  rw [goodStatus, BitVec.and_or_distrib_right, BitVec.and_assoc, wrap, last, BitVec.and_zero]
  rfl

/-- The state in which the wire leaves a good frame at the cursor's slot (R210). -/
def State.offered (s : State) (b : List Byte) (st : U16) : State :=
  s.rxStored (BitVec.ofNat 32 (rxBufAddr s.cfg s.dma.rxCursor)) b st (goodStatus st)

/-- PROC_INPUT's first call is below the cap (R165). -/
theorem rxLoopCap_pos {c : Config} (h : c.wf = true) : 0 < c.rxLoopCap := by
  simp only [Config.wf, Bool.and_eq_true, decide_eq_true_eq] at h
  omega

namespace GoodFrame

variable {s : State} {b : List Byte} {err : Byte} {st : U16} (h : GoodFrame s b err st)

include h

theorem slot : descAddr s.dma.regs.rdsr s.dma.hwRxIdx = descAddr s.cfg.rxRingBase s.dma.rxCursor := by rw [h.ring, h.index]

theorem space : rxBufAddr s.cfg s.dma.rxCursor + s.cfg.bufSize ≤ dmaSpaceEnd := (layout_of_wf h.wf).rxSlot h.cursor le_rfl

theorem buf_toNat : (BitVec.ofNat 32 (rxBufAddr s.cfg s.dma.rxCursor)).toNat = rxBufAddr s.cfg s.dma.rxCursor :=
  bufField_toNat h.space (by have := h.long; have := h.fits; omega)

theorem len_toNat : (BitVec.ofNat 16 b.length).toNat = b.length := (layout_of_wf h.wf).lenField_toNat h.fits

theorem ready : ∃ len, RxReady s len st (BitVec.ofNat 32 (rxBufAddr s.cfg s.dma.rxCursor)) := by
  obtain ⟨len, hdesc⟩ := h.desc
  exact ⟨len, h.active, h.slot ▸ (layout_of_wf h.wf).rx.desc h.cursor, h.slot ▸ hdesc, h.owned, h.buf_toNat.symm ▸ h.space⟩

/-- !WIRE_RX: the frame is in the slot's buffer, its descriptor the host's (R209, R210). -/
theorem wireRx_next : exec (.wireRx b err) s = .next (s.offered b st) := by
  obtain ⟨hecr, -, -⟩ := h.mac.inside h.session
  obtain ⟨len, ready⟩ := h.ready
  have admitted := dmaAdmits_addressed (c := s.cfg) (b := b) (by rw [hecr]; rfl) h.long h.addressed
  have engine := rxEngine_ok ready b err
  rw [rxErrorBits_good h.maxFl h.fits h.noError, Nat.min_eq_left h.fits, List.take_length, BitVec.or_zero] at engine
  exact runEvent_quiet ((byBackend_dma h.session.1).trans ((dmaWireRx_admitted admitted).trans engine)) h.quiet

/-- !ISR: the frame's event is taken and the flag set (R211). -/
theorem isr_next : exec .isr (s.offered b st) = .next (s.offered b st).interrupted := by
  obtain ⟨-, heimr, -⟩ := h.mac.inside h.session
  exact runEvent_quiet ((byBackend_dma (s := s.offered b st) h.session.1).trans (dmaIsr_ok (dmaLine_setEvent heimr))) h.quiet

/-- The buffer is filled before the descriptor is written (R210). -/
theorem filled_wf : (Memory.writeBytes s.dma.mem (BitVec.ofNat 32 (rxBufAddr s.cfg s.dma.rxCursor)).toNat b).wf :=
  Memory.wf_writeBytes h.mem _ _

/-- PROC_INPUT then finds the frame at the cursor (R205). -/
theorem atCursor : FrameAtCursor (s.offered b st).interrupted 0 (goodStatus st) (BitVec.ofNat 16 b.length) where
  quiet := h.quiet
  wf := h.wf
  session := h.session
  counter := rxLoopCap_pos h.wf
  pending := rfl
  cursor := h.cursor
  status := h.slot ▸ withDescriptor_status h.filled_wf _ _ _
  released := goodStatus_released st
  len := h.slot ▸ withDescriptor_len h.filled_wf _ _ _
  fits := h.len_toNat.symm ▸ h.fits

/-- Memory holds the frame in the slot's buffer (R210). -/
theorem stored_bytes : Memory.readBytes (s.offered b st).interrupted.dma.mem (rxBufAddr s.cfg s.dma.rxCursor)
    (BitVec.ofNat 16 b.length).toNat = some b := by
  have hfits := h.fits
  rw [h.len_toNat]
  refine (Memory.readBytes_congr fun x h1 h2 => withDescriptor_apart h.filled_wf _ _ _ ?_).trans ?_
  · rw [h.slot]
    exact ((layout_of_wf h.wf).rxSlot_desc h.cursor h.cursor h1 (by omega)).imp_right fun hx => by omega
  · rw [h.buf_toNat]
    exact Memory.readBytes_writeBytes_any _ _ _

/-- The three steps together: the frame is PROC_INPUT's answer (R205, R215 (d)). -/
theorem passes (ha : s.draws.takeAlloc.1 = true) :
    ∃ t u v, exec (.wireRx b err) s = .next t ∧ exec .isr t = .next u ∧ exec (.procInput 0) u = .next v
      ∧ v.resBuf = 0x00 :: (putBe32 s.draws.takeAlloc.2.takeTimestamp.1 ++ putBe16 (BitVec.ofNat 16 b.length) ++ b) := by
  have c := h.atCursor
  have taken := dmaInputTakesFrame _ _ _ _ c.quiet c.wf c.session c.counter c.pending c.cursor c.status c.released c.len c.fits
  exact ⟨_, _, _, h.wireRx_next, h.isr_next, taken.2.2 (goodStatus_noError st) ha b h.stored_bytes, rfl⟩

end GoodFrame

/-! ## From the host to the wire (R215 (d)) -/

/-- A frame to send finds the cursor's descriptor the host's, the transmit engine at it (R207, R213). -/
structure FrameToSend (s : State) (b : List Byte) (st : U16) : Prop where
  quiet : s.Quiet
  wf : s.cfg.wf = true
  session : s.DmaSession
  mac : MacInv s
  mem : MemoriesWf s
  ring : s.dma.regs.tdsr = s.cfg.txRingBase
  index : s.dma.hwTxIdx = s.dma.txCursor
  cursor : s.dma.txCursor < s.cfg.nTx
  desc : ∃ len, DescAt s.dma.mem (descAddr s.cfg.txRingBase s.dma.txCursor) len st (BitVec.ofNat 32 (txBufAddr s.cfg s.dma.txCursor))
  released : st.getLsbD 15 = false
  nonempty : 0 < b.length
  fits : b.length ≤ s.cfg.maxLenTagged

namespace FrameToSend

variable {s : State} {b : List Byte} {st : U16} (h : FrameToSend s b st)

include h

theorem fits_slot : b.length ≤ s.cfg.bufSize := h.fits.trans (layout_of_wf h.wf).fits

theorem space : txBufAddr s.cfg s.dma.txCursor + b.length ≤ dmaSpaceEnd := (layout_of_wf h.wf).txSlot h.cursor h.fits_slot

theorem buf_toNat : (BitVec.ofNat 32 (txBufAddr s.cfg s.dma.txCursor)).toNat = txBufAddr s.cfg s.dma.txCursor :=
  bufField_toNat h.space h.nonempty

theorem len_toNat : (BitVec.ofNat 16 b.length).toNat = b.length := (layout_of_wf h.wf).lenField_toNat h.fits_slot

theorem slot : descAddr s.dma.regs.tdsr s.dma.hwTxIdx = descAddr s.cfg.txRingBase s.dma.txCursor := by rw [h.ring, h.index]

/-- A memory that differs from the session's only in the slot's buffer and in LEN and STATUS still holds the buffer's address. -/
theorem buf_kept {m : Memory} (hm : ∀ x, (x < txBufAddr s.cfg s.dma.txCursor ∨ txBufAddr s.cfg s.dma.txCursor + s.cfg.bufSize ≤ x) →
      (x < descAddr s.cfg.txRingBase s.dma.txCursor ∨ descAddr s.cfg.txRingBase s.dma.txCursor + 4 ≤ x) →
      Memory.read? m x = Memory.read? s.dma.mem x) :
    Memory.word? m (descAddr s.cfg.txRingBase s.dma.txCursor + 4) = some (BitVec.ofNat 32 (txBufAddr s.cfg s.dma.txCursor)) := by
  obtain ⟨len, hdesc⟩ := h.desc
  refine (Memory.word?_congr_bytes fun x h1 h2 => hm x ?_ (.inr h1)).trans hdesc.buf
  by_contra hx
  have := (layout_of_wf h.wf).txSlot_desc h.cursor (x := x) (by omega) (by omega) h.cursor
  omega

/-- What OUTPUT wrote into the descriptor is legal to the engine (R94, R213). -/
theorem legal : txDescriptorLegal s.cfg (0x8C00 ||| (st &&& 0x2000)) (BitVec.ofNat 16 b.length).toNat = true := by
  rw [h.len_toNat]
  simp [txDescriptorLegal, h.nonempty, h.fits_slot]

/-- OUTPUT leaves the transmit engine at the frame (R94, R207). -/
theorem output_next : ∃ t, exec (.output b) s = .next t ∧ t.Quiet ∧ t.cfg.backend = .dma ∧ t.wireTxLog = s.wireTxLog
    ∧ TxReady t (0x8C00 ||| (st &&& 0x2000)) (BitVec.ofNat 16 b.length) (BitVec.ofNat 32 (txBufAddr s.cfg s.dma.txCursor)) b := by
  obtain ⟨len, hdesc⟩ := h.desc
  obtain ⟨hecr, -, -⟩ := h.mac.inside h.session
  obtain ⟨m, out, bytes, hlen, status, others⟩ := (dmaOutputGivesFrame s (.output b) b st h.quiet h.wf h.session h.mem (.inl rfl)
    h.nonempty h.fits h.cursor hdesc.status).2 h.released
  have placed : Placed (descAddr s.dma.regs.tdsr s.dma.hwTxIdx) := h.slot ▸ (layout_of_wf h.wf).tx.desc h.cursor
  have desc : DescAt m (descAddr s.dma.regs.tdsr s.dma.hwTxIdx) (BitVec.ofNat 16 b.length) (0x8C00 ||| (st &&& 0x2000))
      (BitVec.ofNat 32 (txBufAddr s.cfg s.dma.txCursor)) := h.slot ▸ ⟨hlen, status, h.buf_kept others⟩
  have enabled : s.dma.regs.ecr.getLsbD 0 = true := by rw [hecr]; rfl
  refine ⟨_, out, h.quiet, h.session.1, rfl, enabled, rfl, placed, desc, by simp, h.legal, ?_, ?_⟩
  · rw [h.buf_toNat, h.len_toNat]
    exact h.space
  · rw [h.buf_toNat, h.len_toNat]
    exact bytes

/-- OUTPUT then !DMA_TX: the frame is the next entry of the wire (R207, R213). -/
theorem sent : ∃ t u, exec (.output b) s = .next t ∧ exec .dmaTx t = .next u ∧ u.wireTxLog = s.wireTxLog ++ [b] := by
  obtain ⟨t, out, quiet, dma, log, ready⟩ := h.output_next
  exact ⟨t, _, out, runEvent_quiet (t := t.txSent b _) ((byBackend_dma dma).trans (txEngine_ok ready)) quiet, log ▸ rfl⟩

end FrameToSend

/-- Settles O59: the receive engine stores the bytes PROC_INPUT reads, the transmit engine reads the bytes OUTPUT flushed. -/
theorem dmaFramesPassUnchanged : Obligations.DmaFramesPassUnchanged := by
  refine ⟨fun s b err st hq hwf hd hmac hmem hact hring hidx hcur hdesc ho h14 hfit hfl he haddr ha => ?_,
    fun s b st hq hwf hd hmac hmem hring hidx hcur hdesc ho h0 h1 => ?_⟩
  · exact (GoodFrame.mk hq hwf hd hmac hmem.dma hact hring hidx hcur hdesc ho h14 hfit hfl he haddr).passes ha
  · exact (FrameToSend.mk hq hwf hd hmac hmem hring hidx hcur hdesc ho h0 h1).sent

end Sys2Proof.Machine
end

section
/-! SUPPORT. The encoder undoes the decoder (R110, R111, R129): format by format, then for the whole opcode map. -/

namespace Sys2Proof.Machine

/-! ## Operands as they are written -/

theorem putBe16_join16 (hi lo : Byte) : putBe16 (join16 hi lo) = [hi, lo] := by
  have high : hi8 (join16 hi lo) = hi := BitVec.extractLsb'_append_eq_left
  have low : lo8 (join16 hi lo) = lo := BitVec.extractLsb'_append_eq_right
  rw [putBe16, high, low]

/-- A length read from two bytes fits its operand, and is written as those two bytes again (R110). -/
theorem lengthPrefixed_of_length {hi lo : Byte} {d : List Byte} (h : d.length = (join16 hi lo).toNat) :
    lengthFits d = true ∧ lengthPrefixed d = hi :: lo :: d := by
  refine ⟨decide_eq_true (by have := (join16 hi lo).isLt; omega), ?_⟩
  rw [lengthPrefixed, h, BitVec.ofNat_toNat, BitVec.setWidth_eq, putBe16_join16]
  rfl

/-- A flags byte whose bits 7:3 are zero is its three flags (R114, R135). -/
theorem linkFlagBits_getLsbD (f : Byte) (h : f &&& 0xF8 = 0) : linkFlagBits (f.getLsbD 0) (f.getLsbD 1) (f.getLsbD 2) = f := by
  revert f
  decide

/-! ## What a format's decoder answers is written as what it read -/

/-- The instruction is well formed and these are its bytes (R110, R129). -/
def IsEncoding (bs : List Byte) (i : Instr) : Prop := i.wellFormed = true ∧ encode i = bs

section Formats

variable {op : Byte} {rest : List Byte} {i j : Instr}

theorem decodeF0_isEncoding (h : decodeF0 op i rest = .ok j) (hi : IsEncoding [op] i) : IsEncoding (op :: rest) j := by
  unfold decodeF0 at h
  split at h <;> cases h
  exact hi

theorem decodeFM_isEncoding {mk : MacAddr → Instr} (h : decodeFM op mk rest = .ok j) (hmk : ∀ m, IsEncoding (op :: macBytes m) (mk m)) :
    IsEncoding (op :: rest) j := by
  unfold decodeFM at h
  split at h <;> cases h
  exact hmk _

theorem decodeFMA_isEncoding {mk : MacAddr → Bool → Instr} (h : decodeFMA op mk rest = .ok j)
    (hmk : ∀ m a, IsEncoding (op :: (macBytes m ++ [allowByte a])) (mk m a)) : IsEncoding (op :: rest) j := by
  unfold decodeFMA at h
  split at h
  case h_2 => cases h
  case h_1 =>
    split at h
    next ha => cases h; exact ha ▸ hmk _ false
    next =>
      split at h
      next ha => cases h; exact ha ▸ hmk _ true
      next => cases h

theorem decodeFC_isEncoding {mk : U16 → Instr} (h : decodeFC op mk rest = .ok j) (hmk : ∀ c, IsEncoding (op :: putBe16 c) (mk c)) :
    IsEncoding (op :: rest) j := by
  unfold decodeFC at h
  split at h <;> cases h
  exact putBe16_join16 _ _ ▸ hmk _

theorem decodeFB_isEncoding {mk : List Byte → Instr} (h : decodeFB op mk rest = .ok j)
    (hmk : ∀ d, lengthFits d = true → IsEncoding (op :: lengthPrefixed d) (mk d)) : IsEncoding (op :: rest) j := by
  unfold decodeFB at h
  split at h
  case h_2 => cases h
  case h_1 =>
    split at h <;> cases h
    next hlen =>
      obtain ⟨fits, written⟩ := lengthPrefixed_of_length hlen
      exact written ▸ hmk _ fits

theorem decodeFL_isEncoding (h : decodeFL op rest = .ok j)
    (hmk : ∀ sp d n x, IsEncoding (op :: (putBe16 sp ++ [linkFlagBits d n x])) (.setLinkSettings sp d n x)) :
    IsEncoding (op :: rest) j := by
  unfold decodeFL at h
  split at h
  case h_2 => cases h
  case h_1 s1 s0 f =>
    split at h <;> cases h
    next hf =>
      have written := hmk (join16 s1 s0) (f.getLsbD 0) (f.getLsbD 1) (f.getLsbD 2)
      rwa [putBe16_join16, linkFlagBits_getLsbD f hf] at written

theorem decodeWireRx_isEncoding (h : decodeWireRx op rest = .ok j)
    (hmk : ∀ d e, lengthFits d = true → IsEncoding (op :: (lengthPrefixed d ++ [e])) (.wireRx d e)) : IsEncoding (op :: rest) j := by
  unfold decodeWireRx at h
  split at h
  case h_2 => cases h
  case h_1 n1 n0 d =>
    split at h <;> cases h
    next e hdrop =>
      have hlen : (d.take (join16 n1 n0).toNat).length = (join16 n1 n0).toNat := by
        have := congrArg List.length hdrop
        simp at this ⊢
        omega
      obtain ⟨fits, written⟩ := lengthPrefixed_of_length hlen
      have whole := hmk _ e fits
      rwa [written, ← hdrop, List.cons_append, List.cons_append, List.take_append_drop] at whole

theorem decodeLink_isEncoding (h : decodeLink op rest = .ok j) (hmk : ∀ f, IsEncoding [op, f] (.link f)) : IsEncoding (op :: rest) j := by
  unfold decodeLink at h
  split at h <;> cases h
  exact hmk _

theorem decodeRingFault_isEncoding (h : decodeRingFault op rest = .ok j)
    (hmk : ∀ a v, IsEncoding (op :: (putBe16 a ++ [v])) (.ringFault a v)) : IsEncoding (op :: rest) j := by
  unfold decodeRingFault at h
  split at h <;> cases h
  next a1 a0 v =>
    have written := hmk (join16 a1 a0) v
    rwa [putBe16_join16] at written

end Formats

/-! ## The opcode map -/

theorem isEncoding_of_opcode {op : Byte} {n : Nat} {tail : List Byte} {i : Instr} (hop : op.toNat = n) (hwf : i.wellFormed = true)
    (he : encode i = BitVec.ofNat 8 n :: tail) : IsEncoding (op :: tail) i := by
  subst hop
  exact ⟨hwf, by rw [he, BitVec.ofNat_toNat, BitVec.setWidth_eq]⟩

/-- Whatever decodes is the encoding of what it decodes to (R110, R111, R114, R129). -/
theorem decode_isEncoding {bs : List Byte} {i : Instr} (h : decode bs = .ok i) : IsEncoding bs i := by
  cases bs with
  | nil => cases h
  | cons op rest =>
    simp only [decode] at h
    split at h
    next hop => exact decodeF0_isEncoding h (isEncoding_of_opcode hop rfl rfl)
    next hop => exact decodeF0_isEncoding h (isEncoding_of_opcode hop rfl rfl)
    next hop => exact decodeF0_isEncoding h (isEncoding_of_opcode hop rfl rfl)
    next hop => exact decodeF0_isEncoding h (isEncoding_of_opcode hop rfl rfl)
    next hop => exact decodeFM_isEncoding h fun _ => isEncoding_of_opcode hop rfl rfl
    next hop => exact decodeFM_isEncoding h fun _ => isEncoding_of_opcode hop rfl rfl
    next hop => exact decodeF0_isEncoding h (isEncoding_of_opcode hop rfl rfl)
    next hop => exact decodeF0_isEncoding h (isEncoding_of_opcode hop rfl rfl)
    next hop => exact decodeFC_isEncoding h fun _ => isEncoding_of_opcode hop rfl rfl
    next hop => exact decodeF0_isEncoding h (isEncoding_of_opcode hop rfl rfl)
    next hop => exact decodeFB_isEncoding h fun _ fits => isEncoding_of_opcode hop fits rfl
    next hop => exact decodeFB_isEncoding h fun _ fits => isEncoding_of_opcode hop fits rfl
    next hop => exact decodeFMA_isEncoding h fun _ _ => isEncoding_of_opcode hop rfl rfl
    next hop => exact decodeF0_isEncoding h (isEncoding_of_opcode hop rfl rfl)
    next hop => exact decodeFL_isEncoding h fun _ _ _ _ => isEncoding_of_opcode hop rfl rfl
    next hop => exact decodeF0_isEncoding h (isEncoding_of_opcode hop rfl rfl)
    next hop => exact decodeF0_isEncoding h (isEncoding_of_opcode hop rfl rfl)
    next hop => exact decodeFM_isEncoding h fun _ => isEncoding_of_opcode hop rfl rfl
    next hop => exact decodeF0_isEncoding h (isEncoding_of_opcode hop rfl rfl)
    next hop => exact decodeF0_isEncoding h (isEncoding_of_opcode hop rfl rfl)
    next hop => exact decodeFB_isEncoding h fun _ fits => isEncoding_of_opcode hop fits rfl
    next hop => exact decodeFB_isEncoding h fun _ fits => isEncoding_of_opcode hop fits rfl
    next hop => exact decodeFMA_isEncoding h fun _ _ => isEncoding_of_opcode hop rfl rfl
    next hop => exact decodeWireRx_isEncoding h fun _ _ fits => isEncoding_of_opcode hop fits rfl
    next hop => exact decodeF0_isEncoding h (isEncoding_of_opcode hop rfl rfl)
    next hop => exact decodeF0_isEncoding h (isEncoding_of_opcode hop rfl rfl)
    next hop => exact decodeF0_isEncoding h (isEncoding_of_opcode hop rfl rfl)
    next hop => exact decodeLink_isEncoding h fun _ => isEncoding_of_opcode hop rfl rfl
    next hop => exact decodeF0_isEncoding h (isEncoding_of_opcode hop rfl rfl)
    next hop => exact decodeF0_isEncoding h (isEncoding_of_opcode hop rfl rfl)
    next hop => exact decodeRingFault_isEncoding h fun _ _ => isEncoding_of_opcode hop rfl rfl
    next => cases h

/-- Settles O1: each format's decoder reads back what its encoder wrote. -/
theorem decodeOfEncode : Obligations.DecodeOfEncode := decode_encode

/-- Settles O2: each format's decoder answers an instruction whose encoding is the bytes it read. -/
theorem encodeOfDecode : Obligations.EncodeOfDecode := fun _ _ => decode_isEncoding

/-! ## Written-out words (R110, R111, R129) and buckets (R131) -/

theorem filterHash_reference {c : Config} (h : c.filterHash = .reference) (m : MacAddr) :
    filterHash c m = (crc32 (macBytes m)).extractLsb' 26 6 := by
  simp [filterHash, h]

/-- Settles O4: each word by evaluation, each bucket from the CRC of the six address bytes. -/
theorem specVectorsHold : Obligations.SpecVectorsHold := by
  refine ⟨by decide, by decide, by decide, by decide, by decide, by decide, by decide, by decide, by decide, by decide,
    by decide, by decide, by decide, fun c h => ?_⟩
  simp only [filterHash_reference h]
  decide +kernel

end Sys2Proof.Machine
end

section
/-! SUPPORT. A step whose next item encodes no instruction of its place, and a step with no item (R130, R328, R333). -/

namespace Sys2Proof.Machine

/-! ## What stands for an instruction in each place -/

theorem decode_of_decodeCommand {bs : List Byte} {i : Instr} (h : decodeCommand bs = .ok i) :
    decode bs = .ok i ∧ i.isEvent = false := by
  unfold decodeCommand at h
  split at h
  next hd =>
    split at h <;> cases h
    next he => exact ⟨hd, Bool.eq_false_of_not_eq_true he⟩
  next => cases h

theorem decode_of_decodeEvent {bs : List Byte} {i : Instr} (h : decodeEvent bs = .ok i) :
    decode bs = .ok i ∧ i.isEvent = true := by
  unfold decodeEvent at h
  split at h
  next hd =>
    split at h <;> cases h
    next he => exact ⟨hd, he⟩
  next => cases h

/-- Bytes that encode no command are refused by the command decoder (R130). -/
theorem decodeCommand_error {bs : List Byte} (h : ∀ i : Instr, i.isEvent = false → i.wellFormed = true → encode i ≠ bs) :
    ∃ e, decodeCommand bs = .error e := by
  cases hd : decodeCommand bs with
  | error e => exact ⟨e, rfl⟩
  | ok i =>
    obtain ⟨decoded, command⟩ := decode_of_decodeCommand hd
    obtain ⟨wellFormed, written⟩ := decode_isEncoding decoded
    exact absurd written (h i command wellFormed)

/-- Bytes that encode no event are refused by the event decoder (R129). -/
theorem decodeEvent_error {bs : List Byte} (h : ∀ i : Instr, i.isEvent = true → i.wellFormed = true → encode i ≠ bs) :
    ∃ e, decodeEvent bs = .error e := by
  cases hd : decodeEvent bs with
  | error e => exact ⟨e, rfl⟩
  | ok i =>
    obtain ⟨decoded, event⟩ := decode_of_decodeEvent hd
    obtain ⟨wellFormed, written⟩ := decode_isEncoding decoded
    exact absurd written (h i event wellFormed)

/-! ## The step -/

/-- A command that is refused is answered REFUSED, its bytes in CMD_BUF (R20, R130, R328). -/
theorem step_command_error {s : State} {bs : List Byte} {items : List Item} {e : DecodeError} (hin : s.input = .command bs :: items)
    (hd : decodeCommand bs = .error e) : step s = .next { s with input := items, cmdBuf := bs, resBuf := [0x04] } := by
  simp only [step, fetch, hin, Item.decode, hd]
  rfl

theorem step_event_error {s : State} {bs : List Byte} {items : List Item} {e : DecodeError} (hin : s.input = .event bs :: items)
    (hd : decodeEvent bs = .error e) : step s = .refused (.malformedEvent bs) := by
  simp only [step, fetch, hin, Item.decode, hd]
  rfl

/-- With nothing handed in a step is the agents' alone (R3, R333). -/
theorem step_idle {s : State} (hin : s.input = []) : step s = idle s := by
  simp [step, fetch, hin]

/-- Settles O3: bytes that encode no command are refused, and the answer is all a refused command changes. -/
theorem illFormedCommandRefused : Obligations.IllFormedCommandRefused := by
  intro s bs items hin h
  obtain ⟨e, hd⟩ := decodeCommand_error h
  exact step_command_error hin hd

/-- Settles O6: in a quiet state no agent steps at a boundary, and bytes that encode no event are refused by name. -/
theorem stepOtherwise : Obligations.StepOtherwise := by
  refine ⟨fun s hq hin => ?_, fun s bs items hin h => ?_⟩
  · exact (step_idle hin).trans (runSilent_ok (boundary_calm (State.Quiet.calm hq)))
  · obtain ⟨e, hd⟩ := decodeEvent_error h
    exact step_event_error hin hd

end Sys2Proof.Machine
end

section
/-! SUPPORT. The contract operations that read a variable (R150, R159, R160, R167, R168), and SET_LINK_SETTINGS (R166). -/

namespace Sys2Proof.Machine

/-- Each bit of GET_LINK_INFO's flag byte (R135, R167). -/
theorem linkInfoFlags_bits (r : LinkRecord) (up : Bool) :
    (linkInfoFlags r up).getLsbD 0 = r.fullDuplex ∧ (linkInfoFlags r up).getLsbD 1 = r.autoneg
      ∧ (linkInfoFlags r up).getLsbD 2 = r.crossover ∧ (linkInfoFlags r up).getLsbD 3 = false
      ∧ (linkInfoFlags r up).getLsbD 4 = false ∧ (linkInfoFlags r up).getLsbD 5 = false
      ∧ (linkInfoFlags r up).getLsbD 6 = false ∧ (linkInfoFlags r up).getLsbD 7 = up := by
  unfold linkInfoFlags
  generalize r.fullDuplex = d, r.autoneg = n, r.crossover = x
  revert d n x up
  decide

/-- A truth value in RES_BUF: OK or FALSE (R112). -/
theorem respond_boolResult (s : State) (b : Bool) : s.respond (boolResult b) = { s with resBuf := [if b then 0x00 else 0x01] } := by
  cases b <;> rfl

/-- Settles O22: each operation runs to its answer without a change. -/
theorem variableReads : Obligations.VariableReads := by
  refine fun s => ⟨?_, rfl, rfl, ⟨linkInfoFlags s.linkInfo s.linkReported, rfl, linkInfoFlags_bits _ _⟩, ?_⟩
  · refine (runCommand_bind (f := fun t => boolResult (t.initState == .start)) (get_apply s)).trans ?_
    simp [respond_boolResult]
  · rfl

/-- Settles O24: the gate, then one assignment. -/
theorem linkSettingsStored : Obligations.LinkSettingsStored := by
  intro s sp d n x
  by_cases hs : s.initState = .initialized
  · rw [if_neg (not_not.mpr hs)]
    exact runCommand_ok ((gated_inside hs).trans (thenOk_ok (modify_apply _ s)))
  · rw [if_pos hs]
    exact runCommand_ok (gated_outside hs)

end Sys2Proof.Machine
end

section
/-! SUPPORT. Operations that are turned away, under every schedule (R162, R163, R285 to R287, R327, R329). -/

namespace Sys2Proof.Machine

/-- The data plane's operations that answer INVALID while it is closed (R162, R281, R285). -/
def AnswersInvalid (i : Instr) : Prop :=
  (∃ c, i = .procInput c) ∨ (∃ b, i = .output b) ∨ (∃ b, i = .outputFrame b) ∨ i = .pipeProcInput ∨ ∃ b, i = .pipeTxChain b

theorem exec_invalid_of_closed {i : Instr} {s : State} (h : dataPlaneClosed s = true) (hi : AnswersInvalid i) :
    exec i s = .next { s with resBuf := [0x03] } := by
  rcases hi with ⟨c, rfl⟩ | ⟨b, rfl⟩ | ⟨b, rfl⟩ | rfl | ⟨b, rfl⟩
  · exact runCommand_bind (procInput_closed h c.toNat)
  · exact runCommand_bind (outputOp_closed h b)
  · exact runCommand_bind (outputOp_closed h b)
  · exact runCommand_ok (pipeProcInput_closed h)
  · exact runCommand_bind (pipeTxChain_closed h b)

/-- PIPE_TX_RAW makes INVALID its FALSE (R286). -/
theorem exec_pipeTxRaw_of_closed {s : State} (h : dataPlaneClosed s = true) (b : List Byte) :
    exec (.pipeTxRaw b) s = .next { s with resBuf := [0x01] } := runCommand_bind (pipeTxRaw_closed h b)

theorem dataPlaneClosed_outside {s : State} (h : s.initState ≠ .initialized) : dataPlaneClosed s = true := by
  simp [dataPlaneClosed, h]

/-- A socket fault closes the data plane of the SPI build (R162, R329). -/
theorem dataPlaneClosed_fault {s : State} (hb : s.cfg.backend = .spi) (hf : s.spi.faultSock = true) : dataPlaneClosed s = true := by
  simp [dataPlaneClosed, hb, hf]

/-- Settles O25: the state gate, or the data plane's gate. -/
theorem gateOutsideSession : Obligations.GateOutsideSession := by
  intro s hs
  have closed := dataPlaneClosed_outside hs
  have gate : ∀ m : M Result, runCommand (gated m) s = .next { s with resBuf := [0x03] } := fun _ => runCommand_ok (gated_outside hs)
  have filter : s.cfg.promiscuous = false → ∀ m a, runCommand (filterOp m a) s = .next { s with resBuf := [0x03] } := fun hp m a =>
    runCommand_ok ((filterOp_gated hp m a).trans (gated_outside hs))
  refine ⟨fun i hi => ?_, exec_pipeTxRaw_of_closed closed⟩
  rcases hi with rfl | hi | rfl | hi | hi | rfl | ⟨sp, d, n, x, rfl⟩ | rfl | rfl | hi | ⟨hp, ⟨m, a, rfl⟩ | ⟨m, a, rfl⟩⟩
  · exact gate _
  · exact exec_invalid_of_closed closed (.inl hi)
  · exact gate _
  · exact exec_invalid_of_closed closed (.inr (.inl hi))
  · exact exec_invalid_of_closed closed (.inr (.inr (.inl hi)))
  · exact gate _
  · exact gate _
  · exact exec_invalid_of_closed closed (.inr (.inr (.inr (.inl rfl))))
  · exact gate _
  · exact exec_invalid_of_closed closed (.inr (.inr (.inr (.inr hi))))
  · exact filter hp m a
  · exact filter hp m a

/-! ## Lengths the hardware cannot carry (R207, R259) -/

/-- A frame the backend cannot carry is turned away whether the data plane is open or not. -/
theorem outputOp_uncarriable {s : State} {b : List Byte} (h : b.length = 0 ∨ s.cfg.maxLenTagged < b.length) :
    outputOp b s = .ok (.invalid, s) := by
  have hc : carriable s.cfg b = false := by
    simp only [carriable, Bool.and_eq_false_iff, decide_eq_false_iff_not]
    omega
  unfold outputOp
  rw [get_bind_apply, branch_apply, if_pos (by simp [hc])]
  rfl

/-- PIPE_TX_CHAIN judges what is left without the padding (R285). -/
theorem pipeTxChain_uncarriable {s : State} {b : List Byte}
    (h : b.length ≤ s.cfg.stackPad ∨ s.cfg.stackPad + s.cfg.maxLenTagged < b.length) : pipeTxChain b s = .ok (.invalid, s) := by
  unfold pipeTxChain
  rw [config_bind_apply, branch_apply]
  split
  · rfl
  · refine outputOp_uncarriable ?_
    rw [List.length_drop]
    omega

/-- PIPE_TX_RAW checks the length before anything else (R286). -/
theorem pipeTxRaw_illSized {s : State} {b : List Byte} (h : lengthValid s.cfg b = false) : pipeTxRaw b s = .ok (false, s) := by
  unfold pipeTxRaw
  rw [config_bind_apply, branch_apply, if_neg (by simp [h])]
  rfl

/-- Settles O26: the closed data plane, or a length turned away in front of it. -/
theorem dataPlaneRefusals : Obligations.DataPlaneRefusals := by
  refine ⟨fun s hd hf => ?_, fun s b h => ⟨?_, ?_⟩, fun s b h => ?_, fun s b h => ?_⟩
  · have closed := dataPlaneClosed_fault hd.1 hf
    exact ⟨fun i => exec_invalid_of_closed closed, exec_pipeTxRaw_of_closed closed⟩
  · exact runCommand_bind (outputOp_uncarriable h)
  · exact runCommand_bind (outputOp_uncarriable h)
  · exact runCommand_bind (pipeTxChain_uncarriable h)
  · exact runCommand_bind (pipeTxRaw_illSized h)

/-! ## Probing and INIT past their work (R151, R153) -/

/-- Settles O27: past Start nothing is probed, and in NoHardware and in a session INIT is its answer. -/
theorem probeResultMemoized : Obligations.ProbeResultMemoized := by
  refine fun s => ⟨fun h => ?_, fun m => ⟨fun h => ?_, fun h => ?_⟩⟩
  · refine (runCommand_bind (hasHardware_past h)).trans ?_
    simp [respond_boolResult]
  · have init := initialise_noHardware h m
    exact ⟨runCommand_bind init, runCommand_bind ((pipeInit_past (by simp [h]) m).trans init)⟩
  · have init := initialise_initialized h m
    exact ⟨runCommand_bind init, runCommand_bind ((pipeInit_past (by simp [h]) m).trans init)⟩

end Sys2Proof.Machine
end

section
/-! SUPPORT. DEINIT outside a session, and DEINIT after DEINIT (R152, R156). -/

namespace Sys2Proof.Machine

/-- What DEINIT does in every state once the session has ended: one step back, then everything of a session cleared (R156). -/
def State.walkedBack (s : State) : State :=
  { s.stepBack.sessionCleared with
    dma := if s.cfg.backend = .spi then s.dma else s.dma.sessionCleared
    spi := if s.cfg.backend = .dma then s.spi else s.spi.sessionCleared }

theorem deinitialise_eq (s : State) :
    deinitialise s = (onlyIf (s.initState = .initialized) endSession >>= fun _ u => .ok ((), u.walkedBack)) s := by
  have clear : ∀ u : State, (do
      modify State.stepBack
      modify State.sessionCleared
      byBackend (modifyDma DmaState.sessionCleared) (modifySpi SpiState.sessionCleared) : M Unit) u = .ok ((), u.walkedBack) := by
    intro u
    rw [modify_bind_apply, modify_bind_apply]
    cases hb : u.cfg.backend with
    | dma =>
      rw [byBackend_dma (by simpa using hb)]
      simp [State.walkedBack, hb]
    | spi =>
      rw [byBackend_spi (by simpa using hb)]
      simp [State.walkedBack, hb]
  unfold deinitialise
  rw [get_bind_apply]
  exact congrArg (fun f => (onlyIf (s.initState = .initialized) endSession >>= f) s) (funext fun _ => funext clear)

theorem deinitialise_outside {s : State} (h : s.initState ≠ .initialized) : deinitialise s = .ok ((), s.walkedBack) := by
  rw [deinitialise_eq, onlyIf_neg h]
  rfl

theorem exec_deinit_outside {s : State} (h : s.initState ≠ .initialized) :
    exec .deinit s = .next { s.walkedBack with resBuf := [0x00] } := runCommand_ok (thenOk_ok (deinitialise_outside h))

/-- A session ends in state 3, from where DEINIT goes on (R156). -/
theorem endSession_phase : Ensures (fun _ => True) endSession fun _ s => s.initState = .phyInitialized :=
  Ensures.last fun _ => Ensures.last fun _ => Ensures.modifies fun _ _ => rfl

/-- DEINIT is the walk back from a state outside a session: its own, or the one the session's end leaves. -/
theorem deinitialise_walkedBack {s t : State} (h : deinitialise s = .ok ((), t)) :
    ∃ u : State, t = u.walkedBack ∧ u.initState = if s.initState = .initialized then .phyInitialized else s.initState := by
  rw [deinitialise_eq] at h
  obtain ⟨_, u, h1, h2⟩ := bind_ok_inv h
  cases h2
  refine ⟨u, rfl, ?_⟩
  by_cases hi : s.initState = .initialized
  · rw [onlyIf_pos hi] at h1
    rw [if_pos hi]
    exact endSession_phase s _ u h1 trivial
  · rw [onlyIf_neg hi] at h1
    cases h1
    rw [if_neg hi]

theorem exec_deinit_walkedBack {s t : State} (h : exec .deinit s = .next t) :
    ∃ u : State, t = u.walkedBack.respond (.plain .ok)
      ∧ u.initState = if s.initState = .initialized then .phyInitialized else s.initState := by
  obtain ⟨r, v, h1, rfl⟩ := runCommand_next_iff.mp h
  obtain ⟨_, w, h2, h3⟩ := bind_ok_inv h1
  cases h3
  obtain ⟨u, rfl, hu⟩ := deinitialise_walkedBack h2
  exact ⟨u, rfl, hu⟩

theorem walkedBack_initState (s : State) :
    s.walkedBack.initState = if s.initState = .phyInitialized then .hasHardware else s.initState := by
  simp [State.walkedBack]

/-- DEINIT walks back to state 2, never further (R156). -/
theorem exec_deinit_initState {s t : State} (h : exec .deinit s = .next t) :
    t.initState = if s.initState = .phyInitialized ∨ s.initState = .initialized then .hasHardware else s.initState := by
  obtain ⟨u, rfl, hu⟩ := exec_deinit_walkedBack h
  rw [State.respond_initState, walkedBack_initState, hu]
  cases s.initState <;> rfl

/-- A state in which the walk back changes nothing (R156). -/
structure Settled (s : State) : Prop where
  phase : s.initState ≠ .phyInitialized
  session : s.sessionCleared = s
  dma : s.cfg.backend = .dma → s.dma.sessionCleared = s.dma
  spi : s.cfg.backend = .spi → s.spi.sessionCleared = s.spi

theorem Settled.walkedBack {s : State} (h : Settled s) : s.walkedBack = s := by
  have step : s.stepBack = s := if_neg h.phase
  unfold State.walkedBack
  rw [step, h.session]
  cases hb : s.cfg.backend with
  | dma => simp [h.dma hb]
  | spi => simp [h.spi hb]

theorem settled_walkedBack (s : State) (r : Result) : Settled (s.walkedBack.respond r) where
  phase := by
    rw [State.respond_initState, walkedBack_initState]
    split <;> simp [*]
  session := rfl
  dma hb := by
    have hb : s.cfg.backend = .dma := by simpa [State.walkedBack] using hb
    simp [State.walkedBack, hb, DmaState.sessionCleared]
  spi hb := by
    have hb : s.cfg.backend = .spi := by simpa [State.walkedBack] using hb
    simp [State.walkedBack, hb, SpiState.sessionCleared]

/-- Settles O37: outside a session DEINIT is the walk back, and a state it has left is outside a session and walked back. -/
theorem deinitIdempotent : Obligations.DeinitIdempotent := by
  refine ⟨fun s h => (exec_deinit_outside h).trans ?_, fun s t h => ?_⟩
  · unfold State.walkedBack State.stepBack
    split <;> rfl
  · have ht : t.initState ≠ .initialized := by
      rw [exec_deinit_initState h]
      split
      · decide
      · next hs => exact fun hi => hs (.inr hi)
    obtain ⟨u, rfl, -⟩ := exec_deinit_walkedBack h
    exact (exec_deinit_outside ht).trans (by rw [(settled_walkedBack u _).walkedBack]; rfl)

end Sys2Proof.Machine
end

section
/-! SUPPORT. INIT on the DMA build from a state past the probe: the bring-up (R192 to R196), and a tuning write that fails (R191). -/

namespace Sys2Proof.Machine

/-- From state 3 INIT on the DMA build is the bring-up (R153). -/
theorem dmaInit_tuned {s t : State} {m : MacAddr} (h : s.initState ≠ .hasHardware) (hb : dmaBringUp m s = .ok ((), t)) :
    dmaInit m s = .ok (true, t) := by
  unfold dmaInit
  rw [get_bind_apply, branch_apply, if_neg h, bind_ok hb]
  rfl

/-- Settles O31: the bring-up, then the session starts. -/
theorem dmaInitBringsUp : Obligations.DmaInitBringsUp := by
  intro s m hq hwf hb hi hmac hmem
  obtain ⟨hecr, -⟩ := hmac.outside hb (by simp [hi])
  obtain ⟨mem', bring, -, seeded⟩ := dmaBringUp_ok (hq.stillDma hb) (layout_of_wf hwf) hmem.dma hecr m
  have init := (initialise_past (by simp [hi]) (by simp [hi]) (by simp [hi])
    ((byBackend_dma hb).trans (dmaInit_tuned (by simp [hi]) bring))).trans (if_pos rfl)
  have answer := runCommand_bind (f := boolResult) init
  refine ⟨mem', answer.trans ?_, (runCommand_bind ((pipeInit_past (by simp [hi]) m).trans init)).trans answer.symm, seeded⟩
  simp only [State.afterInit, ← capsOf_eq]
  rfl

/-! ## A tuning write that fails (R191) -/

/-- Where the tuning fails, INIT on the DMA build ends with FALSE (R153). -/
theorem exec_init_untuned {s u : State} (hb : s.cfg.backend = .dma) (hi : s.initState = .hasHardware)
    (ht : tune s.cfg.phyTuning s = .ok (false, u)) (m : MacAddr) : exec (.init m) s = .next { u with resBuf := [0x01] } := by
  have init : dmaInit m s = .ok (false, u) := by
    unfold dmaInit
    rw [get_bind_apply, branch_apply, if_pos hi, bind_ok ht]
    rfl
  exact runCommand_bind (f := boolResult)
    ((initialise_past (by simp [hi]) (by simp [hi]) (by simp [hi]) ((byBackend_dma hb).trans init)).trans (if_neg (by simp)))

/-- The tuning ends at the first entry whose write fails. -/
theorem tune_fails {s t u : State} {before after : List (U16 × U16)} {a v : U16} (hb : tune before s = .ok (true, t))
    (hw : phyWrite a v t = .ok (false, u)) : tune (before ++ (a, v) :: after) s = .ok (false, u) := by
  induction before generalizing s with
  | nil =>
    cases hb
    rw [List.nil_append, tune, bind_ok hw]
    rfl
  | cons p before ih =>
    rw [tune] at hb
    obtain ⟨ok, w, h1, h2⟩ := bind_ok_inv hb
    rw [List.cons_append, tune, bind_ok h1]
    cases ok with
    | true => exact ih h2
    | false => cases h2

/-- The host's part of the state without the management bus (R48, R181 to R185). -/
def State.offBus (s : State) : State := { s.hostPart with dma := { s.hostPart.dma with mdioBusy := false } }

theorem Atom.offBus {k : Kind} {s t : State} (hk : k ∈ mdioKinds) (h : Atom k s t) : t.offBus = s.offBus := by
  rcases List.mem_append.mp hk with ha | hm
  · simp only [State.offBus, h.hostPart ha]
  · simp only [List.mem_cons, List.not_mem_nil, or_false] at hm
    rcases hm with rfl | rfl <;> cases h <;> rfl

/-- The tuning shows on the management bus only (R191). -/
theorem tune_offBus {l : List (U16 × U16)} {s t : State} {ok : Bool} (hb : s.cfg.backend = .dma) (h : tune l s = .ok (ok, t)) :
    t.offBus = s.offBus :=
  Chain.lift (R := fun s t => t.offBus = s.offBus) (Chains.same State.offBus) (fun _ _ _ hk _ ha => ha.offBus hk) (tune_steps l s ok t h hb)

/-- Settles O33: INIT ends where the tuning does, and the tuning shows on the management bus only. -/
theorem tuningFailureStaysBelow : Obligations.TuningFailureStaysBelow := by
  refine ⟨fun s m w rest hq hb hi hbusy hl => exec_init_untuned hb hi (tune_quiet hq hbusy hl) m, ?_⟩
  intro s t u m before after a v hb hi hl hbefore hw
  have ht : tune s.cfg.phyTuning s = .ok (false, u) := hl ▸ tune_fails hbefore hw
  have hp := tune_offBus hb ht
  have hr : ∀ r : MacReg, r ≠ .eir → r ≠ .mmfr → r ≠ .rdar → r ≠ .tdar → u.dma.macRead r = s.dma.macRead r := by
    intro r h1 h2 h3 h4
    have regs : u.offBus.dma.macRead r = s.offBus.dma.macRead r := by rw [hp]
    rw [← hostPart_macRead u h1 h2 h3 h4, ← hostPart_macRead s h1 h2 h3 h4]
    cases r <;> exact regs
  simp only [State.offBus, State.hostPart, State.mk.injEq, DmaState.mk.injEq, true_and] at hp
  exact ⟨exec_init_untuned hb hi ht m, by simpa [hp, hi] using hr⟩

end Sys2Proof.Machine
end

section
/-! SUPPORT. The four transmit operations on the SPI build (R164, R259, R260, R266). -/

namespace Sys2Proof.Machine

theorem legalRing_dvd {n : Nat} (h : legalRing n) : n ∣ 65536 := by
  rcases h with rfl | rfl | rfl | rfl | rfl <;> decide

/-- Settles O47: no look finds room, or the first does and the bytes, the pointer and SEND follow. -/
theorem spiOutputQueuesFrame : Obligations.SpiOutputQueuesFrame := by
  intro s i b hq hwf hd hinv hring _ hs h0 h1 sIr txDone
  have hbd := spiBounds_of_wf hwf
  obtain ⟨hopen, hfault, -, -, -, -, hcom, -⟩ := hinv.session hd
  have still : StillSpi s := hq.stillSpi hd.1 (hinv.present hd.1 (by rw [hd.2]; decide))
  have out : ∀ {r t}, spiOutput b s = .ok (r, t) → outputOp b s = .ok (r, t) := fun h =>
    (outputOp_open (DataOpen_spi hd hfault) h0 h1).trans ((byBackend_spi hd.1).trans h)
  refine ⟨fun hr => exec_sends_noRoom hs (out (spiOutput_full still hbd.stable hbd.txWait hr)), fun hr => ?_⟩
  let cleared : State := s.withSpi { s.spi with csActive := false, txDone := txDone, chip := { s.spi.chip with sIr := sIr } }
  have give := spiGive_ok (s := cleared) (still.of rfl rfl rfl rfl) hbd.sock hopen hcom.symm h0 hr
  have hfit : b.length ≤ s.spi.chip.txBytes := by
    have := hring.fsr
    omega
  exact ⟨_, exec_sends_sent hs (out (spiOutput_room still hbd.stable hbd.txWait hr give)),
    Memory.ringHolds_ringWrite _ hfit (legalRing_dvd hring.txLegal)⟩

end Sys2Proof.Machine
end

section
/-! SUPPORT. How init_state moves (R152, R326). -/

namespace Sys2Proof.Machine

variable {α : Type}

/-- From `x` to `y` without walking back: into NoHardware from anywhere, upwards from anywhere else (R152). -/
def InitState.Rises (x y : InitState) : Prop := y = .noHardware ∨ (x ≠ .noHardware ∧ x.code ≤ y.code)

theorem InitState.rises_refl (x : InitState) : x.Rises x := by
  by_cases h : x = .noHardware
  · exact .inl h
  · exact .inr ⟨h, le_rfl⟩

theorem InitState.Rises.trans {x y z : InitState} (h : x.Rises y) (k : y.Rises z) : x.Rises z := by
  rcases k with rfl | ⟨hy, hyz⟩
  · exact .inl rfl
  · obtain ⟨hx, hxy⟩ := h.resolve_left hy
    exact .inr ⟨hx, hxy.trans hyz⟩

/-- The session start rises from every state but NoHardware (R154). -/
theorem InitState.rises_initialized {x : InitState} (h : x ≠ .noHardware) : x.Rises .initialized :=
  .inr ⟨h, by cases x <;> decide⟩

/-- From Start every state is a rise. -/
theorem InitState.start_rises (y : InitState) : InitState.start.Rises y := .inr ⟨by decide, Nat.zero_le _⟩

/-- init_state stands at `x`. -/
def PhaseAt (x : InitState) (s : State) : Prop := s.initState = x

/-- init_state has risen from `x`. -/
def RisenFrom (x : InitState) (s : State) : Prop := x.Rises s.initState

theorem PhaseAt.risen {x : InitState} {s : State} (h : PhaseAt x s) : RisenFrom x s := by
  unfold RisenFrom
  rw [h]
  exact x.rises_refl

theorem phaseAt_of_on {b : Backend} {l : List Kind} (hl : ∀ k ∈ l, k ∉ phaseKinds) {m : M α} (h : Steps (On b l) m) {x : InitState} :
    Kept (In b (PhaseAt x)) m := Kept.of_on (fun k hk _ _ ha hs => (ha.phase (hl k hk)).trans hs) h

theorem risenFrom_portFree (x : InitState) : PortFree (RisenFrom x) := ⟨fun _ _ _ h => h, fun _ _ h => h⟩

/-! ## HAS_HARDWARE and INIT -/

/-- The probe is made in Start only (R151). -/
theorem startProbe_rises (u : State) : Ensures (fun s => s = u) (onlyIf (u.initState = .start) probe) fun _ => RisenFrom u.initState :=
  Ensures.ite (fun hp s _ t _ _ => by rw [hp]; exact InitState.start_rises _) fun _ => Ensures.pure fun s hs => hs ▸ s.initState.rises_refl

theorem hasHardware_rises (x : InitState) : Kept (RisenFrom x) hasHardware := by
  refine Ensures.get_bind (Q := fun _ => RisenFrom x) fun u hu => Ensures.bind (startProbe_rises u) fun _ => ?_
  exact Ensures.get_keep fun _ _ => Ensures.pure fun _ hs => hu.trans hs

/-- On the DMA build INIT leaves the state it began in, or passes from state 2 to state 3 (R153). -/
theorem dmaInit_rises (x : InitState) (m : MacAddr) : Ensures (In .dma (PhaseAt x)) (dmaInit m) fun _ => RisenFrom x := by
  have up : ∀ y, Ensures (In .dma (PhaseAt y)) (do dmaBringUp m; pure true : M Bool) fun _ => PhaseAt y := fun y =>
    Ensures.bind (phaseAt_of_on (by decide) (dmaBringUp_steps m)).ensures fun _ => Ensures.pure fun _ h => h.2
  refine Ensures.get_keep fun u hu => Ensures.ite (fun hi => ?_) fun _ => (up x).mono (fun _ h => h) fun _ _ h => h.risen
  have hx : x = .hasHardware := hu.2.symm.trans hi
  subst hx
  refine Ensures.bind (phaseAt_of_on (by decide) (tune_steps _)).ensures fun ok => Ensures.ite (fun _ => ?_) fun _ => ?_
  · refine Ensures.bind (R := fun _ => In .dma (PhaseAt .phyInitialized)) (Ensures.modifies fun _ h => ⟨h.1, rfl⟩) fun _ => ?_
    exact (up _).mono (fun _ h => h) fun _ s h => .inr ⟨by decide, by rw [h]; decide⟩
  · exact Ensures.pure fun _ h => h.2.risen

/-- The SPI probe finds the hardware or does not (R240). -/
theorem spiProbe_phase : Ensures (fun _ => True) spiProbe fun _ s => s.initState = .noHardware ∨ s.initState = .phyInitialized :=
  Ensures.last fun _ => Ensures.ite (fun _ => Ensures.modifies fun _ _ => .inr rfl) fun _ => Ensures.modifies fun _ _ => .inl rfl

/-- On the SPI build INIT leaves the state it began in, or probes again in state 2 (R153). -/
theorem spiInit_rises (x : InitState) (m : MacAddr) : Ensures (In .spi (PhaseAt x)) (spiInit m) fun _ => RisenFrom x := by
  have up : ∀ y, Ensures (In .spi (PhaseAt y)) (spiBringUp m) fun _ => PhaseAt y := fun y =>
    (phaseAt_of_on (by decide) (spiBringUp_steps m)).ensures.mono (fun _ h => h) fun _ _ h => h.2
  refine Ensures.get_keep fun u hu => Ensures.ite (fun hi => ?_) fun _ => (up x).mono (fun _ h => h) fun _ _ h => h.risen
  have hx : x = .hasHardware := hu.2.symm.trans hi
  subst hx
  refine Ensures.bind (R := fun _ s => s.cfg.backend = .spi ∧ (s.initState = .noHardware ∨ s.initState = .phyInitialized))
    (fun s a t h hs => ⟨(kept_build spiProbe_steps s a t h ⟨hs.1, trivial⟩).1, spiProbe_phase s a t h trivial⟩) fun _ => ?_
  refine Ensures.get_bind fun v hv => Ensures.ite (fun hn => Ensures.pure fun s hs => ?_) fun hn => ?_
  · subst hs
    exact .inl hn
  · have hp : v.initState = .phyInitialized := hv.2.resolve_left hn
    exact (up .phyInitialized).mono (fun s hs => hs ▸ ⟨hv.1, hp⟩) fun _ s h => .inr ⟨by decide, by rw [h]; decide⟩

theorem initialiseProbed_rises (x : InitState) (m : MacAddr) : Ensures (PhaseAt x) (initialiseProbed m) fun _ => RisenFrom x := by
  refine Ensures.get_keep fun u hu => Ensures.ite (fun _ => Ensures.pure fun _ h => h.risen) fun hn => ?_
  refine Ensures.bind (Ensures.byBackend (dmaInit_rises x m) (spiInit_rises x m)) fun ok => ?_
  refine Ensures.ite (fun _ => ?_) fun _ => Ensures.pure fun _ h => h
  refine Ensures.bind (R := fun _ => RisenFrom x) (Ensures.modifies fun s _ => ?_) fun _ => Ensures.pure fun _ h => h
  exact InitState.rises_initialized (hu ▸ hn)

theorem initialise_rises (x : InitState) (m : MacAddr) : Kept (RisenFrom x) (initialise m) := by
  have probed : Kept (RisenFrom x) (initialiseProbed m) := fun s a t h hs => hs.trans (initialiseProbed_rises s.initState m s a t h rfl)
  refine Ensures.get_bind (Q := fun _ => RisenFrom x) fun u hu => Ensures.ite (fun _ => Ensures.pure fun s hs => hs ▸ hu) fun _ => ?_
  exact Ensures.bind ((startProbe_rises u).mono (fun _ h => h) fun _ _ hs => hu.trans hs) fun _ => probed.ensures

/-! ## Every instruction -/

/-- No instruction but DEINIT walks back (R152). -/
theorem exec_rises {i : Instr} {s t : State} (hi : i ≠ .deinit) (h : exec i s = .next t) : s.initState.Rises t.initState := by
  have hp := risenFrom_portFree s.initState
  have hs : RisenFrom s.initState s := s.initState.rises_refl
  have hR := Kept.chains (P := RisenFrom s.initState)
  have kinds : (∀ k ∈ instrKinds i, k ∉ phaseKinds) → RisenFrom s.initState t := fun hk =>
    hp.exec_of_kinds (fun k hk' _ _ ha hu => by unfold RisenFrom; rw [ha.phase (hk k hk')]; exact hu) h hs
  cases i with
  | hasHardware => exact hp.command (Steps.bind hR (hasHardware_rises _) fun _ => Steps.pure hR _) h hs
  | init m => exact hp.command (Steps.bind hR (initialise_rises _ m) fun _ => Steps.pure hR _) h hs
  | pipeInit m =>
    refine hp.command (Steps.bind hR (Steps.bind hR (hasHardware_rises _) fun ok => ?_) fun _ => Steps.pure hR _) h hs
    exact Steps.ite (fun _ => initialise_rises _ m) fun _ => Steps.pure hR _
  | deinit => exact absurd rfl hi
  | _ => exact kinds (of_decide_eq_true rfl)

/-- NoHardware is absorbing and Start is not entered again (R152, R326). -/
structure PhaseMoves (s t : State) : Prop where
  absent : s.initState = .noHardware → t.initState = .noHardware
  past : s.initState ≠ .start → t.initState ≠ .start

theorem PhaseMoves.chains : Chains PhaseMoves where
  refl _ := ⟨id, id⟩
  trans _ _ _ h k := ⟨fun x => k.absent (h.absent x), fun x => k.past (h.past x)⟩

theorem PhaseMoves.of_eq {s t : State} (h : t.initState = s.initState) : PhaseMoves s t := ⟨h.trans, fun hs => h ▸ hs⟩

theorem InitState.code_pos {x : InitState} : 0 < x.code ↔ x ≠ .start := by cases x <;> decide

theorem InitState.Rises.moves {s t : State} (h : s.initState.Rises t.initState) : PhaseMoves s t := by
  refine ⟨fun hs => h.resolve_right fun hr => hr.1 hs, fun hs => ?_⟩
  rcases h with hn | ⟨-, hle⟩
  · rw [hn]
    decide
  · exact InitState.code_pos.mp ((InitState.code_pos.mpr hs).trans_le hle)

theorem exec_phaseMoves {i : Instr} {s t : State} (h : exec i s = .next t) : PhaseMoves s t := by
  by_cases hi : i = .deinit
  · subst hi
    have ht := exec_deinit_initState h
    constructor <;> intro hs <;> rw [ht]
    · simp [hs]
    · split <;> simp [hs]
  · exact (exec_rises hi h).moves

/-- Settles O18: no agent moves init_state, DEINIT stops at state 2, and every other instruction rises. -/
theorem initStateMoves : Obligations.InitStateMoves := by
  refine ⟨fun s t h => ?_, fun i s t h hi => (exec_rises hi h).imp_right And.right⟩
  have agents : ∀ k ∈ agentKinds, k ∉ phaseKinds := of_decide_eq_true rfl
  obtain ⟨absent, past⟩ := step_lift PhaseMoves.chains (fun _ _ _ => .of_eq rfl) (fun _ _ => .of_eq rfl)
    (fun _ _ hc => Chain.lift PhaseMoves.chains (fun k _ _ hk _ ha => .of_eq (ha.phase (agents k hk))) hc) (fun _ _ _ => exec_phaseMoves) h
  exact ⟨absent, past⟩

end Sys2Proof.Machine
end

section
/-! SUPPORT. The three init steps of the DMA probe (R152, R190). -/

namespace Sys2Proof.Machine

variable {α : Type}

/-- Clocks on, pins configured, PHY reset done. -/
def State.milestones (s : State) : Bool × Bool × Bool := (s.dma.clocksOn, s.dma.pinsConfigured, s.dma.phyResetDone)

/-- The probe has found the hardware, and INIT may go on. -/
structure Found (s : State) : Prop where
  done : s.milestones = (true, true, true)
  phase : s.initState ≠ .noHardware

/-- The probe has found nothing, and what it switched on is off again. -/
structure Absent (s : State) : Prop where
  off : s.milestones = (false, false, false)
  phase : s.initState = .noHardware

theorem milestones_eq {s : State} {a b c : Bool} (h : s.milestones = (a, b, c)) :
    s.dma.clocksOn = a ∧ s.dma.pinsConfigured = b ∧ s.dma.phyResetDone = c := by simpa [State.milestones] using h

theorem Found.inv {s : State} (h : Found s) : ProbeInv s := ⟨fun _ _ => milestones_eq h.done, fun _ ha => absurd ha h.phase⟩

theorem Absent.inv {s : State} (h : Absent s) : ProbeInv s := by
  refine ⟨fun _ hc => ?_, fun _ _ => milestones_eq h.off⟩
  rw [h.phase] at hc
  exact absurd hc (by decide)

/-- Past Start the invariant says which of the two holds. -/
theorem ProbeInv.found_or_absent {s : State} (hb : s.cfg.backend = .dma) (h : ProbeInv s) (hs : s.initState ≠ .start) :
    Found s ∨ Absent s := by
  by_cases hn : s.initState = .noHardware
  · obtain ⟨h1, h2, h3⟩ := h.absent hb hn
    exact .inr ⟨by simp [State.milestones, h1, h2, h3], hn⟩
  · obtain ⟨h1, h2, h3⟩ := h.past hb (by cases hi : s.initState <;> simp_all [InitState.code])
    exact .inl ⟨by simp [State.milestones, h1, h2, h3], hn⟩

/-- With the same milestones and init_state going no further up or down than a state that meets it, the invariant holds. -/
theorem ProbeInv.of_same {s t : State} (h : ProbeInv s) (hc : t.cfg = s.cfg) (hm : t.milestones = s.milestones)
    (h2 : 2 ≤ t.initState.code → 2 ≤ s.initState.code) (hn : t.initState = .noHardware → s.initState = .noHardware) : ProbeInv t := by
  obtain ⟨e1, e2, e3⟩ := milestones_eq (a := s.dma.clocksOn) (b := s.dma.pinsConfigured) (c := s.dma.phyResetDone) hm
  constructor <;> rw [hc, e1, e2, e3]
  · exact fun hb hp => h.past hb (h2 hp)
  · exact fun hb hp => h.absent hb (hn hp)

/-- Only the probe's own changes touch the milestones. -/
theorem Atom.milestones {k : Kind} (hk : k ≠ .probe) {s t : State} (h : Atom k s t) : t.milestones = s.milestones := by
  cases h with
  | clocks => exact absurd rfl hk
  | pins => exact absurd rfl hk
  | phyPulse => exact absurd rfl hk
  | phyResetOff => exact absurd rfl hk
  | mac _ r v => simp [State.milestones]
  | collSet _ half k => cases half <;> rfl
  | cacheRead _ a n =>
    obtain ⟨c, hc⟩ := hostReadRange_rest s.dma a n
    simp only [hc]
    rfl
  | cacheWrite _ a bs =>
    obtain ⟨c, hc⟩ := hostWriteRange_rest s.dma a bs
    simp only [hc]
    rfl
  | _ => rfl

theorem Atom.found {k : Kind} (hp : k ≠ .probe) (hi : k ≠ .initState) {s t : State} (h : Atom k s t) (hs : Found s) : Found t := by
  refine ⟨(h.milestones hp).trans hs.done, ?_⟩
  by_cases hk : k = .sessionStart
  · subst hk
    cases h
    exact nofun
  · exact (h.macChange.phase hi hk) ▸ hs.phase

theorem found_of_on {b : Backend} {l : List Kind} (hl : ∀ k ∈ l, k ≠ .probe ∧ k ≠ .initState) {m : M α} (h : Steps (On b l) m) :
    Kept (In b Found) m := Kept.of_on (fun k hk _ _ ha => ha.found (hl k hk).1 (hl k hk).2) h

/-! ## The probe (R190) -/

/-- The milestones stand at `v`. -/
def MilestonesAt (v : Bool × Bool × Bool) (s : State) : Prop := s.milestones = v

theorem milestonesAt_of_on {l : List Kind} (hl : Kind.probe ∉ l) {m : M α} (h : Steps (On .dma l) m) (v : Bool × Bool × Bool) :
    Kept (In .dma (MilestonesAt v)) m :=
  Kept.of_on (fun _ hk _ _ ha hs => (ha.milestones (by rintro rfl; exact hl hk)).trans hs) h

theorem micro_milestones {v w : Bool × Bool × Bool} {f : DmaState → DmaState}
    (h : ∀ s : State, s.milestones = v → State.milestones { s with dma := f s.dma } = w) :
    Ensures (In .dma (MilestonesAt v)) (micro (modifyDma f)) fun _ => In .dma (MilestonesAt w) :=
  Ensures.micro (Ensures.modifies fun s hs => ⟨hs.1, h s hs.2⟩) fun _ =>
    milestonesAt_of_on (l := agentKinds) (by decide) (boundary_steps.on fun _ hk => hk) w

/-- The three steps are made, and all taken back unless the identity matches (R190, R355). -/
theorem dmaProbe_found (v : Bool × Bool × Bool) :
    Ensures (In .dma (MilestonesAt v)) dmaProbe fun _ s => Found s ∨ Absent s := by
  obtain ⟨a, b, c⟩ := v
  have read : ∀ ra, Ensures (In .dma (MilestonesAt (true, true, true))) (mdioRead ra) fun _ => In .dma (MilestonesAt (true, true, true)) :=
    fun ra => (milestonesAt_of_on (by decide) (mdioRead_steps ra) _).ensures
  refine Ensures.bind (R := fun _ => In .dma (MilestonesAt (a, b, c))) (Steps.get_bind' fun _ => Steps.pure Kept.chains _) fun _ => ?_
  refine Ensures.bind (micro_milestones (w := (true, b, c)) fun s hs => ?_) fun _ => ?_
  · exact congrArg (fun p => (true, p.2)) hs
  refine Ensures.bind (micro_milestones (w := (true, true, c)) fun s hs => ?_) fun _ => ?_
  · exact congrArg (fun p => (p.1, true, p.2.2)) hs
  refine Ensures.bind (micro_milestones (w := (true, true, true)) fun s hs => ?_) fun _ => ?_
  · exact congrArg (fun p => (p.1, p.2.1, true)) hs
  refine Ensures.bind (read _) fun _ => Ensures.bind (read _) fun _ => Ensures.ite (fun _ => ?_) fun _ => ?_
  · exact Ensures.modifies fun _ hs => .inl ⟨hs.2, nofun⟩
  refine Ensures.bind (micro_milestones (w := (true, true, false)) fun s hs => ?_) fun _ => ?_
  · exact congrArg (fun p => (p.1, p.2.1, false)) hs
  refine Ensures.bind (micro_milestones (w := (true, false, false)) fun s hs => ?_) fun _ => ?_
  · exact congrArg (fun p => (p.1, false, p.2.2)) hs
  refine Ensures.bind (micro_milestones (w := (false, false, false)) fun s hs => ?_) fun _ => ?_
  · exact congrArg (fun p => (false, p.2)) hs
  exact Ensures.modifies fun _ hs => .inr ⟨hs.2, rfl⟩

/-- After HAS_HARDWARE's or INIT's look at init_state the probe's outcome stands (R151, R152). -/
theorem startProbe_found {u : State} (h : In .dma ProbeInv u) :
    Ensures (fun s => s = u) (onlyIf (u.initState = .start) probe) fun _ s => s.cfg.backend = .dma ∧ (Found s ∨ Absent s) := by
  refine Ensures.ite (fun _ s a t hm hs => ?_) fun hp => Ensures.pure fun s hs => ?_
  · subst hs
    exact ⟨(probe_steps s a t hm).cfg ▸ h.1, dmaProbe_found s.milestones s a t ((byBackend_dma h.1).symm.trans hm) ⟨h.1, rfl⟩⟩
  · subst hs
    exact ⟨h.1, h.2.found_or_absent h.1 hp⟩

/-! ## HAS_HARDWARE, INIT and DEINIT -/

theorem probeInv_of_outcome {s : State} (h : s.cfg.backend = .dma ∧ (Found s ∨ Absent s)) : In .dma ProbeInv s :=
  ⟨h.1, h.2.elim Found.inv Absent.inv⟩

theorem hasHardware_probeInv : Kept (In .dma ProbeInv) hasHardware :=
  Ensures.get_bind fun _ hu => Ensures.bind ((startProbe_found hu).mono (fun _ h => h) fun _ _ => probeInv_of_outcome) fun _ =>
    Ensures.get_keep fun _ _ => Ensures.pure fun _ h => h

theorem dmaInit_found (m : MacAddr) : Kept (In .dma Found) (dmaInit m) := by
  have hR := Kept.chains (P := In .dma Found)
  have up : Kept (In .dma Found) (do dmaBringUp m; pure true : M Bool) :=
    Steps.bind hR (found_of_on (by decide) (dmaBringUp_steps m)) fun _ => Steps.pure hR _
  refine Steps.get_bind' fun u => Steps.ite (fun _ => ?_) fun _ => up
  refine Steps.bind hR (found_of_on (by decide) (tune_steps _)) fun ok => Steps.ite (fun _ => ?_) fun _ => Steps.pure hR _
  exact Steps.bind hR (Steps.modifies fun _ h => ⟨h.1, h.2.done, nofun⟩) fun _ => up

theorem initialiseProbed_probeInv (m : MacAddr) :
    Ensures (fun s => s.cfg.backend = .dma ∧ (Found s ∨ Absent s)) (initialiseProbed m) fun _ => In .dma ProbeInv := by
  refine Ensures.get_bind fun u hu => Ensures.ite (fun _ => Ensures.pure fun s hs => hs ▸ probeInv_of_outcome hu) fun hn => ?_
  have found : In .dma Found u := ⟨hu.1, hu.2.resolve_right fun h => hn h.phase⟩
  refine Ensures.bind (R := fun _ => In .dma Found) ((Ensures.onDma (dmaInit_found m)).pre fun s hs => hs ▸ found) fun ok => ?_
  refine Ensures.ite (fun _ => ?_) fun _ => Ensures.pure fun _ h => ⟨h.1, h.2.inv⟩
  refine Ensures.bind (R := fun _ => In .dma Found) (Ensures.modifies fun _ h => ⟨h.1, h.2.done, nofun⟩) fun _ => ?_
  exact Ensures.pure fun _ h => ⟨h.1, h.2.inv⟩

theorem initialise_probeInv (m : MacAddr) : Kept (In .dma ProbeInv) (initialise m) := by
  refine Ensures.get_bind (Q := fun _ => In .dma ProbeInv) fun u hu => Ensures.ite (fun _ => Ensures.pure fun s hs => hs ▸ hu) fun _ => ?_
  exact Ensures.bind (startProbe_found hu) fun _ => initialiseProbed_probeInv m

/-- DEINIT leaves the milestones and stays past the probe (R156). -/
theorem exec_deinit_probeInv {s t : State} (h : exec .deinit s = .next t) (hs : In .dma ProbeInv s) : In .dma ProbeInv t := by
  obtain ⟨u, hc, ht⟩ := exec_chain h
  have milestones : u.milestones = s.milestones :=
    Chain.lift (Chains.same State.milestones) (fun _ _ _ hk _ ha => ha.milestones (by rintro rfl; exact absurd hk (by decide))) hc
  have hcfg : t.cfg = s.cfg ∧ t.milestones = s.milestones := by
    rcases ht with rfl | ⟨r, rfl⟩ <;> exact ⟨hc.cfg, milestones⟩
  have back := exec_deinit_initState h
  refine ⟨hcfg.1 ▸ hs.1, hs.2.of_same hcfg.1 hcfg.2 (fun hp => ?_) fun hn => ?_⟩
  · rw [back] at hp
    cases hi : s.initState <;> simp_all [InitState.code]
  · rw [back] at hn
    split at hn
    · cases hn
    · exact hn

theorem probeInv_portFree : PortFree (In .dma ProbeInv) := ⟨fun _ _ _ h => ⟨h.1, { h.2 with }⟩, fun _ _ h => ⟨h.1, { h.2 with }⟩⟩

/-- A change that neither probes nor moves init_state keeps the invariant. -/
theorem Atom.probeInv {k : Kind} (hp : k ∉ .probe :: phaseKinds) {s t : State} (h : Atom k s t) (hs : In .dma ProbeInv s) :
    In .dma ProbeInv t := by
  have hk : k ≠ .probe := fun e => hp (e ▸ List.mem_cons_self)
  have phase := h.phase fun hm => hp (List.mem_cons_of_mem _ hm)
  exact ⟨h.cfg ▸ hs.1, hs.2.of_same h.cfg (h.milestones hk) (phase ▸ id) (phase ▸ id)⟩

theorem exec_probeInv {i : Instr} {s t : State} (h : exec i s = .next t) (hs : In .dma ProbeInv s) : In .dma ProbeInv t := by
  have hp := probeInv_portFree
  have hR := Kept.chains (P := In .dma ProbeInv)
  have kinds : (∀ k ∈ instrKinds i, k ∉ .probe :: phaseKinds) → In .dma ProbeInv t := fun hk =>
    hp.exec_of_kinds (fun k hk' _ _ ha hu => ha.probeInv (hk k hk') hu) h hs
  cases i with
  | hasHardware => exact hp.command (Steps.bind hR hasHardware_probeInv fun _ => Steps.pure hR _) h hs
  | init m => exact hp.command (Steps.bind hR (initialise_probeInv m) fun _ => Steps.pure hR _) h hs
  | pipeInit m =>
    refine hp.command (Steps.bind hR (Steps.bind hR hasHardware_probeInv fun ok => ?_) fun _ => Steps.pure hR _) h hs
    exact Steps.ite (fun _ => initialise_probeInv m) fun _ => Steps.pure hR _
  | deinit => exact exec_deinit_probeInv h hs
  | _ => exact kinds (of_decide_eq_true rfl)

/-- Settles O10: only the probe touches the milestones, and init_state passes it in the direction the probe decided. -/
theorem probeMilestonesKept : Obligations.ProbeMilestonesKept := by
  intro s t hs h
  cases hb : s.cfg.backend with
  | dma =>
    have agents : ∀ k ∈ agentKinds, k ∉ .probe :: phaseKinds := of_decide_eq_true rfl
    exact (probeInv_portFree.step (fun k hk _ _ ha hu => ha.probeInv (agents k hk) hu) (fun _ _ _ => exec_probeInv) h ⟨hb, hs⟩).2
  | spi =>
    have hc : t.cfg.backend ≠ .dma := by simp [(oneBackend s t h).1, hb]
    exact ⟨fun hd => absurd hd hc, fun hd => absurd hd hc⟩

end Sys2Proof.Machine
end

section
/-! SUPPORT. Operations that neither read nor write RES_BUF and init_state: they run the same whatever these two hold, and leave them
alone. Under every schedule. -/

namespace Sys2Proof.Machine

variable {α β : Type}

/-- RES_BUF and init_state replaced. -/
def State.relabel (f : List Byte → List Byte) (p : InitState → InitState) (s : State) : State :=
  { s with resBuf := f s.resBuf, initState := p s.initState }

/-- The operation does not see the replacement, and the replacement survives it. -/
def Blind (f : List Byte → List Byte) (p : InitState → InitState) (m : M α) : Prop :=
  ∀ s, m (s.relabel f p) = (m s).map fun r => (r.1, r.2.relabel f p)

variable {f : List Byte → List Byte} {p : InitState → InitState}

namespace Blind

theorem pure (a : α) : Blind f p (Pure.pure a : M α) := fun _ => rfl

theorem bind {m : M α} {k : α → M β} (hm : Blind f p m) (hk : ∀ a, Blind f p (k a)) : Blind f p (m >>= k) := by
  intro s
  rw [bind_apply, bind_apply, hm s]
  cases m s with
  | ok r => exact hk r.1 r.2
  | error e => rfl

/-- Reading the state: what the rest takes from it is not replaced. -/
theorem get_bind {k : State → M β} (hk : ∀ s, k (s.relabel f p) = k s) (h : ∀ s, Blind f p (k s)) : Blind f p ((get : M State) >>= k) := by
  intro s
  rw [get_bind_apply, get_bind_apply, hk s]
  exact h s s

theorem config_bind {k : Config → M β} (h : ∀ c, Blind f p (k c)) : Blind f p (config >>= k) := fun s => h s.cfg s

theorem modifies {g : State → State} (h : ∀ s, g (s.relabel f p) = (g s).relabel f p) : Blind f p (modify g : M Unit) := fun s =>
  congrArg (fun t => Except.ok ((), t)) (h s)

theorem stopFault (e : Fault) : Blind f p (Machine.stopFault e : M α) := fun _ => rfl

theorem stopRefuse (e : Refusal) : Blind f p (Machine.stopRefuse e : M α) := fun _ => rfl

theorem orFault (o : Option α) (e : Fault) : Blind f p (Machine.orFault o e) := by
  cases o with
  | none => exact stopFault e
  | some a => exact pure a

theorem ite {c : Prop} [Decidable c] {x y : M α} (hx : Blind f p x) (hy : Blind f p y) : Blind f p (if c then x else y) := by
  split
  · exact hx
  · exact hy

theorem onlyIf {c : Prop} [Decidable c] {m : M Unit} (hm : Blind f p m) : Blind f p (Machine.onlyIf c m) := ite hm (pure ())

theorem byBackend {x y : M α} (hx : Blind f p x) (hy : Blind f p y) : Blind f p (Machine.byBackend x y) :=
  get_bind (fun _ => rfl) fun s => by cases s.cfg.backend with
    | dma => exact hx
    | spi => exact hy

theorem modifyDma (g : DmaState → DmaState) : Blind f p (Machine.modifyDma g) := fun _ => rfl

theorem modifySpi (g : SpiState → SpiState) : Blind f p (Machine.modifySpi g) := fun _ => rfl

theorem modifyChip (g : Chip → Chip) : Blind f p (Machine.modifyChip g) := fun _ => rfl

theorem drawBy (take : Draws → α × Draws) : Blind f p (Machine.drawBy take) := fun _ => rfl

/-! ## Memory (R80 to R85) -/

theorem checkDmaRange (a n : Nat) : Blind f p (Machine.checkDmaRange a n) := ite (pure ()) (stopFault _)

theorem checkAligned (a n : Nat) : Blind f p (Machine.checkAligned a n) := ite (pure ()) (stopRefuse _)

theorem dmaReadBytes (a n : Nat) : Blind f p (Machine.dmaReadBytes a n) :=
  bind (checkDmaRange a n) fun _ => get_bind (fun _ => rfl) fun _ => orFault _ _

theorem dmaRead16 (a : Nat) : Blind f p (Machine.dmaRead16 a) :=
  bind (checkAligned a 2) fun _ => bind (dmaReadBytes a 2) fun _ => pure _

theorem dmaRead32 (a : Nat) : Blind f p (Machine.dmaRead32 a) :=
  bind (checkAligned a 4) fun _ => bind (dmaReadBytes a 4) fun _ => pure _

theorem dmaWriteBytes (a : Nat) (bs : List Byte) : Blind f p (Machine.dmaWriteBytes a bs) :=
  bind (checkDmaRange a _) fun _ => modifyDma _

theorem dmaWrite16 (a : Nat) (v : U16) : Blind f p (Machine.dmaWrite16 a v) := bind (checkAligned a 2) fun _ => dmaWriteBytes a _

theorem dmaWrite32 (a : Nat) (v : U32) : Blind f p (Machine.dmaWrite32 a v) := bind (checkAligned a 4) fun _ => dmaWriteBytes a _

/-! ## Agents and boundaries (R2, R3) -/

theorem phyRegRead (ra : BitVec 5) : Blind f p (Machine.phyRegRead ra) := by
  have draw : ∀ g : U16 → U16, Blind f p (do let v ← drawPhyBits; Pure.pure (g v)) := fun _ => bind (drawBy _) fun _ => pure _
  refine get_bind (fun _ => rfl) fun s => ite (draw _) (ite (pure _) (ite (pure _) (ite (draw _) (ite ?_ (pure _)))))
  exact ite (pure _) (pure _)

theorem rxEngine (bytes : List Byte) (err : Byte) : Blind f p (Machine.rxEngine bytes err) := by
  refine get_bind (fun _ => rfl) fun s => ite (bind (dmaRead16 _) fun st => ite ?_ (modifyDma _)) (pure _)
  refine bind (dmaRead32 _) fun _ => bind (dmaWriteBytes _ _) fun _ => bind (dmaWrite16 _ _) fun _ => ?_
  exact bind (dmaWrite16 _ _) fun _ => modifyDma _

theorem txEngine : Blind f p Machine.txEngine := by
  refine get_bind (fun _ => rfl) fun s => ite (bind (dmaRead16 _) fun st => ite ?_ (modifyDma _)) (pure _)
  refine bind (dmaRead16 _) fun len => ite ?_ (stopFault _)
  refine bind (dmaRead32 _) fun _ => bind (dmaReadBytes _ _) fun _ => bind (modifies fun _ => rfl) fun _ => ?_
  exact bind (dmaWrite16 _ _) fun _ => modifyDma _

theorem dmaIsr : Blind f p Machine.dmaIsr :=
  get_bind (fun _ => rfl) fun _ => ite (bind (modifyDma _) fun _ => modifies fun _ => rfl) (pure _)

theorem mdioComplete : Blind f p Machine.mdioComplete := by
  refine get_bind (fun _ => rfl) fun s => ite (ite (ite ?_ (modifyDma _)) (ite ?_ (modifyDma _))) (pure _)
  · exact bind (phyRegRead _) fun _ => modifyDma _
  · exact ite (modifyDma _) (modifyDma _)

theorem chipWireRx (bytes : List Byte) (err : Byte) : Blind f p (Machine.chipWireRx bytes err) :=
  get_bind (fun _ => rfl) fun _ => ite (bind (modifyChip _) fun _ => modifySpi _) (pure _)

theorem chipSendDone : Blind f p Machine.chipSendDone := by
  refine get_bind (fun _ => rfl) fun s => ?_
  cases hq : s.spi.chip.sendQueue with
  | nil => simp only [hq]; exact pure _
  | cons e rest =>
    simp only [hq]
    refine ite (bind (orFault _ _) fun _ => bind (modifies fun _ => rfl) fun _ => ?_) (pure _)
    exact bind (modifyChip _) fun _ => modifySpi _

theorem chipResetDone : Blind f p Machine.chipResetDone := get_bind (fun _ => rfl) fun _ => ite (modifyChip _) (pure _)

theorem spiIsr : Blind f p Machine.spiIsr :=
  get_bind (fun _ => rfl) fun _ => ite (bind (modifySpi _) fun _ => modifies fun _ => rfl) (pure _)

theorem ringFault (a : U16) (v : Byte) : Blind f p (Machine.ringFault a v) := get_bind (fun _ => rfl) fun _ => ite (modifyChip _) (pure _)

theorem agentStep (a : AgentStep) : Blind f p (Machine.agentStep a) := by
  cases a with
  | wireRx bytes err =>
    exact byBackend (get_bind (fun _ => rfl) fun _ => ite (rxEngine bytes err) (pure _)) (chipWireRx bytes err)
  | dmaTx => exact byBackend txEngine (pure _)
  | isr => exact byBackend dmaIsr spiIsr
  | mdioDone => exact byBackend mdioComplete (pure _)
  | link l => exact byBackend (modifyDma _) (modifyChip _)
  | chipSendDone => exact byBackend (pure _) chipSendDone
  | chipResetDone => exact byBackend (pure _) chipResetDone
  | ringFault a v => exact byBackend (pure _) (ringFault a v)

theorem runSteps (l : List AgentStep) : Blind f p (Machine.runSteps l) := by
  induction l with
  | nil => exact pure _
  | cons a l ih => exact bind (agentStep a) fun _ => ih

theorem repeatStep (a : AgentStep) (n : Nat) : Blind f p (Machine.repeatStep a n) := by
  induction n with
  | zero => exact pure _
  | succ n ih => exact bind (agentStep a) fun _ => ih

theorem scriptedSteps : Blind f p Machine.scriptedSteps := by
  intro s
  unfold Machine.scriptedSteps
  rw [get_bind_apply, get_bind_apply]
  cases hs : s.script with
  | nil =>
    rw [show (s.relabel f p).script = [] from hs]
    rfl
  | cons e rest =>
    rw [show (s.relabel f p).script = e :: rest from hs]
    exact runSteps e { s with script := rest }

theorem boundary : Blind f p Machine.boundary := by
  refine bind scriptedSteps fun _ => get_bind (fun _ => rfl) fun _ => ?_
  refine bind (onlyIf (agentStep _)) fun _ => bind (onlyIf (agentStep _)) fun _ => bind (onlyIf (repeatStep _ _)) fun _ => ?_
  exact bind (onlyIf (repeatStep _ _)) fun _ => onlyIf (agentStep _)

theorem micro {m : M α} (h : Blind f p m) : Blind f p (Machine.micro m) := bind h fun _ => bind boundary fun _ => pure _

/-! ## The management bus (R181 to R187) -/

theorem macWrite (r : MacReg) (v : U32) : Blind f p (Machine.macWrite r v) := ite (stopRefuse _) (modifyDma _)

theorem macRead (r : MacReg) : Blind f p (Machine.macRead r) := fun _ => rfl

theorem mdioIssue (frame : U32) : Blind f p (Machine.mdioIssue frame) := by
  refine get_bind (fun _ => rfl) fun _ => ite (pure _) (bind (micro (macWrite _ _)) fun _ => bind (micro (macWrite _ _)) fun _ => ?_)
  exact bind (micro (modifyDma _)) fun _ => pure _

theorem mdioCollect : Blind f p Machine.mdioCollect := by
  refine get_bind (fun _ => rfl) fun _ => ite (bind (micro (macRead _)) fun e => ite ?_ (pure _)) (pure _)
  refine bind (micro (macRead _)) fun _ => bind (micro ?_) fun _ => pure _
  exact bind (macWrite _ _) fun _ => modifyDma _

theorem mdioAwait (n : Nat) : Blind f p (Machine.mdioAwait n) := by
  induction n with
  | zero => exact bind (micro (modifyDma _)) fun _ => pure _
  | succ n ih =>
    refine bind mdioCollect fun r => ?_
    cases r with
    | none => exact ih
    | some v => exact pure _

theorem mdioWrite (ra : BitVec 5) (v : U16) : Blind f p (Machine.mdioWrite ra v) := by
  refine config_bind fun _ => bind (config_bind fun _ => bind (mdioIssue _) fun _ => ?_) fun _ => pure _
  exact ite (mdioAwait _) (pure _)

theorem phyWrite (a v : U16) : Blind f p (Machine.phyWrite a v) := by
  refine ite (mdioWrite _ _) (bind ?_ fun _ => ite (mdioWrite _ _) (pure _))
  exact bind (mdioWrite _ _) fun _ => ite (bind (mdioWrite _ _) fun _ => ite (mdioWrite _ _) (pure _)) (pure _)

theorem tune (l : List (U16 × U16)) : Blind f p (Machine.tune l) := by
  induction l with
  | nil => exact pure _
  | cons q l ih => exact bind (phyWrite q.1 q.2) fun _ => ite ih (pure _)

/-! ## The DMA build's bring-up (R192 to R196) -/

theorem zeroRing (rb bb : U32) (size i n : Nat) : Blind f p (Machine.zeroRing rb bb size i n) := by
  induction n generalizing i with
  | zero => exact pure _
  | succ n ih =>
    refine bind (bind (micro (dmaWrite16 _ _)) fun _ => ?_) fun _ => ih (i + 1)
    exact bind (micro (dmaWrite16 _ _)) fun _ => micro (dmaWrite32 _ _)

theorem seedRing (rb : U32) (i n : Nat) : Blind f p (Machine.seedRing rb i n) := by
  induction n generalizing i with
  | zero => exact pure _
  | succ n ih => exact bind (micro (dmaWrite16 _ _)) fun _ => ih (i + 1)

theorem dmaBringUp (m : MacAddr) : Blind f p (Machine.dmaBringUp m) := by
  have write : ∀ r v, Blind f p (Machine.micro (Machine.macWrite r v)) := fun r v => micro (macWrite r v)
  refine bind (config_bind fun _ => ?_) fun _ => bind (config_bind fun _ => ?_) fun _ => bind ?_ fun _ => ?_
  · refine bind (zeroRing _ _ _ _ _) fun _ => bind (zeroRing _ _ _ _ _) fun _ => bind (seedRing _ _ _) fun _ => ?_
    exact micro (dmaWrite16 _ _)
  · refine bind (write _ _) fun _ => bind (write _ _) fun _ => bind (write _ _) fun _ => bind (write _ _) fun _ => ?_
    refine bind (write _ _) fun _ => bind (modifies fun _ => rfl) fun _ => bind ?_ fun _ => ?_
    · exact bind (write _ _) fun _ => write _ _
    · exact bind (write _ _) fun _ => bind (write _ _) fun _ => modifyDma _
  · exact bind (write _ _) fun _ => write _ _
  · exact bind (modifyDma _) fun _ => bind (micro (modifyDma _)) fun _ => write _ _

/-! ## The SPI bus (R231 to R236) -/

theorem chipCommand (v : Byte) : Blind f p (Machine.chipCommand v) := by
  refine ite ?_ (ite (modifyChip _) (ite ?_ (ite ?_ (pure _))))
  · exact get_bind (fun _ => rfl) fun _ => ite (ite (modifyChip _) (stopFault _)) (pure _)
  · exact get_bind (fun _ => rfl) fun _ => ite (ite (modifyChip _) (stopFault _)) (pure _)
  · exact get_bind (fun _ => rfl) fun _ => ite (ite (modifyChip _) (stopFault _)) (pure _)

theorem chipStore (bsb a : Nat) (v : Byte) : Blind f p (Machine.chipStore bsb a v) := by
  refine get_bind (fun _ => rfl) fun _ => ite ?_ (pure _)
  split
  · exact modifyChip _
  · exact ite (chipCommand v) (modifyChip _)
  · exact modifyChip _
  · exact pure _
  · exact stopRefuse _

theorem chipStores (bsb a : Nat) (bs : List Byte) : Blind f p (Machine.chipStores bsb a bs) := by
  induction bs generalizing a with
  | nil => exact pure _
  | cons b bs ih => exact bind (chipStore _ _ _) fun _ => ih (a + 1)

theorem commonByte (s : State) (a : Nat) : Blind f p (Machine.commonByte s a) := by
  unfold Machine.commonByte
  split
  case h_11 => exact bind (drawBy _) fun _ => pure _
  case h_13 => exact drawBy _
  all_goals exact pure _

theorem socketByte (c : Chip) (a : Nat) : Blind f p (Machine.socketByte c a) := by
  unfold Machine.socketByte
  split
  case h_20 => exact drawBy _
  all_goals exact pure _

theorem chipByte (bsb a : Nat) : Blind f p (Machine.chipByte bsb a) := by
  refine get_bind (fun _ => rfl) fun s => ite ?_ (pure _)
  split
  · exact commonByte s a
  · exact socketByte _ a
  · exact orFault _ _
  · exact orFault _ _
  · exact stopRefuse _

theorem chipBytes (bsb a n : Nat) : Blind f p (Machine.chipBytes bsb a n) := by
  induction n generalizing a with
  | zero => exact pure _
  | succ n ih => exact bind (chipByte _ _) fun _ => bind (ih (a + 1)) fun _ => pure _

theorem chipSelected (w : Bool) (header : List Byte) : Blind f p (Machine.chipSelected w header) := by
  unfold Machine.chipSelected
  split
  · exact pure _
  · exact stopRefuse _

theorem spiRead (bsb a n : Nat) : Blind f p (Machine.spiRead bsb a n) := by
  refine micro (bind (modifySpi _) fun _ => bind (chipSelected _ _) fun _ => bind (chipBytes _ _ _) fun _ => ?_)
  exact bind (modifySpi _) fun _ => pure _

theorem spiReadByte (bsb a : Nat) : Blind f p (Machine.spiReadByte bsb a) := bind (spiRead bsb a 1) fun _ => pure _

theorem spiWrite (bsb a : Nat) (bs : List Byte) : Blind f p (Machine.spiWrite bsb a bs) :=
  micro (bind (modifySpi _) fun _ => bind (chipSelected _ _) fun _ => bind (chipStores _ _ _) fun _ => modifySpi _)

theorem pollByte (bsb a : Nat) (test : Byte → Bool) (n : Nat) : Blind f p (Machine.pollByte bsb a test n) := by
  induction n with
  | zero => exact pure _
  | succ n ih => exact bind (spiReadByte bsb a) fun _ => ite (pure _) ih

/-! ## The SPI build's probe and bring-up (R240 to R246) -/

theorem spiScratch (v : U16) : Blind f p (Machine.spiScratch v) :=
  bind (spiWrite _ _ _) fun _ => bind (bind (spiRead _ _ _) fun _ => pure _) fun _ => pure _

theorem spiProbeSteps : Blind f p Machine.spiProbeSteps := by
  refine bind (micro (modifySpi _)) fun _ => bind ?_ fun _ => ite (bind ?_ fun _ => ite ?_ (pure _)) (pure _)
  · exact config_bind fun _ => bind (spiWrite _ _ _) fun _ => pollByte _ _ _ _
  · exact config_bind fun _ => bind (spiScratch _) fun _ => ite (spiScratch _) (pure _)
  · exact config_bind fun _ => bind (spiReadByte _ _) fun _ => pure _

theorem spiBringUp (m : MacAddr) : Blind f p (Machine.spiBringUp m) := by
  refine bind (config_bind fun _ => bind (modifies fun _ => rfl) fun _ => ?_) fun _ => bind ?_ fun _ => ite (bind ?_ fun _ => pure _) (pure _)
  · refine bind (spiWrite _ _ _) fun _ => bind (spiWrite _ _ _) fun _ => bind (spiWrite _ _ _) fun _ => ?_
    exact bind (spiWrite _ _ _) fun _ => bind (spiWrite _ _ _) fun _ => bind (spiWrite _ _ _) fun _ => spiWrite _ _ _
  · refine bind (config_bind fun _ => ?_) fun _ => config_bind fun _ => pollByte _ _ _ _
    exact bind (spiWrite _ _ _) fun _ => pollByte _ _ _ _
  · exact bind (micro (modifySpi _)) fun _ => bind (micro (modifySpi _)) fun _ => modifySpi _

/-! ## INIT past the probe (R153, R154) -/

theorem spiProbe : Blind f id Machine.spiProbe :=
  bind spiProbeSteps fun _ => ite (modifies fun _ => rfl) (modifies fun _ => rfl)

theorem initialiseProbed (m : MacAddr) : Blind f id (Machine.initialiseProbed m) := by
  refine get_bind (fun _ => rfl) fun _ => ite (pure _) (bind (byBackend ?_ ?_) fun _ => ite ?_ (pure _))
  · have up : Blind f id (do Machine.dmaBringUp m; Pure.pure true : M Bool) := bind (dmaBringUp m) fun _ => pure _
    refine get_bind (fun _ => rfl) fun _ => ite (bind (tune _) fun _ => ite ?_ (pure _)) up
    exact bind (modifies fun _ => rfl) fun _ => up
  · refine get_bind (fun _ => rfl) fun _ => ite (bind spiProbe fun _ => ?_) (spiBringUp m)
    exact get_bind (fun _ => rfl) fun _ => ite (pure _) (spiBringUp m)
  · exact bind (modifies fun _ => rfl) fun _ => pure _

/-- What RES_BUF held before does not show in a command's outcome. -/
theorem command {m : M α} (h : ∀ f, Blind f id m) (g : α → Result) (s : State) (r : Result) :
    runCommand (do return g (← m)) (s.respond r) = runCommand (do return g (← m)) s := by
  have hr : m (s.respond r) = (m s).map fun q => (q.1, q.2.respond r) := h (fun _ => r.bytes) s
  unfold runCommand
  rw [bind_apply, bind_apply, hr]
  cases m s with
  | ok q => rfl
  | error e => cases e <;> rfl

end Blind

end Sys2Proof.Machine
end

section
/-! SUPPORT. INIT and PIPE_INIT as the probe followed by INIT (R151, R153, R280). -/

namespace Sys2Proof.Machine

/-- The DMA probe finds the hardware or does not (R190). -/
theorem dmaProbe_phase : Ensures (fun _ => True) dmaProbe fun _ s => s.initState = .noHardware ∨ s.initState = .hasHardware := by
  refine Ensures.last (m := config) fun c => ?_
  iterate 5 refine Ensures.last fun _ => ?_
  refine Ensures.ite (fun _ => Ensures.modifies fun _ _ => .inr rfl) fun _ => ?_
  iterate 3 refine Ensures.last fun _ => ?_
  exact Ensures.modifies fun _ _ => .inl rfl

/-- The probe leaves Start and starts no session (R152). -/
theorem probe_phase : Ensures (fun _ => True) probe fun _ s => s.initState ≠ .start ∧ s.initState ≠ .initialized :=
  Ensures.byBackend
    (dmaProbe_phase.mono (fun _ _ => trivial) fun _ _ hp => by rcases hp with hp | hp <;> simp [hp])
    (spiProbe_phase.mono (fun _ _ => trivial) fun _ _ hp => by rcases hp with hp | hp <;> simp [hp])

/-- Once HAS_HARDWARE or INIT has looked, Start is past (R151). -/
theorem startProbe_past {s u : State} (h : onlyIf (s.initState = .start) probe s = .ok ((), u)) : u.initState ≠ .start := by
  by_cases hs : s.initState = .start
  · rw [onlyIf_pos hs] at h
    exact (probe_phase s _ u h trivial).1
  · rw [onlyIf_neg hs] at h
    cases h
    exact hs

/-- HAS_HARDWARE ends in the state the probe leaves, with its answer in RES_BUF (R151). -/
theorem exec_hasHardware_inv {s t : State} (h : exec .hasHardware s = .next t) :
    ∃ u r, onlyIf (s.initState = .start) probe s = .ok ((), u) ∧ hasHardware s = .ok (u.initState != .noHardware, u)
      ∧ t = u.respond r := by
  obtain ⟨r, _, h1, rfl⟩ := runCommand_next_iff.mp h
  obtain ⟨b, u, h2, h3⟩ := bind_ok_inv h1
  cases h3
  have run := h2
  unfold hasHardware at run
  rw [get_bind_apply] at run
  obtain ⟨_, _, hp, h4⟩ := bind_ok_inv run
  cases h4
  exact ⟨_, _, hp, h2, rfl⟩

/-! ## INIT from two states -/

/-- Two operations with one outcome make one command. -/
theorem runCommand_congr {α : Type} {m k : M α} {s u : State} (h : m s = k u) (g : α → Result) :
    runCommand (do return g (← m)) s = runCommand (do return g (← k)) u := by
  unfold runCommand
  rw [bind_apply, bind_apply, h]

theorem initialise_probed {s : State} (h0 : s.initState ≠ .start) (h1 : s.initState ≠ .initialized) (m : MacAddr) :
    initialise m s = initialiseProbed m s := by
  unfold initialise
  rw [get_bind_apply, branch_apply, if_neg h1, onlyIf_neg h0]
  rfl

/-- Past Start INIT does not look at RES_BUF. -/
theorem exec_init_respond {s : State} (h0 : s.initState ≠ .start) (m : MacAddr) (r : Result) :
    exec (.init m) (s.respond r) = exec (.init m) s := by
  by_cases h1 : s.initState = .initialized
  · exact (runCommand_bind (initialise_initialized (s := s.respond r) h1 m)).trans (runCommand_bind (initialise_initialized h1 m)).symm
  · calc exec (.init m) (s.respond r)
      _ = runCommand (do return boolResult (← initialiseProbed m)) (s.respond r) :=
        runCommand_congr (initialise_probed (s := s.respond r) h0 h1 m) boolResult
      _ = runCommand (do return boolResult (← initialiseProbed m)) s :=
        Blind.command (fun _ => Blind.initialiseProbed m) boolResult s r
      _ = exec (.init m) s := runCommand_congr (initialise_probed h0 h1 m).symm boolResult

/-- In Start INIT is the probe, then INIT (R153). -/
theorem initialise_start {s u : State} (hs : s.initState = .start) (hp : probe s = .ok ((), u)) (m : MacAddr) :
    initialise m s = initialise m u := by
  obtain ⟨h0, h1⟩ := probe_phase s _ u hp trivial
  rw [initialise_probed h0 h1]
  unfold initialise
  rw [get_bind_apply, branch_apply, if_neg (by simp [hs]), onlyIf_pos hs, bind_ok hp]

/-- PIPE_INIT is HAS_HARDWARE, then INIT (R280). -/
theorem pipeInit_eq {s u : State} (h : hasHardware s = .ok (u.initState != .noHardware, u)) (m : MacAddr) :
    pipeInit m s = initialise m u := by
  unfold pipeInit
  rw [bind_ok h, branch_apply]
  by_cases hn : u.initState = .noHardware
  · rw [if_neg (by simp [hn]), initialise_noHardware hn]
    rfl
  · rw [if_pos (by simp [hn])]

/-- The SPI probe does not look at init_state (R240). -/
theorem spiProbe_initState (s : State) (x : InitState) : spiProbe { s with initState := x } = spiProbe s := by
  have steps : spiProbeSteps { s with initState := x } = (spiProbeSteps s).map fun r => (r.1, { r.2 with initState := x }) :=
    Blind.spiProbeSteps (f := id) (p := fun _ => x) s
  unfold spiProbe
  rw [bind_apply, bind_apply, steps]
  cases spiProbeSteps s with
  | error e => rfl
  | ok r =>
    obtain ⟨ok, u⟩ := r
    cases ok <;> rfl

/-- In state 2 INIT on the SPI build is the probe, then INIT (R153). -/
theorem initialise_again {s u : State} (hb : s.cfg.backend = .spi) (hs : s.initState = .hasHardware) (hp : spiProbe s = .ok ((), u))
    (m : MacAddr) : initialise m s = initialise m u := by
  have hub : u.cfg.backend = .spi := (kept_build spiProbe_steps s _ u hp ⟨hb, trivial⟩).1
  have probing : byBackend (dmaInit m) (spiInit m) s = (if u.initState = .noHardware then pure false else spiBringUp m : M Bool) u := by
    rw [byBackend_spi hb]
    unfold spiInit
    rw [get_bind_apply, branch_apply, if_pos hs, bind_ok hp, get_bind_apply]
  rcases spiProbe_phase s _ u hp trivial with hn | hi
  · rw [if_pos hn] at probing
    exact (initialise_past (by simp [hs]) (by simp [hs]) (by simp [hs]) probing).trans (initialise_noHardware hn m).symm
  · have second : byBackend (dmaInit m) (spiInit m) u = byBackend (dmaInit m) (spiInit m) s := by
      rw [probing, byBackend_spi hub, spiInit_probed (by simp [hi]), if_neg (by simp [hi])]
    rw [initialise_probed (by simp [hs]) (by simp [hs]), initialise_probed (by simp [hi]) (by simp [hi])]
    unfold initialiseProbed
    rw [get_bind_apply, get_bind_apply, branch_apply, branch_apply, if_neg (by simp [hs]), if_neg (by simp [hi]), bind_apply, bind_apply,
      second]

/-- Settles O30: INIT and PIPE_INIT begin with the probe, and INIT does not look at HAS_HARDWARE's answer. -/
theorem initProbesFirst : Obligations.InitProbesFirst := by
  intro s t m
  refine ⟨fun hs h => ?_, fun h => ?_, fun hb hs h => ?_⟩
  all_goals
    obtain ⟨u, r, hp, hh, rfl⟩ := exec_hasHardware_inv h
    rw [exec_init_respond (startProbe_past hp)]
  · rw [onlyIf_pos hs] at hp
    exact runCommand_congr (initialise_start hs hp m) boolResult
  · exact runCommand_congr (pipeInit_eq hh m) boolResult
  · rw [onlyIf_pos rfl] at hp
    have hp : spiProbe s = .ok ((), u) := (spiProbe_initState s .start).symm.trans ((byBackend_spi (s := { s with initState := .start }) hb).symm.trans hp)
    exact runCommand_congr (initialise_again hb hs hp m) boolResult

end Sys2Proof.Machine
end

section
/-! SUPPORT. The interrupt agents, the chip's reset completion and a ring fault where they are enabled (R211, R216, R270 to R273). -/

namespace Sys2Proof.Machine

/-- The chip's reset completes (R270). -/
theorem chipResetDone_done {s : State} (hp : s.cfg.chipPresent = true) (hm : s.spi.chip.mr.getLsbD 7 = true) :
    chipResetDone s = .ok ((), { s with spi := { s.spi with chip := { s.spi.chip with mr := 0x00 } } }) := by
  unfold chipResetDone
  rw [get_bind_apply, branch_apply, if_pos (by simp [hp, hm])]
  rfl

/-- The SPI interrupt agent takes a latched edge and sets both flags (R271). -/
theorem spiIsr_taken {s : State} (hw : s.cfg.spiIntWired = true) (hl : s.spi.intLatched = true) (hc : s.spi.csActive = false) :
    spiIsr s = .ok ((), { s with spi := { s.spi with intLatched := false, rxPending := true, txDone := true } }) := by
  unfold spiIsr
  rw [get_bind_apply, branch_apply, if_pos (by simp [hw, hl, hc])]
  rfl

/-- A ring fault damages one byte of an open socket's receive ring (R273). -/
theorem ringFault_open {s : State} (h : s.spi.chip.sSr = srMacraw) (a : U16) (v : Byte) :
    ringFault a v s = .ok ((), { s with spi := { s.spi with chip := { s.spi.chip with
      rxMem := Memory.write s.spi.chip.rxMem (ringIndex s.spi.chip.rxBytes a.toNat) v } } }) := by
  unfold ringFault
  rw [get_bind_apply, branch_apply, if_pos h]
  rfl

/-- Settles O55: each event is its agent's step on the build that has the agent. -/
theorem interruptLinkResetAndFaultEvents : Obligations.InterruptLinkResetAndFaultEvents := by
  refine ⟨fun s hq hb => ⟨fun hl => ?_, fun f => ?_⟩, fun s hq hb => ⟨fun hw hl hc => ?_, fun f => ?_, fun hp hm => ?_, fun a v ho => ?_⟩⟩
  · exact runEvent_quiet (a := .isr) ((byBackend_dma hb).trans (dmaIsr_ok (by simpa [dmaLine] using hl))) hq
  · exact runEvent_quiet (a := .link f) ((byBackend_dma hb).trans (modifyDma_apply _ s)) hq
  · exact runEvent_quiet (a := .isr) ((byBackend_spi hb).trans (spiIsr_taken hw hl hc)) hq
  · exact runEvent_quiet (a := .link f) ((byBackend_spi hb).trans (modifyChip_apply _ s)) hq
  · exact runEvent_quiet (a := .chipResetDone) ((byBackend_spi hb).trans (chipResetDone_done hp hm)) hq
  · exact runEvent_quiet (a := .ringFault a v) ((byBackend_spi hb).trans (ringFault_open ho a v)) hq

end Sys2Proof.Machine
end

section
/-! SUPPORT. The receive and transmit engines of the DMA build at their next descriptor, and the chip's transmitter (R209, R210, R213, R268). -/

namespace Sys2Proof.Machine

/-! ## The receive engine -/

/-- Wire admission as R209 has it. -/
theorem dmaAdmits_iff {c : Config} {r : MacRegs} {b : List Byte} :
    dmaAdmits c r b = true ↔ r.ecr.getLsbD 0 = true ∧ 14 ≤ b.length
      ∧ (r.rcr.getLsbD 0 = true ∨ destination b = stationAddress r ∨ broadcast (destination b) = true
        ∨ presenceBit r (filterHash c (destination b)) = true) := by
  simp [dmaAdmits, and_assoc, or_assoc]

/-- A frame that is not admitted changes no state (R209). -/
theorem dmaWireRx_dropped {s : State} {b : List Byte} (h : dmaAdmits s.cfg s.dma.regs b ≠ true) (err : Byte) :
    dmaWireRx b err s = .ok ((), s) := by
  unfold dmaWireRx
  rw [get_bind_apply, branch_apply, if_neg h]
  rfl

/-- An idle receive engine stays idle (R210). -/
theorem rxEngine_idle {s : State} (h : s.dma.rxActive = false) (b : List Byte) (err : Byte) : rxEngine b err s = .ok ((), s) := by
  unfold rxEngine
  rw [get_bind_apply, branch_apply, if_neg (by simp [h])]
  rfl

/-- The bytes the engine stores are as many as LEN says (R210). -/
theorem length_take_min (b : List Byte) (n : Nat) : (b.take (min b.length n)).length = min b.length n := by simp

section

variable {s : State} (hact : s.dma.rxActive = true) (hp : Placed (descAddr s.dma.regs.rdsr s.dma.hwRxIdx)) {st : U16}
  (hst : Memory.half? s.dma.mem (descAddr s.dma.regs.rdsr s.dma.hwRxIdx + 2) = some st) (b : List Byte) (err : Byte)

include hact hp hst

/-- A descriptor that is not hardware's makes the engine idle (R210). -/
theorem rxEngine_stops (ho : st.getLsbD 15 = false) :
    rxEngine b err s = .ok ((), s.withDma { s.dma with rxActive := false }) := by
  unfold rxEngine
  rw [get_bind_apply, branch_apply, if_pos hact]
  refine (bind_ok (readStatus_ok hp hst)).trans ?_
  rw [branch_apply, if_neg (ne_true_of_eq_false (show owned st = false from ho))]
  rfl

/-- `rxEngine_ok` without a LEN field to begin with: the engine writes LEN and never reads it (R210). -/
theorem rxEngine_stores (ho : st.getLsbD 15 = true) {buf : U32}
    (hbuf : Memory.word? s.dma.mem (descAddr s.dma.regs.rdsr s.dma.hwRxIdx + 4) = some buf) (hin : buf.toNat + s.cfg.bufSize ≤ dmaSpaceEnd) :
    rxEngine b err s = .ok ((), s.rxStored buf (b.take (min b.length s.cfg.bufSize)) st
      ((st &&& bitWrap) ||| bitLast ||| rxErrorBits s.cfg s.dma.regs b.length err)) := by
  have hlen := length_take_min b s.cfg.bufSize
  unfold rxEngine State.rxStored
  rw [get_bind_apply, branch_apply, if_pos hact, hlen]
  refine (bind_ok (readStatus_ok hp hst)).trans ?_
  rw [branch_apply, if_pos (show owned st = true from ho)]
  refine (bind_ok (readBuf_ok hp hbuf)).trans ?_
  refine (bind_ok (dmaWriteBytes_ok (by omega))).trans ?_
  refine (bind_ok (writeLen_ok hp _)).trans ?_
  exact (bind_ok (writeStatus_ok hp _)).trans rfl

end

/-- Settles O51: admission, then the engine, idle, stopped by the descriptor or storing the frame. -/
theorem dmaWireRxFillsDescriptor : Obligations.DmaWireRxFillsDescriptor := by
  intro s b err hq hb r dst admitted desc
  have event : ∀ {t : State}, dmaWireRx b err s = .ok ((), t) → t.Quiet → exec (.wireRx b err) s = .next t := fun h =>
    runEvent_quiet (a := .wireRx b err) ((byBackend_dma hb).trans h)
  have engine : admitted → dmaWireRx b err s = rxEngine b err s := fun h => dmaWireRx_admitted (dmaAdmits_iff.mpr h)
  refine ⟨fun h => event ?_ hq, fun ha hact h8 hin st hst => ⟨fun ho => ?_, fun ho buf hbuf hspace => ?_⟩⟩
  · by_cases ha : admitted
    · exact (engine ha).trans (rxEngine_idle (h.resolve_left (not_not_intro ha)) b err)
    · exact dmaWireRx_dropped (fun h => ha (dmaAdmits_iff.mp h)) err
  · exact event ((engine ha).trans (rxEngine_stops hact ⟨h8, hin⟩ hst b err ho)) hq
  · refine (event ((engine ha).trans (rxEngine_stores hact ⟨h8, hin⟩ hst b err ho hbuf hspace)) hq).trans ?_
    rw [State.rxStored, length_take_min]
    rfl

/-! ## The transmit engine -/

/-- A transmit engine that is off, or whose MAC is, does nothing (R213). -/
theorem txEngine_off {s : State} (h : s.dma.regs.ecr.getLsbD 0 = false ∨ s.dma.txActive = false) : txEngine s = .ok ((), s) := by
  unfold txEngine
  rw [get_bind_apply, branch_apply, if_neg (by rcases h with h | h <;> rw [h] <;> simp)]
  rfl

section

variable {s : State} (he : s.dma.regs.ecr.getLsbD 0 = true) (hact : s.dma.txActive = true)
  (hp : Placed (descAddr s.dma.regs.tdsr s.dma.hwTxIdx)) {st : U16}
  (hst : Memory.half? s.dma.mem (descAddr s.dma.regs.tdsr s.dma.hwTxIdx + 2) = some st)

include he hact hp hst

/-- A descriptor that is not ready makes the engine idle (R213). -/
theorem txEngine_stops (ho : st.getLsbD 15 = false) : txEngine s = .ok ((), s.withDma { s.dma with txActive := false }) := by
  unfold txEngine
  rw [get_bind_apply, branch_apply, if_pos (by simp [he, hact])]
  refine (bind_ok (readStatus_ok hp hst)).trans ?_
  rw [branch_apply, if_neg (ne_true_of_eq_false (show owned st = false from ho))]
  rfl

/-- A ready descriptor the host rules never make stops the model (R213, U12). -/
theorem txEngine_faults (ho : st.getLsbD 15 = true) {n : U16}
    (hn : Memory.half? s.dma.mem (descAddr s.dma.regs.tdsr s.dma.hwTxIdx) = some n) (hl : txDescriptorLegal s.cfg st n.toNat = false) :
    txEngine s = .error (.fault (.badTransmitDescriptor s.dma.hwTxIdx)) := by
  unfold txEngine
  rw [get_bind_apply, branch_apply, if_pos (by simp [he, hact])]
  refine (bind_ok (readStatus_ok hp hst)).trans ?_
  rw [branch_apply, if_pos (show owned st = true from ho)]
  refine (bind_ok (readLen_ok hp hn)).trans ?_
  rw [branch_apply, if_neg (by simp [hl])]
  rfl

end

/-- The descriptors the host rules make (R94, U12). -/
theorem txDescriptorLegal_iff {c : Config} {st n : U16} :
    txDescriptorLegal c st n.toNat = true ↔ st.getLsbD 10 = true ∧ st.getLsbD 11 = true ∧ n ≠ 0 ∧ n.toNat ≤ c.bufSize := by
  have pos : 0 < n.toNat ↔ n ≠ 0 := by rw [Nat.pos_iff_ne_zero, Ne, Ne, BitVec.toNat_eq]; rfl
  simp [txDescriptorLegal, and_assoc, pos]

/-- An agent step that stops the model stops its event (R129). -/
theorem runEvent_fault {a : AgentStep} {s : State} {f : Fault} (h : agentStep a s = .error (.fault f)) : runEvent a s = .fault f := by
  unfold runEvent runSilent micro
  rw [bind_error h]

/-! ## The chip's transmitter -/

/-- Nothing to send, or no open socket (R268). -/
theorem chipSendDone_nothing {s : State} (h : s.spi.chip.sSr ≠ srMacraw ∨ s.spi.chip.sendQueue = []) :
    chipSendDone s = .ok ((), s) := by
  unfold chipSendDone
  rw [get_bind_apply]
  cases hq : s.spi.chip.sendQueue with
  | nil => rfl
  | cons e rest =>
    refine (branch_apply _ _ _).trans (if_neg ?_)
    exact h.resolve_right (by simp [hq])

/-- A cause latches the edge if it is unmasked (R57, R268, R269). -/
theorem latchCause_ok (cause : Nat) (s : State) :
    latchCause cause s = .ok ((), { s with spi := { s.spi with
      intLatched := if latches s.spi.chip cause then true else s.spi.intLatched } }) := by
  unfold latchCause
  rw [modifySpi_apply]
  by_cases h : latches s.spi.chip cause = true
  · rw [if_pos h, if_pos h]
  · rw [if_neg h, if_neg h]

/-- The oldest queued frame goes on the wire and its cause latches the edge if it is unmasked (R268). -/
theorem chipSendDone_sent {s : State} (ho : s.spi.chip.sSr = srMacraw) {e : U16} {rest : List U16} {f : List Byte}
    (hq : s.spi.chip.sendQueue = e :: rest)
    (hf : ringRead s.spi.chip.txMem s.spi.chip.txBytes s.spi.chip.sTxRd.toNat (ptrDiff e s.spi.chip.sTxRd) = some f) :
    chipSendDone s = .ok ((), { s with
      wireTxLog := s.wireTxLog ++ [f]
      spi := { s.spi with
        intLatched := if latches s.spi.chip 4 then true else s.spi.intLatched
        chip := s.spi.chip.sent e rest } }) := by
  unfold chipSendDone
  rw [get_bind_apply, hq]
  refine (branch_apply _ _ _).trans ((if_pos ho).trans ?_)
  rw [hf, orFault_some, pure_bind_apply, modify_bind_apply, modifyChip_bind_apply]
  exact (latchCause_ok 4 _).trans rfl

/-- Settles O53: the engine is off, stops, faults or sends, as its enable and its descriptor say; the chip sends where the socket is open
and a frame is queued. -/
theorem transmitEnginesSend : Obligations.TransmitEnginesSend := by
  refine ⟨fun s hq hb => ?_, fun s hq hb => ⟨fun h => ?_, fun ho e rest f he hf => ?_⟩⟩
  · have event : ∀ {t : State}, txEngine s = .ok ((), t) → t.Quiet → exec .dmaTx s = .next t := fun h =>
      runEvent_quiet (a := .dmaTx) ((byBackend_dma hb).trans h)
    refine ⟨fun h => event (txEngine_off h) hq, fun he hact h8 hin st hst => ⟨fun ho => ?_, fun ho n hn => ⟨fun hbad => ?_, ?_⟩⟩⟩
    · exact event (txEngine_stops he hact ⟨h8, hin⟩ hst ho) hq
    · have illegal : txDescriptorLegal s.cfg st n.toNat = false := by
        rw [Bool.eq_false_iff, Ne, txDescriptorLegal_iff]
        rintro ⟨h10, h11, h0, hfit⟩
        rcases hbad with h | h | h | h
        · exact Bool.false_ne_true (h.symm.trans h10)
        · exact Bool.false_ne_true (h.symm.trans h11)
        · exact h0 h
        · omega
      exact runEvent_fault (a := .dmaTx) ((byBackend_dma hb).trans (txEngine_faults he hact ⟨h8, hin⟩ hst ho hn illegal))
    · intro h10 h11 h0 hfit buf f hbuf hspace hf
      exact event (txEngine_ok ⟨he, hact, ⟨h8, hin⟩, ⟨hn, hst, hbuf⟩, ho, txDescriptorLegal_iff.mpr ⟨h10, h11, h0, hfit⟩, hspace, hf⟩) hq
  · exact runEvent_quiet (a := .chipSendDone) ((byBackend_spi hb).trans (chipSendDone_nothing h)) hq
  · exact runEvent_quiet (a := .chipSendDone) ((byBackend_spi hb).trans (chipSendDone_sent ho he hf)) hq

end Sys2Proof.Machine
end

section
/-! SUPPORT. DEINIT of a DMA session (R156, R198), the MAC filter's operations (R217 to R219, R261, R288), and INIT with the PHY's tuning (R191 to R196). -/

namespace Sys2Proof.Machine

/-! ## DEINIT of a DMA session (R156, R198) -/

/-- The end of a session reports the link down once, when it was reported up (R156, R300). -/
theorem reportDown_ok {s : State} (h : ∀ n r, Calm { s with linkReported := r, notifyLog := n }) :
    reportDown s = .ok ((), { s with
      linkReported := false, notifyLog := if s.linkReported then s.notifyLog ++ [false] else s.notifyLog }) := by
  unfold reportDown
  rw [get_bind_apply, branch_apply]
  cases hr : s.linkReported with
  | true =>
    rw [if_pos rfl, modify_bind_apply]
    unfold notify
    exact micro_ok (modify_apply _ _) (h _ _)
  | false =>
    rw [if_neg (by simp), if_neg (by simp), ← hr]
    rfl

/-- A DMA session ends: the MAC is shut down and the link reported down (R156, R198). -/
theorem endSession_dma {s t : State} (hb : s.cfg.backend = .dma) (hd : dmaShutDown s = .ok ((), t)) (ht : StillDma t) :
    endSession s = .ok ((), { t with
      linkReported := false, notifyLog := if t.linkReported then t.notifyLog ++ [false] else t.notifyLog
      initState := .phyInitialized }) := by
  unfold endSession
  rw [bind_ok ((byBackend_dma hb).trans hd), bind_ok (reportDown_ok ht.notified)]
  rfl

/-- In a session DEINIT ends it, then walks back (R156). -/
theorem deinitialise_inside {s t : State} (h : s.initState = .initialized) (he : endSession s = .ok ((), t)) :
    deinitialise s = .ok ((), t.walkedBack) := by
  rw [deinitialise_eq, onlyIf_pos h, bind_ok he]

/-- Settles O35: the shut-down, the report, then the walk back to state 2. -/
theorem dmaDeinitEndsSession : Obligations.DmaDeinitEndsSession := by
  intro s hq ⟨hb, hi⟩
  have still := hq.stillDma hb
  have ended := endSession_dma hb (dmaShutDown_ok still) (still.withDma (.inr rfl))
  refine (runCommand_ok (thenOk_ok (deinitialise_inside hi ended))).trans ?_
  simp only [State.walkedBack, State.stepBack, hb]
  rfl

/-! ## The filter (R217 to R219) -/

theorem macWrite_presReg (d : DmaState) (half : Bool) (v : U32) : d.macWrite (presReg half) v = d.withPresence half v := by
  cases half <;> rfl

theorem setColl_eq (d : DmaState) (half : Bool) (k : Nat) : d.setColl half k = d.withCollision half (d.coll half ||| bitMask k) := by
  cases half <;> rfl

/-- PIPE_ALLOW_MAC is SET_INCOMING_MAC_ALLOWED (R288). -/
theorem exec_filter {s : State} {m : MacAddr} {a : Bool} {i : Instr} (hi : i = .setIncomingMacAllowed m a ∨ i = .pipeAllowMac m a) :
    exec i s = runCommand (filterOp m a) s := by
  rcases hi with rfl | rfl <;> rfl

/-- In a session the filter operation answers what its backend's part does (R217, R261). -/
theorem filterOp_session {s t : State} {m : MacAddr} {a : Bool} {r : Status} (hp : s.cfg.promiscuous = false)
    (hi : s.initState = .initialized) (h : byBackend (dmaFilter m a) (pure .no) s = .ok (r, t)) :
    filterOp m a s = .ok (.plain r, t) := by
  rw [filterOp_gated hp, gated_inside hi, bind_ok h]
  rfl

/-- Settles O42: the build's gate, the SPI build's FALSE, or the bucket's presence and collision bits on the DMA build. -/
theorem filterOperations : Obligations.FilterOperations := by
  refine ⟨fun s m a i hi => ⟨fun hp => ?_, fun hp ⟨hb, hs⟩ => ?_⟩, ?_⟩
  · exact (exec_filter hi).trans (runCommand_ok (filterOp_compiledOut hp m a))
  · exact (exec_filter hi).trans (runCommand_ok (filterOp_session hp hs (byBackend_spi hb)))
  intro s m i hq hp ⟨hb, hs⟩ half k pres coll
  have still := hq.stillDma hb
  have answer : ∀ {a : Bool} {r : Status} {t : State}, (i = .setIncomingMacAllowed m a ∨ i = .pipeAllowMac m a) →
      dmaFilter m a s = .ok (r, t) → exec i s = .next (t.respond (.plain r)) := fun hi h =>
    (exec_filter hi).trans (runCommand_ok (filterOp_session hp hs ((byBackend_dma hb).trans h)))
  refine ⟨fun hi => ?_, fun hi => ?_⟩
  · cases hk : pres.getLsbD k with
    | true => exact (answer hi (filterAllow_set still hk)).trans (by rw [setColl_eq]; rfl)
    | false => exact (answer hi (filterAllow_clear still hk)).trans (by rw [macWrite_presReg]; rfl)
  · cases hk : coll.getLsbD k with
    | true => exact answer hi (filterDisallow_collision hk)
    | false => exact (answer hi (filterDisallow_clear still hk)).trans (by rw [macWrite_presReg]; rfl)

/-! ## INIT with the tuning (R191) -/

/-- A clear of MII does not show once every event is cleared (R33, R195). -/
theorem w1c32_mii_cleared (v : U32) : w1c32 v 0x00000002 &&& ~~~0x00000007 = v &&& ~~~0x00000007 := by
  unfold w1c32
  rw [BitVec.and_assoc]
  rfl

/-- From state 2 INIT on the DMA build is the tuning, then the bring-up (R153). -/
theorem dmaInit_tunes {s t u : State} {m : MacAddr} (hi : s.initState = .hasHardware) (ht : tune s.cfg.phyTuning s = .ok (true, t))
    (hb : dmaBringUp m { t with initState := .phyInitialized } = .ok ((), u)) : dmaInit m s = .ok (true, u) := by
  unfold dmaInit
  rw [get_bind_apply, branch_apply, if_pos hi, bind_ok ht, branch_apply, if_pos rfl, modify_bind_apply, bind_ok hb]
  rfl

/-- A legal build polls the management bus at least once (00_scope.md section 4.2). -/
theorem mdioPollBound_pos {c : Config} (h : c.wf = true) : 1 ≤ c.mdioPollBound := by
  simp only [Config.wf, Bool.and_eq_true, decide_eq_true_eq] at h
  omega

/-- The bring-up clears every event and keeps the PHY and MMFR (R195). -/
theorem afterInit_mdio {d : DmaState} {e : U32} (he : e &&& ~~~0x00000007 = d.regs.eir &&& ~~~0x00000007) (p : Phy) (f : U32) (c : Config)
    (m : MacAddr) : DmaState.afterInit { d with phy := p, regs := { d.regs with eir := e, mmfr := f } } c m =
      { d.afterInit c m with phy := p, regs := { (d.afterInit c m).regs with mmfr := f } } := by
  simp only [DmaState.afterInit, he]

/-- Settles O32: the tuning writes the PHY, then the bring-up, then the session starts. -/
theorem dmaInitTunesPhy : Obligations.DmaInitTunesPhy := by
  intro s m hp hwf hb hi hclk hmac hmem
  obtain ⟨hecr, -, -, -, hbusy, -⟩ := hmac.outside hb (by simp [hi])
  have tuned := tune_ready ⟨hp, hb, hclk, hbusy, mdioPollBound_pos hwf⟩ s.cfg.phyTuning
  rw [mdioWroteAll] at tuned
  obtain ⟨mem', bring, -, seeded⟩ := dmaBringUp_ok (s := { s with
    initState := .phyInitialized
    dma := { s.dma with
      phy := tunedPhy s.cfg s.dma.phy
      regs := { s.dma.regs with
        eir := if allTuningWrites s.cfg = [] then s.dma.regs.eir else w1c32 s.dma.regs.eir 0x00000002
        mmfr := tunedMmfr s.cfg s.dma.regs.mmfr } } })
    ⟨hb, hp.1, .inr ⟨hp.2, hbusy⟩⟩ (layout_of_wf hwf) hmem.dma hecr m
  have init := (initialise_past (by simp [hi]) (by simp [hi]) (by simp [hi])
    ((byBackend_dma hb).trans (dmaInit_tunes hi tuned bring))).trans (if_pos rfl)
  have answer := runCommand_bind (f := boolResult) init
  refine ⟨mem', answer.trans ?_, (runCommand_bind ((pipeInit_past (by simp [hi]) m).trans init)).trans answer.symm, seeded⟩
  have events : (if allTuningWrites s.cfg = [] then s.dma.regs.eir else w1c32 s.dma.regs.eir 0x00000002) &&& ~~~0x00000007
      = s.dma.regs.eir &&& ~~~0x00000007 := by
    split
    · rfl
    · exact w1c32_mii_cleared _
  simp only [afterInit_mdio events, State.afterInit, ← capsOf_eq]
  rfl

end Sys2Proof.Machine
end

section
/-! SUPPORT. The DMA probe's identity reads (R184, R190). -/

namespace Sys2Proof.Machine

/-- The state in which a finished management transaction leaves the bus: MMFR at `f`, no event (R181 to R184). -/
def State.busLeft (s : State) (f : U32) : State :=
  s.withDma { s.dma with regs := { s.dma.regs with eir := w1c32 s.dma.regs.eir 0x00000002, mmfr := f } }

theorem State.busLeft_busLeft (s : State) (f g : U32) : (s.busLeft f).busLeft g = s.busLeft g := by
  simp only [State.busLeft, w1c32_idem]

/-! ## The identity reads (R184, R188) -/

theorem probedIdentity_half {c : Config} {k : Nat} (hk : k = 16 ∨ k = 0) :
    (probedIdentity c).extractLsb' k 16 = if c.phyPresent then c.phyId.extractLsb' k 16 else 0xFFFF := by
  unfold probedIdentity
  split
  · rfl
  · rcases hk with rfl | rfl <;> rfl

/-- A prompt read of an identity register gives its half of the identity (R182, R188, R197). -/
theorem mdioRead_half {s : State} (h : PhyReady s) {ra : BitVec 5} {k : Nat} (hk : (ra = 0x02 ∧ k = 16) ∨ (ra = 0x03 ∧ k = 0)) :
    mdioRead ra s = .ok (some ((probedIdentity s.cfg).extractLsb' k 16),
      s.busLeft (mmfrWithData (mmfrRead s.cfg ra) ((probedIdentity s.cfg).extractLsb' k 16))) := by
  rw [probedIdentity_half (hk.imp And.right And.right)]
  refine mdioRead_identity h.prompted h.backend h.clocks h.idle h.bound ?_
  exact hk.imp (fun ⟨hr, hk⟩ => ⟨hr, by rw [hk]⟩) fun ⟨hr, hk⟩ => ⟨hr, by rw [hk]⟩

/-- A read that never completes (R184). -/
theorem mdioRead_quiet {s : State} (hq : s.Quiet) (hbusy : s.dma.mdioBusy = false) (ra : BitVec 5) :
    mdioRead ra s = .ok (none, s.busLeft (mmfrRead s.cfg ra)) := by
  unfold mdioRead
  rw [config_bind_apply]
  exact mdioTransact_quiet hq hbusy (mmfrRead_legal s.cfg ra)

/-- The two halves match where the identity does (R190). -/
theorem identityMatches_halves (c : Config) (v : U32) :
    identityMatches c (some (v.extractLsb' 16 16)) (some (v.extractLsb' 0 16)) = (v &&& c.phyIdMask == c.phyIdExpect &&& c.phyIdMask) := by
  rw [identityMatches, identity_halves]

/-! ## The probe -/

/-- The state in which P3 leaves the probe (R190). -/
def State.pulsed (s : State) : State :=
  s.withDma { s.dma with clocksOn := true, pinsConfigured := true, phyResetDone := true, phy := s.dma.phy.pulse }

/-- P4: the milestone, or the roll-back with all three switches off (R190). -/
def State.identified (s : State) (ok : Bool) : State :=
  { s with
    initState := if ok then .hasHardware else .noHardware
    dma := { s.dma with clocksOn := ok, pinsConfigured := ok, phyResetDone := ok } }

/-- P1 to P4, given what the two reads answer (R190). -/
theorem dmaProbe_identified {s : State} {hi lo : Option U16} {f g : U32} (hs : StillDma s) (hbusy : s.dma.mdioBusy = false)
    (hhi : mdioRead 0x02 s.pulsed = .ok (hi, s.pulsed.busLeft f))
    (hlo : mdioRead 0x03 (s.pulsed.busLeft f) = .ok (lo, (s.pulsed.busLeft f).busLeft g)) :
    dmaProbe s = .ok ((), (s.pulsed.busLeft g).identified (identityMatches s.cfg hi lo)) := by
  rw [State.busLeft_busLeft] at hlo
  have still : StillDma (s.pulsed.busLeft g) := hs.withDma (.inl rfl)
  unfold dmaProbe
  rw [config_bind_apply]
  refine (dmaProbe_switches hs.calm hbusy).trans ((bind_ok hhi).trans ((bind_ok hlo).trans ((branch_apply _ _ _).trans ?_)))
  cases identityMatches s.cfg hi lo with
  | true => rfl
  | false => exact dmaProbe_rollback still.calm hbusy

/-- HAS_HARDWARE in Start answers what the probe found (R151). -/
theorem exec_hasHardware_identified {s t : State} {ok : Bool} (hb : s.cfg.backend = .dma) (hi : s.initState = .start)
    (hp : dmaProbe s = .ok ((), t.identified ok)) :
    exec .hasHardware s = .next { t.identified ok with resBuf := [if ok then 0x00 else 0x01] } := by
  refine (runCommand_bind (f := boolResult) (hasHardware_start hi ((byBackend_dma hb).trans hp))).trans ?_
  cases ok <;> rfl

/-- Settles O28: the two reads give the halves of the identity, or nothing, and P4 compares. -/
theorem dmaProbeReadsIdentity : Obligations.DmaProbeReadsIdentity := by
  refine ⟨fun s hp hb hi hbusy hbound => ?_, fun s hq hb hi hbusy => ?_⟩
  · have ready : PhyReady s.pulsed := ⟨hp, hb, rfl, hbusy, hbound⟩
    have readyAgain : ∀ f, PhyReady (s.pulsed.busLeft f) := fun f => ⟨hp, hb, rfl, hbusy, hbound⟩
    have probed := dmaProbe_identified ⟨hb, hp.1, .inr ⟨hp.2, hbusy⟩⟩ hbusy (mdioRead_half ready (.inl ⟨rfl, rfl⟩))
      (mdioRead_half (readyAgain _) (.inr ⟨rfl, rfl⟩))
    refine (exec_hasHardware_identified hb hi probed).trans ?_
    rw [show s.pulsed.cfg = s.cfg from rfl, show ∀ f, (s.pulsed.busLeft f).cfg = s.cfg from fun _ => rfl, identityMatches_halves]
    rfl
  · have probed := dmaProbe_identified (hq.stillDma hb) hbusy (mdioRead_quiet (s := s.pulsed) hq hbusy 0x02)
      (mdioRead_quiet (s := s.pulsed.busLeft (mmfrRead s.cfg 0x02)) hq hbusy 0x03)
    exact exec_hasHardware_identified hb hi probed

end Sys2Proof.Machine
end

section
/-! SUPPORT. !MDIO_DONE and the PHY's registers (R182, R189). -/

namespace Sys2Proof.Machine

/-! ## Register values (R188, R189) -/

/-- One bit replaced. -/
theorem getLsbD_withBit {k : Nat} (hk : k < 16) (v : U16) (b : Bool) (j : Nat) :
    (withBit v k b).getLsbD j = if j = k then b else v.getLsbD j := by
  have bit : (1#16 <<< k).getLsbD j = decide (j = k) := by
    rw [BitVec.getLsbD_shiftLeft, BitVec.getLsbD_one, Bool.eq_iff_iff]
    simp
    omega
  cases b with
  | true =>
    rw [withBit, if_pos rfl, BitVec.getLsbD_or, bit]
    by_cases h : j = k <;> simp [h]
  | false =>
    rw [withBit, if_neg (by decide), BitVec.getLsbD_and, BitVec.getLsbD_not, bit]
    by_cases h : j = k
    · simp [h]
    · by_cases h16 : j < 16
      · simp [h, h16]
      · simp [h, h16, BitVec.getLsbD_of_ge v j (by omega)]

/-- LINKREG shows the live link, its other bits are drawn (R188). -/
theorem getLsbD_linkRegValue (l : PhyLink) (drawn : U16) (j : Nat) :
    (linkRegValue l drawn).getLsbD j = if j = 2 then l.up else drawn.getLsbD j := getLsbD_withBit (by decide) drawn l.up j

/-- STSREG shows the five link bits, its other bits are drawn (R188). -/
theorem getLsbD_stsRegValue (l : PhyLink) (drawn : U16) (j : Nat) :
    (stsRegValue l drawn).getLsbD j = if j = 14 then l.mdix else if j = 4 then l.autonegDone else if j = 2 then l.full
      else if j = 1 then l.speed10 else if j = 0 then l.up else drawn.getLsbD j := by
  unfold stsRegValue
  rw [getLsbD_withBit (by decide), getLsbD_withBit (by decide), getLsbD_withBit (by decide), getLsbD_withBit (by decide),
    getLsbD_withBit (by decide)]

/-- The function field of REGCR (R188). -/
theorem Phy.dataFunction_iff {p : Phy} : p.dataFunction = true ↔ p.regcr.extractLsb' 14 2 = 1#2 := beq_iff_eq

/-! ## A read of a register (R189) -/

section

variable (s : State) {ra : BitVec 5}

theorem phyRegRead_link (hr : ra = 0x01) :
    phyRegRead ra s = .ok (linkRegValue s.dma.phy.link s.draws.takePhyBits.1, { s with draws := s.draws.takePhyBits.2 }) := by
  rw [hr]
  rfl

theorem phyRegRead_status (hr : ra = 0x10) :
    phyRegRead ra s = .ok (stsRegValue s.dma.phy.link s.draws.takePhyBits.1, { s with draws := s.draws.takePhyBits.2 }) := by
  rw [hr]
  rfl

theorem phyRegRead_idHigh (hr : ra = 0x02) : phyRegRead ra s = .ok (s.cfg.phyId.extractLsb' 16 16, s) := by
  rw [hr]
  rfl

theorem phyRegRead_idLow (hr : ra = 0x03) : phyRegRead ra s = .ok (s.cfg.phyId.extractLsb' 0 16, s) := by
  rw [hr]
  rfl

/-- ADDAR follows the function field (R188). -/
theorem phyRegRead_addar (hr : ra = 0x0E) :
    phyRegRead ra s = .ok (if s.dma.phy.regcr.extractLsb' 14 2 = 1#2 then s.dma.phy.extValue s.dma.phy.extAddr.toNat
      else s.dma.phy.extAddr, s) := by
  rw [hr]
  refine (branch_apply (p := s.dma.phy.dataFunction = true) _ _ s).trans ?_
  by_cases h : s.dma.phy.regcr.extractLsb' 14 2 = 1#2
  · rw [if_pos h, if_pos (Phy.dataFunction_iff.mpr h)]
    rfl
  · rw [if_neg h, if_neg (mt Phy.dataFunction_iff.mp h)]
    rfl

/-- Any other register reads as the PHY keeps it (R189). -/
theorem phyRegRead_kept (h1 : ra ≠ 0x01) (h2 : ra ≠ 0x02) (h3 : ra ≠ 0x03) (hE : ra ≠ 0x0E) (h10 : ra ≠ 0x10) :
    phyRegRead ra s = .ok (s.dma.phy.regValue ra.toNat, s) := by
  unfold phyRegRead
  rw [get_bind_apply]
  rw [if_neg h1, if_neg h2, if_neg h3, if_neg h10, if_neg hE]
  rfl

end

/-! ## A write of a register (R189) -/

section

variable (p : Phy) {ra : BitVec 5} (v : U16)

theorem Phy.regWrite_regcr (hr : ra = 0x0D) : p.regWrite ra v = { p with regcr := v } := by
  rw [hr]
  rfl

theorem Phy.regWrite_address (hr : ra = 0x0E) (h : p.regcr.extractLsb' 14 2 ≠ 1#2) : p.regWrite ra v = { p with extAddr := v } := by
  rw [hr]
  exact if_neg (mt Phy.dataFunction_iff.mp h)

theorem Phy.regWrite_extended (hr : ra = 0x0E) (h : p.regcr.extractLsb' 14 2 = 1#2) :
    p.regWrite ra v = { p with ext := storeReg p.ext p.extAddr.toNat v } := by
  rw [hr]
  exact if_pos (Phy.dataFunction_iff.mpr h)

theorem Phy.regWrite_ignored (h : ra = 0x01 ∨ ra = 0x02 ∨ ra = 0x03 ∨ ra = 0x10) : p.regWrite ra v = p := by
  rcases h with rfl | rfl | rfl | rfl <;> rfl

theorem Phy.regWrite_kept (h1 : ra ≠ 0x01) (h2 : ra ≠ 0x02) (h3 : ra ≠ 0x03) (hD : ra ≠ 0x0D) (hE : ra ≠ 0x0E)
    (h10 : ra ≠ 0x10) : p.regWrite ra v = { p with reg := storeReg p.reg ra.toNat v } := by
  unfold Phy.regWrite
  rw [if_neg hD, if_neg hE, if_neg (not_or.mpr ⟨h1, not_or.mpr ⟨h2, not_or.mpr ⟨h3, h10⟩⟩⟩)]

end

/-! ## The completion (R182) -/

theorem mdioEnabled_iff {d : DmaState} :
    mdioEnabled d = true ↔ d.clocksOn = true ∧ d.mdioBusy = true ∧ d.regs.eir.getLsbD 1 = false := by
  rw [mdioEnabled, Bool.and_eq_true, Bool.and_eq_true, Bool.not_eq_true', and_assoc]

/-- A PHY answers the frame: it is there and the frame has its address (R182). -/
def State.PhyAnswers (s : State) : Prop := s.cfg.phyPresent = true ∧ mmfrPa s.dma.regs.mmfr = s.cfg.phyAddr

theorem mdioComplete_disabled {s : State} (h : mdioEnabled s.dma ≠ true) : mdioComplete s = .ok ((), s) := by
  unfold mdioComplete
  rw [get_bind_apply, branch_apply, if_neg h]
  rfl

section

variable {s : State} (he : mdioEnabled s.dma = true)

include he

/-- A read the PHY answers puts the register's value in MMFR (R182). -/
theorem mdioComplete_read {u : State} {v : U16} (hop : mmfrOp s.dma.regs.mmfr = 0b10#2) (ha : s.PhyAnswers)
    (hr : phyRegRead (mmfrRa s.dma.regs.mmfr) s = .ok (v, u)) : mdioComplete s = .ok ((), { u with dma := u.dma.completed v }) := by
  unfold mdioComplete
  rw [get_bind_apply, branch_apply, if_pos he]
  rw [if_pos hop, if_pos (by simp [ha.1, ha.2]), bind_ok hr]
  rfl

/-- A read nobody answers gives all ones (R182). -/
theorem mdioComplete_read_unanswered (hop : mmfrOp s.dma.regs.mmfr = 0b10#2) (ha : ¬ s.PhyAnswers) :
    mdioComplete s = .ok ((), { s with dma := s.dma.completed 0xFFFF }) := by
  unfold mdioComplete
  rw [get_bind_apply, branch_apply, if_pos he]
  rw [if_pos hop, if_neg (by simpa [State.PhyAnswers] using ha)]
  rfl

/-- A write the PHY answers reaches its register (R182). -/
theorem mdioComplete_write (hop : mmfrOp s.dma.regs.mmfr = 0b01#2) (ha : s.PhyAnswers) :
    mdioComplete s = .ok ((), { s with
      dma := DmaState.completed { s.dma with phy := s.dma.phy.regWrite (mmfrRa s.dma.regs.mmfr) (mmfrData s.dma.regs.mmfr) }
        (mmfrData s.dma.regs.mmfr) }) := by
  unfold mdioComplete
  rw [get_bind_apply, branch_apply, if_pos he]
  rw [if_neg (by simp [hop]), if_pos hop, if_pos (by simp [ha.1, ha.2])]
  rfl

/-- A write nobody answers is lost (R182). -/
theorem mdioComplete_write_unanswered (hop : mmfrOp s.dma.regs.mmfr = 0b01#2) (ha : ¬ s.PhyAnswers) :
    mdioComplete s = .ok ((), { s with dma := s.dma.completed (mmfrData s.dma.regs.mmfr) }) := by
  unfold mdioComplete
  rw [get_bind_apply, branch_apply, if_pos he]
  rw [if_neg (by simp [hop]), if_pos hop, if_neg (by simpa [State.PhyAnswers] using ha)]
  rfl

end

/-- Settles O54: the completion does nothing, reads what the register shows or writes what the PHY keeps. -/
theorem mdioDoneCompletesFrame : Obligations.MdioDoneCompletesFrame := by
  intro s hq hb f ra enabled answers p v p'
  have event : ∀ {t : State}, mdioComplete s = .ok ((), t) → t.Quiet → exec .mdioDone s = .next t := fun h =>
    runEvent_quiet (a := .mdioDone) ((byBackend_dma hb).trans h)
  refine ⟨fun h => event (mdioComplete_disabled (mt mdioEnabled_iff.mp h)) hq, fun he hop => ⟨fun ha => ?_, fun ha => ?_⟩,
    fun he hop => ⟨fun ha => ?_, fun ha => ?_⟩, fun hr => p.regWrite_regcr v hr, fun hr hfn => p.regWrite_address v hr hfn,
    fun hr hfn => ?_, fun hr => p.regWrite_ignored v hr, fun h1 h2 h3 hD hE h10 => ?_⟩
  · exact event (mdioComplete_read_unanswered (mdioEnabled_iff.mpr he) hop ha) hq
  · have read : ∀ {w : U16} {u : State}, phyRegRead ra s = .ok (w, u) → u.Quiet →
        exec .mdioDone s = .next { u with dma := u.dma.completed w } := fun h =>
      event (mdioComplete_read (mdioEnabled_iff.mpr he) hop ha h)
    refine ⟨fun hr => read (phyRegRead_idHigh s hr) hq, fun hr => read (phyRegRead_idLow s hr) hq, fun hr => ?_, fun hr => ?_,
      fun hr => read (phyRegRead_addar s hr) hq, fun h1 h2 h3 hE h10 => read (phyRegRead_kept s h1 h2 h3 hE h10) hq⟩
    · have bits := getLsbD_linkRegValue p.link s.draws.takePhyBits.1
      exact ⟨_, bits 2, fun j hj => (bits j).trans (if_neg hj), read (phyRegRead_link s hr) hq⟩
    · have bits := getLsbD_stsRegValue p.link s.draws.takePhyBits.1
      refine ⟨_, bits 0, bits 1, bits 2, bits 4, bits 14, fun j h0 h1 h2 h4 h14 => ?_, read (phyRegRead_status s hr) hq⟩
      rw [bits, if_neg h14, if_neg h4, if_neg h2, if_neg h1, if_neg h0]
  · exact event (mdioComplete_write_unanswered (mdioEnabled_iff.mpr he) hop ha) hq
  · exact event (mdioComplete_write (mdioEnabled_iff.mpr he) hop ha) hq
  · rw [show p' = _ from p.regWrite_extended v hr hfn]
    exact ⟨rfl, by simp, fun k hk => by simp [hk]⟩
  · rw [show p' = _ from p.regWrite_kept v h1 h2 h3 hD hE h10]
    exact ⟨rfl, by simp, fun k hk => by simp [hk]⟩

end Sys2Proof.Machine
end

section
/-! SUPPORT. The socket in a session of the SPI build (R244 to R246, R255, R259, R262), under every schedule: what each transaction does to
the registers that the invariant names, and that each operation leaves them consistent. -/

namespace Sys2Proof.Machine

variable {α : Type}

/-! ## What the invariant looks at -/

/-- The parameters, `fault_sock`, and the chip's socket as far as the host or its commands move it: no agent does. -/
structure Socket where
  cfg : Config
  fault : Bool
  mode : Byte
  status : Byte
  rxKb : Byte
  txKb : Byte
  rd : U16
  rdCommitted : U16
  wr : U16
  wrCommitted : U16
  rxBytes : Nat
  txBytes : Nat

/-- The socket of a chip. -/
def Chip.socket (q : Chip) (c : Config) (fault : Bool) : Socket :=
  ⟨c, fault, q.sMr, q.sSr, q.sRxbufSize, q.sTxbufSize, q.sRxRd, q.rxRdCommitted, q.sTxWr, q.txWrCommitted, q.rxBytes, q.txBytes⟩

/-- The socket of a state. -/
def State.socket (s : State) : Socket := s.spi.chip.socket s.cfg s.spi.faultSock

namespace Socket

/-- In a run with parameters `c`, `fault_sock` standing at `f`. -/
structure In (c : Config) (f : Bool) (v : Socket) : Prop where
  cfg : v.cfg = c
  fault : v.fault = f

/-- The chip holds INIT's mode and sizes (R244). -/
structure Configured (c : Config) (f : Bool) (v : Socket) : Prop extends Socket.In c f v where
  mode : v.mode = sMrValue c
  rxKb : v.rxKb.toNat = c.rxbufKb
  txKb : v.txKb.toNat = c.txbufKb

/-- The socket is open with those sizes (R245, R264). -/
structure Opened (c : Config) (f : Bool) (v : Socket) : Prop extends Configured c f v where
  status : v.status = srMacraw
  rxBytes : v.rxBytes = c.rxbufKb * 1024
  txBytes : v.txBytes = c.txbufKb * 1024

/-- The read pointer is committed; the write pointer may be on its way (R259). -/
structure RdCommitted (c : Config) (f : Bool) (v : Socket) : Prop extends Opened c f v where
  rd : v.rd = v.rdCommitted

/-- The write pointer is committed; the read pointer may be on its way (R255). -/
structure WrCommitted (c : Config) (f : Bool) (v : Socket) : Prop extends Opened c f v where
  wr : v.wr = v.wrCommitted

/-- The socket between two operations of a session. -/
structure Steady (c : Config) (f : Bool) (v : Socket) : Prop extends RdCommitted c f v where
  wr : v.wr = v.wrCommitted

end Socket

/-- The property holds of the socket. -/
def HasSocket (P : Socket → Prop) (s : State) : Prop := P s.socket

/-- The operation leaves the socket as it is. -/
abbrev KeepsSocket (m : M α) : Prop := Steps (fun s t => t.socket = s.socket) m

theorem keepsSocket_chains : Chains fun s t : State => t.socket = s.socket := Chains.same State.socket

theorem KeepsSocket.kept {m : M α} (h : KeepsSocket m) (P : Socket → Prop) : Kept (HasSocket P) m := fun s a t hm hs =>
  show P t.socket from (h s a t hm).symm ▸ hs

/-- The kinds of change that move the socket. -/
def socketKinds : List Kind := [.chipReg, .chipCommand, .sockFault, .spiSession, .spiCleared]

theorem Atom.socket {k : Kind} (hk : k ∉ socketKinds) {s t : State} (h : Atom k s t) : t.socket = s.socket := by
  cases h with
  | storeCommon => exact absurd (by decide) hk
  | storeSocket => exact absurd (by decide) hk
  | chipOpened => exact absurd (by decide) hk
  | chipClosed => exact absurd (by decide) hk
  | chipQueued => exact absurd (by decide) hk
  | chipAcknowledged => exact absurd (by decide) hk
  | sockFault => exact absurd (by decide) hk
  | spiSession => exact absurd (by decide) hk
  | spiCleared => exact absurd (by decide) hk
  | _ => rfl

theorem agentKinds_socket : ∀ k ∈ agentKinds, k ∉ socketKinds := of_decide_eq_true rfl

theorem keepsSocket_of_chain {l : List Kind} (hl : ∀ k ∈ l, k ∉ socketKinds) {m : M α} (h : Steps (Chain l) m) : KeepsSocket m :=
  h.mono fun _ _ => Chain.lift keepsSocket_chains fun k _ _ hk _ ha => ha.socket (hl k hk)

theorem boundary_keepsSocket : KeepsSocket boundary := keepsSocket_of_chain agentKinds_socket boundary_steps

theorem KeepsSocket.micro {m : M α} (h : KeepsSocket m) : KeepsSocket (micro m) := micro_steps keepsSocket_chains h boundary_keepsSocket

/-! ## Reads (R231 to R234) -/

theorem setCs_keepsSocket (b : Bool) : KeepsSocket (setCs b) := Steps.modifies fun _ => rfl

theorem drawBy_keepsSocket (take : Draws → α × Draws) : KeepsSocket (drawBy take) := Steps.drawBy fun _ => rfl

theorem commonByte_keepsSocket (u : State) (a : Nat) : KeepsSocket (commonByte u a) := by
  unfold commonByte
  split
  case h_11 => exact Steps.bind keepsSocket_chains (drawBy_keepsSocket _) fun _ => Steps.pure keepsSocket_chains _
  case h_13 => exact drawBy_keepsSocket _
  all_goals exact Steps.pure keepsSocket_chains _

theorem socketByte_keepsSocket (c : Chip) (a : Nat) : KeepsSocket (socketByte c a) := by
  unfold socketByte
  split
  case h_20 => exact drawBy_keepsSocket _
  all_goals exact Steps.pure keepsSocket_chains _

theorem chipByte_keepsSocket (bsb a : Nat) : KeepsSocket (chipByte bsb a) := by
  refine Steps.get_bind' fun u => Steps.ite (fun _ => ?_) fun _ => Steps.pure keepsSocket_chains _
  split
  · exact commonByte_keepsSocket _ _
  · exact socketByte_keepsSocket _ _
  · exact Steps.orFault keepsSocket_chains _ _
  · exact Steps.orFault keepsSocket_chains _ _
  · exact Steps.stopRefuse _

theorem chipBytes_keepsSocket (bsb a n : Nat) : KeepsSocket (chipBytes bsb a n) := by
  have hR := keepsSocket_chains
  induction n generalizing a with
  | zero => exact Steps.pure hR _
  | succ n ih => exact Steps.bind hR (chipByte_keepsSocket _ _) fun _ => Steps.bind hR (ih _) fun _ => Steps.pure hR _

theorem spiRead_keepsSocket (bsb a n : Nat) : KeepsSocket (spiRead bsb a n) := by
  have hR := keepsSocket_chains
  refine KeepsSocket.micro (Steps.bind hR (setCs_keepsSocket _) fun _ => Steps.bind hR (chipSelected_steps hR _ _) fun _ => ?_)
  exact Steps.bind hR (chipBytes_keepsSocket _ _ _) fun _ => Steps.bind hR (setCs_keepsSocket _) fun _ => Steps.pure hR _

theorem spiReadByte_keepsSocket (bsb a : Nat) : KeepsSocket (spiReadByte bsb a) :=
  Steps.bind keepsSocket_chains (spiRead_keepsSocket _ _ _) fun _ => Steps.pure keepsSocket_chains _

theorem spiRead16_keepsSocket (bsb a : Nat) : KeepsSocket (spiRead16 bsb a) :=
  Steps.bind keepsSocket_chains (spiRead_keepsSocket _ _ _) fun _ => Steps.pure keepsSocket_chains _

theorem spiReadTorn_keepsSocket (bsb a : Nat) : KeepsSocket (spiReadTorn bsb a) := by
  have hR := keepsSocket_chains
  refine Steps.bind hR (KeepsSocket.micro (Steps.bind hR (setCs_keepsSocket _) fun _ => ?_)) fun _ => ?_
  · exact Steps.bind hR (chipSelected_steps hR _ _) fun _ => chipByte_keepsSocket _ _
  · refine Steps.bind hR (KeepsSocket.micro (Steps.bind hR (chipByte_keepsSocket _ _) fun _ => ?_)) fun _ => Steps.pure hR _
    exact Steps.bind hR (setCs_keepsSocket _) fun _ => Steps.pure hR _

theorem spiRead16Stable_keepsSocket (bsb a : Nat) : KeepsSocket (spiRead16Stable bsb a) := by
  have hR := keepsSocket_chains
  refine Steps.config_bind fun c => ?_
  induction c.spiStableReadBound with
  | zero => exact Steps.pure hR _
  | succ n ih =>
    refine Steps.bind hR (spiReadTorn_keepsSocket _ _) fun x => Steps.bind hR (spiReadTorn_keepsSocket _ _) fun y => ?_
    exact Steps.ite (fun _ => Steps.pure hR _) fun _ => ih

theorem pollByte_keepsSocket (bsb a : Nat) (p : Byte → Bool) (n : Nat) : KeepsSocket (pollByte bsb a p n) := by
  have hR := keepsSocket_chains
  induction n with
  | zero => exact Steps.pure hR _
  | succ n ih => exact Steps.bind hR (spiReadByte_keepsSocket _ _) fun b => Steps.ite (fun _ => Steps.pure hR _) fun _ => ih

/-- The byte a one-byte read answers is the one the chip shows when the transaction begins (R231). -/
theorem spiReadByte_inv {bsb a : Nat} (hb : bsb < 32) {s t : State} {v : Byte} (h : spiReadByte bsb a s = .ok (v, t)) :
    ∃ u, chipByte bsb (chipAddress a 0) s.selected = .ok (v, u) := by
  unfold spiReadByte at h
  rw [spiRead_eq hb] at h
  obtain ⟨bs, w, h1, h2⟩ := bind_ok_inv h
  obtain ⟨x, h3, -⟩ := micro_inv h1
  unfold setCs at h3
  rw [modifySpi_bind_apply] at h3
  obtain ⟨out, y, h4, h5⟩ := bind_ok_inv h3
  unfold chipBytes at h4
  obtain ⟨b, z, h6, h7⟩ := bind_ok_inv h4
  obtain ⟨rest, z', h8, h9⟩ := bind_ok_inv h7
  cases h9
  rw [modifySpi_bind_apply] at h5
  cases h5
  cases h2
  exact ⟨z, h6⟩

/-- A poll of S_SR finds the value that stands there at once: no agent moves it (R245, R248, R262). -/
theorem awaitSocket_finds {P : Socket → Prop} {x : Byte}
    (hP : ∀ v, P v → v.cfg.chipPresent = true ∧ 1 ≤ v.cfg.sockPollBound ∧ v.status = x) :
    Ensures (HasSocket P) (awaitSocket x) fun ok s => ok = true ∧ HasSocket P s := by
  intro s ok t h hs
  have keep : HasSocket P t :=
    KeepsSocket.kept (m := awaitSocket x) (Steps.config_bind fun _ => pollByte_keepsSocket _ _ _ _) P s ok t h hs
  obtain ⟨present, bound, status⟩ := hP _ hs
  obtain ⟨n, hn⟩ : ∃ n, s.cfg.sockPollBound = n + 1 := ⟨s.cfg.sockPollBound - 1, (Nat.succ_pred_eq_of_pos bound).symm⟩
  unfold awaitSocket at h
  rw [config_bind_apply, hn] at h
  unfold pollByte at h
  obtain ⟨b, w, h1, h2⟩ := bind_ok_inv h
  obtain ⟨u, h3⟩ := spiReadByte_inv (by decide) h1
  have hv : b = x := by
    rw [chipByte_socket (s := s.selected) present] at h3
    cases h3
    exact status
  rw [branch_apply, if_pos (by simp [hv])] at h2
  cases h2
  exact ⟨rfl, keep⟩

/-! ## Writes (R232, R235) -/

/-- A write transaction does to the socket what its stores do. -/
theorem spiWrite_socketOf {P Q : Socket → Prop} {bsb a : Nat} (hb : bsb < 32) {bs : List Byte}
    (h : Ensures (HasSocket P) (chipStores bsb a bs) fun _ => HasSocket Q) : Ensures (HasSocket P) (spiWrite bsb a bs) fun _ => HasSocket Q := by
  rw [spiWrite_eq hb]
  refine Ensures.micro (Ensures.bind ((setCs_keepsSocket true).kept P).ensures fun _ => Ensures.bind h fun _ => ?_) fun _ =>
    boundary_keepsSocket.kept Q
  exact ((setCs_keepsSocket false).kept Q).ensures

/-- A write to socket registers other than S_CR, byte by byte. -/
theorem spiWrite_registers {P Q : Socket → Prop} {a : Nat} {bs : List Byte} (hp : ∀ v, P v → v.cfg.chipPresent = true)
    (ha : ∀ j, j < bs.length → chipAddress (a + j) 0 ≠ 0x0001)
    (h : ∀ (q : Chip) c f, P (q.socket c f) → Q ((q.storesSocket a bs).socket c f)) :
    Ensures (HasSocket P) (spiWrite 1 a bs) fun _ => HasSocket Q := by
  refine spiWrite_socketOf (by decide) fun s x t hm hs => ?_
  rw [chipStores_socket (hp _ hs) a bs ha] at hm
  cases hm
  exact h s.spi.chip s.cfg s.spi.faultSock hs

theorem storesCommon_socket {a : Nat} {bs : List Byte} (ha : ∀ j, j < bs.length → chipAddress (a + j) 0 ≠ 0x0000) (q : Chip) (c : Config)
    (f : Bool) : (q.storesCommon a bs).socket c f = q.socket c f := by
  induction bs generalizing q a with
  | nil => rfl
  | cons b bs ih =>
    have head : (q.storeCommon (chipAddress a 0) b).socket c f = q.socket c f := by
      have h0 := ha 0 (by simp)
      unfold Chip.storeCommon
      split
      · next heq => exact absurd heq h0
      all_goals rfl
    refine (ih (a := a + 1) (fun j hj => ?_) _).trans head
    rw [show a + 1 + j = a + (j + 1) by omega]
    exact ha (j + 1) (by simpa using hj)

/-- A write to common registers other than MR leaves the socket alone. -/
theorem spiWrite_common_kept {P : Socket → Prop} {a : Nat} {bs : List Byte} (hp : ∀ v, P v → v.cfg.chipPresent = true)
    (ha : ∀ j, j < bs.length → chipAddress (a + j) 0 ≠ 0x0000) : Kept (HasSocket P) (spiWrite 0 a bs) := by
  refine spiWrite_socketOf (by decide) fun s x t hm hs => ?_
  rw [chipStores_common (hp _ hs) a bs] at hm
  cases hm
  exact (congrArg P (storesCommon_socket ha s.spi.chip s.cfg s.spi.faultSock)).mpr hs

/-- A write into the transmit ring leaves the socket alone. -/
theorem spiWrite_ring_kept {P : Socket → Prop} (hp : ∀ v, P v → v.cfg.chipPresent = true) (a : Nat) (bs : List Byte) :
    Kept (HasSocket P) (spiWrite 2 a bs) := by
  refine spiWrite_socketOf (by decide) fun s x t hm hs => ?_
  rw [chipStores_tx (hp _ hs) a bs] at hm
  cases hm
  exact hs

/-- A socket command does to the socket what the chip's command does (R236, R263). -/
theorem sockCommand_socketOf {P Q : Socket → Prop} {v : Byte} (hp : ∀ v, P v → v.cfg.chipPresent = true)
    (h : Ensures (HasSocket P) (chipCommand v) fun _ => HasSocket Q) : Ensures (HasSocket P) (sockCommand v) fun _ => HasSocket Q := by
  refine Ensures.config_bind fun c => Ensures.bind ((spiWrite_socketOf (by decide) fun s x t hm hs => ?_).pre fun _ hs => hs.2) fun _ =>
    ((pollByte_keepsSocket _ _ _ _).kept Q).ensures
  unfold chipStores at hm
  obtain ⟨y, u, h1, h2⟩ := bind_ok_inv hm
  cases h2
  exact h s y _ ((chipStore_command (hp _ hs) v).symm.trans h1) hs

end Sys2Proof.Machine
end

section
/-! SUPPORT. The socket in a session of the SPI build (continued): each operation leaves it configured, open and committed. -/

namespace Sys2Proof.Machine

variable {α : Type} {c : Config} {f : Bool}

/-! ## Socket commands (R262 to R267) -/

section

variable (hp : c.chipPresent = true)

include hp

theorem socketIn_present : ∀ v, Socket.In c f v → v.cfg.chipPresent = true := fun _ h => h.cfg ▸ hp

theorem sockClose_configured : Kept (HasSocket (Socket.Configured c f)) (sockCommand 0x10) :=
  sockCommand_socketOf (fun v h => socketIn_present hp v h.toIn) (Ensures.modifies fun _ hs => { hs with })

/-- OPEN commits both pointers at 0 (R264). -/
theorem sockOpen_steady (hwf : c.wf = true) :
    Ensures (HasSocket (Socket.Configured c f)) (sockCommand 0x01) fun _ => HasSocket (Socket.Steady c f) := by
  have hb := spiBounds_of_wf hwf
  refine sockCommand_socketOf (fun v h => socketIn_present hp v h.toIn) fun s x t h hs => ?_
  have hm : s.spi.chip.sMr &&& 0x0F = 0x04 := (congrArg (· &&& 0x0F) hs.mode).trans (sMrValue_raw c)
  have hr : legalBufKb s.spi.chip.sRxbufSize.toNat = true := (congrArg legalBufKb hs.rxKb).trans hb.rxKb
  have ht : legalBufKb s.spi.chip.sTxbufSize.toNat = true := (congrArg legalBufKb hs.txKb).trans hb.txKb
  have run : chipCommand 0x01 s = .ok ((), s.withSpi { s.spi with chip := s.spi.chip.opened }) := by
    show chipOpen s = _
    unfold chipOpen
    rw [get_bind_apply, branch_apply, if_pos hm, branch_apply, if_pos (by simp [hr, ht])]
    rfl
  cases run.symm.trans h
  exact { hs with status := rfl, rxBytes := congrArg (· * 1024) hs.rxKb, txBytes := congrArg (· * 1024) hs.txKb, rd := rfl, wr := rfl }

/-- RECV commits the read pointer (R267). -/
theorem sockRecv_steady : Ensures (HasSocket (Socket.WrCommitted c f)) (sockCommand 0x40) fun _ => HasSocket (Socket.Steady c f) := by
  refine sockCommand_socketOf (fun v h => socketIn_present hp v h.toIn) fun s x t h hs => ?_
  have opened : s.spi.chip.sSr = srMacraw := hs.status
  have run : chipCommand 0x40 s = chipRecv s := rfl
  unfold chipRecv at run
  rw [get_bind_apply, branch_apply, if_pos opened, branch_apply] at run
  rw [run] at h
  split at h
  · cases h
    exact { hs with rd := rfl }
  · cases h

/-- SEND commits the write pointer (R266). -/
theorem sockSend_steady : Ensures (HasSocket (Socket.RdCommitted c f)) (sockCommand 0x20) fun _ => HasSocket (Socket.Steady c f) := by
  refine sockCommand_socketOf (fun v h => socketIn_present hp v h.toIn) fun s x t h hs => ?_
  have run : chipCommand 0x20 s = chipSend s := rfl
  unfold chipSend at run
  rw [get_bind_apply, branch_apply] at run
  rw [run] at h
  by_cases hw : s.spi.chip.sTxWr = s.spi.chip.txWrCommitted
  · rw [if_neg (fun hn => hn.2 hw)] at h
    cases h
    exact { hs with wr := hw }
  · rw [if_pos ⟨hs.status, hw⟩, branch_apply] at h
    split at h
    · cases h
      exact { hs with wr := rfl }
    · cases h

/-- The recovery reopens the socket, so it raises no fault (R262). -/
theorem recover_steady (hwf : c.wf = true) :
    Ensures (HasSocket (Socket.Configured c f)) recover fun _ => HasSocket (Socket.Steady c f) := by
  refine Ensures.bind (sockClose_configured hp).ensures fun _ => ?_
  refine Ensures.bind (KeepsSocket.kept (Steps.config_bind fun _ => pollByte_keepsSocket _ _ _ _) _).ensures fun _ => ?_
  refine Ensures.bind (sockOpen_steady hp hwf) fun _ => Ensures.bind (awaitSocket_finds fun v hv => ?_) fun ok => ?_
  · exact ⟨socketIn_present hp v hv.toIn, hv.cfg ▸ (spiBounds_of_wf hwf).sock, hv.status⟩
  · exact Ensures.ite (fun _ => Ensures.pure fun _ h => h.2) fun hn _ _ _ _ h => absurd h.1 hn

end

/-! ## Initialisation (R244 to R246) -/

/-- A write of one socket register. -/
theorem spiWrite_register {P Q : Socket → Prop} {a : Nat} {v : Byte} (hp : ∀ w, P w → w.cfg.chipPresent = true) (ha : a < 65536) (h1 : a ≠ 0x0001)
    (h : ∀ (q : Chip) c f, P (q.socket c f) → Q ((q.storeSocket a v).socket c f)) :
    Ensures (HasSocket P) (spiWrite 1 a [v]) fun _ => HasSocket Q := by
  have addr : chipAddress a 0 = a := by unfold chipAddress; omega
  refine spiWrite_registers hp (fun j hj => ?_) fun q c f hq => ?_
  · have : j = 0 := by simpa using hj
    rw [this, Nat.add_zero, addr]
    exact h1
  · show Q ((q.storeSocket (chipAddress a 0) v).socket c f)
    rw [addr]
    exact h q c f hq

theorem spiConfigure_configured (hp : c.chipPresent = true) (hwf : c.wf = true) (m : MacAddr) :
    Ensures (HasSocket (Socket.In c f)) (spiConfigure m) fun _ => HasSocket (Socket.Configured c f) := by
  have hb := spiBounds_of_wf hwf
  refine Ensures.config_bind fun c' => ?_
  by_cases hc : c' = c
  swap
  · exact fun s _ _ _ hs => absurd (hs.1.symm.trans hs.2.cfg) hc
  subst hc
  have station : Kept (HasSocket (Socket.In c' f)) (spiWriteStation m) :=
    spiWrite_common_kept (socketIn_present hp) fun j hj => by
      have : j < 6 := hj
      unfold chipAddress
      omega
  refine Ensures.bind (R := fun _ => HasSocket (Socket.In c' f)) (Ensures.modifies fun _ h => h.2) fun _ => Ensures.bind station.ensures fun _ => ?_
  refine Ensures.bind (R := fun _ => HasSocket fun v => Socket.In c' f v ∧ v.mode = sMrValue c') ?_ fun _ => ?_
  · exact spiWrite_register (socketIn_present hp) (by decide) (by decide) fun _ _ _ h => ⟨{ h with }, rfl⟩
  refine Ensures.bind (R := fun _ => HasSocket fun v => Socket.In c' f v ∧ v.mode = sMrValue c' ∧ v.rxKb.toNat = c'.rxbufKb) ?_ fun _ => ?_
  · exact spiWrite_register (fun v h => socketIn_present hp v h.1) (by decide) (by decide) fun _ _ _ h =>
      ⟨{ h.1 with }, h.2, kb_toNat hb.rxKb⟩
  refine Ensures.bind (R := fun _ => HasSocket (Socket.Configured c' f)) ?_ fun _ => ?_
  · exact spiWrite_register (fun v h => socketIn_present hp v h.1) (by decide) (by decide) fun _ _ _ h =>
      { h.1 with mode := h.2.1, rxKb := h.2.2, txKb := kb_toNat hb.txKb }
  have register : ∀ a v, (a = 0x002C ∨ a = 0x0002) → Kept (HasSocket (Socket.Configured c' f)) (spiWrite 1 a [v]) := fun a v ha => by
    rcases ha with rfl | rfl <;>
      exact spiWrite_register (fun v h => socketIn_present hp v h.toIn) (by decide) (by decide) fun _ _ _ h => { h with }
  refine Ensures.bind (register _ _ (.inl rfl)).ensures fun _ => Ensures.bind (register _ _ (.inr rfl)).ensures fun _ => ?_
  refine (spiWrite_common_kept (fun v h => socketIn_present hp v h.toIn) fun j hj => ?_).ensures
  have : j < 1 := hj
  unfold chipAddress
  omega

/-- Where INIT's bring-up answers true the socket is steady and `fault_sock` is clear (R244 to R246). -/
theorem spiBringUp_steady (hp : c.chipPresent = true) (hwf : c.wf = true) (m : MacAddr) :
    Ensures (HasSocket (Socket.In c f)) (spiBringUp m) fun ok s => ok = true → HasSocket (Socket.Steady c false) s := by
  have opened : Ensures (HasSocket (Socket.Configured c f)) spiOpenSocket fun _ => HasSocket (Socket.Steady c f) :=
    Ensures.bind (sockOpen_steady hp hwf) fun _ => (KeepsSocket.kept (Steps.config_bind fun _ => pollByte_keepsSocket _ _ _ _) _).ensures
  have values : Ensures (HasSocket (Socket.Steady c f)) spiSessionValues fun _ => HasSocket (Socket.Steady c false) := by
    have rxFlag : KeepsSocket (micro (modifySpi fun p => { p with rxPending := false })) := KeepsSocket.micro (Steps.modifies fun _ => rfl)
    have txFlag : KeepsSocket (micro (modifySpi fun p => { p with txDone := false })) := KeepsSocket.micro (Steps.modifies fun _ => rfl)
    refine Ensures.bind (rxFlag.kept _).ensures fun _ => Ensures.bind (txFlag.kept _).ensures fun _ => ?_
    exact Ensures.modifies fun _ h => { h with fault := rfl }
  refine Ensures.bind (spiConfigure_configured hp hwf m) fun _ => Ensures.bind opened fun ok => Ensures.ite (fun _ => ?_) fun _ => ?_
  · exact Ensures.bind values fun _ => Ensures.pure fun _ h _ => h
  · exact Ensures.pure fun _ _ hf => absurd hf (by simp)

/-! ## The data plane (R250 to R259) -/

section

variable (hp : c.chipPresent = true)

include hp

/-- The clear of a cause (R250, R259). -/
theorem spiClearCause_steady (v : Byte) : Kept (HasSocket (Socket.Steady c f)) (spiWrite 1 0x0002 [v]) :=
  spiWrite_register (fun w h => socketIn_present hp w h.toIn) (by decide) (by decide) fun _ _ _ h => { h with }

theorem spiAck_steady (rd p : Nat) : Kept (HasSocket (Socket.Steady c f)) (spiAck rd p) := by
  have move : ∀ v : U16, Ensures (HasSocket (Socket.Steady c f)) (spiWrite 1 0x0028 (putBe16 v)) fun _ => HasSocket (Socket.WrCommitted c f) :=
    fun v => spiWrite_registers (fun w h => socketIn_present hp w h.toIn) (fun j hj => by
      have : j < 2 := hj
      unfold chipAddress
      omega) fun _ _ _ h => { h with }
  exact Ensures.bind (move _) fun _ => Ensures.bind (sockRecv_steady hp) fun _ => Ensures.pure fun _ h => h

theorem spiGive_steady (bytes : List Byte) : Kept (HasSocket (Socket.Steady c f)) (spiGive bytes) := by
  have move : ∀ v : U16, Ensures (HasSocket (Socket.Steady c f)) (spiWrite 1 0x0024 (putBe16 v)) fun _ => HasSocket (Socket.RdCommitted c f) :=
    fun v => spiWrite_registers (fun w h => socketIn_present hp w h.toIn) (fun j hj => by
      have : j < 2 := hj
      unfold chipAddress
      omega) fun _ _ _ h => { h with }
  refine Ensures.bind ((spiRead16_keepsSocket _ _).kept _).ensures fun wr => ?_
  refine Ensures.bind (spiWrite_ring_kept (fun w h => socketIn_present hp w h.toIn) _ _).ensures fun _ => ?_
  exact Ensures.bind (move _) fun _ => Ensures.bind (sockSend_steady hp) fun _ => Ensures.pure fun _ h => h

omit hp in
theorem ibufRead_keepsSocket (a n : Nat) : KeepsSocket (ibufRead a n) := Steps.get_bind' fun _ => Steps.orFault keepsSocket_chains _ _

omit hp in
theorem spiPop_keepsSocket : KeepsSocket spiPop := by
  have hR := keepsSocket_chains
  refine Steps.get_bind' fun u => Steps.bind hR (ibufRead_keepsSocket _ _) fun p => Steps.bind hR (ibufRead_keepsSocket _ _) fun b => ?_
  refine Steps.bind hR (Steps.modifies fun _ => rfl) fun _ => Steps.bind hR (drawBy_keepsSocket _) fun ok => Steps.ite (fun _ => ?_) fun _ => ?_
  · exact Steps.bind hR (drawBy_keepsSocket _) fun _ => Steps.pure hR _
  · exact Steps.bind hR (Steps.modifies fun _ => rfl) fun _ => Steps.pure hR _

theorem spiRefill_steady (hwf : c.wf = true) : Kept (HasSocket (Socket.Steady c f)) spiRefill := by
  refine Steps.config_bind fun _ => Steps.bind Kept.chains ((spiRead16Stable_keepsSocket _ _).kept _) fun r => ?_
  split
  · exact Steps.pure Kept.chains _
  · exact Steps.pure Kept.chains _
  refine Steps.ite (fun _ => ?_) fun _ => ?_
  · refine Steps.bind Kept.chains (Steps.modifies fun _ h => h) fun _ => Steps.bind Kept.chains ?_ fun _ => Steps.pure Kept.chains _
    exact (recover_steady hp hwf).pre fun _ h => h.toConfigured
  · refine Steps.bind Kept.chains ((spiRead16_keepsSocket _ _).kept _) fun rd => ?_
    refine Steps.bind Kept.chains ((spiRead_keepsSocket _ _ _).kept _) fun bs => ?_
    exact Steps.bind Kept.chains (Steps.modifies fun _ h => h) fun _ => Steps.pure Kept.chains _

theorem spiScan_steady (hwf : c.wf = true) (r rd : Nat) : Kept (HasSocket (Socket.Steady c f)) (spiScan r rd) := by
  refine Steps.config_bind fun _ => Steps.bind Kept.chains ((ibufRead_keepsSocket _ _).kept _) fun b => ?_
  refine Steps.bind Kept.chains (Steps.modifies fun _ h => h) fun _ => Steps.ite (fun _ => ?_) fun _ => ?_
  · exact Steps.bind Kept.chains (Steps.modifies fun _ h => h) fun _ => (recover_steady hp hwf).pre fun _ h => h.toConfigured
  · exact Steps.ite (fun _ => spiAck_steady hp _ _) fun _ => Steps.pure Kept.chains _

theorem spiFetch_steady (hwf : c.wf = true) : Kept (HasSocket (Socket.Steady c f)) spiFetch := by
  refine Steps.bind Kept.chains (spiClearCause_steady hp _) fun _ => Steps.bind Kept.chains (spiRefill_steady hp hwf) fun r => ?_
  cases r with
  | none => exact Steps.pure Kept.chains _
  | some r =>
    refine Steps.bind Kept.chains (spiScan_steady hp hwf _ _) fun _ => Steps.get_bind' fun _ => ?_
    exact Steps.ite (fun _ => spiPop_keepsSocket.kept _) fun _ => Steps.pure Kept.chains _

theorem spiProcInput_steady (hwf : c.wf = true) : Kept (HasSocket (Socket.Steady c f)) spiProcInput := by
  refine Steps.get_bind' fun _ => Steps.ite (fun _ => spiPop_keepsSocket.kept _) fun _ => ?_
  refine Steps.bind Kept.chains (Steps.modifies fun _ h => h) fun _ => Steps.ite (fun _ => ?_) fun _ => spiFetch_steady hp hwf
  refine Steps.bind Kept.chains (KeepsSocket.kept (KeepsSocket.micro fun s a t h => ?_) _) fun p => ?_
  · cases h
    rfl
  · exact Steps.ite (fun _ => spiFetch_steady hp hwf) fun _ => Steps.pure Kept.chains _

omit hp in
theorem clearSpiTxDone_keepsSocket : KeepsSocket clearSpiTxDone := by
  refine Steps.bind keepsSocket_chains (KeepsSocket.micro fun s a t h => ?_) fun _ => Steps.pure keepsSocket_chains _
  cases h
  rfl

omit hp in
theorem spiAwaitRoom_keepsSocket (len n : Nat) : KeepsSocket (spiAwaitRoom len n) := by
  have hR := keepsSocket_chains
  induction n with
  | zero => exact Steps.pure hR _
  | succ n ih =>
    refine Steps.config_bind fun _ => Steps.bind hR (spiRead16Stable_keepsSocket _ _) fun v => Steps.ite (fun _ => Steps.pure hR _) fun _ => ?_
    exact Steps.bind hR (Steps.onlyIf hR fun _ => clearSpiTxDone_keepsSocket) fun _ => ih

theorem spiOutput_steady (bytes : List Byte) : Kept (HasSocket (Socket.Steady c f)) (spiOutput bytes) := by
  refine Steps.config_bind fun _ => Steps.bind Kept.chains (Steps.onlyIf Kept.chains fun _ => ?_) fun _ => ?_
  · exact Steps.bind Kept.chains (clearSpiTxDone_keepsSocket.kept _) fun _ => spiClearCause_steady hp _
  refine Steps.bind Kept.chains ((spiAwaitRoom_keepsSocket _ _).kept _) fun room => Steps.ite (fun _ => ?_) fun _ => ?_
  · exact Steps.bind Kept.chains (spiGive_steady hp _) fun _ => Steps.pure Kept.chains _
  · exact Steps.bind Kept.chains (Steps.modifies fun _ h => h) fun _ => Steps.pure Kept.chains _

end

end Sys2Proof.Machine
end

section
/-! SUPPORT. The socket follows the session (R152, R234, R240 to R246): the probe finds no absent chip, INIT opens the socket, and in a
session every step leaves it open and committed. -/

namespace Sys2Proof.Machine

variable {α : Type} {c : Config}

/-! ## An absent chip (R234, R242) -/

/-- Every byte read from an absent chip is the floating bus (R234). -/
theorem chipBytes_absent {s : State} (h : s.cfg.chipPresent = false) (bsb a n : Nat) :
    chipBytes bsb a n s = .ok (List.replicate n s.cfg.floatByte, s) := by
  have byte : ∀ k, chipByte bsb k s = .ok (s.cfg.floatByte, s) := by
    intro k
    unfold chipByte
    rw [get_bind_apply, branch_apply, if_neg (by simp [h])]
    rfl
  induction n generalizing a with
  | zero => rfl
  | succ n ih =>
    unfold chipBytes
    rw [bind_ok (byte _), bind_ok (ih _)]
    rfl

/-- The word a two-byte read of the floating bus gives. -/
def floatWord (c : Config) : Nat := be16 [c.floatByte, c.floatByte] 0

theorem spiRead16_absent {s t : State} {a v : Nat} (hp : s.cfg.chipPresent = false) (h : spiRead16 0 a s = .ok (v, t)) :
    v = floatWord s.cfg := by
  unfold spiRead16 at h
  rw [spiRead_eq (by decide)] at h
  obtain ⟨bs, u, h1, h2⟩ := bind_ok_inv h
  obtain ⟨w, h3, -⟩ := micro_inv h1
  unfold setCs at h3
  rw [modifySpi_bind_apply] at h3
  have bytes := chipBytes_absent (s := s.selected) hp 0 a 2
  rw [bind_ok bytes, modifySpi_bind_apply] at h3
  cases h3
  cases h2
  rfl

theorem cfg_of_on {l : List Kind} {m : M α} (h : Steps (On .spi l) m) : Kept (In .spi fun s => s.cfg = c) m :=
  Kept.of_on (fun _ _ _ _ ha hs => ha.cfg.trans hs) h

/-- A pattern comes back from an absent chip only if it is the floating word (R242). -/
theorem spiScratch_absent (hp : c.chipPresent = false) (p : U16) :
    Ensures (In .spi fun s => s.cfg = c) (spiScratch p) fun ok s => In .spi (fun s => s.cfg = c) s ∧ (ok = true → p.toNat = floatWord c) := by
  refine Ensures.bind (cfg_of_on (spiWrite_steps _ _ _)).ensures fun _ s ok t h hs => ?_
  obtain ⟨r, u, h1, h2⟩ := bind_ok_inv h
  have hu := cfg_of_on (spiRead16_steps _ _) _ _ _ h1 hs
  cases h2
  refine ⟨hu, fun hok => ?_⟩
  have hr := spiRead16_absent (hs.2 ▸ hp) h1
  rw [hs.2] at hr
  rw [← eq_of_beq hok, hr]

/-- Only a present chip passes the self-test: the patterns differ (R242). -/
theorem spiSelfTest_present (hwf : c.wf = true) :
    Ensures (In .spi fun s => s.cfg = c) spiSelfTest fun ok _ => ok = true → c.chipPresent = true := by
  cases hp : c.chipPresent with
  | true => exact fun _ _ _ _ _ _ => rfl
  | false =>
    refine Ensures.config_bind fun c' => ?_
    by_cases hc : c' = c
    swap
    · exact fun s _ _ _ hs => absurd (hs.1.symm.trans hs.2.2) hc
    subst hc
    refine Ensures.bind ((spiScratch_absent hp _).pre fun _ hs => hs.2) fun ok => Ensures.ite (fun hok => ?_) fun _ => ?_
    · intro s ok' t h hs hok'
      have second := (spiScratch_absent hp _ s ok' t h hs.1).2 hok'
      exact absurd (BitVec.eq_of_toNat_eq ((hs.2 hok).trans second.symm)) (spiBounds_of_wf hwf).patterns
    · exact Ensures.pure fun _ _ h => absurd h (by simp)

theorem spiProbeSteps_present (hwf : c.wf = true) :
    Ensures (In .spi fun s => s.cfg = c) spiProbeSteps fun ok _ => ok = true → c.chipPresent = true := by
  have never : ∀ {P : State → Prop}, Ensures P (pure false : M Bool) fun ok _ => ok = true → c.chipPresent = true :=
    Ensures.pure fun _ _ h => absurd h (by simp)
  have reset : Steps (On .spi busKinds) spiReset :=
    Steps.config_bind fun _ => Steps.bind (On.chains _ _) (spiWrite_steps _ _ _) fun _ => pollByte_steps _ _ _ _
  refine Ensures.bind (cfg_of_on (micro_on (by decide) (setCs_steps false))).ensures fun _ => ?_
  refine Ensures.bind (cfg_of_on reset).ensures fun r => Ensures.ite (fun _ => ?_) fun _ => never
  exact Ensures.bind (spiSelfTest_present hwf) fun t => Ensures.ite (fun ht _ _ _ _ hs _ => hs ht) fun _ => never

/-! ## The probe's outcome -/

/-- Past the probe and outside a session, a chip is there (R152). -/
structure ChipFound (s : State) : Prop where
  wf : s.cfg.wf = true
  present : s.cfg.chipPresent = true
  phase : s.initState = .hasHardware ∨ s.initState = .phyInitialized

/-- After a probe: nothing found, or a chip. -/
structure SpiProbed (s : State) : Prop where
  wf : s.cfg.wf = true
  outcome : s.initState = .noHardware ∨ ChipFound s

/-- SocketInv of the SPI build with legal parameters. -/
structure SocketKept (s : State) : Prop where
  wf : s.cfg.wf = true
  present : 2 ≤ s.initState.code → s.cfg.chipPresent = true
  session : s.initState = .initialized → HasSocket (Socket.Steady s.cfg false) s

theorem socketInv_iff {s : State} (hb : s.cfg.backend = .spi) (hwf : s.cfg.wf = true) : SocketInv s ↔ SocketKept s := by
  constructor
  · refine fun h => ⟨hwf, h.present hb, fun hi => ?_⟩
    obtain ⟨hopen, hfault, hmode, hrx, htx, hrd, hwr, hrxBytes, htxBytes⟩ := h.session ⟨hb, hi⟩
    exact
      { cfg := rfl, fault := hfault, mode := hmode, rxKb := hrx, txKb := htx, status := hopen, rxBytes := hrxBytes, txBytes := htxBytes
        rd := hrd, wr := hwr }
  · refine fun h => ⟨fun _ => h.present, fun hs => ?_⟩
    have k := h.session hs.2
    exact ⟨k.status, k.fault, k.mode, k.rxKb, k.txKb, k.rd, k.wr, k.rxBytes, k.txBytes⟩

theorem SpiProbed.kept {s : State} (h : SpiProbed s) : SocketKept s := by
  refine ⟨h.wf, fun hc => ?_, fun hi => ?_⟩ <;> rcases h.outcome with hn | hf
  · rw [hn] at hc
    exact absurd hc (by decide)
  · exact hf.present
  · rw [hn] at hi
    cases hi
  · rcases hf.phase with hp | hp <;> rw [hp] at hi <;> cases hi

/-- The SPI probe ends in NoHardware or with a chip that is there (R240 to R243). -/
theorem spiProbe_probed : Ensures (In .spi fun s => s.cfg.wf = true) spiProbe fun _ => In .spi SpiProbed := by
  intro s a t h hs
  have hcfg : In .spi (fun u => u.cfg = s.cfg) t := cfg_of_on spiProbe_steps s a t h ⟨hs.1, rfl⟩
  obtain ⟨ok, u, h1, h2⟩ := bind_ok_inv h
  have hfound := spiProbeSteps_present hs.2 s ok u h1 ⟨hs.1, rfl⟩
  refine ⟨hcfg.1, hcfg.2 ▸ hs.2, ?_⟩
  rw [branch_apply] at h2
  split at h2
  · next hok =>
    cases h2
    exact .inr ⟨hcfg.2 ▸ hs.2, hcfg.2 ▸ hfound hok, .inr rfl⟩
  · cases h2
    exact .inl rfl

/-! ## HAS_HARDWARE and INIT -/

theorem Ensures.onSpi {P : State → Prop} {Q : α → State → Prop} {x y : M α} (hy : Ensures (In .spi P) y Q) :
    Ensures (In .spi P) (Machine.byBackend x y) Q := fun s a t h hs => hy s a t ((byBackend_spi hs.1).symm.trans h) hs

/-- Past Start and outside a session SocketKept says what the probe has found. -/
theorem SocketKept.probed {s : State} (h : SocketKept s) (h0 : s.initState ≠ .start) (h1 : s.initState ≠ .initialized) : SpiProbed s := by
  refine ⟨h.wf, ?_⟩
  cases hi : s.initState with
  | start => exact absurd hi h0
  | noHardware => exact .inl rfl
  | hasHardware => exact .inr ⟨h.wf, h.present (by rw [hi]; decide), .inl hi⟩
  | phyInitialized => exact .inr ⟨h.wf, h.present (by rw [hi]; decide), .inr hi⟩
  | initialized => exact absurd hi h1

/-- HAS_HARDWARE's and INIT's look at init_state (R151). -/
theorem startProbe_probed {u : State} (h : In .spi SocketKept u) :
    Ensures (fun s => s = u) (onlyIf (u.initState = .start) probe) fun _ s => In .spi SocketKept s ∧
      (u.initState ≠ .initialized → In .spi SpiProbed s) := by
  refine Ensures.ite (fun _ => ?_) fun hp => Ensures.pure fun s hs => ?_
  · refine Ensures.mono (Ensures.onSpi spiProbe_probed) (fun s hs => ?_) fun _ s hs => ⟨⟨hs.1, hs.2.kept⟩, fun _ => hs⟩
    exact hs ▸ ⟨h.1, h.2.wf⟩
  · subst hs
    exact ⟨h, fun hi => ⟨h.1, h.2.probed hp hi⟩⟩

theorem hasHardware_socketKept : Kept (In .spi SocketKept) hasHardware :=
  Ensures.get_bind fun _ hu => Ensures.bind (startProbe_probed hu) fun _ => Ensures.get_bind fun _ hv => Ensures.pure fun _ hs => hs ▸ hv.1

/-- What a session of the SPI build starts with. -/
structure SocketUp (s : State) : Prop where
  wf : s.cfg.wf = true
  present : s.cfg.chipPresent = true
  steady : HasSocket (Socket.Steady s.cfg false) s

/-- What INIT's part of the SPI build leaves, by its answer. -/
def AfterSpiInit (ok : Bool) (s : State) : Prop := if ok then SocketUp s else SpiProbed s

theorem spiBringUp_outcome (m : MacAddr) : Ensures (In .spi ChipFound) (spiBringUp m) fun ok => In .spi (AfterSpiInit ok) := by
  intro s ok t h hs
  have hc : t.cfg = s.cfg := (spiBringUp_steps m s ok t h hs.1).cfg
  have phase : t.initState = s.initState := (phaseAt_of_on (x := s.initState) (by decide) (spiBringUp_steps m) s ok t h ⟨hs.1, rfl⟩).2
  have steady := spiBringUp_steady (c := s.cfg) (f := s.spi.faultSock) hs.2.present hs.2.wf m s ok t h ⟨rfl, rfl⟩
  have hwf : t.cfg.wf = true := hc ▸ hs.2.wf
  have present : t.cfg.chipPresent = true := hc ▸ hs.2.present
  refine ⟨hc ▸ hs.1, ?_⟩
  cases ok with
  | true => exact ⟨hwf, present, hc ▸ steady rfl⟩
  | false => exact ⟨hwf, .inr ⟨hwf, present, phase ▸ hs.2.phase⟩⟩

theorem spiInit_outcome (m : MacAddr) : Ensures (In .spi ChipFound) (spiInit m) fun ok => In .spi (AfterSpiInit ok) := by
  refine Ensures.get_keep fun _ _ => Ensures.ite (fun _ => ?_) fun _ => spiBringUp_outcome m
  refine Ensures.bind (spiProbe_probed.pre fun _ hs => ⟨hs.1, hs.2.wf⟩) fun _ => ?_
  refine Ensures.get_bind fun u hu => Ensures.ite (fun _ => Ensures.pure fun s hs => hs ▸ hu) fun hn => ?_
  exact (spiBringUp_outcome m).pre fun s hs => hs ▸ ⟨hu.1, hu.2.outcome.resolve_left hn⟩

theorem initialiseProbed_socketKept (m : MacAddr) : Ensures (In .spi SpiProbed) (initialiseProbed m) fun _ => In .spi SocketKept := by
  refine Ensures.get_bind fun u hu => Ensures.ite (fun _ => Ensures.pure fun s hs => hs ▸ ⟨hu.1, hu.2.kept⟩) fun hn => ?_
  have found : In .spi ChipFound u := ⟨hu.1, hu.2.outcome.resolve_left hn⟩
  refine Ensures.bind ((Ensures.onSpi (spiInit_outcome m)).pre fun s hs => hs ▸ found) fun ok => ?_
  cases ok with
  | true =>
    refine Ensures.bind (R := fun _ => In .spi SocketKept) (Ensures.modifies fun s hs => ?_) fun _ => Ensures.pure fun _ h => h
    have up : SocketUp s := hs.2
    exact ⟨hs.1, up.wf, fun _ => up.present, fun _ => up.steady⟩
  | false => exact Ensures.pure fun s hs => ⟨hs.1, SpiProbed.kept hs.2⟩

theorem initialise_socketKept (m : MacAddr) : Kept (In .spi SocketKept) (initialise m) := by
  refine Ensures.get_bind (Q := fun _ => In .spi SocketKept) fun u hu => Ensures.ite (fun _ => Ensures.pure fun s hs => hs ▸ hu) fun hi => ?_
  exact Ensures.bind ((startProbe_probed hu).mono (fun _ h => h) fun _ s hs => hs.2 hi) fun _ => initialiseProbed_socketKept m

/-- DEINIT ends the session and stays past the probe (R156). -/
theorem exec_deinit_socketKept {s t : State} (h : exec .deinit s = .next t) (hs : In .spi SocketKept s) : In .spi SocketKept t := by
  have hc : t.cfg = s.cfg := by
    obtain ⟨u, hu, rfl | ⟨r, rfl⟩⟩ := exec_chain h <;> exact hu.cfg
  have back := exec_deinit_initState h
  refine ⟨hc ▸ hs.1, hc ▸ hs.2.wf, fun hcode => ?_, fun hi => ?_⟩
  · rw [hc]
    refine hs.2.present ?_
    rw [back] at hcode
    cases hi : s.initState <;> simp_all [InitState.code]
  · rw [back] at hi
    cases hj : s.initState <;> simp_all

/-! ## Inside a session -/

theorem socketKept_portFree : PortFree (In .spi SocketKept) := ⟨fun _ _ _ h => ⟨h.1, { h.2 with }⟩, fun _ _ h => ⟨h.1, { h.2 with }⟩⟩

/-- With the parameters and init_state as they were, only a session's socket is in question. -/
theorem SocketKept.of_session {s t : State} (h : In .spi SocketKept s) (hc : t.cfg = s.cfg) (hp : t.initState = s.initState)
    (hk : s.cfg.chipPresent = true → HasSocket (Socket.Steady s.cfg false) s → HasSocket (Socket.Steady s.cfg false) t) :
    In .spi SocketKept t := by
  refine ⟨hc ▸ h.1, hc ▸ h.2.wf, fun hi => hc ▸ h.2.present (hp ▸ hi), fun hi => hc ▸ hk (h.2.present ?_) (h.2.session (hp ▸ hi))⟩
  rw [← hp, hi]
  decide

/-- A change that moves neither the socket nor init_state. -/
theorem Atom.socketKept {k : Kind} (hk : k ∉ socketKinds ++ phaseKinds) {s t : State} (h : Atom k s t) (hs : In .spi SocketKept s) :
    In .spi SocketKept t := by
  simp only [List.mem_append, not_or] at hk
  exact SocketKept.of_session hs h.cfg (h.phase hk.2) fun _ hv =>
    show Socket.Steady s.cfg false t.socket from (h.socket hk.1).symm ▸ hv

/-- An operation that keeps init_state and the steady socket keeps the invariant. -/
theorem socketKept_of_steady {l : List Kind} (hl : ∀ k ∈ l, k ∉ phaseKinds) {m : M α} (hm : Steps (Chain l) m)
    (hk : ∀ c : Config, c.wf = true → c.chipPresent = true → Kept (HasSocket (Socket.Steady c false)) m) :
    Kept (In .spi SocketKept) m := fun s a t h hs =>
  have hc := hm s a t h
  have phase : t.initState = s.initState := hc.lift (Chains.same State.initState) fun k _ _ hk _ ha => ha.phase (hl k hk)
  SocketKept.of_session hs hc.cfg phase fun hp => hk s.cfg hs.2.wf hp s a t h

/-- The DMA build's operations touch no chip (R1). -/
theorem socket_of_dma {P : Socket → Prop} {l : List Kind} (hl : ∀ k ∈ l, k ∉ socketKinds) {m : M α} (h : Steps (On .dma l) m) :
    Kept (In .dma (HasSocket P)) m :=
  Kept.of_on (fun k hk _ _ ha hs => show P _ from (ha.socket (hl k hk)).symm ▸ hs) h

theorem kept_spi {P : State → Prop} {l : List Kind} {m : M α} (hb : Steps (On .spi l) m) (h : Kept P m) : Kept (In .spi P) m :=
  fun s a t hm hs => ⟨(kept_build hb s a t hm ⟨hs.1, trivial⟩).1, h s a t hm hs.2⟩

section

variable (hp : c.chipPresent = true)

include hp

theorem procInput_steady (hwf : c.wf = true) (k : Nat) : Kept (HasSocket (Socket.Steady c false)) (procInput k) :=
  procInput_kept (fun _ h => h) (socket_of_dma (by decide) dmaProcInput_steps) (kept_spi spiProcInput_steps (spiProcInput_steady hp hwf)) k

theorem outputOp_steady (bytes : List Byte) : Kept (HasSocket (Socket.Steady c false)) (outputOp bytes) := by
  refine Steps.get_bind' fun _ => Steps.ite (fun _ => ?_) fun _ => ?_
  · exact Steps.bind Kept.chains (Steps.modifies fun _ h => h) fun _ => Steps.pure Kept.chains _
  · exact Kept.byBackend (socket_of_dma (by decide) (dmaOutput_steps bytes)) (kept_spi (spiOutput_steps bytes) (spiOutput_steady hp bytes))

theorem setMac_steady (m : MacAddr) : Kept (HasSocket (Socket.Steady c false)) (setMac m) := by
  have station : Kept (HasSocket (Socket.Steady c false)) (spiWriteStation m) :=
    spiWrite_common_kept (fun v h => socketIn_present hp v h.toIn) fun j hj => by
      have : j < 6 := hj
      unfold chipAddress
      omega
  refine Steps.bind Kept.chains (Steps.modifies fun _ h => h) fun _ => Steps.get_bind' fun _ => Steps.ite (fun _ => ?_) fun _ =>
    Steps.pure Kept.chains _
  exact Kept.byBackend (socket_of_dma (by decide) (dmaWriteStation_steps m)) (kept_spi (spiWrite_steps _ _ _) station)

end

/-- POLL only reads the chip (R305). -/
theorem pollOp_steady : Kept (HasSocket (Socket.Steady c false)) pollOp := by
  have hR := Kept.chains (P := HasSocket (Socket.Steady c false))
  have poll : KeepsSocket spiPoll := by
    refine Steps.bind keepsSocket_chains (spiReadByte_keepsSocket _ _) fun v => ?_
    refine Steps.bind keepsSocket_chains (Steps.onlyIf keepsSocket_chains fun _ => Steps.modifies fun _ => rfl) fun _ => ?_
    exact keepsSocket_of_chain (of_decide_eq_true rfl) (evaluate_steps _)
  exact gated_steps hR (thenOk_steps hR (Kept.byBackend (socket_of_dma (by decide) dmaPoll_steps) (kept_spi spiPoll_steps (poll.kept _))))

/-! ## Every instruction -/

theorem exec_socketKept {i : Instr} {s t : State} (h : exec i s = .next t) (hs : In .spi SocketKept s) : In .spi SocketKept t := by
  have hp := socketKept_portFree
  have hR := Kept.chains (P := In .spi SocketKept)
  have kinds : (∀ k ∈ instrKinds i, k ∉ socketKinds ++ phaseKinds) → In .spi SocketKept t := fun hk =>
    hp.exec_of_kinds (fun k hk' _ _ ha => ha.socketKept (hk k hk')) h hs
  have input : ∀ k, Kept (In .spi SocketKept) (procInput k) := fun k =>
    socketKept_of_steady (of_decide_eq_true rfl) (procInput_steps k) fun _ hwf hpres => procInput_steady hpres hwf k
  have give : ∀ b, Kept (In .spi SocketKept) (outputOp b) := fun b =>
    socketKept_of_steady (of_decide_eq_true rfl) (outputOp_steps b) fun _ _ hpres => outputOp_steady hpres b
  have output : ∀ {β : Type} (b : List Byte) (f : Status → β), Kept (In .spi SocketKept) (do return f (← outputOp b)) := fun b _ =>
    Steps.bind hR (give b) fun _ => Steps.pure hR _
  have poll : Kept (In .spi SocketKept) pollOp := socketKept_of_steady (of_decide_eq_true rfl) pollOp_steps fun _ _ _ => pollOp_steady
  cases i with
  | procInput k => exact hp.command (Steps.bind hR (input _) fun _ => Steps.pure hR _) h hs
  | pipeProcInput =>
    exact hp.command (pipeProcInput_kept input (fun _ _ h => ⟨h.1, { h.2 with }⟩) fun _ _ _ h => ⟨h.1, { h.2 with }⟩) h hs
  | output b => exact hp.command (output b _) h hs
  | outputFrame b => exact hp.command (output b _) h hs
  | pipeTxChain b =>
    refine hp.command (Steps.bind hR (Steps.config_bind fun c => Steps.ite (fun _ => ?_) fun _ => give _) fun _ => Steps.pure hR _) h hs
    exact Steps.bind hR (Steps.modifies fun _ h => h) fun _ => Steps.pure hR _
  | pipeTxRaw b =>
    exact hp.command (Steps.bind hR (Steps.config_bind fun c => Steps.ite (fun _ => output b _) fun _ => Steps.pure hR _) fun _ =>
      Steps.pure hR _) h hs
  | setMac m =>
    exact hp.command (thenOk_steps hR (socketKept_of_steady (of_decide_eq_true rfl) (setMac_steps m) fun _ _ hpres =>
      setMac_steady hpres m)) h hs
  | poll => exact hp.command poll h hs
  | pipePollLink => exact hp.command poll h hs
  | hasHardware => exact hp.command (Steps.bind hR hasHardware_socketKept fun _ => Steps.pure hR _) h hs
  | init m => exact hp.command (Steps.bind hR (initialise_socketKept m) fun _ => Steps.pure hR _) h hs
  | pipeInit m =>
    refine hp.command (Steps.bind hR (Steps.bind hR hasHardware_socketKept fun ok => ?_) fun _ => Steps.pure hR _) h hs
    exact Steps.ite (fun _ => initialise_socketKept m) fun _ => Steps.pure hR _
  | deinit => exact exec_deinit_socketKept h hs
  | _ => exact kinds (of_decide_eq_true rfl)

/-- Settles O16: the probe lets no absent chip pass, INIT opens the socket, no agent moves what the invariant names, and each operation of a
session commits the pointer it moves. -/
theorem socketOpenInSession : Obligations.SocketOpenInSession := by
  intro s t hwf hs h
  have hc := (oneBackend s t h).1
  cases hb : s.cfg.backend with
  | dma =>
    have hne : t.cfg.backend ≠ .spi := by simp [hc, hb]
    exact ⟨fun hd => absurd hd hne, fun hd => absurd hd.1 hne⟩
  | spi =>
    have agents : ∀ k ∈ agentKinds, k ∉ socketKinds ++ phaseKinds := of_decide_eq_true rfl
    have kept := socketKept_portFree.step (fun k hk _ _ ha => ha.socketKept (agents k hk)) (fun _ _ _ => exec_socketKept) h
      ⟨hb, (socketInv_iff hb hwf).mp hs⟩
    exact (socketInv_iff kept.1 kept.2.wf).mpr kept.2

end Sys2Proof.Machine
end

section
/-! SUPPORT. The scanner on whole records followed by a partial one, and the input operations on an SPI session that has records (R250 to
R258, R281, R282). -/

namespace Sys2Proof.Machine

/-! ## The scanner (R253, R254, R257) -/

/-- The scanner stops at a record that has not arrived whole (R254, R257). -/
theorem scanFrom_partial {minLen : Nat} {tail : List Byte} (h : partialRecord minLen tail) (done : List Byte) (fuel : Nat) :
    scanFrom minLen (done ++ tail) (fuel + 1) done.length = (done.length, false) := by
  have hlen : be16 (done ++ tail) done.length = be16 tail 0 := by rw [← be16_drop, List.drop_left]
  rw [scanFrom, hlen]
  rcases h with hshort | ⟨hmin, hmore⟩
  · rw [if_pos (by simp; omega)]
  · split
    · rfl
    · rw [if_neg (by omega), if_pos (by simp; omega)]

/-- Where the scanner stops at `tail` whatever came before it, the whole records are what it passes. -/
theorem scanRecords_stop {minLen : Nat} {rs : List (List Byte)} {tail : List Byte} {f : Bool} (hrs : ∀ r ∈ rs, validRecord minLen r)
    (h : ∀ (done : List Byte) fuel, scanFrom minLen (done ++ tail) (fuel + 1) done.length = (done.length, f)) :
    scanRecords minLen (rs.flatten ++ tail) = (rs.flatten.length, f) := by
  obtain ⟨k, hk⟩ : ∃ k, (rs.flatten ++ tail).length + 1 = rs.length + (k + 1) := by
    have := records_length hrs
    exact ⟨(rs.flatten ++ tail).length - rs.length, by rw [List.length_append]; omega⟩
  have pass := scanFrom_through hrs [] tail (k + 1)
  rw [List.nil_append, List.length_nil, Nat.zero_add] at pass
  unfold scanRecords
  rw [hk]
  exact pass.trans (h rs.flatten k)

/-- Settles O46: the scanner passes the whole records and stops at the tail, for the tail's own reason. -/
theorem scannerFindsWholeRecords : Obligations.ScannerFindsWholeRecords := fun _ _ _ _ hrs =>
  ⟨fun h => scanRecords_stop hrs (scanFrom_partial h), fun h => scanRecords_corrupt hrs h⟩

/-! ## A refill that ends in a partial record -/

/-- The state after a pass that popped the first of the records at the front of the local buffer `u` has, or found none (R250, R258). -/
def State.popsFirst (u : State) : List (List Byte) → State
  | [] => { u with resBuf := [0x01] }
  | r :: _ => State.delivers { u with spi := { u.spi with ibufStart := r.length } } (r.drop 2)

/-- After a pass that left the whole records `rs` at the front of the local buffer, the first of them, if there is one, is popped
(R250, R258). -/
theorem exec_procInput_records {s u : State} {c : U16} {rs : List (List Byte)} {tail : List Byte}
    (hrs : ∀ r ∈ rs, validRecord s.cfg.recMinLen r)
    (pass : procInput c.toNat s = if 0 < rs.flatten.length then spiPop u else .ok (.nothing, u)) (hstart : u.spi.ibufStart = 0)
    (hsize : u.spi.ibufSize = rs.flatten.length)
    (hbuf : Memory.readBytes u.spi.ibuf 0 (rs.flatten ++ tail).length = some (rs.flatten ++ tail)) :
    exec (.procInput c) s = .next (u.popsFirst rs) := by
  cases rs with
  | nil => exact runCommand_bind (pass.trans (if_neg (by simp)))
  | cons r rs =>
    obtain ⟨h2, hword, -⟩ := hrs r (by simp)
    have hlen : r.length ≤ (r :: rs).flatten.length := by rw [List.flatten_cons, List.length_append]; omega
    have first : Memory.readBytes u.spi.ibuf u.spi.ibufStart r.length = some r := by
      rw [hstart]
      rw [List.flatten_cons, List.append_assoc, List.length_append] at hbuf
      simpa using (Memory.readBytes_split hbuf).1
    refine (exec_procInput_pop (pass.trans (if_pos (by omega))) h2 hword (by omega) first).trans ?_
    simp only [State.popsFirst, hstart, Nat.zero_add]

section

variable {s : State} {b : List Byte} (h : StillSpi s) (hbd : SpiBounds s.cfg) (hd : s.SpiSession) (hinv : SocketInv s)
  (hring : s.spi.chip.RingInv)

include h hbd hd hinv hring

/-- The whole records of the refill are kept and acknowledged, the rest stays announced (R254, R255, R257). -/
theorem spiScan_fetched {p rest : Nat} (hb : b.length = p + rest) (hrsr : s.spi.chip.sRxRsr.toNat = b.length)
    (hscan : scanRecords s.cfg.recMinLen b = (p, false)) :
    spiScan b.length s.spi.chip.sRxRd.toNat (s.refilled b) = .ok ((), s.withSpi (s.spi.fetched s.cfg b p rest)) := by
  obtain ⟨hopen, -, -, -, -, hcom, -⟩ := hinv.session hd
  have still : StillSpi (s.refilled b) := h.of rfl rfl rfl rfl
  have announced : ptrDiff s.spi.chip.sRxWr s.spi.chip.sRxRd = p + rest := by rw [hcom, ← hring.rsr, hrsr, hb]
  have left : ptrDiff s.spi.chip.sRxWr (s.spi.chip.sRxRd + BitVec.ofNat 16 p) = rest := by
    have hlt := ptrDiff_lt s.spi.chip.sRxWr s.spi.chip.sRxRd
    have moved := ptrDiff_advance s.spi.chip.sRxRd (n := p) (by omega)
    rw [ptrDiff_from (r := s.spi.chip.sRxRd) (by omega), moved, announced, Nat.add_sub_cancel_left]
  have hw : s.spi.chip.sRxRsr = BitVec.ofNat 16 (ptrDiff s.spi.chip.sRxWr s.spi.chip.sRxRd) := by
    rw [announced, ← hb, ← hrsr, BitVec.ofNat_toNat, BitVec.setWidth_eq]
  have bytes : Memory.readBytes (s.refilled b).spi.ibuf 0 b.length = some b := Memory.readBytes_writeBytes_any _ 0 b
  refine (spiScan_whole (s := s.refilled b) still hbd.sock hopen hcom.symm rfl le_rfl bytes hscan (p := p) ?_ hw).trans ?_
  · exact (show p ≤ b.length by omega).trans hrsr.ge
  · show Except.ok ((), s.withSpi { (s.refilled b).spi with
      csActive := false, ibufSize := p
      chip := { (s.refilled b).spi.chip with
        sRxRd := s.spi.chip.sRxRd + BitVec.ofNat 16 p, rxRdCommitted := s.spi.chip.sRxRd + BitVec.ofNat 16 p
        sRxRsr := BitVec.ofNat 16 (ptrDiff s.spi.chip.sRxWr (s.spi.chip.sRxRd + BitVec.ofNat 16 p)) } }) = _
    rw [left]
    rfl

omit hring in
/-- Nothing announced: the pass only clears the flag and the cause (R252). -/
theorem spiFetch_empty (hrsr : s.spi.chip.sRxRsr.toNat = 0) :
    spiFetch s.asking = .ok (.nothing, s.withSpi (s.spi.fetched s.cfg [] 0 0)) := by
  obtain ⟨-, -, -, -, -, hcom, -⟩ := hinv.session hd
  have still : StillSpi s.asking := h.of rfl rfl rfl rfl
  have cleared : StillSpi (s.asking.withChip { s.asking.spi.chip with sIr := w1c8 s.asking.spi.chip.sIr 0x04 }) := h.of rfl rfl rfl rfl
  refine (spiFetch_nothing still (spiRefill_empty cleared hbd.stable hrsr)).trans ?_
  have hrd : s.spi.chip.sRxRd + BitVec.ofNat 16 0 = s.spi.chip.sRxRd := BitVec.add_zero _
  have hzero : s.spi.chip.sRxRsr = BitVec.ofNat 16 0 := BitVec.eq_of_toNat_eq hrsr
  unfold SpiState.fetched
  rw [hrd, ← hzero]
  show Except.ok (Received.nothing, s.withSpi { s.asking.spi with
    csActive := false, chip := { s.spi.chip with sIr := w1c8 s.spi.chip.sIr 0x04 } }) = Except.ok (Received.nothing, s.withSpi { s.asking.spi with
    csActive := false, chip := { s.spi.chip with sIr := s.spi.chip.sIr &&& ~~~0x04, rxRdCommitted := s.spi.chip.sRxRd } })
  rw [hcom]
  rfl

/-- Lines 6 to 10 of R250 over whole records and a partial one. -/
theorem spiFetch_fetched {rs : List (List Byte)} {tail : List Byte} (hrs : ∀ r ∈ rs, validRecord s.cfg.recMinLen r)
    (hpart : partialRecord s.cfg.recMinLen tail) (hrsr : s.spi.chip.sRxRsr.toNat = (rs.flatten ++ tail).length)
    (hbytes : ringRead s.spi.chip.rxMem s.spi.chip.rxBytes s.spi.chip.sRxRd.toNat (rs.flatten ++ tail).length = some (rs.flatten ++ tail)) :
    spiFetch s.asking = if 0 < rs.flatten.length
      then spiPop (s.withSpi (s.spi.fetched s.cfg (rs.flatten ++ tail) rs.flatten.length tail.length))
      else .ok (.nothing, s.withSpi (s.spi.fetched s.cfg (rs.flatten ++ tail) rs.flatten.length tail.length)) := by
  obtain ⟨-, -, -, -, -, -, -, hsize, -⟩ := hinv.session hd
  rcases Nat.eq_zero_or_pos (rs.flatten ++ tail).length with h0 | h0
  · have hnil : rs.flatten ++ tail = [] := List.eq_nil_of_length_eq_zero h0
    obtain ⟨hr, ht⟩ := List.append_eq_nil_iff.mp hnil
    rw [hnil, hr, ht, if_neg (by simp)]
    exact spiFetch_empty h hbd hd hinv (hrsr.trans h0)
  · have hfit : (rs.flatten ++ tail).length ≤ s.cfg.rxbufKb * 1024 := by
      rw [← hrsr, ← hsize]
      exact hring.rsrFits
    have scan := spiScan_fetched h hbd hd hinv hring (List.length_append) hrsr (scanRecords_stop hrs (scanFrom_partial hpart))
    exact spiFetch_ok (s := s.asking) (h.of rfl rfl rfl rfl) (spiRefill_refilled h hbd h0 hrsr hfit hbytes) scan

end

/-- Settles O44: the pass fetches what is announced and keeps the whole records; the first, if there is one, is popped. -/
theorem spiInputFetchesRecords : Obligations.SpiInputFetchesRecords := by
  intro s c rs tail hq hwf hd hinv hring hc he hpend hrsr hbytes hrs hpart
  have still : StillSpi s := hq.stillSpi hd.1 (hinv.present hd.1 (by rw [hd.2]; decide))
  have fetch := spiFetch_fetched still (spiBounds_of_wf hwf) hd hinv hring hrs hpart hrsr hbytes
  obtain ⟨-, hfault, -⟩ := hinv.session hd
  have pass := (procInput_open (DataOpen_spi hd hfault) hc).trans
    ((byBackend_spi hd.1).trans ((spiProcInput_asking still he hpend).trans fetch))
  refine (exec_procInput_records hrs pass rfl rfl (Memory.readBytes_writeBytes_any _ 0 _)).trans ?_
  cases rs <;> rfl

/-! ## A record in the local buffer -/

/-- The stack's verdict on a frame is drawn, and an accepted frame is logged and counted (R282). -/
theorem deliver_ok (ts : U32) (f : List Byte) (k : Nat) (s : State) :
    deliver ts f k s = .ok (if s.draws.takeAccept.1 then k + 1 else k, { s with
      draws := s.draws.takeAccept.2
      stackRxLog := if s.draws.takeAccept.1 then s.stackRxLog ++ [(f, ts)] else s.stackRxLog }) := by
  unfold deliver drawAccept
  rw [drawBy_bind_apply, branch_apply]
  cases s.draws.takeAccept.1 <;> rfl

/-- PIPE_PROC_INPUT when its first call gives a frame and its second none (R281). -/
theorem pipeProcInput_one {s t u : State} {ts : U32} {f : List Byte} (hcap : 1 ≤ s.cfg.rxLoopCap)
    (h1 : procInput 0 s = .ok (.frame ts f, t)) {k : Nat} {v : State} (hd : deliver ts f 0 t = .ok (k, v))
    (h2 : procInput 1 v = .ok (.nothing, u)) : pipeProcInput s = .ok (⟨.ok, putBe16 (BitVec.ofNat 16 k)⟩, u) := by
  obtain ⟨n, hn⟩ : ∃ n, s.cfg.rxLoopCap = n + 1 := ⟨s.cfg.rxLoopCap - 1, by omega⟩
  have second : inputLoop (n + 1) 1 k v = .ok (some k, u) := by
    unfold inputLoop
    rw [bind_ok h2]
    rfl
  unfold pipeProcInput
  rw [config_bind_apply, hn]
  have first : inputLoop (n + 1 + 1) 0 0 s = .ok (some k, u) := by
    unfold inputLoop
    rw [bind_ok h1]
    exact (bind_ok hd).trans second
  rw [bind_ok first]
  rfl

/-- With the local buffer passed and the flag clear a call finds nothing (R250). -/
theorem procInput_clear {s : State} {k : Nat} (hq : s.Quiet) (hd : s.SpiSession) (hf : s.spi.faultSock = false) (hk : k < s.cfg.rxLoopCap)
    (hw : s.cfg.spiIntWired = true) (hp : s.spi.rxPending = false) (he : s.spi.ibufSize ≤ s.spi.ibufStart) :
    procInput k s = .ok (.nothing, s.withSpi { s.spi with ibufStart := 0, ibufSize := 0 }) :=
  (procInput_open (DataOpen_spi hd hf) hk).trans ((byBackend_spi hd.1).trans (spiProcInput_clear hq hw hp he))

/-- Settles O43: Pop needs no transaction; PIPE_PROC_INPUT pops the last record, then finds the local buffer empty and the flag clear. -/
theorem spiInputPopsRecord : Obligations.SpiInputPopsRecord := by
  have pops : ∀ {s : State} {k : Nat} {r : List Byte}, s.SpiSession → s.spi.faultSock = false → k < s.cfg.rxLoopCap →
      s.spi.ibufStart + r.length ≤ s.spi.ibufSize → 2 ≤ r.length → procInput k s = spiPop s := fun hd hf hk hz h2 =>
    (procInput_open (DataOpen_spi hd hf) hk).trans ((byBackend_spi hd.1).trans (spiProcInput_waiting (by omega)))
  refine ⟨fun s c r hd hf hc hz hr hb => exec_procInput_pop (pops hd hf hc hz hr.1) hr.1 hr.2.1 hz hb, ?_⟩
  intro s r hq hd hf hcap _ hw hpend _ hz hr hb ha ts v
  obtain ⟨h2, hword, -⟩ := hr
  have first := (pops (k := 0) hd hf (by omega) hz.le h2).trans (spiPop_ok h2 hword hz.le hb)
  dsimp only at first
  rw [if_pos ha] at first
  have verdict := deliver_ok ts.1 (r.drop 2) 0
    { s with draws := ts.2, spi := { s.spi with ibufStart := s.spi.ibufStart + r.length } }
  have second := procInput_clear (k := 1) (s := { s with
    draws := v.2, stackRxLog := if v.1 then s.stackRxLog ++ [(r.drop 2, ts.1)] else s.stackRxLog
    spi := { s.spi with ibufStart := s.spi.ibufStart + r.length } }) hq hd hf hcap hw hpend hz.ge
  refine (runCommand_ok (pipeProcInput_one (by omega) first verdict second)).trans ?_
  cases hv : v.1 <;> rfl

end Sys2Proof.Machine
end

section
/-! SUPPORT. The SPI probe step by step (R240 to R243): what a present chip answers after its software reset, and what the floating bus
answers. -/

namespace Sys2Proof.Machine

/-! ## A present chip -/

/-- Under the prompt completions a boundary of the SPI build completes a running chip reset and does nothing else (R247, R270). -/
theorem boundary_prompted {t : State} (h : t.Prompted) (hb : t.cfg.backend = .spi) :
    ∃ m, boundary t = .ok ((), t.withSpi { t.spi with chip := { t.spi.chip with mr := m } }) := by
  obtain ⟨m, hm⟩ : ∃ m, chipResetDone t = .ok ((), t.withSpi { t.spi with chip := { t.spi.chip with mr := m } }) := by
    unfold chipResetDone
    rw [get_bind_apply, branch_apply]
    split
    · exact ⟨0x00, rfl⟩
    · exact ⟨t.spi.chip.mr, rfl⟩
  refine ⟨m, ?_⟩
  unfold boundary
  rw [bind_ok (scriptedSteps_nil h.1)]
  unfold promptSteps
  rw [get_bind_apply, h.2]
  have mdio : onlyIf (Prompt.completions.mdioDone = true) (agentStep .mdioDone) t = .ok ((), t) := byBackend_spi hb
  have reset : onlyIf (Prompt.completions.chipResetDone = true) (agentStep .chipResetDone) t = _ := (byBackend_spi hb).trans hm
  rw [bind_ok mdio, bind_ok reset]
  rfl

/-- The chip after its software reset with SCRATCH as given (R241, R270). -/
def Chip.probed (c : Chip) (p : U16) : Chip := { Chip.reset with scratch := p, link := c.link, rxMem := c.rxMem, txMem := c.txMem }

section

variable {s : State} (h : s.Prompted) (hb : s.cfg.backend = .spi) (hp : s.cfg.chipPresent = true)
include h hb hp

theorem stillSpi_probed (p : U16) : StillSpi (s.withChip (s.spi.chip.probed p)) := 
  ⟨hb, hp, h.1, .inr ⟨h.2, (by decide : (0x00#8).getLsbD 7 = false)⟩⟩

/-- S3 passes and leaves the second pattern (R242). -/
theorem spiSelfTest_probed (p : U16) :
    spiSelfTest (s.withChip (s.spi.chip.probed p)) = .ok (true, s.withChip (s.spi.chip.probed s.cfg.patternB)) := by
  unfold spiSelfTest
  rw [config_bind_apply, bind_ok (spiScratch_ok (stillSpi_probed h hb hp p) _)]
  exact spiScratch_ok (stillSpi_probed h hb hp s.cfg.patternA) _

/-- S4 compares the version the chip answers (R243). -/
theorem spiVersion_probed (p : U16) :
    spiVersion (s.withChip (s.spi.chip.probed p)) =
      .ok (s.cfg.chipVersion == s.cfg.chipVersionExpect, s.withChip (s.spi.chip.probed p)) := by
  unfold spiVersion
  rw [config_bind_apply]
  exact (bind_ok (spiReadByte_common (stillSpi_probed h hb hp p) (a := 0x0039) (by decide) rfl)).trans rfl

/-- S1 to S4 on a present chip whose reset completes promptly (R241 to R243, R247). -/
theorem spiProbeSteps_prompt (hn : 1 ≤ s.cfg.spiResetPollBound) :
    spiProbeSteps s = .ok (s.cfg.chipVersion == s.cfg.chipVersionExpect, s.withChip (s.spi.chip.probed s.cfg.patternB)) := by
  obtain ⟨m, hm⟩ := boundary_prompted (t := s.deselected) h hb
  have deselect : micro (setCs false) s = .ok ((), s.withChip { s.spi.chip with mr := m }) := by
    unfold micro
    have e : setCs false s = .ok ((), s.deselected) := rfl
    rw [bind_ok e, bind_ok hm]
    rfl
  have reset := spiReset_ok (s := s.withChip { s.spi.chip with mr := m }) h hb hp hn
  have selfTest := spiSelfTest_probed h hb hp 0x0000
  unfold spiProbeSteps
  rw [bind_ok deselect, bind_ok reset]
  exact (bind_ok selfTest).trans (spiVersion_probed h hb hp _)

end

/-! ## An absent chip -/

section

variable {s : State} (hq : s.Quiet) (hp : s.cfg.chipPresent = false)
include hq hp

theorem pollByte_absent {bsb : Nat} (hb : bsb < 32) (a : Nat) (p : Byte → Bool) (n : Nat) :
    ∃ r, pollByte bsb a p n s.deselected = .ok (r, s.deselected) := by
  induction n with
  | zero => exact ⟨false, rfl⟩
  | succ n ih =>
    unfold pollByte
    rw [bind_ok (spiReadByte_absent (s := s.deselected) hq hp hb a), branch_apply]
    split
    · exact ⟨true, rfl⟩
    · exact ih

theorem spiReset_absent : ∃ r, spiReset s.deselected = .ok (r, s.deselected) := by
  unfold spiReset
  rw [config_bind_apply, bind_ok (spiWrite_absent (s := s.deselected) hq hp (by decide) _ _)]
  exact pollByte_absent hq hp (by decide) _ _ _

/-- One pattern of S3 on the floating bus (R234, R242). -/
theorem spiScratch_floating (p : U16) : spiScratch p s.deselected = .ok (floatWord s.cfg == p.toNat, s.deselected) := by
  have calm : Calm s.deselected := State.Quiet.calm (s := s.deselected) hq
  have read : spiRead16 0 0x0019 s.deselected = .ok (floatWord s.cfg, s.deselected) := by
    unfold spiRead16
    rw [spiRead_eq (by decide)]
    refine (micro_bind (t := s.deselected) (a := [s.cfg.floatByte, s.cfg.floatByte]) ?_ calm).trans rfl
    unfold setCs
    rw [modifySpi_bind_apply]
    exact (bind_ok (chipBytes_absent (s := s.selected) hp 0 0x0019 2)).trans rfl
  unfold spiScratch
  rw [bind_ok (spiWrite_absent (s := s.deselected) hq hp (by decide) _ _), bind_ok read]
  rfl

/-- S3 fails: the floating bus cannot answer two different patterns (R242). -/
theorem spiSelfTest_floating (hne : s.cfg.patternA ≠ s.cfg.patternB) : spiSelfTest s.deselected = .ok (false, s.deselected) := by
  unfold spiSelfTest
  rw [config_bind_apply, bind_ok (spiScratch_floating hq hp _), branch_apply]
  split
  · next ha =>
    rw [spiScratch_floating hq hp]
    have hb : (floatWord s.cfg == s.cfg.patternB.toNat) = false :=
      beq_false_of_ne fun hb => hne (BitVec.eq_of_toNat_eq ((eq_of_beq ha).symm.trans hb))
    rw [show s.deselected.cfg = s.cfg from rfl, hb]
  · rfl

/-- S1 to S4 on the floating bus fail whatever its byte is. -/
theorem spiProbeSteps_absent (hne : s.cfg.patternA ≠ s.cfg.patternB) : spiProbeSteps s = .ok (false, s.deselected) := by
  have deselect : micro (setCs false) s = .ok ((), s.deselected) := micro_ok rfl (State.Quiet.calm (s := s.deselected) hq)
  obtain ⟨r, hr⟩ := spiReset_absent hq hp
  unfold spiProbeSteps
  rw [bind_ok deselect, bind_ok hr, branch_apply]
  split
  · rw [bind_ok (spiSelfTest_floating hq hp hne)]
    rfl
  · rfl

end

/-! ## HAS_HARDWARE -/

/-- HAS_HARDWARE in Start on the SPI build answers what the steps found (R151, R240, R243). -/
theorem exec_hasHardware_probed {s t : State} {ok : Bool} (hb : s.cfg.backend = .spi) (hi : s.initState = .start)
    (hp : spiProbeSteps s = .ok (ok, t)) :
    exec .hasHardware s = .next
      { t with initState := if ok then .phyInitialized else .noHardware, resBuf := [if ok then 0x00 else 0x01] } := by
  have probed : spiProbe s = .ok ((), { t with initState := if ok then .phyInitialized else .noHardware }) := by
    unfold spiProbe
    rw [bind_ok hp]
    cases ok <;> rfl
  refine (runCommand_bind (f := boolResult) (hasHardware_start hi ((byBackend_spi hb).trans probed))).trans ?_
  cases ok <;> rfl

/-- Settles O29: a reset chip passes S3 and S4 compares its version; the floating bus fails S3. -/
theorem spiProbeResetsChip : Obligations.SpiProbeResetsChip := by
  refine ⟨fun s h hb hi hp hn => ?_, fun s hq hb hi hp hne => exec_hasHardware_probed hb hi (spiProbeSteps_absent hq hp hne)⟩
  refine (exec_hasHardware_probed hb hi (spiProbeSteps_prompt h hb hp hn)).trans ?_
  simp only [beq_iff_eq]
  rfl

end Sys2Proof.Machine
end

section
/-! SUPPORT. DEINIT of an SPI session (R156, R248). -/

namespace Sys2Proof.Machine

/-- An SPI session ends: the socket is shut down and the link reported down (R156, R248). -/
theorem endSession_spi {s t : State} (hb : s.cfg.backend = .spi) (hd : spiShutDown s = .ok ((), t)) (ht : StillSpi t) :
    endSession s = .ok ((), { t with
      linkReported := false, notifyLog := if t.linkReported then t.notifyLog ++ [false] else t.notifyLog
      initState := .phyInitialized }) := by
  unfold endSession
  rw [bind_ok ((byBackend_spi hb).trans hd), bind_ok (reportDown_ok ht.notified)]
  rfl

/-- Writing ones everywhere clears every cause (R248, R267). -/
theorem w1c8_all (v : Byte) : w1c8 v 0xFF = 0x00 := BitVec.and_zero

/-- Settles O36: the shut-down, the report, then the walk back to state 2. -/
theorem spiDeinitClosesSocket : Obligations.SpiDeinitClosesSocket := by
  intro s hq ⟨hb, hi⟩ hp hn
  have still := hq.stillSpi hb hp
  have shut := spiShutDown_ok still hn
  rw [w1c8_all] at shut
  have ended := endSession_spi hb shut (still.of rfl rfl rfl rfl)
  refine (runCommand_ok (thenOk_ok (deinitialise_inside hi ended))).trans ?_
  simp only [State.walkedBack, State.stepBack, hb]
  rfl

end Sys2Proof.Machine
end

section
/-! SUPPORT. The chip's receive side (R269), and a frame's way through an SPI session in both directions (R275 (b), (c)). -/

namespace Sys2Proof.Machine

/-! ## !WIRE_RX -/

/-- Wire admission as R269 has it. -/
theorem chipAdmits_iff {c : Chip} {b : List Byte} {err : Byte} :
    chipAdmits c b err = true ↔ 14 ≤ b.length ∧ err = 0 ∧ b.length + 2 ≤ c.rxBytes - c.sRxRsr.toNat
      ∧ (c.sMr.getLsbD 7 = false ∨ destination b = c.shar ∨ broadcast (destination b) = true ∨ group (destination b) = true) := by
  simp [chipAdmits, and_assoc, or_assoc]

/-- The state with a frame's record in the receive ring, the RECV cause raised (R269). -/
def State.recordStored (s : State) (b : List Byte) : State :=
  s.withSpi { s.spi with intLatched := if latches s.spi.chip 2 then true else s.spi.intLatched, chip := s.spi.chip.received b }

theorem recordOf_length (b : List Byte) : (recordOf b).length = b.length + 2 := by
  rw [recordOf, List.length_append, Nat.add_comm]
  rfl

theorem exec_wireRx_dropped {s : State} {b : List Byte} {err : Byte} (hq : s.Quiet) (hb : s.cfg.backend = .spi)
    (h : ¬ (s.spi.chip.sSr = srMacraw ∧ chipAdmits s.spi.chip b err = true)) : exec (.wireRx b err) s = .next s := by
  refine runEvent_quiet (a := .wireRx b err) ((byBackend_spi hb).trans ?_) hq
  unfold chipWireRx
  rw [get_bind_apply, branch_apply, if_neg h]
  rfl

theorem exec_wireRx_stored {s : State} {b : List Byte} {err : Byte} (hq : s.Quiet) (hb : s.cfg.backend = .spi)
    (h : s.spi.chip.sSr = srMacraw ∧ chipAdmits s.spi.chip b err = true) : exec (.wireRx b err) s = .next (s.recordStored b) := by
  refine runEvent_quiet (a := .wireRx b err) (t := s.recordStored b) ((byBackend_spi hb).trans ?_) hq
  unfold chipWireRx
  rw [get_bind_apply, branch_apply, if_pos h, modifyChip_bind_apply]
  exact latchCause_ok 2 _

/-- Settles O52: the admission is R269's list, and an admitted frame's record fits the ring. -/
theorem chipWireRxAppendsRecord : Obligations.ChipWireRxAppendsRecord := by
  intro s b err hq hb hring _ q dst n admitted
  have admits : admitted ↔ q.sSr = srMacraw ∧ chipAdmits q b err = true := and_congr_right' chipAdmits_iff.symm
  refine ⟨fun h => exec_wireRx_dropped hq hb (mt admits.mpr h), fun h => ⟨_, exec_wireRx_stored hq hb (admits.mp h), ?_⟩⟩
  obtain ⟨-, -, -, hroom, -⟩ := h
  exact Memory.ringHolds_ringWrite _ ((recordOf_length b).trans_le (hroom.trans (Nat.sub_le _ _))) (legalRing_dvd hring.rxLegal)

/-! ## From the wire to the host (R275 (b)) -/

/-- A frame's record carries its own length (R253, R269). -/
theorem recordOf_valid {b : List Byte} {minLen : Nat} (hlen : b.length + 2 < 65536) (hmin : minLen ≤ b.length + 2) :
    validRecord minLen (recordOf b) := by
  have lengthWord : be16 (recordOf b) 0 = b.length + 2 := (hi_lo_toNat _).trans (toNat_ofNat16 hlen)
  exact ⟨by rw [recordOf_length]; omega, lengthWord.trans (recordOf_length b).symm, by rwa [recordOf_length]⟩

/-- An admitted frame finds an SPI session with both buffers empty and the RECV cause unmasked (R269, R271). -/
structure FrameOffered (s : State) (b : List Byte) : Prop where
  quiet : s.Quiet
  wf : s.cfg.wf = true
  session : s.SpiSession
  socket : SocketInv s
  ring : s.spi.chip.RingInv
  wired : s.cfg.spiIntWired = true
  unmasked : latches s.spi.chip 2 = true
  idle : s.spi.csActive = false
  ringEmpty : s.spi.chip.sRxRsr = 0
  bufferEmpty : s.spi.ibufSize ≤ s.spi.ibufStart
  long : 14 ≤ b.length
  recMin : s.cfg.recMinLen ≤ b.length + 2
  fits : b.length + 2 ≤ s.spi.chip.rxBytes
  addressed : destination b = s.spi.chip.shar ∨ broadcast (destination b) = true

/-- The state after !WIRE_RX and !ISR (R269, R271). -/
def State.announced (s : State) (b : List Byte) : State :=
  s.withSpi { s.spi with intLatched := false, rxPending := true, txDone := true, chip := s.spi.chip.received b }

namespace FrameOffered

variable {s : State} {b : List Byte} (h : FrameOffered s b)
include h

theorem admitted : chipAdmits s.spi.chip b 0 = true := by
  refine chipAdmits_iff.mpr ⟨h.long, rfl, ?_, .inr (h.addressed.imp_right .inl)⟩
  rw [h.ringEmpty]
  exact h.fits

theorem length_lt : b.length + 2 < 65536 := by
  have := legalRing_le h.ring.rxLegal
  have := h.fits
  omega

theorem wireRx_next : exec (.wireRx b 0) s = .next (s.recordStored b) :=
  exec_wireRx_stored h.quiet h.session.1 ⟨(h.socket.session h.session).1, h.admitted⟩

theorem isr_next : exec .isr (s.recordStored b) = .next (s.announced b) :=
  runEvent_quiet (a := .isr)
    ((byBackend_spi (s := s.recordStored b) h.session.1).trans (spiIsr_taken (s := s.recordStored b) h.wired (if_pos h.unmasked) h.idle))
    h.quiet

theorem announced_rsr : (s.spi.chip.received b).sRxRsr.toNat = (recordOf b).length := by
  show (s.spi.chip.sRxRsr + BitVec.ofNat 16 (b.length + 2)).toNat = _
  rw [h.ringEmpty, show (0 : U16) + _ = _ from BitVec.zero_add _, toNat_ofNat16 h.length_lt, recordOf_length]

/-- The host's read pointer stands where the record was stored (R255, R269). -/
theorem readPointer : s.spi.chip.sRxRd = s.spi.chip.sRxWr := by
  obtain ⟨-, -, -, -, -, committed, -⟩ := h.socket.session h.session
  have empty := h.ring.rsr
  rw [h.ringEmpty] at empty
  exact committed.trans (ptrDiff_eq_zero empty.symm).symm

theorem announced_bytes :
    ringRead (s.spi.chip.received b).rxMem s.spi.chip.rxBytes s.spi.chip.sRxRd.toNat (recordOf b).length = some (recordOf b) := by
  rw [h.readPointer]
  have held := Memory.ringHolds_ringWrite s.spi.chip.rxMem (size := s.spi.chip.rxBytes) (p := s.spi.chip.sRxWr.toNat) (bs := recordOf b)
    ((recordOf_length b).trans_le h.fits) (legalRing_dvd h.ring.rxLegal)
  exact Memory.ringRead_of held.stored

/-- The three steps together: the frame is PROC_INPUT's answer (R258, R275 (b)). -/
theorem passes (ha : s.draws.takeAlloc.1 = true) :
    ∃ t u v, exec (.wireRx b 0) s = .next t ∧ exec .isr t = .next u ∧ exec (.procInput 0) u = .next v
      ∧ v.resBuf = 0x00 :: (putBe32 s.draws.takeAlloc.2.takeTimestamp.1 ++ putBe16 (BitVec.ofNat 16 b.length) ++ b) := by
  have one : [recordOf b].flatten ++ [] = recordOf b := by simp
  have socket : SocketInv (s.announced b) := ⟨h.socket.present, h.socket.session⟩
  have valid : ∀ r ∈ [recordOf b], validRecord s.cfg.recMinLen r := by
    rintro r hr
    rw [List.mem_singleton.mp hr]
    exact recordOf_valid h.length_lt h.recMin
  have taken := spiInputFetchesRecords (s.announced b) 0 [recordOf b] [] h.quiet h.wf h.session socket (h.ring.received h.admitted)
    (rxLoopCap_pos h.wf) h.bufferEmpty (fun _ => rfl) (one.symm ▸ h.announced_rsr) (one.symm ▸ h.announced_bytes) valid
    (.inl (by decide))
  refine ⟨_, _, _, h.wireRx_next, h.isr_next, taken, ?_⟩
  exact congrArg State.resBuf (if_pos ha)

end FrameOffered

/-! ## From the host to the wire (R275 (c)) -/

/-- An open socket with one frame queued, its bytes in the transmit ring (R266, R268). -/
structure FrameQueued (s : State) (e : U16) (b : List Byte) : Prop where
  quiet : s.Quiet
  backend : s.cfg.backend = .spi
  opened : s.spi.chip.sSr = srMacraw
  queue : s.spi.chip.sendQueue = [e]
  bytes : ringRead s.spi.chip.txMem s.spi.chip.txBytes s.spi.chip.sTxRd.toNat (ptrDiff e s.spi.chip.sTxRd) = some b

/-- The queued frame goes on the wire (R268). -/
theorem FrameQueued.sent {s : State} {e : U16} {b : List Byte} (h : FrameQueued s e b) :
    ∃ u, exec .chipSendDone s = .next u ∧ u.wireTxLog = s.wireTxLog ++ [b] :=
  ⟨_, runEvent_quiet (a := .chipSendDone) ((byBackend_spi h.backend).trans (chipSendDone_sent h.opened h.queue h.bytes)) h.quiet, rfl⟩

/-- With no frame queued OUTPUT finds the transmit ring free and queues its frame (R259, R266). -/
theorem exec_output_queued {s : State} {b : List Byte} (hq : s.Quiet) (hwf : s.cfg.wf = true) (hd : s.SpiSession) (hinv : SocketInv s)
    (hring : s.spi.chip.RingInv) (hmem : MemoriesWf s) (hqueue : s.spi.chip.sendQueue = []) (h0 : 0 < b.length)
    (h1 : b.length ≤ s.cfg.maxLenTagged) :
    ∃ t e, exec (.output b) s = .next t ∧ t.wireTxLog = s.wireTxLog ∧ FrameQueued t e b := by
  obtain ⟨hopen, -, -, -, -, -, hcom, -, htx⟩ := hinv.session hd
  have drained : s.spi.chip.sTxRd = s.spi.chip.sTxWr := (hring.drained hopen hqueue).trans hcom.symm
  have room : b.length ≤ s.spi.chip.sTxFsr.toNat := by
    have free := hring.fsr
    rw [drained, hcom, ptrDiff_self] at free
    have := (spiBounds_of_wf hwf).tx
    omega
  obtain ⟨tx', out, held⟩ := (spiOutputQueuesFrame s (.output b) b hq hwf hd hinv hring hmem (.inl rfl) h0 h1).2 room
  have bytes : ringRead tx' s.spi.chip.txBytes s.spi.chip.sTxRd.toNat
      (ptrDiff (s.spi.chip.sTxWr + BitVec.ofNat 16 b.length) s.spi.chip.sTxRd) = some b := by
    rw [drained, ptrDiff_advance _ (by have := s.spi.chip.sTxFsr.isLt; omega)]
    exact Memory.ringRead_of held.stored
  exact ⟨_, _, out, rfl, hq, hd.1, hopen, by rw [hqueue]; rfl, bytes⟩

/-- Settles O60: the record the chip stores is the one PROC_INPUT pops; the bytes OUTPUT stores are the ones the chip sends. -/
theorem spiFramesPassUnchanged : Obligations.SpiFramesPassUnchanged := by
  refine ⟨fun s b hq hwf hd hinv hring _ hw hsimr hsImr hcs hrsr hbuf h14 hmin hfit haddr ha => ?_,
    fun s b hq hwf hd hinv hring hmem hqueue h0 h1 => ?_⟩
  · have unmasked : latches s.spi.chip 2 = true := by rw [latches, hsimr, hsImr]; rfl
    exact (FrameOffered.mk hq hwf hd hinv hring hw unmasked hcs hrsr hbuf h14 hmin hfit haddr).passes ha
  · obtain ⟨t, e, out, log, queued⟩ := exec_output_queued hq hwf hd hinv hring hmem hqueue h0 h1
    obtain ⟨u, done, wire⟩ := queued.sent
    exact ⟨t, u, out, done, log ▸ wire⟩

end Sys2Proof.Machine
end

section
/-! SUPPORT. PROC_INPUT and the input loop do not see RES_BUF, under every schedule on both builds (R205, R250, R281). -/

namespace Sys2Proof.Machine

variable {f : List Byte → List Byte} {p : InitState → InitState}

namespace Blind

/-! ## The DMA build's receive path (R205) -/

theorem testAndClearRxPending : Blind f p Machine.testAndClearRxPending := fun _ => rfl

theorem hostReadBytes (a n : Nat) : Blind f p (Machine.hostReadBytes a n) := by
  refine bind (checkDmaRange a n) fun _ s => ?_
  exact orFault (f := f) (p := p) (hostReadRange s.dma a n).1 (.unspecifiedRead .dma (Memory.firstUnwritten s.dma.mem a n))
    { s with dma := (hostReadRange s.dma a n).2 }

theorem dmaTakeFrame (i : Nat) (st : U16) (n : Nat) : Blind f id (Machine.dmaTakeFrame i st n) := by
  refine config_bind fun c => ite (bind (modifies fun _ => rfl) fun _ => pure _) ?_
  refine bind (drawBy _) fun ok => ite ?_ (bind (modifies fun _ => rfl) fun _ => pure _)
  exact bind (micro (hostReadBytes _ _)) fun b => bind (drawBy _) fun _ => pure _

theorem dmaRearm (i : Nat) (st : U16) : Blind f p (Machine.dmaRearm i st) := by
  refine config_bind fun c => bind (micro (dmaWrite16 _ _)) fun _ => bind (micro (dmaWrite16 _ _)) fun _ => ?_
  exact bind (micro (macWrite _ _)) fun _ => bind (modifyDma _) fun _ => micro (modifies fun _ => rfl)

theorem dmaReceive : Blind f id Machine.dmaReceive := by
  refine get_bind (fun _ => rfl) fun s => bind (micro (dmaRead16 _)) fun st => ite (pure _) ?_
  refine bind (micro (modifyDma _)) fun _ => bind (micro (dmaRead16 _)) fun n => ?_
  exact bind (dmaTakeFrame _ _ _) fun _ => bind (dmaRearm _ _) fun _ => pure _

theorem dmaProcInput : Blind f id Machine.dmaProcInput :=
  bind (micro testAndClearRxPending) fun _ => ite dmaReceive (pure _)

/-! ## The SPI build's receive path (R250 to R258, R262) -/

theorem testAndClearSpiRxPending : Blind f p Machine.testAndClearSpiRxPending := fun _ => rfl

/-- The register's two bytes, with the agents' turn between them (R233). -/
theorem spiReadTorn (bsb a : Nat) : Blind f p (Machine.spiReadTorn bsb a) := by
  refine bind (micro (bind (modifySpi _) fun _ => bind (chipSelected _ _) fun _ => chipByte _ _)) fun hi => ?_
  exact bind (micro (bind (chipByte _ _) fun _ => bind (modifySpi _) fun _ => pure _)) fun lo => pure _

theorem stableLoop (bsb a n : Nat) : Blind f p (Machine.stableLoop bsb a n) := by
  induction n with
  | zero => exact pure _
  | succ n ih =>
    exact bind (spiReadTorn _ _) fun _ => bind (spiReadTorn _ _) fun _ => ite (pure _) ih

theorem sockCommand (v : Byte) : Blind f p (Machine.sockCommand v) :=
  config_bind fun _ => bind (spiWrite _ _ _) fun _ => pollByte _ _ _ _

theorem awaitSocket (v : Byte) : Blind f p (Machine.awaitSocket v) := config_bind fun _ => pollByte _ _ _ _

theorem recover : Blind f id Machine.recover := by
  refine bind (sockCommand _) fun _ => bind (awaitSocket _) fun _ => bind (sockCommand _) fun _ => bind (awaitSocket _) fun ok => ?_
  exact ite (pure ()) (modifies fun _ => rfl)

theorem ibufRead (a n : Nat) : Blind f p (Machine.ibufRead a n) := get_bind (fun _ => rfl) fun _ => orFault _ _

theorem spiPop : Blind f id Machine.spiPop := by
  refine get_bind (fun _ => rfl) fun s => bind (ibufRead _ _) fun b => bind (ibufRead _ _) fun bytes => bind (modifySpi _) fun _ => ?_
  refine bind (drawBy _) fun ok => ite (bind (drawBy _) fun _ => pure _) (bind (modifies fun _ => rfl) fun _ => pure _)

theorem spiRefill : Blind f id Machine.spiRefill := by
  refine config_bind fun c => bind (config_bind fun _ => stableLoop _ _ _) fun r => ?_
  match r with
  | none => exact pure _
  | some 0 => exact pure _
  | some (n + 1) =>
    refine ite (bind (modifies fun _ => rfl) fun _ => bind recover fun _ => pure _) ?_
    refine bind (bind (spiRead _ _ _) fun _ => pure _) fun rd => bind (spiRead _ _ _) fun bs => ?_
    exact bind (modifySpi _) fun _ => pure _

theorem spiScan (r rd : Nat) : Blind f id (Machine.spiScan r rd) := by
  refine config_bind fun c => bind (ibufRead 0 r) fun b => bind (modifySpi _) fun _ => ite ?_ (ite ?_ (pure ()))
  · exact bind (modifies fun _ => rfl) fun _ => recover
  · exact bind (spiWrite _ _ _) fun _ => bind (sockCommand _) fun _ => pure _

theorem spiFetch : Blind f id Machine.spiFetch := by
  refine bind (spiWrite _ _ _) fun _ => bind spiRefill fun r => ?_
  match r with
  | none => exact pure _
  | some (n, rd) => exact bind (spiScan n rd) fun _ => get_bind (fun _ => rfl) fun _ => ite spiPop (pure _)

theorem spiProcInput : Blind f id Machine.spiProcInput := by
  refine get_bind (fun _ => rfl) fun s => ite spiPop (bind (modifySpi _) fun _ => ite ?_ spiFetch)
  exact bind (micro testAndClearSpiRxPending) fun _ => ite spiFetch (pure _)

/-! ## The loop (R281, R282) -/

theorem procInput (c : Nat) : Blind f id (Machine.procInput c) := by
  refine get_bind (fun _ => rfl) fun s => ite ?_ (ite (pure _) (byBackend dmaProcInput spiProcInput))
  exact bind (modifies fun _ => rfl) fun _ => pure _

theorem deliver (ts : U32) (bytes : List Byte) (k : Nat) : Blind f p (Machine.deliver ts bytes k) :=
  bind (drawBy _) fun _ => ite (bind (modifies fun _ => rfl) fun _ => pure _) (pure _)

theorem inputLoop (fuel c k : Nat) : Blind f id (Machine.inputLoop fuel c k) := by
  induction fuel generalizing c k with
  | zero => exact pure _
  | succ fuel ih =>
    refine bind (procInput c) fun r => ?_
    cases r with
    | invalid => exact ite (pure _) (pure _)
    | nothing => exact pure _
    | frame ts bytes => exact bind (deliver ts bytes k) fun k1 => ih (c + 1) k1

end Blind

end Sys2Proof.Machine
end

section
/-! SUPPORT. PIPE_PROC_INPUT against its PROC_INPUT commands (R281, R291): one pass of the loop and one pass over the command port, side
by side. -/

namespace Sys2Proof.Machine

/-- What PIPE_PROC_INPUT answers when its loop ends (R281). -/
def inputAnswer : Option Nat → Result
  | none => .plain .invalid
  | some k => ⟨.ok, putBe16 (BitVec.ofNat 16 k)⟩

/-- The rest of PIPE_PROC_INPUT from counter `c` with `k` frames accepted, run to its answer. -/
def runInputLoop (fuel c k : Nat) (s : State) : Host.Outcome State Fault Refusal :=
  runCommand (do return inputAnswer (← inputLoop fuel c k)) s

theorem exec_pipeProcInput (s : State) : exec .pipeProcInput s = runInputLoop (s.cfg.rxLoopCap + 1) 0 0 s := by
  have answer : pipeProcInput = config >>= fun c => inputLoop (c.rxLoopCap + 1) 0 0 >>= fun r => pure (inputAnswer r) := by
    refine congrArg (config >>= ·) (funext fun c => congrArg (inputLoop (c.rxLoopCap + 1) 0 0 >>= ·) (funext fun r => ?_))
    cases r <;> rfl
  show runCommand pipeProcInput s = _
  rw [answer]
  rfl

/-- What RES_BUF holds from an earlier command does not show in the rest of the loop. -/
theorem runInputLoop_respond (fuel c k : Nat) (s : State) (r : Result) : runInputLoop fuel c k (s.respond r) = runInputLoop fuel c k s :=
  Blind.command (fun _ => Blind.inputLoop fuel c k) inputAnswer s r

/-! ## One pass of the loop -/

section

variable {s t : State} {fuel c k : Nat}

theorem runInputLoop_invalid (h : procInput c s = .ok (.invalid, t)) :
    runInputLoop (fuel + 1) c k s = .next (t.respond (inputAnswer (if c = 0 then none else some k))) := by
  refine runCommand_bind ((bind_ok h).trans ?_)
  cases c <;> rfl

theorem runInputLoop_nothing (h : procInput c s = .ok (.nothing, t)) :
    runInputLoop (fuel + 1) c k s = .next (t.respond (inputAnswer (some k))) := runCommand_bind (bind_ok h)

theorem runInputLoop_frame {ts : U32} {bytes : List Byte} {k' : Nat} {u : State} (h : procInput c s = .ok (.frame ts bytes, t))
    (hd : deliver ts bytes k t = .ok (k', u)) : runInputLoop (fuel + 1) c k s = runInputLoop fuel (c + 1) k' u :=
  runCommand_congr ((bind_ok h).trans (bind_ok hd)) inputAnswer

theorem runInputLoop_error {e : Stop} (h : procInput c s = .error e) :
    runInputLoop (fuel + 1) c k s = runCommand (fun _ => .error e) s := by
  have stops : inputLoop (fuel + 1) c k s = .error e := bind_error h
  unfold runInputLoop runCommand
  rw [bind_error stops]

end

/-! ## One pass over the command port -/

/-- The timestamp read back from RES_BUF (R113). -/
theorem putBe32_join (v : U32) : v.extractLsb' 24 8 ++ v.extractLsb' 16 8 ++ v.extractLsb' 8 8 ++ v.extractLsb' 0 8 = v := by
  ext i hi
  simp only [BitVec.getElem_append, BitVec.getElem_extractLsb']
  grind

section

variable {s t : State} {fuel c k : Nat}

/-- The PROC_INPUT command is PROC_INPUT with its counter read as a 16-bit number. -/
theorem exec_procInput_counter (hc : c ≤ 65535) (s : State) :
    exec (.procInput (BitVec.ofNat 16 c)) s = runCommand (do return (← procInput c).result) s := by
  have counter : (BitVec.ofNat 16 c).toNat = c := by
    rw [BitVec.toNat_ofNat]
    omega
  show runCommand (do return (← procInput (BitVec.ofNat 16 c).toNat).result) s = _
  rw [counter]

theorem exec_procInput_ok (hc : c ≤ 65535) {r : Received} (h : procInput c s = .ok (r, t)) :
    exec (.procInput (BitVec.ofNat 16 c)) s = .next (t.respond r.result) :=
  (exec_procInput_counter hc s).trans (runCommand_bind h)

theorem pipeInputByCommands_invalid (hc : c ≤ 65535) (h : procInput c s = .ok (.invalid, t)) :
    pipeInputByCommands (fuel + 1) c k s = .next (t.respond (inputAnswer (if c = 0 then none else some k))) := by
  rw [pipeInputByCommands, exec_procInput_ok hc h]
  cases c <;> rfl

theorem pipeInputByCommands_nothing (hc : c ≤ 65535) (h : procInput c s = .ok (.nothing, t)) :
    pipeInputByCommands (fuel + 1) c k s = .next (t.respond (inputAnswer (some k))) := by
  rw [pipeInputByCommands, exec_procInput_ok hc h]
  rfl

/-- A frame goes to the stack as RES_BUF holds it. -/
theorem pipeInputByCommands_frame (hc : c ≤ 65535) {ts : U32} {bytes : List Byte} {k' : Nat} {u : State}
    (h : procInput c s = .ok (.frame ts bytes, t)) (hd : deliver ts bytes k t = .ok (k', u)) :
    pipeInputByCommands (fuel + 1) c k s = pipeInputByCommands fuel (c + 1) k' (u.respond (Received.frame ts bytes).result) := by
  rw [deliver_ok, ← putBe32_join ts] at hd
  cases hd
  rw [pipeInputByCommands, exec_procInput_ok hc h]
  rfl

theorem pipeInputByCommands_error (hc : c ≤ 65535) {e : Stop} (h : procInput c s = .error e) :
    pipeInputByCommands (fuel + 1) c k s = runCommand (fun _ => .error e) s := by
  rw [pipeInputByCommands, exec_procInput_counter hc]
  unfold runCommand
  rw [bind_error h]
  cases e <;> rfl

end

/-! ## Every pass -/

/-- While the counter fits its 16-bit operand, the loop and the commands agree pass by pass. -/
theorem runInputLoop_eq_commands (fuel : Nat) : ∀ (c k : Nat) (s : State), c + fuel ≤ 65536 →
    runInputLoop fuel c k s = pipeInputByCommands fuel c k s := by
  induction fuel with
  | zero => exact fun _ _ _ _ => rfl
  | succ fuel ih =>
    intro c k s hfuel
    have hc : c ≤ 65535 := by omega
    cases h : procInput c s with
    | error e => exact (runInputLoop_error h).trans (pipeInputByCommands_error hc h).symm
    | ok q =>
      obtain ⟨r, t⟩ := q
      cases r with
      | invalid => exact (runInputLoop_invalid h).trans (pipeInputByCommands_invalid hc h).symm
      | nothing => exact (runInputLoop_nothing h).trans (pipeInputByCommands_nothing hc h).symm
      | frame ts bytes =>
        have verdict := deliver_ok ts bytes k t
        calc runInputLoop (fuel + 1) c k s
          _ = runInputLoop fuel (c + 1) _ _ := runInputLoop_frame h verdict
          _ = runInputLoop fuel (c + 1) _ (State.respond _ (Received.frame ts bytes).result) := (runInputLoop_respond _ _ _ _ _).symm
          _ = pipeInputByCommands fuel (c + 1) _ (State.respond _ (Received.frame ts bytes).result) := ih _ _ _ (by omega)
          _ = pipeInputByCommands (fuel + 1) c k s := (pipeInputByCommands_frame hc h verdict).symm

/-- Settles O57: the loop inside PIPE_PROC_INPUT and the loop over the command port agree pass by pass, since PROC_INPUT does not see what
the command before it left in RES_BUF. -/
theorem pipeInputIsItsCommands : Obligations.PipeInputIsItsCommands := fun s hcap =>
  (exec_pipeProcInput s).trans (runInputLoop_eq_commands _ 0 0 s (by omega))

end Sys2Proof.Machine
end

section
/-! SUPPORT. Link reports (R27, R300, R301, R308, R310): what a report does to the log, and that every operation leaves the log, the reported
state and the override in agreement. -/

namespace Sys2Proof.Machine

variable {α : Type}

/-! ## The log -/

theorem alternatesFrom_append (prev : Bool) (log : List Bool) (b : Bool) :
    alternatesFrom prev (log ++ [b]) = (alternatesFrom prev log && b != log.getLast?.getD prev) := by
  induction log generalizing prev with
  | nil => simp [alternatesFrom]
  | cons x log ih => simp [alternatesFrom, ih, List.getLast?_cons, Bool.and_assoc]

@[simp] theorem lastReport_append (log : List Bool) (b : Bool) : lastReport (log ++ [b]) = b := by simp [lastReport]

/-- R310 (a) and (b): the log alternates, and `link_reported` is its last entry. -/
structure Reports (s : State) : Prop where
  alternates : alternatesFrom false s.notifyLog = true
  last : s.linkReported = lastReport s.notifyLog

/-- The state after a report (R300). -/
def State.reportedAs (s : State) (up : Bool) : State := { s with linkReported := up, notifyLog := s.notifyLog ++ [up] }

/-- Reporting the state that was not reported last keeps the log alternating (R301). -/
theorem Reports.reportedAs {s : State} (h : Reports s) {up : Bool} (hne : up ≠ s.linkReported) : Reports (s.reportedAs up) where
  alternates := by
    have fresh : (up != lastReport s.notifyLog) = true := bne_iff_ne.mpr (h.last ▸ hne)
    simp only [State.reportedAs, alternatesFrom_append, h.alternates, Bool.true_and]
    exact fresh
  last := (lastReport_append _ _).symm

/-! ## The invariant, in and outside a session -/

/-- LinkInv in a session. -/
structure LinkInside (s : State) : Prop where
  phase : s.initState = .initialized
  reports : Reports s
  manual : s.linkManual = true → s.linkReported = true

/-- The link is reported down and the override is off: LinkInv in whatever state init_state is. -/
structure LinkDown (s : State) : Prop where
  reports : Reports s
  down : s.linkReported = false
  manual : s.linkManual = false

theorem LinkInside.inv {s : State} (h : LinkInside s) : LinkInv s :=
  ⟨h.reports.alternates, h.reports.last, h.manual, fun hi => absurd h.phase hi⟩

theorem LinkDown.inv {s : State} (h : LinkDown s) : LinkInv s :=
  ⟨h.reports.alternates, h.reports.last, fun hm => absurd (h.manual.symm.trans hm) nofun, fun _ => ⟨h.manual, h.down⟩⟩

theorem LinkInv.reports {s : State} (h : LinkInv s) : Reports s := ⟨h.alternates, h.last⟩

theorem LinkInv.inside {s : State} (h : LinkInv s) (hi : s.initState = .initialized) : LinkInside s := ⟨hi, h.reports, h.manual⟩

theorem LinkInv.down {s : State} (h : LinkInv s) (hi : s.initState ≠ .initialized) : LinkDown s :=
  ⟨h.reports, (h.outside hi).2, (h.outside hi).1⟩

theorem linkInv_portFree : PortFree LinkInv := ⟨fun _ _ _ h => { h with }, fun _ _ h => { h with }⟩

/-! ## What each change leaves -/

/-- The log, the reported state and the override are the same. -/
structure SameLink (s t : State) : Prop where
  log : t.notifyLog = s.notifyLog
  reported : t.linkReported = s.linkReported
  manual : t.linkManual = s.linkManual

/-- The kinds that report or override (R300, R301, R308). -/
def reportKinds : List Kind := [.reported, .manual, .notify]

/-- The kinds that touch the log, the reported state or the override. -/
def linkKinds : List Kind := reportKinds ++ [.sessionStart, .sessionCleared]

section

variable {k : Kind} {s t : State}

theorem Reports.of_eq (h : Reports s) (hl : t.notifyLog = s.notifyLog) (hr : t.linkReported = s.linkReported) : Reports t :=
  ⟨hl ▸ h.alternates, hr.trans (hl ▸ h.last)⟩

theorem LinkInside.of_same (h : LinkInside s) (hs : SameLink s t) (hp : t.initState = s.initState) : LinkInside t :=
  ⟨hp.trans h.phase, h.reports.of_eq hs.log hs.reported, fun hm => hs.reported.trans (h.manual (hs.manual.symm.trans hm))⟩

theorem Atom.sameLink (hk : k ∉ linkKinds) (h : Atom k s t) : SameLink s t := by
  cases h with
  | reported | manual | notify | sessionStart | sessionCleared => exact absurd (of_decide_eq_true rfl) hk
  | _ => exact ⟨rfl, rfl, rfl⟩

theorem Atom.reports (hk : k ∉ linkKinds) (h : Atom k s t) (hs : Reports s) : Reports t :=
  hs.of_eq (h.sameLink hk).log (h.sameLink hk).reported

theorem Atom.linkInside (hk : k ∉ linkKinds ++ phaseKinds) (h : Atom k s t) (hs : LinkInside s) : LinkInside t := by
  simp only [List.mem_append, not_or] at hk
  exact hs.of_same (h.sameLink hk.1) (h.phase hk.2)

/-- The start and the clearing of a session put back what `LinkDown` has already. -/
theorem Atom.linkDown (hk : k ∉ reportKinds) (h : Atom k s t) (hs : LinkDown s) : LinkDown t := by
  have cleared : ∀ u : State, u.notifyLog = s.notifyLog → u.linkReported = false → u.linkManual = false → LinkDown u :=
    fun u hl hr hm => ⟨hs.reports.of_eq hl (hr.trans hs.down.symm), hr, hm⟩
  by_cases hl : k ∈ linkKinds
  · have session : k = .sessionStart ∨ k = .sessionCleared := by simpa [linkKinds, hk] using hl
    rcases session with rfl | rfl <;> cases h <;> exact cleared _ rfl rfl rfl
  · have same := h.sameLink hl
    exact cleared t same.log (same.reported.trans hs.down) (same.manual.trans hs.manual)

theorem Atom.linkInv (hk : k ∉ linkKinds ++ phaseKinds) (h : Atom k s t) (hs : LinkInv s) : LinkInv t := by
  by_cases hi : s.initState = .initialized
  · exact (h.linkInside hk (hs.inside hi)).inv
  · refine (h.linkDown (fun hr => hk ?_) (hs.down hi)).inv
    exact List.mem_append_left _ (List.mem_append_left _ hr)

end

theorem linkInside_agents {s t : State} (h : Chain agentKinds s t) (hs : LinkInside s) : LinkInside t :=
  Chain.lift (Chains.keeps LinkInside)
    (fun k _ _ hk _ ha => ha.linkInside (of_decide_eq_true (p := ∀ k ∈ agentKinds, k ∉ linkKinds ++ phaseKinds) rfl k hk)) h hs

theorem linkInside_of_on {b : Backend} {l : List Kind} (hl : ∀ k ∈ l, k ∉ linkKinds ++ phaseKinds) {m : M α} (h : Steps (On b l) m) :
    Kept (In b LinkInside) m := Kept.of_on (fun k hk _ _ ha => ha.linkInside (hl k hk)) h

/-! ## Reporting (R300, R301) -/

/-- A report: the new state and its log entry, then whatever the agents do at the boundary. -/
theorem report_inv {s t : State} {up : Bool} (h : (do modify fun s => { s with linkReported := up }; notify up : M Unit) s = .ok ((), t)) :
    Chain agentKinds (s.reportedAs up) t := by
  rw [modify_bind_apply] at h
  obtain ⟨u, hu, hc⟩ := micro_inv h
  cases hu
  exact hc

/-- Evaluate under every schedule: R301, then whatever the agents do at the boundary. -/
theorem evaluate_inv {s t : State} {up : Bool} (h : evaluate up s = .ok ((), t)) : Chain agentKinds (s.evaluated up) t := by
  unfold evaluate at h
  rw [get_bind_apply, branch_apply] at h
  unfold State.evaluated
  by_cases hm : s.linkManual = true ∧ up = false
  · rw [if_pos (by simp [hm])] at h
    cases h
    rw [if_pos (.inl hm)]
    exact .refl s
  rw [if_neg (by simpa using hm), branch_apply] at h
  by_cases hr : up = s.linkReported
  · rw [if_neg (by simp [hr])] at h
    cases h
    rw [if_pos (.inr hr)]
    exact .refl s
  · rw [if_pos (by simpa using hr)] at h
    rw [if_neg (by simp [hm, hr])]
    exact report_inv h

/-- Evaluate brings the override and the reported state into agreement, if they agreed or the link is up (R301, R308). -/
theorem linkInside_evaluated {s : State} {up : Bool} (hp : s.initState = .initialized) (hr : Reports s)
    (hm : s.linkManual = true → s.linkReported = true ∨ up = true) : LinkInside (s.evaluated up) := by
  unfold State.evaluated
  split
  · next hc =>
    refine ⟨hp, hr, fun h => (hm h).elim id fun hu => ?_⟩
    rcases hc with ⟨-, hd⟩ | he
    · exact absurd (hu.symm.trans hd) nofun
    · exact he ▸ hu
  · next hc =>
    obtain ⟨hs, hne⟩ := not_or.mp hc
    exact ⟨hp, hr.reportedAs hne, fun h => Bool.eq_true_of_not_eq_false fun hd => hs ⟨h, hd⟩⟩

theorem evaluate_linkInside (up : Bool) : Kept LinkInside (evaluate up) := fun _ _ _ h hs =>
  linkInside_agents (evaluate_inv h) (linkInside_evaluated hs.phase hs.reports fun hm => .inl (hs.manual hm))

/-! ## The monitor (R302, R305, R308) -/

theorem dmaPoll_linkInside : Kept (In .dma LinkInside) dmaPoll := by
  have hR := Kept.chains (P := In .dma LinkInside)
  have issue : ∀ f, Kept (In .dma LinkInside) (mdioIssue f) := fun f => linkInside_of_on (of_decide_eq_true rfl) (mdioIssue_steps f)
  have collect : Kept (In .dma LinkInside) mdioCollect := linkInside_of_on (of_decide_eq_true rfl) mdioCollect_steps
  have eval : ∀ up, Kept (In .dma LinkInside) (evaluate up) := fun up s a t h hs =>
    ⟨(evaluate_steps up s a t h).cfg ▸ hs.1, evaluate_linkInside up s a t h hs.2⟩
  have move : ∀ x, Kept (In .dma LinkInside) (setLmState x) := fun x => Steps.modifies fun _ h => ⟨h.1, h.2.of_same ⟨rfl, rfl, rfl⟩ rfl⟩
  have advance : ∀ x, ∀ issued : Bool, Kept (In .dma LinkInside) (if issued then setLmState x else pure ()) := fun x _ =>
    Steps.ite (fun _ => move x) fun _ => Steps.pure hR _
  refine Steps.get_bind' fun u => ?_
  cases u.dma.lmState with
  | idle => exact Steps.config_bind fun _ => Steps.bind hR (issue _) (advance _)
  | waitLink =>
    refine Steps.config_bind fun _ => Steps.bind hR collect fun r => ?_
    cases r with
    | none => exact Steps.pure hR _
    | some v =>
      refine Steps.bind hR (Steps.modifies fun _ h => ?_) fun _ => Steps.bind hR (issue _) (advance _)
      exact ⟨h.1, h.2.of_same ⟨rfl, rfl, rfl⟩ rfl⟩
  | waitStatus =>
    refine Steps.bind hR collect fun r => ?_
    cases r with
    | none => exact Steps.pure hR _
    | some v =>
      refine Steps.get_bind' fun w => Steps.bind hR (Steps.onlyIf hR fun _ => ?_) fun _ => Steps.bind hR (eval _) fun _ => move _
      exact Steps.modifies fun _ h => ⟨h.1, h.2.of_same ⟨rfl, rfl, rfl⟩ rfl⟩

theorem spiPoll_linkInside : Kept (In .spi LinkInside) spiPoll := by
  have hR := Kept.chains (P := In .spi LinkInside)
  refine Steps.bind hR (linkInside_of_on (of_decide_eq_true rfl) (spiReadByte_steps _ _)) fun v => ?_
  refine Steps.bind hR (Steps.onlyIf hR fun _ => Steps.modifies fun _ h => ⟨h.1, h.2.of_same ⟨rfl, rfl, rfl⟩ rfl⟩) fun _ => ?_
  exact fun s a t h hs => ⟨(evaluate_steps _ s a t h).cfg ▸ hs.1, evaluate_linkInside _ s a t h hs.2⟩

/-- The override is set before the link is reported up: only the whole operation keeps the invariant (R308). -/
theorem forceLink_linkInside : Kept LinkInside forceLink := by
  refine Ensures.bind (R := fun _ s => s.initState = .initialized ∧ Reports s)
    (Ensures.modifies fun _ h => ⟨h.phase, { h.reports with }⟩) fun _ => ?_
  exact fun _ _ _ h hs => linkInside_agents (evaluate_inv h) (linkInside_evaluated hs.1 hs.2 fun _ => .inr rfl)

/-- Behind the state gate the invariant is that of a session (R162). -/
theorem gated_linkInv {m : M Unit} (hm : Kept LinkInside m) : Kept LinkInv (gated (thenOk m)) := by
  refine Ensures.get_bind (Q := fun _ => LinkInv) fun u hu => Ensures.ite (fun hi => ?_) fun _ => ?_
  · have body : Kept LinkInside (thenOk m) := thenOk_steps Kept.chains hm
    exact body.ensures.mono (fun s hs => hs ▸ hu.inside hi) fun _ _ h => h.inv
  · exact Ensures.bind (R := fun _ => LinkInv) (Ensures.modifies fun s hs => hs ▸ hu) fun _ => Ensures.pure fun _ h => h

theorem pollOp_linkInv : Kept LinkInv pollOp := gated_linkInv (Kept.byBackend dmaPoll_linkInside spiPoll_linkInside)

/-! ## HAS_HARDWARE, INIT and DEINIT (R151, R153, R154, R156) -/

/-- What makes no report keeps the invariant, if a session is left as it is. -/
theorem linkInv_of_chain {l : List Kind} (hl : ∀ k ∈ reportKinds, k ∉ l) {m : M α} (hc : Steps (Chain l) m)
    (hin : ∀ s : State, s.initState = .initialized → ∃ a, m s = .ok (a, s)) : Kept LinkInv m := by
  intro s a t h hs
  by_cases hi : s.initState = .initialized
  · obtain ⟨b, hb⟩ := hin s hi
    cases hb.symm.trans h
    exact hs
  · exact (Kept.of_chain (fun k hk _ _ ha => ha.linkDown fun hr => hl k hr hk) hc s a t h (hs.down hi)).inv

theorem hasHardware_linkInv : Kept LinkInv hasHardware :=
  linkInv_of_chain (of_decide_eq_true rfl) hasHardware_steps fun _ hi => ⟨_, hasHardware_past (by simp [hi])⟩

theorem initialise_linkInv (m : MacAddr) : Kept LinkInv (initialise m) :=
  linkInv_of_chain (of_decide_eq_true rfl) (initialise_steps m) fun _ hi => ⟨_, initialise_initialized hi m⟩

/-- R310 (a), (b) with the link reported down; the override may still be set. -/
structure ReportedDown (s : State) : Prop where
  reports : Reports s
  down : s.linkReported = false

theorem reportDown_reportedDown : Ensures Reports reportDown fun _ => ReportedDown := by
  have agents : ∀ k ∈ agentKinds, k ∉ linkKinds := of_decide_eq_true rfl
  refine Ensures.get_bind fun u hu => Ensures.ite (fun hr s a t h hs => ?_) fun hr => Ensures.pure fun s hs => ?_
  · subst hs
    have up : Reports (s.reportedAs false) := hu.reportedAs (by simp [hr])
    refine Chain.lift (Chains.keeps ReportedDown) (fun k _ _ hk _ ha hd => ?_) (report_inv h) ⟨up, rfl⟩
    exact ⟨ha.reports (agents k hk) hd.reports, (ha.sameLink (agents k hk)).reported.trans hd.down⟩
  · subst hs
    exact ⟨hu, by simpa using hr⟩

theorem endSession_reportedDown : Ensures Reports endSession fun _ => ReportedDown := by
  have shut : Kept Reports (byBackend dmaShutDown spiShutDown) := Kept.byBackend
    (Kept.of_on (fun k hk _ _ ha => ha.reports (of_decide_eq_true (p := ∀ k ∈ dmaShutDownKinds, k ∉ linkKinds) rfl k hk)) dmaShutDown_steps)
    (Kept.of_on (fun k hk _ _ ha => ha.reports (of_decide_eq_true (p := ∀ k ∈ busKinds, k ∉ linkKinds) rfl k hk)) spiShutDown_steps)
  refine Ensures.bind shut.ensures fun _ => Ensures.bind reportDown_reportedDown fun _ => ?_
  exact Ensures.modifies fun _ h => ⟨{ h.reports with }, h.down⟩

theorem ReportedDown.walkedBack {s : State} (h : ReportedDown s) : LinkDown s.walkedBack := by
  have log : s.walkedBack.notifyLog = s.notifyLog := by simp [State.walkedBack]
  exact ⟨h.reports.of_eq log h.down.symm, rfl, rfl⟩

theorem deinitialise_linkInv : Kept LinkInv deinitialise := by
  intro s a t h hs
  rw [deinitialise_eq] at h
  obtain ⟨_, u, h1, h2⟩ := bind_ok_inv h
  cases h2
  have ended : ReportedDown u := by
    by_cases hi : s.initState = .initialized
    · rw [onlyIf_pos hi] at h1
      exact endSession_reportedDown s _ u h1 hs.reports
    · rw [onlyIf_neg hi] at h1
      cases h1
      exact ⟨hs.reports, (hs.down hi).down⟩
  exact ended.walkedBack.inv

/-! ## Every instruction -/

theorem exec_linkInv {i : Instr} {s t : State} (h : exec i s = .next t) (hs : LinkInv s) : LinkInv t := by
  have hp := linkInv_portFree
  have hR := Kept.chains (P := LinkInv)
  have kinds : (∀ k ∈ instrKinds i, k ∉ linkKinds ++ phaseKinds) → LinkInv t := fun hk =>
    hp.exec_of_kinds (fun k hk' _ _ ha => ha.linkInv (hk k hk')) h hs
  cases i with
  | hasHardware => exact hp.command (Steps.bind hR hasHardware_linkInv fun _ => Steps.pure hR _) h hs
  | init m => exact hp.command (Steps.bind hR (initialise_linkInv m) fun _ => Steps.pure hR _) h hs
  | pipeInit m =>
    refine hp.command (Steps.bind hR (Steps.bind hR hasHardware_linkInv fun ok => ?_) fun _ => Steps.pure hR _) h hs
    exact Steps.ite (fun _ => initialise_linkInv m) fun _ => Steps.pure hR _
  | deinit => exact hp.command (thenOk_steps hR deinitialise_linkInv) h hs
  | poll => exact hp.command pollOp_linkInv h hs
  | pipePollLink => exact hp.command pollOp_linkInv h hs
  | forceLinkUp => exact hp.command (gated_linkInv forceLink_linkInside) h hs
  | _ => exact kinds (of_decide_eq_true rfl)

/-- Settles O9: only Evaluate, FORCE_LINK_UP and DEINIT report, and each of them logs the state it reports once; a session starts and ends
with the link reported down. -/
theorem linkReportsKept : Obligations.LinkReportsKept := by
  intro s t hs h
  have agents : ∀ k ∈ agentKinds, k ∉ linkKinds ++ phaseKinds := of_decide_eq_true rfl
  exact linkInv_portFree.step (fun k hk _ _ ha => ha.linkInv (agents k hk)) (fun _ _ _ => exec_linkInv) h hs

end Sys2Proof.Machine
end

section
/-! SUPPORT. POLL and FORCE_LINK_UP in a quiet session (R181, R183, R301 to R308). -/

namespace Sys2Proof.Machine

/-! ## Evaluation -/

theorem State.Quiet.notified {s : State} (h : s.Quiet) (n : List Bool) (r : Bool) : Calm { s with linkReported := r, notifyLog := n } :=
  ⟨h.1, .inl h.2⟩

/-- Evaluate does not look at RES_BUF (R301). -/
theorem State.evaluated_respond (s : State) (up : Bool) (r : Result) : (s.evaluated up).respond r = (s.respond r).evaluated up :=
  apply_ite (fun u : State => u.respond r) _ _ _

/-- Evaluate does not look at the DMA build's own state (R301). -/
theorem State.evaluated_withDma (s : State) (up : Bool) (d : DmaState) : (s.evaluated up).withDma d = (s.withDma d).evaluated up :=
  apply_ite (fun u : State => u.withDma d) _ _ _

@[simp] theorem State.evaluated_dma (s : State) (up : Bool) : (s.evaluated up).dma = s.dma := by
  unfold State.evaluated
  split <;> rfl

theorem State.evaluated_up (s : State) : s.evaluated true =
    { s with linkReported := true, notifyLog := if s.linkReported then s.notifyLog else s.notifyLog ++ [true] } := by
  unfold State.evaluated
  cases hr : s.linkReported with
  | true => rw [if_pos (.inr rfl), if_pos rfl, ← hr]
  | false => rw [if_neg (by simp), if_neg nofun]

/-! ## POLL -/

/-- In a session POLL and PIPE_POLL_LINK answer OK after one pass of the build's monitor (R162, R302, R305). -/
theorem exec_poll_ok {s t : State} {i : Instr} (hi : i = .poll ∨ i = .pipePollLink) (hs : s.initState = .initialized)
    (h : byBackend dmaPoll spiPoll s = .ok ((), t)) : exec i s = .next (t.respond (.plain .ok)) := by
  have run : pollOp s = .ok (.plain .ok, t) := (gated_inside hs).trans (thenOk_ok h)
  rcases hi with rfl | rfl <;> exact runCommand_ok run

theorem mmfrData_getLsbD (f : U32) {k : Nat} (hk : k < 16) : (mmfrData f).getLsbD k = f.getLsbD k := by
  simp [mmfrData, hk]

theorem dmaLinkInfo_mmfrData (f : U32) :
    dmaLinkInfo (mmfrData f) = ⟨if f.getLsbD 1 then 10 else 100, f.getLsbD 2, f.getLsbD 4, f.getLsbD 14⟩ := by
  simp (disch := decide) only [dmaLinkInfo, mmfrData_getLsbD]

theorem onlyIf_writeLinkInfo (up : Bool) (r : LinkRecord) (s : State) :
    onlyIf (up = true) (writeLinkInfo r) s = .ok ((), { s with linkInfo := if up then r else s.linkInfo }) := by cases up <;> rfl

/-- LINKREG has been read: the link bit is kept, and the read of STSREG issued (R302). -/
theorem dmaPoll_collectsLink {s : State} (hq : s.Quiet) (hst : s.dma.lmState = .waitLink) (hbusy : s.dma.mdioBusy = true)
    (hd : s.dma.regs.eir.getLsbD 1 = true) :
    dmaPoll s = .ok ((), { s with dma := { s.dma with
      lmState := .waitStatus, lmLink := s.dma.regs.mmfr.getLsbD 2, mdioBusy := true
      regs := { s.dma.regs with eir := w1c32 s.dma.regs.eir 0x00000002, mmfr := mmfrRead s.cfg 0x10 } } }) := by
  unfold dmaPoll
  rw [get_bind_apply, hst]
  show pollWaitLink s = _
  unfold pollWaitLink
  rw [config_bind_apply, bind_ok (mdioCollect_done hq.calm hbusy hd)]
  dsimp only
  rw [modifyDma_bind_apply, mmfrData_getLsbD _ (by decide)]
  refine (bind_ok (mdioIssue_quiet (by exact ⟨hq.1, hq.2⟩) rfl (mmfrRead_legal _ _))).trans ?_
  simp only [State.mdioIssued, State.mdioCollected, w1c32_idem]
  rfl

/-- STSREG has been read: `link_info` is written if the link is up, then the link is evaluated (R301 to R303). -/
theorem dmaPoll_collectsStatus {s : State} (hq : s.Quiet) (hst : s.dma.lmState = .waitStatus) (hbusy : s.dma.mdioBusy = true)
    (hd : s.dma.regs.eir.getLsbD 1 = true) :
    dmaPoll s = .ok ((), State.evaluated
      { s with
        linkInfo := if s.dma.lmLink then dmaLinkInfo (mmfrData s.dma.regs.mmfr) else s.linkInfo
        dma := { s.dma with
          lmState := .idle, mdioBusy := false, regs := { s.dma.regs with eir := w1c32 s.dma.regs.eir 0x00000002 } } }
      s.dma.lmLink) := by
  unfold dmaPoll
  rw [get_bind_apply, hst]
  show pollWaitStatus s = _
  unfold pollWaitStatus
  rw [bind_ok (mdioCollect_done hq.calm hbusy hd)]
  dsimp only
  rw [get_bind_apply, bind_ok (onlyIf_writeLinkInfo _ _ _), bind_ok (evaluate_ok (State.Quiet.notified (by exact ⟨hq.1, hq.2⟩)))]
  unfold setLmState
  rw [modifyDma_apply, State.evaluated_dma]
  show Except.ok ((), State.withDma (State.evaluated _ _) _) = _
  rw [State.evaluated_withDma]
  rfl

/-- Settles O48: one pass from each of the monitor's three states. -/
theorem dmaPollMakesOneTransition : Obligations.DmaPollMakesOneTransition := by
  intro s i hq ⟨hb, hi⟩ hp
  have poll : ∀ {t}, dmaPoll s = .ok ((), t) → exec i s = .next (t.respond (.plain .ok)) := fun h =>
    exec_poll_ok hp hi ((byBackend_dma hb).trans h)
  refine ⟨fun hst => (poll (dmaPoll_idle hq hst)).trans ?_, fun hst => ?_, fun hst => ?_⟩
  · split <;> rfl
  · split
    · next hd =>
      obtain ⟨hbusy, hdone⟩ := Bool.and_eq_true_iff.mp hd
      exact poll (dmaPoll_collectsLink hq hst hbusy hdone)
    · next hd => exact poll (dmaPoll_waits hq (by simp [hst]) (by simpa using hd))
  · split
    · next hd =>
      obtain ⟨hbusy, hdone⟩ := Bool.and_eq_true_iff.mp hd
      refine (poll (dmaPoll_collectsStatus hq hst hbusy hdone)).trans ?_
      rw [dmaLinkInfo_mmfrData]
      exact congrArg _ (State.evaluated_respond _ _ _)
    · next hd => exact poll (dmaPoll_waits hq (by simp [hst]) (by simpa using hd))

/-- Settles O49: the read of PHYCFGR, then Evaluate. -/
theorem spiPollReadsLink : Obligations.SpiPollReadsLink := by
  intro s i hq ⟨hb, hi⟩ hp hpoll
  refine (exec_poll_ok hpoll hi ((byBackend_spi hb).trans (spiPoll_ok (hq.stillSpi hb hp)))).trans ?_
  exact congrArg _ (State.evaluated_respond _ _ _)

/-! ## FORCE_LINK_UP -/

/-- Settles O50: the override is set, then the link evaluated as up. -/
theorem forceLinkUpReportsOnce : Obligations.ForceLinkUpReportsOnce := by
  intro s hq hi
  have run : forceLink s = .ok ((), State.evaluated { s with linkManual := true } true) := by
    unfold forceLink
    rw [modify_bind_apply]
    exact evaluate_ok (State.Quiet.notified (s := { s with linkManual := true }) ⟨hq.1, hq.2⟩)
  refine (runCommand_ok ((gated_inside hi).trans (thenOk_ok run))).trans ?_
  rw [State.evaluated_up]
  rfl

end Sys2Proof.Machine
end
